-- ==== Sys2Proof/Word.lean ====
section
/-! DEFINITION. The words of the LK-2470's lines: the byte of the control line and the 10-bit sample of the picture line. -/

namespace Sys2Proof

/-- One byte of the control line or of a record (R180, R199). -/
abbrev Byte := BitVec 8

/-- One picture sample, a 10-bit value 0..1023 (00_scope, "Picture terms"; R31). -/
abbrev Sample := BitVec 10

/-- The byte that carries the number `n`, taken modulo 256. -/
abbrev byteOf (n : Nat) : Byte := BitVec.ofNat 8 n

end Sys2Proof
end

