-- ==== Sys2Proof/Syntax.lean ====
section
/-! DEFINITION. The commands of the part: one constructor of `Instr` per row of spec/opcode_table.json, with the operands
the spec gives the step, and the small types those operands need. -/

namespace Sys2Proof

/-- Field parity: field A carries the even frame lines, field B the odd ones (00_scope, "Picture terms"). -/
inductive Field where
  | a
  | b
deriving DecidableEq, Repr

/-- The side signals sampled at a FIELD START: any set of the three (R31). -/
structure SideSignals where
  headFault : Bool
  trackingLow : Bool
  noSignal : Bool
deriving DecidableEq, Repr

/-- The samples of one band, 16 lines of 1440, as the list of those positions whose sample differs from black.
Position `1440 * line + k` holds sample `k` of line `line`; an unlisted position reads as black (see `Machine/Image.lean`).
The canonical form has its positions strictly rising, below 23040, and lists no black sample. -/
abbrev BandImage := List (Nat × Sample)

/-- The order in which the four blocks that receive a field boundary take it: R178 says each takes it as an event of its own,
with no order among them, so the order is a free operand of the three boundary-making commands (log entry 3).
`Machine/Timebase.lean` gives the 24 orders. -/
abbrev BoundaryOrder := Fin 24

/-- The commands: one constructor per row of spec/opcode_table.json.
The request rows carry the request's tag and its payload bytes (or, where the row's own name fixes the payload, what is left of
it); they stand for the arrival at the receive queue of a whole request of that kind (R183; log entry 1).
The rows for acts the part takes by itself (LOCK_LOSS, VERIFY_TIMEOUT, DRAIN_COMPLETE, CLOSE_COMPLETE, RESET_TAKES_EFFECT)
carry nothing (log entry 2). -/
inductive Instr where
  /-- POWER_ON (R176). -/
  | powerOn
  /-- FIELD_START (R31, R39): field parity and the side signals present for the field. -/
  | fieldStart (parity : Field) (signals : SideSignals)
  /-- BAND (R31, R41): band index 0..255, integrity count 0..255, and the 16 lines of samples. -/
  | band (index count : Byte) (samples : BandImage)
  /-- FIELD_END (R42). -/
  | fieldEnd
  /-- REFERENCE_PULSE (R177): the pulse's arrival time, in 1/120 ms since the last power-on or RESET (log entry 4). -/
  | referencePulse (time : Nat) (order : BoundaryOrder)
  /-- ENTER_FREE_RUN (R178). -/
  | enterFreeRun (order : BoundaryOrder)
  /-- GENERATED_BOUNDARY (R178). -/
  | generatedBoundary (order : BoundaryOrder)
  /-- LOCK_LOSS (R45). -/
  | lockLoss
  /-- WRITE_SLOT (R124). -/
  | writeSlot
  /-- VERIFY_TIMEOUT (R146). -/
  | verifyTimeout
  /-- PAUSE (R123). -/
  | pause
  /-- RESUME (R123). -/
  | resume
  /-- WRITE_END (R136). -/
  | writeEnd
  /-- OUTCOME (R147, R202): a write tag and a result byte (GOOD 1, MARGINAL 2, BAD 3). -/
  | outcome (tag : BitVec 16) (result : Byte)
  /-- MEASURE_DONE (R106). -/
  | measureDone
  /-- BAND_DONE (R107). -/
  | bandDone
  /-- DRAIN_COMPLETE (R171). -/
  | drainComplete
  /-- CLOSE_COMPLETE (R172). -/
  | closeComplete
  /-- RECEIVED_MESSAGE (R182): bytes arriving on the control line, with no gap of 2 ms inside a message. -/
  | receivedMessage (bytes : List Byte)
  /-- GAP_DISCARD (R182): 2 ms pass within a message. -/
  | gapDiscard
  /-- TRANSMISSION_END (R184). -/
  | transmissionEnd
  /-- CONFIGURE (R174). -/
  | configure (tag : Byte) (payload : List Byte)
  /-- LOAD_RULE (R57). -/
  | loadRule (tag : Byte) (payload : List Byte)
  /-- LOAD_ENTRY (R61). -/
  | loadEntry (tag : Byte) (payload : List Byte)
  /-- ADJUST (R84). -/
  | adjust (tag : Byte) (payload : List Byte)
  /-- DECLARE_SPARE (R167). -/
  | declareSpare (tag : Byte) (payload : List Byte)
  /-- OPEN_TITLE (R167). -/
  | openTitle (tag : Byte) (payload : List Byte)
  /-- START (R169). -/
  | start (tag : Byte) (payload : List Byte)
  /-- STOP (R170). -/
  | stop (tag : Byte) (payload : List Byte)
  /-- ABORT (R173). -/
  | abort (tag : Byte) (payload : List Byte)
  /-- CUE (R131). -/
  | cue (tag : Byte) (payload : List Byte)
  /-- READ_REPORT (R193). -/
  | readReport (tag : Byte) (payload : List Byte)
  /-- ACK_ALERTS (R195). -/
  | ackAlerts (tag : Byte) (payload : List Byte)
  /-- SECTION_RESET_INGEST (R47, R189): SECTION RESET naming INGEST. -/
  | sectionResetIngest (tag : Byte)
  /-- SECTION_RESET_SCHEDULER (R100, R189): SECTION RESET naming SCHEDULER. -/
  | sectionResetScheduler (tag : Byte)
  /-- SECTION_RESET_RECORDER (R140, R189): SECTION RESET naming RECORDER. -/
  | sectionResetRecorder (tag : Byte)
  /-- QUERY_STATUS (R175, R188): QUERY naming STATUS, with the part number. -/
  | queryStatus (tag parameter : Byte)
  /-- QUERY_TIERS (R103, R188): QUERY naming TIERS, with the part number. -/
  | queryTiers (tag parameter : Byte)
  /-- QUERY_SPARE (R165, R188): QUERY naming SPARE, with the first relocation table index. -/
  | querySpare (tag parameter : Byte)
  /-- RESET (R189). -/
  | reset (tag : Byte) (payload : List Byte)
  /-- RESET_TAKES_EFFECT (R176). -/
  | resetTakesEffect
  /-- UNASSIGNED_REQUEST (R185): a request of a kind no request is assigned. -/
  | unassignedRequest (kind tag : Byte) (payload : List Byte)
deriving DecidableEq, Repr

end Sys2Proof
end

