-- ==== Sys2Proof/Machine/State.lean ====
section
/-! DEFINITION. State: every piece of state the spec gives the twelve blocks, as plain data, and the machine after power-on.
The types stand block by block, in the order of the spec's chapters. -/

namespace Sys2Proof.Machine

/-! ### Names and small values -/

/-- One value for each field of a frame. -/
structure PerField (α : Type) where
  a : α
  b : α
deriving DecidableEq, Repr

/-- Slot states (1.3). -/
inductive SlotState where
  | free | filling | repairing | ready | sent | relocating | retained
deriving DecidableEq, Repr

/-- Treatment of a REPAIRED band: its kind, with the motion class (none: "none") when the kind is ADAPTIVE (R2, R119). -/
inductive Treatment where
  | temporal | spatial | adaptive (motion : Option (Fin 4)) | hold
deriving DecidableEq, Repr

/-- Band states (1.2); a REPAIRED band carries its treatment. -/
inductive BandState where
  | clean | damaged | repaired (t : Treatment) | held | passed
deriving DecidableEq, Repr

/-- A band record (R2): integrity count and band state. -/
structure BandRecord where
  count : Byte
  state : BandState
deriving DecidableEq, Repr

/-- Write kinds (R122). -/
inductive WriteKind where
  | original | gapFill | relocated | index
deriving DecidableEq, Repr

/-- A frame's outcome at retirement (R1). -/
inductive FrameOutcome where
  | good | marginal | lost | unverified
deriving DecidableEq, Repr

/-- Where a GAP FILL draws its content (R130). -/
inductive FillSource where
  | anchor (frame : Nat)
  | black
deriving DecidableEq, Repr

/-! ### The Frame Window (chapter 1) -/

/-- The slot record of R1; an absent field is `none`. -/
structure SlotRecord where
  state : SlotState
  frame : Option Nat
  signals : PerField (Option SideSignals)
  bands : PerField (Vector (Option BandRecord) 18)
  age : Option Nat
  refs : Nat
  heldP : Option (Fin 32)
  heldN : Option (Fin 32)
  jobsOutstanding : Nat
  tag : Option Nat
  address : Option Nat
  kind : Option WriteKind
  streaming : Bool
  attempts : Nat
  forfeited : Bool
  cue : Option Byte
  outcome : Option FrameOutcome
deriving DecidableEq, Repr

/-- A frame buffer: two fields of 18 bands (R1). -/
abbrev FrameBuffer := PerField (Vector BandImage 18)

/-- A run of the gap list (R24). -/
structure GapRun where
  first : Nat
  length : Nat
deriving DecidableEq, Repr

/-! ### Picture Ingest (chapter 2) -/

/-- Ingest states. -/
inductive IngestState where
  | stopped | acquire | locked
deriving DecidableEq, Repr

/-- The frame under assembly (R32); `slot` is `none` for DROPPED. -/
structure Assembly where
  number : Nat
  slot : Option (Fin 32)
  begunA : Bool
  begunB : Bool
  openField : Option Field
deriving DecidableEq, Repr

/-- The ingest record (R32) with its four tallies (R49). -/
structure Ingest where
  state : IngestState
  accepting : Bool
  next : Option Nat
  last : Option Nat
  discardPending : Bool
  watch : Nat
  frame : Option Assembly
  accepted : Nat
  dropped : Nat
  fieldsDiscarded : Nat
  bandsIgnored : Nat
deriving DecidableEq, Repr

/-! ### Damage classification (chapter 3) -/

/-- Field selector of a rule (R52). -/
inductive Selector where
  | fieldA | fieldB | either
deriving DecidableEq, Repr

/-- Test of a rule (R52). -/
inductive RuleTest where
  | any | all | none
deriving DecidableEq, Repr

/-- A rule (R52); bit b of the mask stands for band index b. -/
structure Rule where
  selector : Selector
  mask : BitVec 18
  test : RuleTest
  requirement : SideSignals
  tier : Fin 8
  chain : Fin 32
deriving DecidableEq, Repr

/-- The classifier: rule slots (R52) and match counts (R58). -/
structure Classifier where
  rules : Vector (Option Rule) 16
  counts : Vector Nat 16
  defaultCount : Nat
deriving DecidableEq, Repr

/-! ### Strategies (chapter 4) -/

/-- Strategy kinds (R60). -/
inductive StrategyKind where
  | temporal | spatial | adaptive | hold | pass
deriving DecidableEq, Repr

/-- A strategy entry (R60); `next` is `none` for END. -/
structure StrategyEntry where
  kind : StrategyKind
  next : Option (Fin 32)
  wait : Bool
  limit : Nat
deriving DecidableEq, Repr

/-- The Strategy Table (R60) with its 35 walk counts (R76). -/
structure Strategy where
  entries : Vector StrategyEntry 32
  taken : Vector Nat 32
  passedAtEnd : Nat
  passedAtLimit : Nat
  deferrals : Nat
deriving DecidableEq, Repr

/-! ### Repair scheduling (chapter 5) -/

/-- Job states (R78). -/
inductive JobState where
  | pending | waitingNext | active | suspended
deriving DecidableEq, Repr

/-- A job record (R78); `cursor` is `none` for PAST END. -/
structure Job where
  slot : Fin 32
  field : Field
  tier : Fin 8
  chain : Fin 32
  damaged : Nat
  creation : Nat
  state : JobState
  cursor : Option (Fin 18)
  held : Bool
  settled : Nat
deriving DecidableEq, Repr

/-- Tier modes (R82). -/
inductive TierMode where
  | fixed | rotating
deriving DecidableEq, Repr

/-- The Scheduler. `jobs` holds the job records in use; the tier queues (R80) are its PENDING and WAITING NEXT jobs by tier and
age, the in-service stack (R86) its ACTIVE and SUSPENDED jobs by rank. Bit t of the mask set stands for tier t. -/
structure Scheduler where
  bandBudget : Nat
  tierMode : TierMode
  bottom : Fin 8
  maskSet : Byte
  jobs : List Job
  creation : Nat
  counter : Nat
  started : Nat
  owed : Bool
  created : Nat
  completed : Nat
  abandoned : Nat
  removed : Nat
  bandsStarted : Nat
  bandsCut : Nat
deriving DecidableEq, Repr

/-! ### Band reconstruction (chapter 6) -/

/-- The kind of a band operation (R104). -/
inductive RepairKind where
  | temporal | spatial | adaptive | hold
deriving DecidableEq, Repr

/-- A set of the candidates P, N and S (R63). -/
structure Candidates where
  p : Bool
  n : Bool
  s : Bool
deriving DecidableEq, Repr

/-- Phases of a band operation (R104). -/
inductive Phase where
  | measure | blend
deriving DecidableEq, Repr

/-- A weight set (R116). -/
structure Weights where
  p : Nat
  n : Nat
  s : Nat
deriving DecidableEq, Repr

/-- The operation record and the result store (R104). -/
structure Operation where
  slot : Fin 32
  field : Field
  band : Fin 18
  kind : RepairKind
  usable : Candidates
  phase : Phase
  m : Option Nat
  motion : Option (Fin 4)
  weights : Option Weights
  conditioned : Bool
  result : BandImage
deriving DecidableEq, Repr

/-- The ten counts of the unit (R120). -/
structure UnitCounts where
  temporal : Nat
  spatial : Nat
  hold : Nat
  adaptive : Nat
  class0 : Nat
  class1 : Nat
  class2 : Nat
  class3 : Nat
  classNone : Nat
  conditioned : Nat
deriving DecidableEq, Repr

/-- The Band Reconstruction Unit: IDLE is `none`. -/
structure RepairUnit where
  op : Option Operation
  counts : UnitCounts
deriving DecidableEq, Repr

/-! ### Recorder Feed (chapter 7) -/

/-- Recorder states (R123). -/
inductive RecorderState where
  | waiting | writing | paused
deriving DecidableEq, Repr

/-- Which block of the index plan a write or an entry stands for (R144). -/
structure IndexMark where
  number : Nat
  rewrite : Bool
deriving DecidableEq, Repr

/-- The write in flight (R122), with the index block's number and rewrite mark for an INDEX write (R145). -/
structure Flight where
  kind : WriteKind
  tag : Nat
  address : Nat
  frame : Option Nat
  slot : Option (Fin 32)
  cue : Option Byte
  fill : Option FillSource
  index : Option IndexMark
deriving DecidableEq, Repr

/-- The Feed's tallies (R142). -/
structure FeedTallies where
  slotsTaken : Nat
  idleSlots : Nat
  overlapping : Nat
  original : Nat
  forcedOriginal : Nat
  forcedCommits : Nat
  gapFills : Nat
  relocations : Nat
  refused : Nat
  indexWrites : Nat
  cancels : Nat
deriving DecidableEq, Repr

/-- The Recorder Feed's record (R122). -/
structure Feed where
  state : RecorderState
  pausePending : Bool
  h : Option Nat
  tagCounter : Nat
  pendingCue : Option Byte
  flight : Option Flight
  tallies : FeedTallies
deriving DecidableEq, Repr

/-- One band's place in a frame header or report: CLEAN, the treatment of a REPAIRED band, HELD, PASSED or FILL (R132). -/
inductive HeaderTreatment where
  | clean | repaired (t : Treatment) | held | passed | fill
deriving DecidableEq, Repr

/-- A band treatment with the band's integrity count (Table 11-9). -/
structure HeaderBand where
  treatment : HeaderTreatment
  count : Byte
deriving DecidableEq, Repr

/-- The frame header (R132), by its named fields. -/
structure FrameHeader where
  title : Nat
  frame : Nat
  kind : WriteKind
  attempt : Nat
  cue : Option Byte
  fill : Option FillSource
  signals : PerField SideSignals
  bandsPerField : Nat
  treatments : PerField (List HeaderBand)
deriving DecidableEq, Repr

/-- An entry of the relocation table (R157). -/
structure RelocationEntry where
  original : Nat
  relocated : Nat
  frame : Nat
  attempt : Nat
deriving DecidableEq, Repr

/-- The content of an index block (R159, Table 11-10). -/
structure IndexBlock where
  title : Nat
  number : Nat
  blocks : Nat
  rewrite : Bool
  entries : List RelocationEntry
deriving DecidableEq, Repr

/-- The content of a WRITE (R202): a frame block, its header with the bands of both fields, or an index block. -/
inductive BlockContent where
  | frameBlock (header : FrameHeader) (bands : PerField (List BandImage))
  | indexBlock (block : IndexBlock)
deriving DecidableEq, Repr

/-- A message on the recorder line, part to burner (R121, R202). -/
inductive RecorderMessage where
  | write (tag address : Nat) (content : BlockContent)
  | idleSlot
  | cancel (tag : Nat)
deriving DecidableEq, Repr

/-! ### Verification and spare space (chapter 8) -/

/-- The cause of a failure (R148). -/
inductive FailCause where
  | bad | timeout | marginal
deriving DecidableEq, Repr

/-- A pending verify entry (R144). -/
structure PendingEntry where
  tag : Nat
  kind : WriteKind
  address : Nat
  frame : Option Nat
  slot : Option (Fin 32)
  forfeited : Bool
  copy : Option SlotRecord
  fill : Option FillSource
  cue : Option Byte
  index : Option IndexMark
  age : Nat
deriving DecidableEq, Repr

/-- An entry of the relocation queue (R153). -/
structure QueueEntry where
  slot : Fin 32
  frame : Nat
  cause : FailCause
deriving DecidableEq, Repr

/-- The Verify Tracker: pending verify list oldest first (R144), relocation queue (R153), tallies (R164). -/
structure Verify where
  entries : List PendingEntry
  queue : List QueueEntry
  good : Nat
  marginal : Nat
  lost : Nat
  unverified : Nat
  timeouts : Nat
  discarded : Nat
  queued : Nat
deriving DecidableEq, Repr

/-- The spare region and its pointers (R155). `down` is an integer: its range begins at S lo - 1. -/
structure Region where
  lo : Nat
  hi : Nat
  up : Nat
  down : Int
deriving DecidableEq, Repr

/-- States of a block of the index plan (R159). -/
inductive PlanState where
  | toWrite | written | done | abandoned
deriving DecidableEq, Repr

/-- A block of the index plan's write list (R159, R160). -/
structure PlanBlock where
  mark : IndexMark
  state : PlanState
  tag : Option Nat
  address : Option Nat
deriving DecidableEq, Repr

/-- The Spare Allocator (R155) with its tallies (R164). -/
structure Spare where
  region : Option Region
  inFlight : Nat
  table : List RelocationEntry
  plan : Option (List PlanBlock)
  grants : Nat
  refusals : Nat
  indexWrites : Nat
  indexRewrites : Nat
  indexFailed : Nat
deriving DecidableEq, Repr

/-! ### Title control and timebase (chapter 9) -/

/-- Title states (R166). -/
inductive TitleState where
  | idle | armed | running | draining | closing
deriving DecidableEq, Repr

/-- The title declaration (R166). -/
structure TitleDeclaration where
  number : Nat
  start : Nat
  capacity : Nat
  first : Nat
deriving DecidableEq, Repr

/-- The title record (R166); the spare declaration is the allocator's region (R155). -/
structure Title where
  state : TitleState
  declaration : Option TitleDeclaration
deriving DecidableEq, Repr

/-- Picture formats. -/
inductive Format where
  | f25 | f30
deriving DecidableEq, Repr

/-- Marginal policy (R148). -/
inductive MarginalPolicy where
  | accept | relocate
deriving DecidableEq, Repr

/-- Pressure policy (R8, R9). -/
inductive PressurePolicy where
  | protectDisc | protectSource
deriving DecidableEq, Repr

/-- The settings of R174, but for band budget, tier mode, bottom tier and mask set, which the Scheduler holds (R174, R175). -/
structure Settings where
  format : Format
  threshold : Nat
  commitLag : Nat
  verifyTimeout : Nat
  attempts : Nat
  marginal : MarginalPolicy
  pressure : PressurePolicy
  t1 : Nat
  t2 : Nat
  t3 : Nat
  weights : Vector Weights 4
deriving DecidableEq, Repr

/-- Timebase modes (R177). -/
inductive TimebaseMode where
  | synced | freeRun
deriving DecidableEq, Repr

/-- The field timebase (R177, R178). Times are in 1/120 ms since the last power-on or RESET. `boundaryMade` says whether a
boundary has been made since then; `period` is the nominal period read at the last boundary (R178). -/
structure Timebase where
  mode : TimebaseMode
  last : Nat
  boundaryMade : Bool
  period : Nat
  ignored : Nat
deriving DecidableEq, Repr

/-! ### Control link, notices and reports (chapter 10) -/

/-- A band entry of a report (R191). -/
structure ReportBand where
  field : Field
  band : Nat
  count : Byte
  treatment : HeaderTreatment
deriving DecidableEq, Repr

/-- A repair report (R191). -/
structure Report where
  title : Nat
  frame : Nat
  kind : WriteKind
  address : Nat
  outcome : FrameOutcome
  relocations : Nat
  forfeited : Bool
  signals : PerField SideSignals
  cue : Option Byte
  fill : Option FillSource
  bands : List ReportBand
deriving DecidableEq, Repr

/-- A set of the five conditions, or a truth for each (R194). -/
structure Conditions where
  windowLow : Bool
  spareLow : Bool
  recorderPaused : Bool
  ingestUnlocked : Bool
  referenceFreeRun : Bool
deriving DecidableEq, Repr

/-- A set of the six alerts (R195). -/
structure Alerts where
  frameLost : Bool
  sourceGap : Bool
  spareExhausted : Bool
  reportsMissed : Bool
  indexFailed : Bool
  titleFull : Bool
deriving DecidableEq, Repr

/-- The title event TITLE CLOSED with its title number and ten totals (R172, R196). -/
structure TitleEvent where
  title : Nat
  accepted : Nat
  dropped : Nat
  good : Nat
  marginal : Nat
  lost : Nat
  unverified : Nat
  grants : Nat
  indexWrites : Nat
  indexRewrites : Nat
  indexFailed : Nat
deriving DecidableEq, Repr

/-- The Report Unit (R192, R194, R195, R196, R197). -/
structure ReportUnit where
  done : List Report
  missed : Nat
  added : Nat
  truths : Conditions
  reported : Conditions
  alerts : Alerts
  events : List TitleEvent
deriving DecidableEq, Repr

/-- What a composed notice carries (R197). -/
structure Notice where
  count : Nat
  carried : Conditions
  truths : Conditions
  alerts : Alerts
  events : List TitleEvent
deriving DecidableEq, Repr

/-- A request in the receive queue (R183). -/
structure Request where
  kind : Byte
  tag : Byte
  payload : List Byte
deriving DecidableEq, Repr

/-- What a message to be sent is (R184): the reply of a served request, the reply of RESET, a REFUSED FULL reply, a notice. -/
inductive MessageClass where
  | served
  | resetReply
  | refusedFull
  | notice (n : Notice)
deriving DecidableEq, Repr

/-- A message waiting to be sent or in transmission (R184). -/
structure Message where
  cls : MessageClass
  kind : Byte
  tag : Byte
  payload : List Byte
deriving DecidableEq, Repr

/-- The Control Link Unit (R182, R183, R184, R198). The receiver is hunting (`none`) or inside a message, with the bytes gathered
after the start marker; inside a message the gap timer runs. `lineOut` holds the last message the part sent on the control line,
as the bytes of R180 with its check (R181); the field is the model's own (log entry 23). -/
structure Link where
  receiver : Option (List Byte)
  queue : List Request
  sending : Option Message
  waiting : List Message
  lineOut : Option (List Byte)
  lengthDiscards : Nat
  gapDiscards : Nat
  checkDiscards : Nat
  kindDiscards : Nat
  refusedFull : Nat
  noticesSent : Nat
  noticesWithdrawn : Nat
  eventsLost : Nat
deriving DecidableEq, Repr

/-! ### The whole part -/

/-- The state of the part, block by block, the last message it sent on the recorder line, and the queue of commands waiting. -/
structure State where
  slots : Vector SlotRecord 32
  buffers : Vector FrameBuffer 32
  anchor : Option (Fin 32)
  gaps : List GapRun
  ingest : Ingest
  classifier : Classifier
  strategy : Strategy
  sched : Scheduler
  repair : RepairUnit
  feed : Feed
  recorderOut : Option RecorderMessage
  verify : Verify
  spare : Spare
  title : Title
  settings : Settings
  timebase : Timebase
  reports : ReportUnit
  link : Link
  pending : List Instr
deriving DecidableEq, Repr

/-- Why the part stops: never. The spec gives every step an effect or says it has none, so this type has no constructor
(safe: nothing raises a fault). -/
inductive Fault where
deriving DecidableEq, Repr

/-- Why a command has no meaning in the model. -/
inductive Refusal where
  /-- Raised by the arm of a command that has no meaning yet (none at present); safe. -/
  | notModelled (mnemonic : String)
deriving DecidableEq, Repr

/-! ### Reset values -/

/-- A FREE slot's record (R1, last column). -/
abbrev SlotRecord.freed : SlotRecord :=
  { state := .free, frame := none, signals := ⟨none, none⟩,
    bands := ⟨Vector.replicate 18 none, Vector.replicate 18 none⟩, age := none, refs := 0, heldP := none, heldN := none,
    jobsOutstanding := 0, tag := none, address := none, kind := none, streaming := false, attempts := 0,
    forfeited := false, cue := none, outcome := none }

/-- The settings' defaults (R174, R117). -/
abbrev Settings.defaults : Settings :=
  { format := .f25, threshold := 4, commitLag := 8, verifyTimeout := 24, attempts := 2, marginal := .accept,
    pressure := .protectDisc, t1 := 6, t2 := 20, t3 := 60,
    weights := #v[⟨32, 32, 0⟩, ⟨24, 24, 16⟩, ⟨12, 12, 40⟩, ⟨0, 0, 64⟩] }

/-- No condition (R194). -/
abbrev Conditions.none : Conditions := ⟨false, false, false, false, false⟩

/-- No alert (R195). -/
abbrev Alerts.none : Alerts := ⟨false, false, false, false, false, false⟩

/-- The machine right after power-on (R176): each block at its own reset values.
A frame buffer's samples at power-on are not given by the spec, which says they are not read before they are written (R1, R27):
they stand as black (log entry 7). -/
def State.reset : State where
  slots := Vector.replicate 32 SlotRecord.freed
  buffers := Vector.replicate 32 ⟨Vector.replicate 18 [], Vector.replicate 18 []⟩
  anchor := none
  gaps := []
  ingest :=
    { state := .stopped, accepting := false, next := none, last := none, discardPending := false, watch := 0, frame := none,
      accepted := 0, dropped := 0, fieldsDiscarded := 0, bandsIgnored := 0 }
  classifier := { rules := Vector.replicate 16 none, counts := Vector.replicate 16 0, defaultCount := 0 }
  strategy :=
    { entries := Vector.replicate 32 { kind := .pass, next := none, wait := false, limit := 18 },
      taken := Vector.replicate 32 0, passedAtEnd := 0, passedAtLimit := 0, deferrals := 0 }
  sched :=
    { bandBudget := 24, tierMode := .fixed, bottom := 7, maskSet := 0, jobs := [], creation := 0, counter := 24, started := 0,
      owed := false, created := 0, completed := 0, abandoned := 0, removed := 0, bandsStarted := 0, bandsCut := 0 }
  repair := { op := none, counts := ⟨0, 0, 0, 0, 0, 0, 0, 0, 0, 0⟩ }
  feed :=
    { state := .waiting, pausePending := false, h := none, tagCounter := 0, pendingCue := none, flight := none,
      tallies := ⟨0, 0, 0, 0, 0, 0, 0, 0, 0, 0, 0⟩ }
  recorderOut := none
  verify :=
    { entries := [], queue := [], good := 0, marginal := 0, lost := 0, unverified := 0, timeouts := 0, discarded := 0,
      queued := 0 }
  spare :=
    { region := none, inFlight := 0, table := [], plan := none, grants := 0, refusals := 0, indexWrites := 0,
      indexRewrites := 0, indexFailed := 0 }
  title := { state := .idle, declaration := none }
  settings := Settings.defaults
  timebase := { mode := .synced, last := 0, boundaryMade := false, period := 2400, ignored := 0 }
  reports :=
    { done := [], missed := 0, added := 0, truths := Conditions.none, reported := Conditions.none, alerts := Alerts.none,
      events := [] }
  link :=
    { receiver := none, queue := [], sending := none, waiting := [], lineOut := none, lengthDiscards := 0, gapDiscards := 0,
      checkDiscards := 0, kindDiscards := 0, refusedFull := 0, noticesSent := 0, noticesWithdrawn := 0, eventsLost := 0 }
  pending := []

end Sys2Proof.Machine
end

