-- ==== Sys2Proof/WellFormed.lean ====
section
/-! DEFINITION. Which commands the lines can present: a control-line payload fits a message, an unassigned kind is unassigned,
and a band's samples are a band's. -/

namespace Sys2Proof

/-- Black at position `p` of a band: luma 64 at the odd sample indices, Cb and Cr 512 at the even ones (R2; 00_scope,
"Samples"). A line is 1440 samples, an even number, so the parity of the position is the parity of the sample index. -/
abbrev blackAt (p : Nat) : Sample := if p % 2 = 1 then 64 else 512

/-- The positions of a band image rise strictly, starting at or above `low`, each below 23040, and no listed sample is black. -/
def imageWfFrom : Nat → BandImage → Bool
  | _, [] => true
  | low, (p, v) :: rest => low ≤ p && p < 23040 && v != blackAt p && imageWfFrom (p + 1) rest

/-- The canonical form of a band image. -/
abbrev imageWf (img : BandImage) : Bool := imageWfFrom 0 img

/-- A payload that one message can carry, 0..250 bytes (R180). -/
abbrev payloadFits (payload : List Byte) : Bool := payload.length ≤ 250

/-- A request kind that no request is assigned: 0x00 and 0x10..0x7F (Table 11-3). -/
abbrev kindUnassigned (kind : Byte) : Bool := kind = 0 || (16 ≤ kind.toNat && kind.toNat < 128)

/-- The commands the lines can present. -/
def Instr.WellFormed : Instr → Bool
  | .powerOn => true
  | .fieldStart _ _ => true
  | .band _ _ samples => imageWf samples
  | .fieldEnd => true
  | .referencePulse _ _ => true
  | .enterFreeRun _ => true
  | .generatedBoundary _ => true
  | .lockLoss => true
  | .writeSlot => true
  | .verifyTimeout => true
  | .pause => true
  | .resume => true
  | .writeEnd => true
  | .outcome _ _ => true
  | .measureDone => true
  | .bandDone => true
  | .drainComplete => true
  | .closeComplete => true
  | .receivedMessage _ => true
  | .gapDiscard => true
  | .transmissionEnd => true
  | .configure _ payload => payloadFits payload
  | .loadRule _ payload => payloadFits payload
  | .loadEntry _ payload => payloadFits payload
  | .adjust _ payload => payloadFits payload
  | .declareSpare _ payload => payloadFits payload
  | .openTitle _ payload => payloadFits payload
  | .start _ payload => payloadFits payload
  | .stop _ payload => payloadFits payload
  | .abort _ payload => payloadFits payload
  | .cue _ payload => payloadFits payload
  | .readReport _ payload => payloadFits payload
  | .ackAlerts _ payload => payloadFits payload
  | .sectionResetIngest _ => true
  | .sectionResetScheduler _ => true
  | .sectionResetRecorder _ => true
  | .queryStatus _ _ => true
  | .queryTiers _ _ => true
  | .querySpare _ _ => true
  | .reset _ payload => payloadFits payload
  | .resetTakesEffect => true
  | .unassignedRequest kind _ payload => kindUnassigned kind && payloadFits payload

end Sys2Proof
end

