-- ==== Sys2Proof/Machine/Image.lean ====
section
/-! DEFINITION. The frame memory's unit, one band's samples: reading a sample, storing one, and building an image, always in the
canonical form of `imageWf`. -/

namespace Sys2Proof.Machine

/-- The sample at a position; an unlisted position reads as black. -/
def sampleAt (img : BandImage) (p : Nat) : Sample :=
  match img.find? (fun c => c.1 = p) with
  | some c => c.2
  | none => blackAt p

/-- Store a sample at a position, keeping the canonical form: storing black removes the entry. -/
def storeSample : BandImage → Nat → Sample → BandImage
  | [], p, v => if v = blackAt p then [] else [(p, v)]
  | (q, w) :: rest, p, v =>
    if p < q then (if v = blackAt p then (q, w) :: rest else (p, v) :: (q, w) :: rest)
    else if p = q then (if v = blackAt p then rest else (p, v) :: rest)
    else (q, w) :: storeSample rest p v

/-- The image that a list of positions and samples describes, over black; positions outside a band are dropped. A list in
canonical form describes itself. -/
def canonicalImage : BandImage → BandImage
  | [] => []
  | (p, v) :: rest => if p < 23040 then storeSample (canonicalImage rest) p v else canonicalImage rest

/-- The image whose sample at each position of a band is given. -/
def imageFrom (sample : Nat → Sample) : BandImage :=
  (List.range 23040).filterMap (fun p => if sample p = blackAt p then none else some (p, sample p))

/-- A black band: luma 64, Cb and Cr 512 (R2). -/
def blackImage : BandImage := []

/-- The frame memory is well formed: every band's samples are in canonical form. -/
def Memory.wf (m : Vector FrameBuffer 32) : Bool :=
  (List.finRange 32).all (fun i => (List.finRange 18).all (fun b => imageWf m[i].a[b] && imageWf m[i].b[b]))

end Sys2Proof.Machine
end

