-- ==== Sys2Proof/Machine/Ops.lean ====
section
/-! DEFINITION. The named operations over the window's slots and buffers and over counts, which every block's meaning uses. -/

namespace Sys2Proof.Machine

/-! ### Fields, slots, bands -/

/-- The other field of a frame. -/
def otherField : Field → Field
  | .a => .b
  | .b => .a

/-- The value for a field. -/
def PerField.get {α : Type} (x : PerField α) : Field → α
  | .a => x.a
  | .b => x.b

/-- Replace the value for a field. -/
def PerField.put {α : Type} (x : PerField α) (f : Field) (v : α) : PerField α :=
  match f with
  | .a => ⟨v, x.b⟩
  | .b => ⟨x.a, v⟩

/-- The slot indices in ascending order (R1). -/
def allSlots : List (Fin 32) := List.finRange 32

/-- B, the bands per field of a format (00_scope, "Picture terms"). -/
def bandsPer : Format → Nat
  | .f25 => 18
  | .f30 => 15

/-- The band indices of a field under the configured format, 0..B-1 (R2). -/
def bandsOf (s : State) : List (Fin 18) :=
  (List.finRange 18).filter (fun b => b.val < bandsPer s.settings.format)

/-- Replace a slot record. -/
def State.setSlot (s : State) (i : Fin 32) (r : SlotRecord) : State :=
  { s with slots := s.slots.set i r }

/-- The band record of band `b` of field `f` of a slot record, absent until recorded (R2). -/
def SlotRecord.band (r : SlotRecord) (f : Field) (b : Fin 18) : Option BandRecord :=
  (r.bands.get f)[b]

/-- Replace a band record in a slot record. -/
def SlotRecord.setBand (r : SlotRecord) (f : Field) (b : Fin 18) (x : BandRecord) : SlotRecord :=
  { r with bands := r.bands.put f ((r.bands.get f).set b (some x)) }

/-- The samples of band `b` of field `f` in a slot's buffer. -/
def State.image (s : State) (i : Fin 32) (f : Field) (b : Fin 18) : BandImage :=
  ((s.buffers[i]).get f)[b]

/-- Write the samples of one band into a slot's buffer. -/
def State.setImage (s : State) (i : Fin 32) (f : Field) (b : Fin 18) (img : BandImage) : State :=
  { s with buffers := s.buffers.set i ((s.buffers[i]).put f (((s.buffers[i]).get f).set b img)) }

/-- Replace the record of band `b` of field `f` of slot `i`. -/
def State.setBand (s : State) (i : Fin 32) (f : Field) (b : Fin 18) (x : BandRecord) : State :=
  s.setSlot i ((s.slots[i]).setBand f b x)

/-- Apply an operation to every band 0..B-1 of field A and then of field B. -/
def forBands (op : Field → Fin 18 → State → State) (s : State) : State :=
  let a := (bandsOf s).foldl (fun t b => op .a b t) s
  (bandsOf s).foldl (fun t b => op .b b t) a

/-- Apply an operation to every slot, in ascending order. -/
def forSlots (op : Fin 32 → State → State) (s : State) : State :=
  allSlots.foldl (fun t i => op i t) s

/-- The number of slots whose record meets a test. -/
def countSlots (test : SlotRecord → Bool) (s : State) : Nat :=
  (allSlots.filter (fun i => test s.slots[i])).length

/-! ### Counts that stop at their maximum -/

/-- Add to a tally of range 0..4294967295, which stops at its maximum. -/
def addTally (t n : Nat) : Nat := min (t + n) 4294967295

/-- Raise a tally of range 0..4294967295 by one. -/
def bump (t : Nat) : Nat := addTally t 1

/-- Raise a count of range 0..65535 by one, stopping at 65535 (R58, R76). -/
def bumpCount (t : Nat) : Nat := min (t + 1) 65535

/-- Raise a count of range 0..255 by one, stopping at 255 (R192, R197). -/
def bumpByte (t : Nat) : Nat := min (t + 1) 255

/-- Bring a value to the nearer bound of a range (R174). -/
def clamp (lo hi v : Nat) : Nat := if v < lo then lo else if hi < v then hi else v

/-! ### Numbers as bytes, high byte first (R199) -/

/-- The low `k` bytes of a number, high byte first. -/
def beBytes : Nat → Nat → List Byte
  | 0, _ => []
  | k + 1, n => byteOf (n / 256 ^ k) :: beBytes k n

/-- The number that bytes spell, high byte first. -/
def fromBytes (bs : List Byte) : Nat := bs.foldl (fun n b => n * 256 + b.toNat) 0

/-- The bytes of a record from an offset, `k` of them. -/
def bytesAt (bs : List Byte) (offset k : Nat) : List Byte := (bs.drop offset).take k

/-- The number at an offset of a record, `k` bytes wide. -/
def numberAt (bs : List Byte) (offset k : Nat) : Nat := fromBytes (bytesAt bs offset k)

/-- The value of one byte of a record. -/
def byteAt (bs : List Byte) (offset : Nat) : Nat := numberAt bs offset 1

end Sys2Proof.Machine
end

