-- ==== Sys2Proof/Machine/Flags.lean ====
section
/-! DEFINITION. The flags the part reports: the five conditions (R194), each told by its owning block, and the six sticky
alerts (R195). -/

namespace Sys2Proof.Machine

/-! ### The Spare Allocator's arithmetic (R156, R158) -/

/-- The size of the spare region (R155). -/
def Region.size (r : Region) : Nat := r.hi - r.lo + 1

/-- The reserve for `x` relocated frames: ceiling(max(x, 1) / 32) + 1 index blocks (R156). -/
def reserve (x : Nat) : Nat := (max x 1 + 31) / 32 + 1

/-- Whether `j` further blocks could be granted with `n` = e + f relocations standing or in flight (R158); for `j` = 1 it is the
grant test of R156. -/
def headroomFits (r : Region) (n j : Nat) : Bool :=
  decide ((r.up - r.lo) + j + reserve (n + j) ≤ r.size) && decide (n + j ≤ 256)

/-- The greatest `j` reached from `j` by steps that still fit. -/
def headroomFrom (r : Region) (n : Nat) : Nat → Nat → Nat
  | 0, j => j
  | fuel + 1, j => if headroomFits r n (j + 1) then headroomFrom r n fuel (j + 1) else j

/-- The headroom h (R158); none while no region is declared. -/
def headroom (s : State) : Option Nat :=
  s.spare.region.map (fun r => headroomFrom r (s.spare.table.length + s.spare.inFlight) 256 0)

/-! ### Conditions (R194) -/

/-- WINDOW LOW: fewer than 4 slots are FREE (R10). -/
def windowLowNow (s : State) : Bool := decide (countSlots (fun r => r.state == .free) s < 4)

/-- SPARE LOW: the title is RUNNING or DRAINING and h is below 8 (R158). -/
def spareLowNow (s : State) : Bool :=
  (s.title.state == .running || s.title.state == .draining) &&
    (match headroom s with
     | some h => decide (h < 8)
     | none => false)

/-- RECORDER PAUSED: the recorder state is PAUSED (R123). -/
def recorderPausedNow (s : State) : Bool := s.feed.state == .paused

/-- INGEST UNLOCKED: the title is RUNNING and ingest is not LOCKED (R33). -/
def ingestUnlockedNow (s : State) : Bool := s.title.state == .running && s.ingest.state != .locked

/-- REFERENCE FREE RUN: the timebase is in FREE RUN (R178). -/
def referenceFreeRunNow (s : State) : Bool := s.timebase.mode == .freeRun

/-- The conditions' truths as their owners would tell them now. -/
def conditionsNow (s : State) : Conditions :=
  { windowLow := windowLowNow s
    spareLow := spareLowNow s
    recorderPaused := recorderPausedNow s
    ingestUnlocked := ingestUnlockedNow s
    referenceFreeRun := referenceFreeRunNow s }

/-- Every owner tells the Report Unit its condition's truth (R194). Telling a truth that has not changed changes nothing. -/
def tellConditions (s : State) : State :=
  { s with reports := { s.reports with truths := conditionsNow s } }

/-- The Recorder Feed tells RECORDER PAUSED (R123). -/
def tellRecorder (s : State) : State :=
  { s with reports := { s.reports with truths := { s.reports.truths with recorderPaused := recorderPausedNow s } } }

/-- The Title Controller tells REFERENCE FREE RUN (R177, R178). -/
def tellTimebase (s : State) : State :=
  { s with reports := { s.reports with truths := { s.reports.truths with referenceFreeRun := referenceFreeRunNow s } } }

/-! ### Alerts (R195) -/

/-- Set alerts: an alert is set when its event is posted and stays set until acknowledged. -/
def postAlert (change : Alerts → Alerts) (s : State) : State :=
  { s with reports := { s.reports with alerts := change s.reports.alerts } }

/-- Post FRAME LOST (R148). -/
def postFrameLost : State → State := postAlert (fun a => { a with frameLost := true })

/-- Post SOURCE GAP (R8, R24). -/
def postSourceGap : State → State := postAlert (fun a => { a with sourceGap := true })

/-- Post SPARE EXHAUSTED (R154). -/
def postSpareExhausted : State → State := postAlert (fun a => { a with spareExhausted := true })

/-- Post REPORTS MISSED (R192). -/
def postReportsMissed : State → State := postAlert (fun a => { a with reportsMissed := true })

/-- Post INDEX FAILED (R161). -/
def postIndexFailed : State → State := postAlert (fun a => { a with indexFailed := true })

/-- Post TITLE FULL (R170). -/
def postTitleFull : State → State := postAlert (fun a => { a with titleFull := true })

end Sys2Proof.Machine
end

