-- ==== Sys2Proof/Machine/Reports.lean ====
section
/-! DEFINITION. The Report Unit's reports: what a retiring frame leaves behind, when a report is built, the done list and the
title event list (R190 to R192, R196). -/

namespace Sys2Proof.Machine

/-- No side signal. -/
def noSignals : SideSignals := ⟨false, false, false⟩

/-- A field's side signals, an absent set given as none present (R132, R191). -/
def signalsShown (r : SlotRecord) : PerField SideSignals :=
  ⟨r.signals.a.getD noSignals, r.signals.b.getD noSignals⟩

/-- A band's treatment as the header and the report show it (R132, R191). A band still DAMAGED never reaches either (R17); it
would show as PASSED. -/
def shownTreatment : BandState → HeaderTreatment
  | .clean => .clean
  | .damaged => .passed
  | .repaired t => .repaired t
  | .held => .held
  | .passed => .passed

/-- A band's treatment and integrity count. -/
def shownBand (x : BandRecord) : HeaderBand := { treatment := shownTreatment x.state, count := x.count }

/-- The recorded bands of a field, in ascending band index. -/
def recordedBands (r : SlotRecord) (f : Field) : List (Fin 18 × BandRecord) :=
  (List.finRange 18).filterMap (fun b => (r.band f b).map (fun x => (b, x)))

/-- The band list of a report: the bands that are not CLEAN, field A first, each field ascending (R191). -/
def reportBands (r : SlotRecord) : List ReportBand :=
  let entries (f : Field) : List ReportBand :=
    ((recordedBands r f).filter (fun bx => bx.2.state != .clean)).map
      (fun bx => { field := f, band := bx.1.val, count := bx.2.count, treatment := shownTreatment bx.2.state })
  entries .a ++ entries .b

/-- The title number, from the title declaration (R191). -/
def titleNumber (s : State) : Nat :=
  match s.title.declaration with
  | some d => d.number
  | none => 0

/-- Some band of either field is REPAIRED, HELD or PASSED. -/
def someBandTreated (r : SlotRecord) : Bool :=
  let treated : Fin 18 × BandRecord → Bool := fun bx =>
    match bx.2.state with
    | .repaired _ => true
    | .held => true
    | .passed => true
    | .clean => false
    | .damaged => false
  (recordedBands r .a).any treated || (recordedBands r .b).any treated

/-- Whether a retiring frame has anything to tell (R190). -/
def reportWorthy (r : SlotRecord) : Bool :=
  someBandTreated r || r.kind == some .gapFill || decide (1 ≤ r.attempts) || r.outcome == some .marginal ||
    r.outcome == some .lost || r.outcome == some .unverified || r.forfeited || r.cue.isSome

/-- The report of a frame, from the record copy handed over at its retirement (R191). -/
def reportOf (s : State) (r : SlotRecord) : Report :=
  { title := titleNumber s
    frame := r.frame.getD 0
    kind := r.kind.getD .original
    address := r.address.getD 0
    outcome := r.outcome.getD .unverified
    relocations := r.attempts
    forfeited := r.forfeited
    signals := signalsShown r
    cue := r.cue
    fill := none
    bands := reportBands r }

/-- Place a built report on the done list, or count it missed when 32 are held (R192). -/
def addReport (report : Report) (s : State) : State :=
  if s.reports.done.length < 32 then
    { s with reports := { s.reports with done := s.reports.done ++ [report], added := bumpByte s.reports.added } }
  else
    postReportsMissed { s with reports := { s.reports with missed := bumpByte s.reports.missed } }

/-- The hand-over of a retiring frame's record copy to the Report Unit (R190). -/
def handOver (r : SlotRecord) (s : State) : State :=
  if reportWorthy r then addReport (reportOf s r) s else s

/-- The report of a gap fill, which is always built (R151, R190, R191). -/
def gapFillReport (s : State) (frame address : Nat) (fill : Option FillSource) (cue : Option Byte) (outcome : FrameOutcome) :
    Report :=
  { title := titleNumber s
    frame := frame
    kind := .gapFill
    address := address
    outcome := outcome
    relocations := 0
    forfeited := false
    signals := ⟨noSignals, noSignals⟩
    cue := cue
    fill := fill
    bands := [] }

/-- Post a title event, or count it lost when 4 are held (R196). -/
def postTitleEvent (e : TitleEvent) (s : State) : State :=
  if s.reports.events.length < 4 then
    { s with reports := { s.reports with events := s.reports.events ++ [e] } }
  else
    { s with link := { s.link with eventsLost := bump s.link.eventsLost } }

end Sys2Proof.Machine
end

