-- ==== Sys2Proof/Machine/Window.lean ====
section
/-! DEFINITION. The Frame Window (chapter 1): which slot holds a frame, band recording and transitions, candidates, references,
allocation and forfeit, the gap list, the anchor, and retirement. -/

namespace Sys2Proof.Machine

/-! ### Looking up frames (R3, R25) -/

/-- The slot holding frame `n`: its state is not FREE and its frame number is `n` (R3). -/
def slotOf (s : State) (n : Nat) : Option (Fin 32) :=
  allSlots.find? (fun i => s.slots[i].state != .free && s.slots[i].frame == some n)

/-- The lowest-numbered FREE slot (R7). -/
def lowestFree (s : State) : Option (Fin 32) :=
  allSlots.find? (fun i => s.slots[i].state == .free)

/-- A run covers a frame number. -/
def runCovers (k : Nat) (r : GapRun) : Bool := decide (r.first ≤ k) && decide (k < r.first + r.length)

/-- The window's answer for a frame number (R25). -/
inductive WindowAnswer where
  | present (i : Fin 32)
  | gap
  | unknown
deriving DecidableEq, Repr

/-- Present when a slot holds it, gap when no slot does and some run covers it, not yet known otherwise (R25). -/
def windowAnswer (s : State) (k : Nat) : WindowAnswer :=
  match slotOf s k with
  | some i => .present i
  | none => if s.gaps.any (runCovers k) then .gap else .unknown

/-! ### The gap list (R24, R25) -/

/-- Record gap `g` by the first case of R24 that applies; `none` is a refusal. -/
def recordGap (runs : List GapRun) (g : Nat) : Option (List GapRun) :=
  match runs.getLast? with
  | none => some [{ first := g, length := 1 }]
  | some newest =>
    if newest.first + newest.length = g ∧ newest.length < 65535 then
      some (runs.dropLast ++ [{ newest with length := newest.length + 1 }])
    else if runs.length < 16 then
      some (runs ++ [{ first := g, length := 1 }])
    else if g - newest.first + 1 ≤ 65535 then
      some (runs.dropLast ++ [{ newest with length := g - newest.first + 1 }])
    else none

/-- The front run gives up `h` if its first number is `h` (R25). -/
def consumeGap (runs : List GapRun) (h : Nat) : List GapRun :=
  match runs with
  | [] => []
  | r :: rest =>
    if r.first = h then (if r.length ≤ 1 then rest else { first := r.first + 1, length := r.length - 1 } :: rest)
    else r :: rest

/-! ### Bands (R2, R4) -/

/-- A band state usable as a candidate: CLEAN, REPAIRED or HELD (1.2). -/
def usableState : BandState → Bool
  | .clean => true
  | .repaired _ => true
  | .held => true
  | .damaged => false
  | .passed => false

/-- A band of a slot is in a usable state. -/
def bandUsable (s : State) (i : Fin 32) (f : Field) (b : Fin 18) : Bool :=
  match (s.slots[i]).band f b with
  | some x => usableState x.state
  | none => false

/-- A band of frame `m` is usable as a candidate: a slot holds `m`, it is not FILLING, and the band's state is usable (R6). -/
def frameBandUsable (s : State) (m : Nat) (f : Field) (b : Fin 18) : Bool :=
  match slotOf s m with
  | some i => s.slots[i].state != .filling && bandUsable s i f b
  | none => false

/-- A band of a slot is DAMAGED. -/
def bandDamaged (s : State) (i : Fin 32) (f : Field) (b : Fin 18) : Bool :=
  match (s.slots[i]).band f b with
  | some x => x.state == .damaged
  | none => false

/-- The state a band is recorded with: DAMAGED when its count is at least the threshold or is 255, CLEAN otherwise (R2, R50). -/
def recordedState (threshold : Nat) (count : Byte) : BandState :=
  if threshold ≤ count.toNat ∨ count = 255 then .damaged else .clean

/-- Record a delivered band: its count, its state and, for counts 0..254, its samples; a count of 255 is MISSING (R2, R41). -/
def recordBand (i : Fin 32) (f : Field) (b : Fin 18) (count : Byte) (samples : BandImage) (s : State) : State :=
  (s.setBand i f b { count := count, state := recordedState s.settings.threshold count }).setImage i f b
    (if count = 255 then blackImage else canonicalImage samples)

/-- Mark a band MISSING if it has not been recorded: count 255, DAMAGED, black (R2, R43). -/
def markMissing (i : Fin 32) (f : Field) (b : Fin 18) (s : State) : State :=
  match (s.slots[i]).band f b with
  | some _ => s
  | none => recordBand i f b 255 [] s

/-- Mark every band of a field not yet recorded MISSING (R43). -/
def markFieldMissing (i : Fin 32) (f : Field) (s : State) : State :=
  (bandsOf s).foldl (fun t b => markMissing i f b t) s

/-- Move a DAMAGED band to another state; a request naming a band in any other state is refused (R4). -/
def moveBand (i : Fin 32) (f : Field) (b : Fin 18) (target : BandState) (s : State) : State :=
  match (s.slots[i]).band f b with
  | some x => if x.state = .damaged then s.setBand i f b { x with state := target } else s
  | none => s

/-- Move a DAMAGED band to another state together with new samples (R4, R107); refused as `moveBand` is. -/
def moveBandWith (i : Fin 32) (f : Field) (b : Fin 18) (target : BandState) (img : BandImage) (s : State) : State :=
  if bandDamaged s i f b then (moveBand i f b target s).setImage i f b img else s

/-- The lowest DAMAGED band of a field at or above an index (R79, R91). -/
def nextDamaged (s : State) (i : Fin 32) (f : Field) (low : Nat) : Option (Fin 18) :=
  (bandsOf s).find? (fun b => decide (low ≤ b.val) && bandDamaged s i f b)

/-- The damaged-band set of a field, as the list of its indices (R51). -/
def damagedSet (s : State) (i : Fin 32) (f : Field) : List (Fin 18) :=
  (bandsOf s).filter (fun b => bandDamaged s i f b)

/-! ### Becoming FREE, references (R1, R12, R23) -/

/-- A slot becomes FREE: every field of its record returns to its reset value; the buffer keeps its samples (R1). -/
def freeSlot (i : Fin 32) (s : State) : State := s.setSlot i SlotRecord.freed

/-- A RETAINED slot becomes FREE when its reference count is 0 and it is not the anchor (R23). -/
def freeIfDone (i : Fin 32) (s : State) : State :=
  if s.slots[i].state = .retained ∧ s.slots[i].refs = 0 ∧ s.anchor ≠ some i then freeSlot i s else s

/-- Take a reference on a slot: its count rises by one (R12). -/
def addRef (j : Fin 32) (s : State) : State :=
  s.setSlot j { s.slots[j] with refs := s.slots[j].refs + 1 }

/-- Release a reference on a slot: its count falls by one, and a RETAINED slot may become FREE (R12, R23). -/
def dropRef (j : Fin 32) (s : State) : State :=
  freeIfDone j (s.setSlot j { s.slots[j] with refs := s.slots[j].refs - 1 })

/-- Release every reference a slot holds (R12). -/
def releaseRefs (i : Fin 32) (s : State) : State :=
  let p := s.slots[i].heldP
  let n := s.slots[i].heldN
  let s1 := s.setSlot i { s.slots[i] with heldP := none, heldN := none }
  let s2 := match p with
    | some j => dropRef j s1
    | none => s1
  match n with
  | some j => dropRef j s2
  | none => s2

/-- When frame n becomes REPAIRING it takes a P reference on the slot holding frame n-1, if any (R12). -/
def takeP (i : Fin 32) (n : Nat) (s : State) : State :=
  if n = 0 then s
  else
    match slotOf s (n - 1) with
    | some j => addRef j (s.setSlot i { s.slots[i] with heldP := some j })
    | none => s

/-- When frame n completes and the slot holding frame n-1 is REPAIRING, that slot takes an N reference on frame n's (R11, R12). -/
def takeN (i : Fin 32) (n : Nat) (s : State) : State :=
  if n = 0 then s
  else
    match slotOf s (n - 1) with
    | some j =>
      if s.slots[j].state = .repairing then addRef i (s.setSlot j { s.slots[j] with heldN := some i }) else s
    | none => s

/-! ### Allocation and forfeit (R7, R8, R9) -/

/-- The record of a slot given to a new frame (R7). -/
def allocatedRecord (n : Nat) (parity : Field) (signals : SideSignals) : SlotRecord :=
  { SlotRecord.freed with
    state := .filling, frame := some n,
    signals := (⟨none, none⟩ : PerField (Option SideSignals)).put parity (some signals) }

/-- A forfeit candidate: SENT, not streaming, no references, not the anchor (R9). -/
def forfeitCandidate (s : State) (i : Fin 32) : Bool :=
  s.slots[i].state == .sent && !s.slots[i].streaming && s.slots[i].refs == 0 && s.anchor != some i

/-- How far a slot's write tag lies behind the write tag counter, modulo 65536 (R9). -/
def tagDistance (s : State) (i : Fin 32) : Nat :=
  (s.feed.tagCounter + 65536 - (s.slots[i].tag.getD 0)) % 65536

/-- The better of two forfeit candidates: the one whose tag was assigned earlier. -/
def earlierTag (s : State) (best : Option (Fin 32)) (i : Fin 32) : Option (Fin 32) :=
  match best with
  | none => some i
  | some j => if tagDistance s j < tagDistance s i then some i else some j

/-- The candidate whose write tag was assigned earliest (R9). -/
def forfeitChoice (s : State) : Option (Fin 32) :=
  (allSlots.filter (fun i => forfeitCandidate s i)).foldl (earlierTag s) none

/-- The Verify Tracker takes a forfeited slot out of its entry and keeps the record copy (R9, R145). -/
def forfeitEntry (copy : SlotRecord) (e : PendingEntry) : PendingEntry :=
  if some e.tag = copy.tag then { e with forfeited := true, slot := none, copy := some copy } else e

/-- The forfeit of a slot: its record copy, marked forfeited, goes to the Verify Tracker (R9). -/
def forfeitSlot (i : Fin 32) (s : State) : State :=
  let copy : SlotRecord := { s.slots[i] with forfeited := true }
  { s with verify := { s.verify with entries := s.verify.entries.map (forfeitEntry copy) } }

/-- The window's answer to a slot request (R38). -/
inductive Allocation where
  | slot (i : Fin 32)
  | dropped
  | gapRefused
deriving DecidableEq, Repr

/-- A frame finds no slot: its number becomes a gap, or the gap is refused, and SOURCE GAP is posted (R8, R24). -/
def dropFrame (n : Nat) (s : State) : State × Allocation :=
  match recordGap s.gaps n with
  | some runs => (postSourceGap { s with gaps := runs }, .dropped)
  | none => (postSourceGap s, .gapRefused)

/-- A slot request: the lowest FREE slot, else by the pressure policy a forfeit or a drop (R7, R8, R9). -/
def allocate (n : Nat) (parity : Field) (signals : SideSignals) (s : State) : State × Allocation :=
  match lowestFree s with
  | some i => (s.setSlot i (allocatedRecord n parity signals), .slot i)
  | none =>
    match s.settings.pressure with
    | .protectDisc => dropFrame n s
    | .protectSource =>
      match forfeitChoice s with
      | some i => ((forfeitSlot i s).setSlot i (allocatedRecord n parity signals), .slot i)
      | none => dropFrame n s

/-! ### Ageing (R13) -/

/-- A slot's record at a field boundary: in REPAIRING and READY its age rises by one, stopping at 255 (R13). -/
def agedRecord (r : SlotRecord) : SlotRecord :=
  match r.state with
  | .repairing => { r with age := r.age.map bumpByte }
  | .ready => { r with age := r.age.map bumpByte }
  | .free => r
  | .filling => r
  | .sent => r
  | .relocating => r
  | .retained => r

/-- The window's part of a field boundary (R13). -/
def ageSlots (s : State) : State := { s with slots := s.slots.map agedRecord }

/-! ### Retirement and the anchor (R19, R21, R22) -/

/-- A slot's frame retires: outcome set, record copy handed to the Report Unit, then RETAINED if the slot is the anchor or
referenced and FREE otherwise (R19, R21, R28). -/
def retireSlot (i : Fin 32) (o : FrameOutcome) (s : State) : State :=
  let r : SlotRecord := { s.slots[i] with outcome := some o }
  let s1 := handOver r (s.setSlot i r)
  if s1.anchor = some i ∨ 0 < r.refs then s1.setSlot i { r with state := .retained } else freeSlot i s1

/-- The anchor moves to a slot; the previous anchor becomes FREE if it is RETAINED with no references (R22). -/
def moveAnchor (i : Fin 32) (s : State) : State :=
  let s1 := { s with anchor := some i }
  match s.anchor with
  | some j => freeIfDone j s1
  | none => s1

/-- The window's part of a WRITE END: streaming becomes no and an ORIGINAL write moves the anchor; a WRITE END for a slot whose
streaming is already no is refused (R18). -/
def windowWriteEnd (i : Fin 32) (kind : WriteKind) (s : State) : State :=
  if s.slots[i].streaming then
    let s1 := s.setSlot i { s.slots[i] with streaming := false }
    if kind = .original then moveAnchor i s1 else s1
  else s

/-- A cancelled write leaves its slot with streaming no (R18). -/
def stopStreaming (i : Fin 32) (s : State) : State := s.setSlot i { s.slots[i] with streaming := false }

/-- The window holds no unwritten frame (R30). -/
def windowDone (s : State) : Bool :=
  s.gaps.isEmpty &&
    allSlots.all (fun i => s.slots[i].state != .filling && s.slots[i].state != .repairing && s.slots[i].state != .ready)

/-- The window's part of a title close: the anchor cleared, RETAINED slots FREE, the gap list empty (R30). -/
def windowClose (s : State) : State :=
  let s1 := { s with anchor := none, gaps := [] }
  forSlots (fun i t => if t.slots[i].state = .retained then freeSlot i t else t) s1

/-- The window's part of an Abort: every slot FREE, no anchor, no gaps (R29). -/
def windowAbort (s : State) : State :=
  { s with slots := Vector.replicate 32 SlotRecord.freed, anchor := none, gaps := [] }

end Sys2Proof.Machine
end

