-- ==== Sys2Proof/Machine/Arithmetic.lean ====
section
/-! DEFINITION. Band reconstruction arithmetic (chapter 6): the operation record at BAND START, conditioning, the spatial
candidate, the motion measure, the weights, the blend, and the counts. -/

namespace Sys2Proof.Machine

/-! ### Conditioning (R110) -/

/-- A sample conditioned into the legal range 4..1019 (R110). -/
def condition (v : Nat) : Nat := if v < 4 then 4 else if 1019 < v then 1019 else v

/-- Conditioning changes the sample: it is a reserved timing code (R110). -/
def isReserved (v : Nat) : Bool := decide (v < 4) || decide (1019 < v)

/-! ### Weights (R105, R116, R117) -/

/-- The weights that share a band equally between P and N. -/
def weightsTemporal : Weights := ⟨32, 32, 0⟩

/-- The weights that give a band to S alone. -/
def weightsSpatial : Weights := ⟨0, 0, 64⟩

/-- The weights that give a band to P alone. -/
def weightsHold : Weights := ⟨64, 0, 0⟩

/-- The operation record at BAND START, by kind and usable candidates (R105). -/
def startOperation (i : Fin 32) (f : Field) (b : Fin 18) (kind : RepairKind) (usable : Candidates) : Operation :=
  let blending (w : Weights) : Operation :=
    { slot := i, field := f, band := b, kind := kind, usable := usable, phase := .blend, m := none, motion := none,
      weights := some w, conditioned := false, result := [] }
  match kind with
  | .temporal => blending weightsTemporal
  | .spatial => blending weightsSpatial
  | .hold => blending weightsHold
  | .adaptive =>
    if usable.p && usable.n then { blending weightsSpatial with phase := .measure, weights := none }
    else blending weightsSpatial

/-! ### Reading candidates (R109, R111, R112) -/

/-- The stored sample at position `k` of field line `l` of a slot. -/
def lineSample (s : State) (i : Fin 32) (f : Field) (l k : Nat) : Nat :=
  if h : l / 16 < 18 then (sampleAt (s.image i f ⟨l / 16, h⟩) ((l % 16) * 1440 + k)).toNat else 0

/-- The stored sample of the co-sited band of another frame, black where no slot holds that frame. -/
def frameSample (s : State) (frame : Option Nat) (f : Field) (b : Fin 18) (p : Nat) : Nat :=
  match frame.bind (slotOf s) with
  | some j => (sampleAt (s.image j f b) p).toNat
  | none => (blackAt p).toNat

/-- Frame n-1 of the operation's frame n. -/
def previousFrame (s : State) (op : Operation) : Option Nat :=
  match (s.slots[op.slot]).frame with
  | some n => if n = 0 then none else some (n - 1)
  | none => none

/-- Frame n+1 of the operation's frame n. -/
def followingFrame (s : State) (op : Operation) : Option Nat :=
  match (s.slots[op.slot]).frame with
  | some n => some (n + 1)
  | none => none

/-- The stored sample of P at a position of the band (R63). -/
def storedP (s : State) (op : Operation) (p : Nat) : Nat := frameSample s (previousFrame s op) op.field op.band p

/-- The stored sample of N at a position of the band (R63). -/
def storedN (s : State) (op : Operation) (p : Nat) : Nat := frameSample s (followingFrame s op) op.field op.band p

/-- The neighbour lines, in the other field, of field line `l` (R111, R112). -/
def neighbourLines (bands : Nat) (f : Field) (l : Nat) : List Nat :=
  match f with
  | .a => if l = 0 then [0] else [l - 1, l]
  | .b => if l + 1 = 16 * bands then [l] else [l, l + 1]

/-- The stored neighbour samples from which S is formed at a position of the band (R111). -/
def neighbours (s : State) (op : Operation) (p : Nat) : List Nat :=
  (neighbourLines (bandsPer s.settings.format) op.field (16 * op.band.val + p / 1440)).map
    (fun l => lineSample s op.slot (otherField op.field) l (p % 1440))

/-- S from its neighbours, conditioned first: the one neighbour, or the mean with a half rounded up (R111, R112). -/
def spatialOf (stored : List Nat) : Nat :=
  match stored with
  | [u] => condition u
  | [u, v] => (condition u + condition v + 1) / 2
  | _ => 0

/-- S at a position of the band (R111, R112). -/
def spatialAt (s : State) (op : Operation) (p : Nat) : Nat := spatialOf (neighbours s op p)

/-! ### The motion measure (R113, R114) -/

/-- The 64 probe positions of a band: 181, 541, 901 and 1261 on each of its 16 lines (R113). -/
def probes : List Nat :=
  (List.range 16).flatMap (fun line => [1440 * line + 181, 1440 * line + 541, 1440 * line + 901, 1440 * line + 1261])

/-- The absolute difference of two conditioned samples. -/
def probeDifference (u v : Nat) : Nat :=
  let x := condition u
  let y := condition v
  if x ≤ y then y - x else x - y

/-- D, the sum of the probe differences of P and N (R113). -/
def probeSum (s : State) (op : Operation) : Nat :=
  (probes.map (fun p => probeDifference (storedP s op p) (storedN s op p))).sum

/-- m, the mean probe difference with a half rounded up (R114). -/
def motionMeasure (d : Nat) : Nat := (d + 32) / 64

/-- The motion class of m under the thresholds (R114, R115). -/
def motionClass (c : Settings) (m : Nat) : Fin 4 :=
  if m < c.t1 then 0 else if m < c.t2 then 1 else if m < c.t3 then 2 else 3

/-- Measure done: m, the class and the weights are set and the BLEND phase begins (R106). -/
def measured (s : State) (op : Operation) : Operation :=
  let m := motionMeasure (probeSum s op)
  let c := motionClass s.settings m
  { op with
    m := some m, motion := some c, phase := .blend,
    weights := some (if op.usable.s then s.settings.weights[c] else weightsTemporal),
    conditioned := op.conditioned || probes.any (fun p => isReserved (storedP s op p) || isReserved (storedN s op p)) }

/-! ### The blend (R118) -/

/-- One output sample: the weighted sum, plus 32, divided by 64 rounded down, clamped into 4..1019 (R118). -/
def blendSample (w : Weights) (p n sp : Nat) : Nat := condition ((w.p * p + w.n * n + w.s * sp + 32) / 64)

/-- A candidate's conditioned value where its weight is above 0; a candidate of weight 0 is not read (R109). -/
def readWeighted (w v : Nat) : Nat := if w = 0 then 0 else condition v

/-- The output sample at a position of the band (R109, R118). -/
def blendAt (s : State) (op : Operation) (w : Weights) (p : Nat) : Nat :=
  blendSample w (readWeighted w.p (storedP s op p)) (readWeighted w.n (storedN s op p))
    (if w.s = 0 then 0 else spatialAt s op p)

/-- A sample read in the blend at a position is changed by conditioning (R109, R110). -/
def blendConditions (s : State) (op : Operation) (w : Weights) (p : Nat) : Bool :=
  (w.p != 0 && isReserved (storedP s op p)) || (w.n != 0 && isReserved (storedN s op p)) ||
    (w.s != 0 && (neighbours s op p).any isReserved)

/-- The weights an operation blends with; BLEND is reached only with weights set (R106). -/
def weightsOf (op : Operation) : Weights := op.weights.getD weightsSpatial

/-- The BLEND phase: the 16 x 1440 samples go to the result store, and the conditioned mark follows (R106, R110, R118). -/
def blended (s : State) (op : Operation) : Operation :=
  { op with
    result := imageFrom (fun p => BitVec.ofNat 10 (blendAt s op (weightsOf op) p))
    conditioned := op.conditioned || (List.range 23040).any (blendConditions s op (weightsOf op)) }

/-! ### What is recorded (R119, R120) -/

/-- The treatment an operation records with its band (R119). -/
def treatmentOf (op : Operation) : Treatment :=
  match op.kind with
  | .temporal => .temporal
  | .spatial => .spatial
  | .hold => .hold
  | .adaptive => .adaptive op.motion

/-- The count of a motion class rises by one (R120). -/
def bumpClass (c : UnitCounts) : Option (Fin 4) → UnitCounts
  | none => { c with classNone := bump c.classNone }
  | some 0 => { c with class0 := bump c.class0 }
  | some 1 => { c with class1 := bump c.class1 }
  | some 2 => { c with class2 := bump c.class2 }
  | some 3 => { c with class3 := bump c.class3 }

/-- The kind counts and class counts at a BAND DONE (R120). -/
def countKind (op : Operation) (c : UnitCounts) : UnitCounts :=
  match op.kind with
  | .temporal => { c with temporal := bump c.temporal }
  | .spatial => { c with spatial := bump c.spatial }
  | .hold => { c with hold := bump c.hold }
  | .adaptive => bumpClass { c with adaptive := bump c.adaptive } op.motion

/-- The unit's counts at a BAND DONE (R120). -/
def countRepair (op : Operation) (c : UnitCounts) : UnitCounts :=
  let k := countKind op c
  if op.conditioned then { k with conditioned := bump k.conditioned } else k

/-- The unit hands its result store to the window, raises its counts and becomes IDLE (R107). -/
def handBand (op : Operation) (s : State) : State :=
  let s1 := moveBandWith op.slot op.field op.band (.repaired (treatmentOf op)) op.result s
  { s1 with repair := { op := none, counts := countRepair op s1.repair.counts } }

end Sys2Proof.Machine
end

