-- ==== Sys2Proof/Machine/Strategy.lean ====
section
/-! DEFINITION. Candidates and the chain walk (chapter 4). -/

namespace Sys2Proof.Machine

/-! ### Candidates (R63 to R68) -/

/-- P is usable: frame n-1's co-sited band (R64). -/
def usableP (s : State) (n : Nat) (f : Field) (b : Fin 18) : Bool :=
  if n = 0 then false else frameBandUsable s (n - 1) f b

/-- Frame n+1 has completed: a slot holds it in a state other than FILLING. -/
def followingCompleted (s : State) (n : Nat) : Bool :=
  match slotOf s (n + 1) with
  | some j => s.slots[j].state != .filling
  | none => false

/-- N is pending: frame n+1 has not completed, ingest is LOCKED and the window does not answer gap for it (R65). -/
def pendingN (s : State) (n : Nat) : Bool :=
  !followingCompleted s n && s.ingest.state == .locked && decide (windowAnswer s (n + 1) ≠ .gap)

/-- N is usable: settled present, with a usable co-sited band (R67). -/
def usableN (s : State) (n : Nat) (f : Field) (b : Fin 18) : Bool :=
  !pendingN s n && frameBandUsable s (n + 1) f b

/-- The bands of the other field that supply the neighbour lines of a band (R68). -/
def supplyingBands (bands : Nat) (f : Field) (b : Fin 18) : List (Fin 18) :=
  match f with
  | .a => if h : 0 < b.val then [⟨b.val - 1, by omega⟩, b] else [b]
  | .b => if h : b.val + 1 < bands ∧ b.val + 1 < 18 then [b, ⟨b.val + 1, h.2⟩] else [b]

/-- S is usable: every supplying band of the other field is in a usable state (R68). -/
def usableS (s : State) (i : Fin 32) (f : Field) (b : Fin 18) : Bool :=
  (supplyingBands (bandsPer s.settings.format) f b).all (fun c => bandUsable s i (otherField f) c)

/-- The candidates of band `b` of field `f` of the frame in slot `i`, a pending N counted unusable (R63, R75). -/
def candidatesOf (s : State) (i : Fin 32) (f : Field) (b : Fin 18) : Candidates :=
  match s.slots[i].frame with
  | some n => { p := usableP s n f b, n := usableN s n f b, s := usableS s i f b }
  | none => { p := false, n := false, s := usableS s i f b }

/-- N of the frame in slot `i` is pending (R65). -/
def slotPendingN (s : State) (i : Fin 32) : Bool :=
  match s.slots[i].frame with
  | some n => pendingN s n
  | none => false

/-! ### Availability and deferral (R70, R71, R74) -/

/-- An entry is available for a field of `count` damaged bands with the candidates given (R70, R71). -/
def entryAvailable (e : StrategyEntry) (count : Nat) (c : Candidates) : Bool :=
  decide (count ≤ e.limit) &&
    (match e.kind with
     | .temporal => c.p && c.n
     | .spatial => c.s
     | .adaptive => (c.p && c.n) || c.s
     | .hold => c.p
     | .pass => true)

/-- An entry of a kind that waits for N (R74). -/
def kindWaits : StrategyKind → Bool
  | .temporal => true
  | .adaptive => true
  | .spatial => false
  | .hold => false
  | .pass => false

/-- The walk defers at an entry: it waits, its limit admits the field, N is pending, and it would be available if N were usable
(R74). An entry that is available already is taken, not waited at (R73). -/
def entryDefers (e : StrategyEntry) (count : Nat) (c : Candidates) (nPending : Bool) : Bool :=
  kindWaits e.kind && e.wait && nPending && !entryAvailable e count c && entryAvailable e count { c with n := true }

/-! ### The walk (R73) -/

/-- The result of a walk (R75); for PASS, the form it took. -/
inductive WalkResult where
  | taken (entry : Fin 32)
  | defer (entry : Fin 32)
  | passedAtEnd
  | passedAtLimit
deriving DecidableEq, Repr

/-- Visit entries from `at`, at most `visits` of them (R73). -/
def walkFrom (entries : Vector StrategyEntry 32) (count : Nat) (c : Candidates) (nPending : Bool) :
    Nat → Fin 32 → WalkResult
  | 0, _ => .passedAtLimit
  | visits + 1, e =>
    if entryAvailable entries[e] count c then .taken e
    else if entryDefers entries[e] count c nPending then .defer e
    else
      match entries[e].next with
      | none => .passedAtEnd
      | some nx => walkFrom entries count c nPending visits nx

/-- The chain walk of a job's band: from the chain head, at most eight entries (R72, R73). -/
def walk (s : State) (j : Job) (b : Fin 18) : WalkResult :=
  walkFrom s.strategy.entries j.damaged (candidatesOf s j.slot j.field b) (slotPendingN s j.slot) 8 j.chain

/-- Each walk raises one walk count (R76). -/
def countWalk (w : WalkResult) (t : Strategy) : Strategy :=
  match w with
  | .taken e => { t with taken := t.taken.set e (bumpCount t.taken[e]) }
  | .defer _ => { t with deferrals := bumpCount t.deferrals }
  | .passedAtEnd => { t with passedAtEnd := bumpCount t.passedAtEnd }
  | .passedAtLimit => { t with passedAtLimit := bumpCount t.passedAtLimit }

/-- The repair kind of an entry taken; PASS gives none (R75). -/
def repairKind : StrategyKind → Option RepairKind
  | .temporal => some .temporal
  | .spatial => some .spatial
  | .adaptive => some .adaptive
  | .hold => some .hold
  | .pass => none

end Sys2Proof.Machine
end

