-- ==== Sys2Proof/Machine/Scheduler.lean ====
section
/-! DEFINITION. The Repair Scheduler (chapter 5): job creation, the priority order, the decision, the band turn, completion,
deferral, abandonment and the section reset. -/

namespace Sys2Proof.Machine

/-! ### Tiers, queues and the stack -/

/-- A tier's place in the priority order standing at a bottom tier, 0 the highest (R81). -/
def rank (bottom t : Fin 8) : Nat := (t.val + 7 - bottom.val) % 8

/-- The tiers from highest to lowest (R81). -/
def tierOrder (bottom : Fin 8) : List (Fin 8) := (List.finRange 8).map (fun k => bottom + 1 + k)

/-- A tier is in the mask set (R83). -/
def isMasked (s : State) (t : Fin 8) : Bool := s.sched.maskSet.getLsbD t.val

/-- A job stands in its tier queue (R80). -/
def isQueued (j : Job) : Bool := j.state == .pending || j.state == .waitingNext

/-- A job is in service (R86). -/
def inService (j : Job) : Bool := j.state == .active || j.state == .suspended

/-- A job's age: its distance behind the creation counter (R80). -/
def jobAge (s : State) (j : Job) : Nat := (s.sched.creation + 4294967296 - j.creation) % 4294967296

/-- Put a job in a list by a key, greatest key first; equal keys keep their order. -/
def placeBy (key : Job → Nat) (j : Job) : List Job → List Job
  | [] => [j]
  | k :: rest => if key k < key j then j :: k :: rest else k :: placeBy key j rest

/-- The jobs of a list by a key, greatest first. -/
def orderBy (key : Job → Nat) (jobs : List Job) : List Job := jobs.foldl (fun acc j => placeBy key j acc) []

/-- A tier's queue, oldest first (R80). -/
def tierQueue (s : State) (t : Fin 8) : List Job :=
  orderBy (jobAge s) (s.sched.jobs.filter (fun j => isQueued j && j.tier == t))

/-- The in-service stack from top to bottom (R86). -/
def serviceStack (s : State) : List Job :=
  orderBy (fun j => 8 - rank s.sched.bottom j.tier) (s.sched.jobs.filter inService)

/-- A queued job is eligible: PENDING, or WAITING NEXT with its frame's N not pending (R80). -/
def isEligible (s : State) (j : Job) : Bool :=
  match j.state with
  | .pending => true
  | .waitingNext => !slotPendingN s j.slot
  | .active => false
  | .suspended => false

/-- The ACTIVE job (R86). -/
def activeJob (s : State) : Option Job := s.sched.jobs.find? (fun j => j.state == .active)

/-- Change the job records in use. -/
def setJobs (jobs : List Job) (s : State) : State := { s with sched := { s.sched with jobs := jobs } }

/-- Change the job of a creation number. -/
def changeJob (c : Nat) (change : Job → Job) (s : State) : State :=
  setJobs (s.sched.jobs.map (fun j => if j.creation = c then change j else j)) s

/-! ### The decision (R88) -/

/-- A tier is higher than every tier in service (R88). -/
def aboveService (s : State) (t : Fin 8) : Bool :=
  s.sched.jobs.all (fun j => !inService j || decide (rank s.sched.bottom t < rank s.sched.bottom j.tier))

/-- The oldest eligible job of a tier's queue (R80). -/
def oldestEligible (s : State) (t : Fin 8) : Option Job := (tierQueue s t).find? (isEligible s)

/-- A tier may be granted from: not masked, an eligible job queued, above every tier in service (R88). -/
def tierQualifies (s : State) (t : Fin 8) : Bool :=
  !isMasked s t && (oldestEligible s t).isSome && aboveService s t

/-- The job the decision grants: the oldest eligible job of the highest tier that qualifies (R88). -/
def grantCandidate (s : State) : Option Job :=
  ((tierOrder s.sched.bottom).find? (tierQualifies s)).bind (oldestEligible s)

/-- One job becomes ACTIVE; a job that was ACTIVE becomes SUSPENDED and loses its held mark (R88). -/
def activated (c : Nat) (j : Job) : Job :=
  if j.creation = c then (if j.state = .active then j else { j with state := .active, held := false })
  else if j.state = .active then { j with state := .suspended, held := false }
  else j

/-- Make the job of a creation number ACTIVE. -/
def activate (c : Nat) (s : State) : State := setJobs (s.sched.jobs.map (activated c)) s

/-- The decision: grant, otherwise resume the highest job in service, otherwise idle; it discharges a decision owed (R87, R88). -/
def arbitrate (s : State) : State :=
  let s1 := { s with sched := { s.sched with owed := false } }
  match grantCandidate s with
  | some j => activate j.creation s1
  | none =>
    match (serviceStack s).head? with
    | some j => activate j.creation s1
    | none => s1

/-! ### The end of a job (R14, R92) -/

/-- The window lowers a REPAIRING slot's jobs outstanding; at 0 the slot becomes READY and releases its references (R14). -/
def slotJobEnded (i : Fin 32) (s : State) : State :=
  if s.slots[i].state = .repairing then
    let n := s.slots[i].jobsOutstanding - 1
    let s1 := s.setSlot i { s.slots[i] with jobsOutstanding := n }
    if n = 0 then releaseRefs i (s1.setSlot i { s1.slots[i] with state := .ready }) else s1
  else s

/-- In ROTATING mode a completed job's tier becomes the bottom tier (R82). -/
def rotated (t : Fin 8) (c : Scheduler) : Scheduler :=
  match c.tierMode with
  | .fixed => c
  | .rotating => { c with bottom := t }

/-- A job completes: steps 1 to 5 of R92; the decision follows. -/
def completeJob (j : Job) (s : State) : State :=
  let s1 := slotJobEnded j.slot s
  let c := rotated j.tier s1.sched
  { s1 with
    sched := { c with completed := bump c.completed, jobs := c.jobs.filter (fun k => k.creation != j.creation) } }

/-! ### The band turn (R89, R90, R94, R95) -/

/-- BAND START for the ACTIVE job's band (R90, R105). -/
def bandStart (j : Job) (b : Fin 18) (kind : RepairKind) (usable : Candidates) (s : State) : State :=
  { changeJob j.creation (fun k => { k with held := false }) s with
    sched :=
      { (changeJob j.creation (fun k => { k with held := false }) s).sched with
        counter := s.sched.counter - 1, started := s.sched.started + 1, bandsStarted := bump s.sched.bandsStarted }
    repair := { s.repair with op := some (startOperation j.slot j.field b kind usable) } }

/-- The job is held for budget: it stays ACTIVE and the walk's result is dropped (R94). -/
def holdJob (j : Job) (s : State) : State := changeJob j.creation (fun k => { k with held := true }) s

/-- The job defers: WAITING NEXT in its tier queue, its cursor kept (R95). -/
def deferJob (j : Job) (s : State) : State :=
  changeJob j.creation (fun k => { k with state := .waitingNext, held := false }) s

/-- A band of the job is settled: bands settled rises and the cursor moves to the next DAMAGED band, or PAST END (R89, R91). -/
def advanceJob (j : Job) (b : Fin 18) (s : State) : State :=
  changeJob j.creation
    (fun k => { k with held := false, settled := k.settled + 1, cursor := nextDamaged s j.slot j.field (b.val + 1) }) s

/-- What a band turn leaves to be done: nothing, a decision, or a further band turn (R89). -/
inductive TurnNext where
  | rest
  | decision
  | turn
deriving DecidableEq, Repr

/-- The walk yields PASS: the band becomes PASSED, the cursor moves on, and the job completes at PAST END (R89). -/
def passTurn (j : Job) (b : Fin 18) (s : State) : State × TurnNext :=
  let s1 := moveBand j.slot j.field b .passed s
  let s2 := advanceJob j b s1
  match nextDamaged s1 j.slot j.field (b.val + 1) with
  | some _ => (s2, .turn)
  | none => (completeJob j s2, .decision)

/-- The walk takes an entry of a repairing kind: BAND START, or held for budget with the counter at 0 (R89). -/
def takeTurn (j : Job) (b : Fin 18) (kind : RepairKind) (usable : Candidates) (s : State) : State × TurnNext :=
  if s.sched.counter = 0 then (holdJob j s, .rest) else (bandStart j b kind usable s, .rest)

/-- The band turn of the ACTIVE job: the chain is walked for the band at the cursor and the result acted on (R89). -/
def bandTurn (j : Job) (s : State) : State × TurnNext :=
  match j.cursor with
  | none => (completeJob j s, .decision)
  | some b =>
    let w := walk s j b
    let s1 := { s with strategy := countWalk w s.strategy }
    match w with
    | .taken e =>
      match repairKind s.strategy.entries[e].kind with
      | some kind => takeTurn j b kind (candidatesOf s j.slot j.field b) s1
      | none => passTurn j b s1
    | .passedAtEnd => passTurn j b s1
    | .passedAtLimit => passTurn j b s1
    | .defer _ => (deferJob j s1, .decision)

/-- Decisions and band turns in one act, until a band starts, a job is held or nothing is left to serve (R88, R89). -/
def serveJobs : Nat → TurnNext → State → State
  | 0, _, s => s
  | _ + 1, .rest, s => s
  | fuel + 1, .decision, s => serveJobs fuel .turn (arbitrate s)
  | fuel + 1, .turn, s =>
    match activeJob s with
    | none => s
    | some j =>
      if j.held && s.sched.counter == 0 then s
      else serveJobs fuel (bandTurn j s).2 (bandTurn j s).1

/-- Steps enough for every decision and band turn of one act: a job settles at most 18 bands, defers at most once and completes
at most once within it. -/
def actLength (s : State) : Nat := s.sched.jobs.length * 24 + 4

/-- Take a decision, with the band turns it brings (R88, R89). -/
def decideNow (s : State) : State := serveJobs (actLength s) .decision s

/-- A decision point: the decision is taken at once, or owed while a band operation is in flight (R87). -/
def decisionPoint (s : State) : State :=
  match s.repair.op with
  | some _ => { s with sched := { s.sched with owed := true } }
  | none => decideNow s

/-! ### Creation (R79) -/

/-- A new job joins its tier queue, PENDING (R79). -/
def newJob (s : State) (i : Fin 32) (f : Field) (tier : Fin 8) (chain : Fin 32) (damaged : Nat) : Job :=
  { slot := i, field := f, tier := tier, chain := chain, damaged := damaged, creation := s.sched.creation, state := .pending,
    cursor := nextDamaged s i f 0, held := false, settled := 0 }

/-- The Scheduler takes a record for a job handed over, and a decision is taken (R79). -/
def createJob (i : Fin 32) (f : Field) (tier : Fin 8) (chain : Fin 32) (damaged : Nat) (s : State) : State :=
  decisionPoint
    { s with
      sched :=
        { s.sched with
          jobs := s.sched.jobs ++ [newJob s i f tier chain damaged]
          creation := (s.sched.creation + 1) % 4294967296
          created := bump s.sched.created } }

/-! ### Measure done and BAND DONE (R106, R107, R91) -/

/-- Measure done: an operation in its MEASURE phase chooses its weights (R106). -/
def measureDone (s : State) : State :=
  match s.repair.op with
  | some op =>
    match op.phase with
    | .measure => { s with repair := { s.repair with op := some (measured s op) } }
    | .blend => s
  | none => s

/-- The Scheduler's part of a BAND DONE for the ACTIVE job, before its decision (R91). -/
def settleJob (op : Operation) (s : State) : State :=
  match activeJob s with
  | none => s
  | some j =>
    let s1 := advanceJob j op.band s
    match nextDamaged s j.slot j.field (op.band.val + 1) with
    | some _ => s1
    | none => completeJob j s1

/-- BAND DONE of an operation in its BLEND phase (R91, R107). -/
def bandDone (s : State) : State :=
  match s.repair.op with
  | some op =>
    match op.phase with
    | .blend => decideNow (settleJob op (handBand (blended s op) s))
    | .measure => s
  | none => s

/-! ### Cuts and removals (R97, R99, R100, R108) -/

/-- Cut the operation in flight, if any: result and record discarded, the budget kept spent (R108). -/
def cutOperation (s : State) : State :=
  match s.repair.op with
  | some _ =>
    { s with
      repair := { s.repair with op := none }
      sched := { s.sched with bandsCut := bump s.sched.bandsCut } }
  | none => s

/-- The operation in flight works on a slot. -/
def operationOn (i : Fin 32) (s : State) : Bool :=
  match s.repair.op with
  | some op => op.slot == i
  | none => false

/-- Abandon every job of a forced frame, cutting its band in flight (R97). -/
def abandonJobs (i : Fin 32) (s : State) : State :=
  let s1 := if operationOn i s then cutOperation s else s
  let gone := (s1.sched.jobs.filter (fun j => j.slot == i)).length
  { s1 with
    sched :=
      { s1.sched with
        jobs := s1.sched.jobs.filter (fun j => j.slot != i)
        abandoned := addTally s1.sched.abandoned gone } }

/-- Cut the operation in flight and remove every job; the decision that follows finds nothing and discharges a decision owed
(R99, R100). -/
def removeJobs (s : State) : State :=
  let s1 := cutOperation s
  { s1 with
    sched :=
      { s1.sched with jobs := [], owed := false, removed := addTally s1.sched.removed s1.sched.jobs.length } }

/-- The window's part of SECTION RESET SCHEDULER for one slot: a REPAIRING slot's DAMAGED bands become PASSED, its jobs and
references end and it becomes READY (R26). -/
def passSlot (i : Fin 32) (s : State) : State :=
  if s.slots[i].state = .repairing then
    let s1 := forBands (fun f b t => moveBand i f b .passed t) s
    releaseRefs i (s1.setSlot i { s1.slots[i] with jobsOutstanding := 0, state := .ready })
  else s

/-- The budget counter at SECTION RESET SCHEDULER: the setting less the bands started, never above its present value (R100). -/
def reloadedCounter (c : Scheduler) : Nat := min c.counter (c.bandBudget - c.started)

/-- SECTION RESET SCHEDULER (R100, R26). -/
def resetScheduler (s : State) : State :=
  let s1 := forSlots passSlot (removeJobs s)
  { s1 with sched := { s1.sched with bottom := 7, counter := reloadedCounter s1.sched } }

/-- The Scheduler's part of a field boundary: reload the counter, zero the started count, decide (R93). -/
def reloadBudget (s : State) : State :=
  decisionPoint { s with sched := { s.sched with counter := s.sched.bandBudget, started := 0 } }

end Sys2Proof.Machine
end

