-- ==== Sys2Proof/Machine/Spare.lean ====
section
/-! DEFINITION. The Spare Allocator (chapter 8): grants and refusals, the relocation table, and the index plan at close. -/

namespace Sys2Proof.Machine

/-! ### Grants (R156) -/

/-- The relocation frames standing or in flight, e + f (R156). -/
def relocationLoad (s : State) : Nat := s.spare.table.length + s.spare.inFlight

/-- The address of a relocation block the allocator would grant now: up, when the reserve law will hold after it (R156). -/
def grantAddress (s : State) : Option Nat :=
  match s.spare.region with
  | some r => if headroomFits r (relocationLoad s) 1 then some r.up else none
  | none => none

/-- A grant: up and f rise by one (R156). -/
def takeGrant (s : State) : State :=
  { s with
    spare :=
      { s.spare with
        region := s.spare.region.map (fun r => { r with up := r.up + 1 })
        inFlight := s.spare.inFlight + 1
        grants := bump s.spare.grants } }

/-- A refusal is tallied (R156). -/
def countRefusal (s : State) : State := { s with spare := { s.spare with refusals := bump s.spare.refusals } }

/-- The count of relocation writes in flight falls by one when a RELOCATED entry is resolved (R148, R156). -/
def settleInFlight (kind : WriteKind) (s : State) : State :=
  if kind = .relocated then { s with spare := { s.spare with inFlight := s.spare.inFlight - 1 } } else s

/-! ### The relocation table (R157) -/

/-- A frame's title address: title start + (frame number - first frame number) (R128, R157). -/
def titleAddress (s : State) (frame : Nat) : Nat :=
  match s.title.declaration with
  | some d => d.start + (frame - d.first)
  | none => 0

/-- A table entry goes to its place by ascending original address (R157). -/
def placeRelocation (x : RelocationEntry) : List RelocationEntry → List RelocationEntry
  | [] => [x]
  | y :: rest => if x.original < y.original then x :: y :: rest else y :: placeRelocation x rest

/-- Add a frame whose relocated recording stands (R157). -/
def addRelocation (frame relocated attempt : Nat) (s : State) : State :=
  { s with
    spare :=
      { s.spare with
        table :=
          placeRelocation
            { original := titleAddress s frame, relocated := relocated, frame := frame, attempt := attempt } s.spare.table } }

/-- Add a frame to the table if the entry that stood was a relocation write (R149, R150). -/
def addIfRelocated (kind : WriteKind) (frame relocated attempt : Nat) (s : State) : State :=
  if kind = .relocated then addRelocation frame relocated attempt s else s

/-! ### The index plan (R159 to R162) -/

/-- The number of index blocks for `e` table entries: ceiling(max(e, 1) / 32) (R159). -/
def indexBlocks (e : Nat) : Nat := (max e 1 + 31) / 32

/-- The index plan drawn up at the entry to CLOSING: first writings of every block in order (R159). -/
def drawPlan (e : Nat) : List PlanBlock :=
  (List.range (indexBlocks e)).map
    (fun n => { mark := { number := n, rewrite := false }, state := .toWrite, tag := none, address := none })

/-- The content of an index block (R159). -/
def indexContent (s : State) (mark : IndexMark) : IndexBlock :=
  { title := titleNumber s
    number := mark.number
    blocks := indexBlocks s.spare.table.length
    rewrite := mark.rewrite
    entries := (s.spare.table.drop (32 * mark.number)).take 32 }

/-- The blocks of the write list still TO WRITE. -/
def toWriteCount (plan : List PlanBlock) : Nat := (plan.filter (fun b => b.state == .toWrite)).length

/-- The next index block to write: the first of the write list TO WRITE, while down is at least up (R160). -/
def nextIndexBlock (s : State) : Option PlanBlock :=
  match s.spare.region, s.spare.plan with
  | some r, some plan => if (r.up : Int) ≤ r.down then plan.find? (fun b => b.state == .toWrite) else none
  | _, _ => none

/-- Change the block of a mark in the write list. -/
def changePlan (mark : IndexMark) (change : PlanBlock → PlanBlock) (s : State) : State :=
  { s with
    spare :=
      { s.spare with plan := s.spare.plan.map (fun plan => plan.map (fun b => if b.mark = mark then change b else b)) } }

/-- The allocator's part of an index block's WRITE START: the block becomes WRITTEN with its tag and address, down falls by one
(R160). -/
def indexWritten (mark : IndexMark) (tag address : Nat) (s : State) : State :=
  let s1 := changePlan mark (fun b => { b with state := .written, tag := some tag, address := some address }) s
  { s1 with
    spare :=
      { s1.spare with
        region := s1.spare.region.map (fun r => { r with down := r.down - 1 })
        indexWrites := bump s1.spare.indexWrites } }

/-- A failed first writing may be rewritten: down less the blocks TO WRITE is at least up (R161). -/
def rewriteFits (s : State) : Bool :=
  match s.spare.region, s.spare.plan with
  | some r, some plan => decide ((r.up : Int) ≤ r.down - (toWriteCount plan : Int))
  | _, _ => false

/-- A failed first writing is rewritten once: its copy, marked as a rewrite, goes to the tail of the write list TO WRITE, in
place of the failed writing (R161; log entry 8). -/
def queueRewrite (mark : IndexMark) (s : State) : State :=
  { s with
    spare :=
      { s.spare with
        plan :=
          s.spare.plan.map
            (fun plan =>
              plan.filter (fun b => b.mark != mark) ++
                [{ mark := { mark with rewrite := true }, state := .toWrite, tag := none, address := none }])
        indexRewrites := bump s.spare.indexRewrites } }

/-- A block is ABANDONED: INDEX FAILED is posted (R161). -/
def abandonBlock (mark : IndexMark) (s : State) : State :=
  let s1 := changePlan mark (fun b => { b with state := .abandoned }) s
  postIndexFailed { s1 with spare := { s1.spare with indexFailed := bump s1.spare.indexFailed } }

/-- An index block fails (R161). -/
def failIndex (mark : IndexMark) (s : State) : State :=
  if !mark.rewrite && rewriteFits s then queueRewrite mark s else abandonBlock mark s

/-- An index block passes: it is DONE (R161). -/
def passIndex (mark : IndexMark) (s : State) : State := changePlan mark (fun b => { b with state := .done }) s

/-- An index write is in flight (R162). -/
def indexInFlight (s : State) : Bool :=
  match s.feed.flight with
  | some w => w.kind == .index
  | none => false

/-- The close is complete: no block TO WRITE or WRITTEN, and no index write in flight (R162). -/
def closeDone (s : State) : Bool :=
  match s.spare.plan with
  | some plan => plan.all (fun b => b.state == .done || b.state == .abandoned) && !indexInFlight s
  | none => false

end Sys2Proof.Machine
end

