-- ==== Sys2Proof/Machine/Verify.lean ====
section
/-! DEFINITION. The Verify Tracker (chapter 8): entries, ageing, the resolution of a verdict, the relocation queue and the section
reset's resolutions. -/

namespace Sys2Proof.Machine

/-! ### Verdicts (R148) -/

/-- The burner's verdict on a write, or its timeout (R148). -/
inductive Verdict where
  | good
  | marginal
  | bad
  | timeout
deriving DecidableEq, Repr

/-- The effective result of a verdict: the recording stands, or it does not and why (R148). -/
inductive Effective where
  | pass (o : FrameOutcome)
  | fail (cause : FailCause)
deriving DecidableEq, Repr

/-- The effective result under the marginal policy (R148). -/
def effective (policy : MarginalPolicy) : Verdict → Effective
  | .good => .pass .good
  | .marginal =>
    match policy with
    | .accept => .pass .marginal
    | .relocate => .fail .marginal
  | .bad => .fail .bad
  | .timeout => .fail .timeout

/-- The outcome of a frame whose recording fails for good: MARGINAL for a marginal recording, LOST otherwise (R149, R150, R154). -/
def failedOutcome : FailCause → FrameOutcome
  | .marginal => .marginal
  | .bad => .lost
  | .timeout => .lost

/-- A verdict from an OUTCOME's result byte: GOOD 1, MARGINAL 2, BAD 3 (R202). -/
def verdictOf (result : Byte) : Option Verdict :=
  if result = 1 then some .good else if result = 2 then some .marginal else if result = 3 then some .bad else none

/-! ### Retirement (R148, R164) -/

/-- A retirement is tallied (R164). -/
def tallyRetirement (o : FrameOutcome) (v : Verify) : Verify :=
  match o with
  | .good => { v with good := bump v.good }
  | .marginal => { v with marginal := bump v.marginal }
  | .lost => { v with lost := bump v.lost }
  | .unverified => { v with unverified := bump v.unverified }

/-- A retirement is tallied, and one with outcome LOST posts FRAME LOST (R148, R164). -/
def postRetirement (o : FrameOutcome) (s : State) : State :=
  let s1 := { s with verify := tallyRetirement o s.verify }
  if o = .lost then postFrameLost s1 else s1

/-- A slot's frame retires through the window (R19, R21, R28). -/
def retireFrame (i : Fin 32) (o : FrameOutcome) (s : State) : State := retireSlot i o (postRetirement o s)

/-- A forfeited frame retires from its record copy (R150). -/
def retireCopy (copy : SlotRecord) (o : FrameOutcome) (s : State) : State :=
  handOver { copy with outcome := some o } (postRetirement o s)

/-- A gap fill retires; its report is always built (R151). -/
def retireGapFill (frame address : Nat) (fill : Option FillSource) (cue : Option Byte) (o : FrameOutcome) (s : State) : State :=
  let s1 := postRetirement o s
  addReport (gapFillReport s1 frame address fill cue o) s1

/-! ### Resolving an entry (R148 to R151, R161) -/

/-- The window takes the settlement of a slot's entry when the slot is SENT, holds the entry's frame and is not streaming (R19). -/
def slotFits (e : PendingEntry) (i : Fin 32) (s : State) : Bool :=
  s.slots[i].state == .sent && s.slots[i].frame == e.frame && !s.slots[i].streaming

/-- A failed write is to be relocated: the slot becomes RELOCATING and the frame joins the queue's tail (R20, R149). -/
def queueRelocation (i : Fin 32) (cause : FailCause) (s : State) : State :=
  let s1 := s.setSlot i { s.slots[i] with state := .relocating }
  { s1 with
    verify :=
      { s1.verify with
        queue := s1.verify.queue ++ [{ slot := i, frame := (s.slots[i].frame).getD 0, cause := cause }]
        queued := bump s1.verify.queued } }

/-- Resolve an ORIGINAL or RELOCATED entry that still holds its slot (R149). -/
def resolveSlot (e : PendingEntry) (i : Fin 32) (r : Effective) (s : State) : State :=
  if slotFits e i s then
    let add := addIfRelocated e.kind (e.frame.getD 0) e.address s.slots[i].attempts
    match r with
    | .pass o => retireFrame i o (add s)
    | .fail cause =>
      if s.slots[i].attempts < s.settings.attempts then queueRelocation i cause s
      else if cause = .marginal then retireFrame i .marginal (add s)
      else retireFrame i .lost s
  else s

/-- Resolve a forfeited entry from its record copy (R150). R9 calls every failed verification of one LOST; a failure of cause MARGINAL
retires MARGINAL here, as R150 has it (log entry 42). -/
def resolveForfeited (e : PendingEntry) (copy : SlotRecord) (r : Effective) (s : State) : State :=
  let add := addIfRelocated e.kind (copy.frame.getD 0) e.address copy.attempts
  match r with
  | .pass o => retireCopy copy o (add s)
  | .fail cause => if cause = .marginal then retireCopy copy .marginal (add s) else retireCopy copy .lost s

/-- Resolve a GAP FILL entry (R151). -/
def resolveGapFill (e : PendingEntry) (r : Effective) (s : State) : State :=
  let o := match r with
    | .pass o => o
    | .fail cause => failedOutcome cause
  retireGapFill (e.frame.getD 0) e.address e.fill e.cue o s

/-- Resolve an INDEX entry (R161). -/
def resolveIndex (e : PendingEntry) (r : Effective) (s : State) : State :=
  match e.index with
  | none => s
  | some mark =>
    match r with
    | .pass _ => passIndex mark s
    | .fail _ => failIndex mark s

/-- Resolve an ORIGINAL or RELOCATED entry: from its record copy when forfeited, through the window otherwise (R148). -/
def resolveFrame (e : PendingEntry) (r : Effective) (s : State) : State :=
  match e.copy with
  | some copy => resolveForfeited e copy r s
  | none =>
    match e.slot with
    | some i => resolveSlot e i r s
    | none => s

/-- Resolve an entry that has left the list with a verdict; the in-flight count falls first (R148). -/
def resolveEntry (e : PendingEntry) (v : Verdict) (s : State) : State :=
  let s1 := settleInFlight e.kind s
  let r := effective s.settings.marginal v
  match e.kind with
  | .index => resolveIndex e r s1
  | .gapFill => resolveGapFill e r s1
  | .original => resolveFrame e r s1
  | .relocated => resolveFrame e r s1

/-! ### Entries (R145, R146, R147) -/

/-- The entry of a completed write (R145). -/
def entryOf (w : Flight) : PendingEntry :=
  { tag := w.tag, kind := w.kind, address := w.address, frame := w.frame, slot := w.slot, forfeited := false, copy := none,
    fill := w.fill, cue := if w.kind = .gapFill then w.cue else none, index := w.index, age := 0 }

/-- A new entry goes to the tail of the list (R145). -/
def addEntry (w : Flight) (s : State) : State :=
  { s with verify := { s.verify with entries := s.verify.entries ++ [entryOf w] } }

/-- An entry leaves the list. -/
def removeEntry (tag : Nat) (s : State) : State :=
  { s with verify := { s.verify with entries := s.verify.entries.filter (fun e => e.tag != tag) } }

/-- Every entry ages by one WRITE SLOT (R146). -/
def ageEntries (s : State) : State :=
  { s with verify := { s.verify with entries := s.verify.entries.map (fun e => { e with age := e.age + 1 }) } }

/-- The oldest entry whose age exceeds the verify timeout (R146). -/
def overdueEntry (s : State) : Option PendingEntry :=
  s.verify.entries.find? (fun e => decide (s.settings.verifyTimeout < e.age))

/-- An entry times out: it leaves the list and is resolved as a failure with cause TIMEOUT (R146). -/
def timeOutEntry (e : PendingEntry) (s : State) : State :=
  let s1 := removeEntry e.tag s
  resolveEntry e .timeout { s1 with verify := { s1.verify with timeouts := bump s1.verify.timeouts } }

/-- The oldest overdue entry times out, if there is one (R146). -/
def timeOutOldest (s : State) : State :=
  match overdueEntry s with
  | some e => timeOutEntry e s
  | none => s

/-- Overdue entries time out, oldest first (R146). -/
def timeOutAll : Nat → State → State
  | 0, s => s
  | fuel + 1, s => timeOutAll fuel (timeOutOldest s)

/-- The Tracker's part of a WRITE SLOT: ageing, then the timeouts (R146). -/
def ageAndTimeOut (s : State) : State := timeOutAll s.verify.entries.length (ageEntries s)

/-- An OUTCOME is discarded (R147). -/
def discardOutcome (s : State) : State :=
  { s with verify := { s.verify with discarded := bump s.verify.discarded } }

/-- An OUTCOME is matched by its tag and resolves its entry, or is discarded (R147). -/
def takeOutcome (tag : Nat) (result : Byte) (s : State) : State :=
  match verdictOf result with
  | none => discardOutcome s
  | some v =>
    match s.verify.entries.find? (fun e => e.tag = tag) with
    | none => discardOutcome s
    | some e => resolveEntry e v (removeEntry tag s)

/-! ### The relocation queue's refusals and the section reset (R152, R154) -/

/-- The head of the relocation queue leaves it. -/
def dropHead (s : State) : State := { s with verify := { s.verify with queue := s.verify.queue.tail } }

/-- A relocation is refused: the frame leaves the queue, retires, and SPARE EXHAUSTED is posted (R154). -/
def refuseRelocation (q : QueueEntry) (s : State) : State :=
  postSpareExhausted (retireFrame q.slot (failedOutcome q.cause) (dropHead (countRefusal s)))

/-- An entry resolved UNVERIFIED by SECTION RESET RECORDER (R152). -/
def resolveUnverified (e : PendingEntry) (s : State) : State :=
  let s1 := settleInFlight e.kind s
  match e.kind with
  | .index =>
    match e.index with
    | some mark => failIndex mark s1
    | none => s1
  | .gapFill => retireGapFill (e.frame.getD 0) e.address e.fill e.cue .unverified s1
  | .original | .relocated =>
    match e.copy with
    | some copy => retireCopy copy .unverified s1
    | none =>
      match e.slot with
      | some i => if slotFits e i s1 then retireFrame i .unverified s1 else s1
      | none => s1

/-- SECTION RESET RECORDER: every pending entry, oldest first, is resolved UNVERIFIED (R152). -/
def resolveAllUnverified (s : State) : State :=
  s.verify.entries.foldl (fun t e => resolveUnverified e t) { s with verify := { s.verify with entries := [] } }

/-- SECTION RESET RECORDER: every frame of the relocation queue retires LOST, in queue order (R152). -/
def loseQueue (s : State) : State :=
  s.verify.queue.foldl (fun t q => retireFrame q.slot .lost t) { s with verify := { s.verify with queue := [] } }

/-- The Tracker's answer to the drain: list and queue empty (R162). -/
def verifyDone (s : State) : Bool := s.verify.entries.isEmpty && s.verify.queue.isEmpty

end Sys2Proof.Machine
end

