-- ==== Sys2Proof/Machine/Feed.lean ====
section
/-! DEFINITION. The Recorder Feed (chapter 7): the title candidate and choice, the write starts with their frame headers, forced
commit, WRITE END, cancellation and the recorder states. -/

namespace Sys2Proof.Machine

/-! ### The title candidate (R125) -/

/-- The title candidate for H (R125). -/
inductive TitleCandidate where
  | none
  | gapFill
  | original (i : Fin 32) (forced : Bool)
deriving DecidableEq, Repr

/-- A slot's age has reached the commit lag (R125, R126). -/
def lagReached (s : State) (i : Fin 32) : Bool :=
  match s.slots[i].age with
  | some a => decide (s.settings.commitLag ≤ a)
  | none => false

/-- The candidate a slot holding H makes (R125). -/
def slotCandidate (s : State) (i : Fin 32) : TitleCandidate :=
  match s.slots[i].state with
  | .ready => .original i (lagReached s i)
  | .repairing => if lagReached s i then .original i true else .none
  | .filling => .none
  | .free => .none
  | .sent => .none
  | .relocating => .none
  | .retained => .none

/-- The title candidate for the next title frame number (R125). -/
def titleCandidate (s : State) : TitleCandidate :=
  match s.feed.h with
  | none => .none
  | some h =>
    match windowAnswer s h with
    | .gap => .gapFill
    | .present i => slotCandidate s i
    | .unknown => .none

/-! ### Forced commit (R16, R17) -/

/-- The anchor whose co-sited band is usable (R6). -/
def anchorFor (s : State) (f : Field) (b : Fin 18) : Option (Fin 32) :=
  match s.anchor with
  | some a => if bandUsable s a f b then some a else none
  | none => none

/-- A DAMAGED band is settled from the anchor: HELD with the anchor band's samples, or PASSED (R17). -/
def settleBand (i : Fin 32) (f : Field) (b : Fin 18) (s : State) : State :=
  match anchorFor s f b with
  | some a => moveBandWith i f b .held (s.image a f b) s
  | none => moveBand i f b .passed s

/-- A forced commit: jobs abandoned, bands settled, references released, then the Scheduler's decision (R16, R97). -/
def forceCommit (i : Fin 32) (s : State) : State :=
  let s1 := abandonJobs i s
  let s2 := s1.setSlot i { s1.slots[i] with jobsOutstanding := 0 }
  let s3 := forBands (settleBand i) s2
  decisionPoint (releaseRefs i s3)

/-! ### Block contents (R129, R130, R132) -/

/-- The band treatments of a slot's field, one per band 0..B-1 (R132). -/
def headerBands (s : State) (r : SlotRecord) (f : Field) : List HeaderBand :=
  (bandsOf s).map (fun b =>
    match r.band f b with
    | some x => shownBand x
    | none => { treatment := .clean, count := 0 })

/-- The header of an ORIGINAL or RELOCATED write, from the slot record (R132). -/
def frameHeader (s : State) (i : Fin 32) (kind : WriteKind) (attempt : Nat) (cue : Option Byte) : FrameHeader :=
  { title := titleNumber s
    frame := s.slots[i].frame.getD 0
    kind := kind
    attempt := attempt
    cue := cue
    fill := none
    signals := signalsShown s.slots[i]
    bandsPerField := bandsPer s.settings.format
    treatments := ⟨headerBands s s.slots[i] .a, headerBands s s.slots[i] .b⟩ }

/-- The header of a GAP FILL write (R132). -/
def gapFillHeader (s : State) (h : Nat) (cue : Option Byte) (fill : FillSource) : FrameHeader :=
  let bands : List HeaderBand := List.replicate (bandsPer s.settings.format) { treatment := .fill, count := 0 }
  { title := titleNumber s
    frame := h
    kind := .gapFill
    attempt := 0
    cue := cue
    fill := some fill
    signals := ⟨noSignals, noSignals⟩
    bandsPerField := bandsPer s.settings.format
    treatments := ⟨bands, bands⟩ }

/-- The samples of a slot's two fields, bands 0..B-1, as they stand (R129). -/
def slotBands (s : State) (i : Fin 32) : PerField (List BandImage) :=
  ⟨(bandsOf s).map (s.image i .a), (bandsOf s).map (s.image i .b)⟩

/-- The fill source of a GAP FILL: the anchor with its frame number, or BLACK (R130). -/
def fillSource (s : State) : FillSource :=
  match s.anchor with
  | some a => .anchor (s.slots[a].frame.getD 0)
  | none => .black

/-- The samples of a GAP FILL: the anchor's two fields, or black (R130). -/
def fillBands (s : State) : PerField (List BandImage) :=
  match s.anchor with
  | some a => slotBands s a
  | none => ⟨(bandsOf s).map (fun _ => blackImage), (bandsOf s).map (fun _ => blackImage)⟩

/-! ### Write starts -/

/-- A write takes the write tag counter as its tag, and the counter rises by one, from 65535 to 0 (R133). -/
def takeTag (s : State) : State := { s with feed := { s.feed with tagCounter := (s.feed.tagCounter + 1) % 65536 } }

/-- The write in flight is recorded, the recorder state becomes WRITING and the WRITE goes to the burner (R128). -/
def beginStream (w : Flight) (content : BlockContent) (s : State) : State :=
  { s with
    feed := { s.feed with state := .writing, flight := some w }
    recorderOut := some (.write w.tag w.address content) }

/-- H after a title write: one higher, or absent after 4294967295 (R128). -/
def nextH (h : Nat) : Option Nat := if h = 4294967295 then none else some (h + 1)

/-- Steps 5 and 6 of a title write start: the gap list gives up H, and H rises (R128). -/
def passH (h : Nat) (s : State) : State :=
  { s with gaps := consumeGap s.gaps h, feed := { s.feed with h := nextH h } }

/-- The pending cue is attached to a title write and cleared (R131). -/
def clearCue (s : State) : State := { s with feed := { s.feed with pendingCue := none } }

/-- The slot record at an ORIGINAL WRITE START (R16). -/
def sentRecord (r : SlotRecord) (tag address : Nat) (cue : Option Byte) : SlotRecord :=
  { r with state := .sent, streaming := true, tag := some tag, address := some address, kind := some .original, cue := cue }

/-- Change the Feed's tallies. -/
def tallyFeed (change : FeedTallies → FeedTallies) (s : State) : State :=
  { s with feed := { s.feed with tallies := change s.feed.tallies } }

/-- The tallies of an ORIGINAL write (R142). -/
def tallyOriginal (forced commit : Bool) (t : FeedTallies) : FeedTallies :=
  { t with
    original := bump t.original
    forcedOriginal := if forced then bump t.forcedOriginal else t.forcedOriginal
    forcedCommits := if commit then bump t.forcedCommits else t.forcedCommits }

/-- The WRITE START of an ORIGINAL write of frame H from slot `i` (R128, R129). -/
def startOriginal (h : Nat) (i : Fin 32) (forced : Bool) (s : State) : State :=
  let tag := s.feed.tagCounter
  let address := titleAddress s h
  let commit := s.slots[i].state == .repairing
  let s1 := tallyFeed (tallyOriginal forced commit) (takeTag s)
  let s2 := if commit then forceCommit i s1 else s1
  let cue := s2.feed.pendingCue
  let s3 := s2.setSlot i (sentRecord s2.slots[i] tag address cue)
  let s4 := passH h (clearCue s3)
  beginStream
    { kind := .original, tag := tag, address := address, frame := some h, slot := some i, cue := cue, fill := none, index := none }
    (.frameBlock (frameHeader s4 i .original 0 cue) (slotBands s4 i)) s4

/-- The WRITE START of a GAP FILL write of frame H (R128, R130). -/
def startGapFill (h : Nat) (s : State) : State :=
  let tag := s.feed.tagCounter
  let address := titleAddress s h
  let cue := s.feed.pendingCue
  let s1 := tallyFeed (fun t => { t with gapFills := bump t.gapFills }) (takeTag s)
  let s2 := passH h (clearCue s1)
  beginStream
    { kind := .gapFill, tag := tag, address := address, frame := some h, slot := none, cue := cue, fill := some (fillSource s2),
      index := none }
    (.frameBlock (gapFillHeader s2 h cue (fillSource s2)) (fillBands s2)) s2

/-- The slot record at a relocation WRITE START (R20). -/
def relocatedRecord (r : SlotRecord) (tag address : Nat) : SlotRecord :=
  { r with
    state := .sent, streaming := true, attempts := r.attempts + 1, tag := some tag, address := some address,
    kind := some .relocated }

/-- The WRITE START of a relocation write at a granted block (R134). -/
def startRelocation (q : QueueEntry) (address : Nat) (s : State) : State :=
  let tag := s.feed.tagCounter
  let s1 := tallyFeed (fun t => { t with relocations := bump t.relocations }) (takeTag (takeGrant s))
  let s2 := dropHead s1
  let s3 := s2.setSlot q.slot (relocatedRecord s2.slots[q.slot] tag address)
  beginStream
    { kind := .relocated, tag := tag, address := address, frame := some q.frame, slot := some q.slot, cue := none, fill := none,
      index := none }
    (.frameBlock (frameHeader s3 q.slot .relocated s3.slots[q.slot].attempts none) (slotBands s3 q.slot)) s3

/-- The WRITE START of an INDEX write (R135, R160). -/
def startIndex (b : PlanBlock) (address : Nat) (s : State) : State :=
  let tag := s.feed.tagCounter
  let s1 := tallyFeed (fun t => { t with indexWrites := bump t.indexWrites }) (takeTag s)
  let s2 := indexWritten b.mark tag address s1
  beginStream
    { kind := .index, tag := tag, address := address, frame := none, slot := none, cue := none, fill := none,
      index := some b.mark }
    (.indexBlock (indexContent s2 b.mark)) s2

/-- IDLE SLOT is sent (R124, R142). -/
def sendIdle (s : State) : State :=
  { tallyFeed (fun t => { t with idleSlots := bump t.idleSlots }) s with recorderOut := some .idleSlot }

/-! ### The choices (R127, R135) -/

/-- Step 2 of the title choice: heads of the relocation queue are refused until a block is granted or the queue is empty; says
whether a relocation was written (R127). -/
def relocate : Nat → State → State × Bool
  | 0, s => (s, false)
  | fuel + 1, s =>
    match s.verify.queue with
    | [] => (s, false)
    | q :: _ =>
      match grantAddress s with
      | some address => (startRelocation q address s, true)
      | none =>
        relocate fuel (tallyFeed (fun t => { t with refused := bump t.refused }) (refuseRelocation q s))

/-- Steps 2 to 4 of the title choice, with the writable candidate if there is one (R127). -/
def relocateOr (writable : Option (Nat × Fin 32)) (s : State) : State :=
  let r := relocate s.verify.queue.length s
  if r.2 then r.1
  else
    match writable with
    | some (h, i) => startOriginal h i false r.1
    | none => sendIdle r.1

/-- The title choice (R127). -/
def titleChoice (s : State) : State :=
  match s.feed.h, titleCandidate s with
  | some h, .gapFill => startGapFill h s
  | some h, .original i true => startOriginal h i true s
  | some h, .original i false => relocateOr (some (h, i)) s
  | _, _ => relocateOr none s

/-- The choice in CLOSING: the next index block, or IDLE SLOT (R135, R160). -/
def indexChoice (s : State) : State :=
  match nextIndexBlock s, s.spare.region with
  | some b, some r => startIndex b r.down.toNat s
  | _, _ => sendIdle s

/-- The Feed's answer to a WRITE SLOT, by recorder state and title state (R123, R124). -/
def answerSlot (s : State) : State :=
  match s.feed.state with
  | .writing => sendIdle (tallyFeed (fun t => { t with overlapping := bump t.overlapping }) s)
  | .waiting | .paused =>
    let s1 := { s with feed := { s.feed with state := .waiting } }
    match s1.title.state with
    | .idle => sendIdle s1
    | .armed => sendIdle s1
    | .running => titleChoice s1
    | .draining => titleChoice s1
    | .closing => indexChoice s1

/-! ### Pause and resume (R123) -/

/-- PAUSE, by recorder state (R123). -/
def pauseFeed (s : State) : State :=
  match s.feed.state with
  | .waiting => { s with feed := { s.feed with state := .paused } }
  | .writing => { s with feed := { s.feed with pausePending := true } }
  | .paused => s

/-- RESUME, by recorder state (R123). -/
def resumeFeed (s : State) : State :=
  match s.feed.state with
  | .waiting => s
  | .writing => { s with feed := { s.feed with pausePending := false } }
  | .paused => { s with feed := { s.feed with state := .waiting } }

/-- The recorder state when a write ends or an Abort cancels it: PAUSED if a pause is pending, WAITING otherwise (R123, R139). -/
def leaveWriting (f : Feed) : Feed :=
  { f with state := if f.pausePending then .paused else .waiting, pausePending := false }

/-! ### WRITE END and cancellation (R136, R137) -/

/-- The window's part of the WRITE END of a write drawn from a slot (R136). -/
def slotWriteEnd (w : Flight) (s : State) : State :=
  match w.slot with
  | some i => windowWriteEnd i w.kind s
  | none => s

/-- WRITE END of the write in flight (R136). -/
def endWrite (w : Flight) (s : State) : State :=
  let s1 := slotWriteEnd w (addEntry w s)
  { s1 with feed := leaveWriting { s1.feed with flight := none } }

/-- Cancel the write in flight: CANCEL is sent, the slot stops streaming, no entry is made (R137). -/
def cancelWrite (s : State) : State :=
  match s.feed.flight with
  | none => s
  | some w =>
    let s1 := match w.slot with
      | some i => stopStreaming i s
      | none => s
    { tallyFeed (fun t => { t with cancels := bump t.cancels }) { s1 with feed := { s1.feed with flight := none } } with
      recorderOut := some (.cancel w.tag) }

/-- SECTION RESET RECORDER: what becomes of the frame or block of the write it cancelled (R140, R152). -/
def settleCancelled (w : Flight) (s : State) : State :=
  match w.kind with
  | .original | .relocated =>
    match w.slot with
    | some i => retireFrame i .unverified s
    | none => s
  | .gapFill => retireGapFill (w.frame.getD 0) w.address w.fill w.cue .unverified s
  | .index =>
    match w.index with
    | some mark => failIndex mark s
    | none => s

/-- Step 1 of SECTION RESET RECORDER (R140). -/
def cancelAndSettle (s : State) : State :=
  match s.feed.flight with
  | none => s
  | some w => settleCancelled w (cancelWrite s)

/-- SECTION RESET RECORDER (R140, R152, R28). -/
def resetRecorder (s : State) : State :=
  let s1 := loseQueue (resolveAllUnverified (cancelAndSettle s))
  { s1 with
    spare := { s1.spare with inFlight := 0 }
    feed := { s1.feed with state := .waiting, pausePending := false } }

/-- The Feed's part of an Abort after its write is cancelled: H and the pending cue absent, WRITING left (R139). -/
def abortFeed (s : State) : State :=
  let f := if s.feed.state = .writing then leaveWriting s.feed else s.feed
  { s with feed := { f with h := none, pendingCue := none } }

end Sys2Proof.Machine
end

