-- ==== Sys2Proof/Machine/Title.lean ====
section
/-! DEFINITION. The Title Controller's own moves (chapter 9): the drain, the entry to CLOSING, the close, and what every event that may
complete them ends with. -/

namespace Sys2Proof.Machine

/-- The five answers of the drain are all done (R171). -/
def drainDone (s : State) : Bool :=
  s.ingest.state == .stopped && windowDone s && s.feed.flight.isNone && verifyDone s && s.spare.inFlight == 0

/-- Entering CLOSING: the index plan is drawn up and the pending cue cleared (R138, R159, R171). -/
def enterClosing (s : State) : State :=
  { s with
    title := { s.title with state := .closing }
    spare := { s.spare with plan := some (drawPlan s.spare.table.length) }
    feed := { s.feed with pendingCue := none } }

/-- The title leaves DRAINING for CLOSING when the five answers are done (R171). -/
def checkDrain (s : State) : State :=
  if s.title.state = .draining ∧ drainDone s then enterClosing s else s

/-- TITLE CLOSED with the totals as they stand (R172). -/
def closedEvent (s : State) : TitleEvent :=
  { title := titleNumber s
    accepted := s.ingest.accepted
    dropped := s.ingest.dropped
    good := s.verify.good
    marginal := s.verify.marginal
    lost := s.verify.lost
    unverified := s.verify.unverified
    grants := s.spare.grants
    indexWrites := s.spare.indexWrites
    indexRewrites := s.spare.indexRewrites
    indexFailed := s.spare.indexFailed }

/-- Both declarations are cleared; the allocator's region, pointers and plan become absent (R162, R172, R173). -/
def clearDeclarations (s : State) : State :=
  { s with
    title := { s.title with declaration := none }
    spare := { s.spare with region := none, plan := none } }

/-- The title enters IDLE at the close: the window, ingest's numbers and the Feed's H follow (R172). -/
def endTitle (s : State) : State :=
  let s1 := windowClose s
  { s1 with
    title := { s1.title with state := .idle }
    ingest := { s1.ingest with next := none, last := none }
    feed := { s1.feed with h := none } }

/-- The close completes (R172). -/
def closeTitle (s : State) : State := endTitle (clearDeclarations (postTitleEvent (closedEvent s) s))

/-- The title leaves CLOSING when the allocator reports the close complete (R162, R172). -/
def checkClose (s : State) : State :=
  if s.title.state = .closing ∧ closeDone s then closeTitle s else s

/-- What an event that may complete a drain or a close ends with: the checks of R171 and R172, and every owner telling its
condition's truth (R194). -/
def settle (s : State) : State := tellConditions (checkClose (checkDrain s))

end Sys2Proof.Machine
end

