-- ==== Sys2Proof/Machine/Ingest.lean ====
section
/-! DEFINITION. Picture Ingest (chapter 2), with the completion of a frame (R11) and its classification (chapter 3). -/

namespace Sys2Proof.Machine

/-! ### Classification (R51 to R58) -/

/-- A field selector admits a field (R53). -/
def selects : Selector → Field → Bool
  | .fieldA, .a => true
  | .fieldA, .b => false
  | .fieldB, .a => false
  | .fieldB, .b => true
  | .either, _ => true

/-- A band index is in a rule's mask (R52). -/
def inMask (mask : BitVec 18) (b : Fin 18) : Bool := mask.getLsbD b.val

/-- A rule's test of the damaged-band set (R53). -/
def testHolds (r : Rule) (damaged : List (Fin 18)) : Bool :=
  match r.test with
  | .any => (List.finRange 18).any (fun b => inMask r.mask b && damaged.contains b)
  | .all => (List.finRange 18).all (fun b => !inMask r.mask b || damaged.contains b)
  | .none => (List.finRange 18).all (fun b => !inMask r.mask b || !damaged.contains b)

/-- Every side signal required is present (R53). -/
def signalsHold (required present : SideSignals) : Bool :=
  (!required.headFault || present.headFault) && (!required.trackingLow || present.trackingLow) &&
    (!required.noSignal || present.noSignal)

/-- A rule matches a field (R53). -/
def ruleMatches (r : Rule) (f : Field) (damaged : List (Fin 18)) (present : SideSignals) : Bool :=
  selects r.selector f && testHolds r damaged && signalsHold r.requirement present

/-- A rule slot holds a matching rule (R54). -/
def slotMatches (s : State) (f : Field) (damaged : List (Fin 18)) (present : SideSignals) (k : Fin 16) : Bool :=
  match s.classifier.rules[k] with
  | some r => ruleMatches r f damaged present
  | none => false

/-- The lowest rule slot that matches, if any (R54). -/
def firstMatch (s : State) (f : Field) (damaged : List (Fin 18)) (present : SideSignals) : Option (Fin 16) :=
  (List.finRange 16).find? (slotMatches s f damaged present)

/-- The tier and chain head of a matching slot, or the default outcome tier 7 and chain head 0 (R54). -/
def classOutcome (s : State) : Option (Fin 16) → Fin 8 × Fin 32
  | some k =>
    match s.classifier.rules[k] with
    | some r => (r.tier, r.chain)
    | none => (7, 0)
  | none => (7, 0)

/-- The match count of the slot that matched, or the default count, rises by one (R58). -/
def countMatch (k : Option (Fin 16)) (c : Classifier) : Classifier :=
  match k with
  | some i => { c with counts := c.counts.set i (bumpCount c.counts[i]) }
  | none => { c with defaultCount := bumpCount c.defaultCount }

/-- Classify one field of a completed frame and hand its job over; a field with no DAMAGED band gets none (R51, R54, R55). -/
def classifyField (i : Fin 32) (f : Field) (s : State) : State :=
  let damaged := damagedSet s i f
  if damaged.isEmpty then s
  else
    let present := (s.slots[i].signals.get f).getD noSignals
    let k := firstMatch s f damaged present
    let o := classOutcome s k
    createJob i f o.1 o.2 damaged.length { s with classifier := countMatch k s.classifier }

/-- The number of fields of a slot holding a DAMAGED band (R11). -/
def damagedFields (s : State) (i : Fin 32) : Nat :=
  (if (damagedSet s i .a).isEmpty then 0 else 1) + (if (damagedSet s i .b).isEmpty then 0 else 1)

/-! ### Completion (R11, R44) -/

/-- A completed frame with damage becomes REPAIRING: references, jobs outstanding, then its jobs, field A's first (R11). -/
def startRepair (i : Fin 32) (n : Nat) (s : State) : State :=
  let s1 := takeP i n (s.setSlot i { s.slots[i] with state := .repairing })
  let s2 := s1.setSlot i { s1.slots[i] with jobsOutstanding := damagedFields s i }
  classifyField i .b (classifyField i .a s2)

/-- The window's answer to a frame's completion (R11). -/
def windowComplete (i : Fin 32) (s : State) : State :=
  let n := s.slots[i].frame.getD 0
  let s1 := s.setSlot i { s.slots[i] with age := some 0 }
  let s2 :=
    if damagedFields s1 i = 0 then s1.setSlot i { s1.slots[i] with state := .ready }
    else startRepair i n s1
  decisionPoint (takeN i n s2)

/-- Change the ingest record. -/
def setFrame (a : Option Assembly) (s : State) : State := { s with ingest := { s.ingest with frame := a } }

/-- A frame with a slot is complete: absent bands are marked MISSING, no frame is under assembly, and the window answers (R44). -/
def completeFrame (i : Fin 32) (s : State) : State :=
  windowComplete i (setFrame none (markFieldMissing i .b (markFieldMissing i .a s)))

/-- Close the frame under assembly: a frame with a slot completes, a DROPPED frame is set aside (R39, R40, R45). -/
def closeFrame (s : State) : State :=
  match s.ingest.frame with
  | none => s
  | some a =>
    match a.slot with
    | some i => completeFrame i s
    | none => setFrame none s

/-! ### Leaving LOCKED, title full, STOP (R33, R37, R46, R170) -/

/-- Ingest enters STOPPED; leaving LOCKED is told to the Scheduler (R33, R46). -/
def enterStopped (s : State) : State :=
  let s1 := { s with ingest := { s.ingest with state := .stopped } }
  if s.ingest.state = .locked then decisionPoint s1 else s1

/-- Ingest stops accepting new frames as the title leaves RUNNING (R46). -/
def stopAccepting (s : State) : State :=
  let s1 := { s with ingest := { s.ingest with accepting := false } }
  match s.ingest.state with
  | .stopped => s1
  | .acquire => enterStopped s1
  | .locked =>
    match s.ingest.frame with
    | none => enterStopped s1
    | some a =>
      match a.slot with
      | none => enterStopped (setFrame none s1)
      | some _ => s1

/-- The title moves from RUNNING to DRAINING (R170). -/
def enterDraining (s : State) : State := stopAccepting { s with title := { s.title with state := .draining } }

/-- Ingest reports a title full: RUNNING moves to DRAINING with TITLE FULL posted, another state is unchanged (R170). -/
def reportTitleFull (s : State) : State :=
  if s.title.state = .running then enterDraining (postTitleFull s) else s

/-- A field is consumed and counted (R49). -/
def discardField (s : State) : State :=
  { s with ingest := { s.ingest with fieldsDiscarded := bump s.ingest.fieldsDiscarded } }

/-- A band is ignored and counted (R41). -/
def ignoreBand (s : State) : State := { s with ingest := { s.ingest with bandsIgnored := bump s.ingest.bandsIgnored } }

/-- Ingest, with no frame in assembly, is STOPPED if it is not already (R37, R46). -/
def ensureStopped (s : State) : State := if s.ingest.state = .stopped then s else enterStopped s

/-- A frame start refused because the title is full (R37). -/
def refuseFull (s : State) : State := ensureStopped (reportTitleFull (discardField s))

/-- The next frame number would exceed the last title frame number, or is absent (R37). -/
def titleIsFull (s : State) : Bool :=
  match s.ingest.next, s.ingest.last with
  | some n, some l => decide (l < n)
  | some _, none => false
  | none, _ => true

/-! ### Beginning a frame (R36, R38) -/

/-- The frame number after a number is taken (R36). -/
def numberAfter (n : Nat) : Option Nat := if n = 4294967295 then none else some (n + 1)

/-- The frame under assembly as a FIELD START begins it (R38). -/
def begunAssembly (n : Nat) (slot : Option (Fin 32)) (parity : Field) : Assembly :=
  { number := n, slot := slot, begunA := parity == .a, begunB := parity == .b, openField := some parity }

/-- Ingest's record after a slot request, with the number to be taken next (R36, R38). -/
def begunIngest (n : Nat) (parity : Field) (answer : Allocation) (g : Ingest) : Ingest :=
  match answer with
  | .slot i =>
    { g with
      next := numberAfter n, frame := some (begunAssembly n (some i) parity), watch := 0, accepted := bump g.accepted }
  | .dropped =>
    { g with next := numberAfter n, frame := some (begunAssembly n none parity), watch := 0, dropped := bump g.dropped }
  | .gapRefused =>
    { g with next := some n, frame := some (begunAssembly n none parity), watch := 0, dropped := bump g.dropped }

/-- A FIELD START that begins a frame (R38): the slot request, then what each answer brings. -/
def beginFrame (parity : Field) (signals : SideSignals) (s : State) : State :=
  let n := s.ingest.next.getD 0
  let r := allocate n parity signals s
  let s1 := { r.1 with ingest := begunIngest n parity r.2 r.1.ingest }
  match r.2 with
  | .slot i => if parity = .b then markFieldMissing i .a s1 else s1
  | .dropped => decisionPoint s1
  | .gapRefused => s1

/-- A frame start in LOCKED once the frame under assembly is closed: title full, not accepting, or a new frame (R37, R39, R46). -/
def frameStart (parity : Field) (signals : SideSignals) (s : State) : State :=
  if titleIsFull s then refuseFull s
  else if s.ingest.accepting then beginFrame parity signals s
  else ensureStopped (discardField s)

/-- A FIELD START B joins the frame under assembly: field A is closed if open, and field B opens (R40). -/
def joinFrame (a : Assembly) (signals : SideSignals) (s : State) : State :=
  let opened : Assembly := { a with begunB := true, openField := some .b }
  match a.slot with
  | some i =>
    let s1 := if a.openField = some .a then markFieldMissing i .a s else s
    setFrame (some opened) (s1.setSlot i { s1.slots[i] with signals := s1.slots[i].signals.put .b (some signals) })
  | none => setFrame (some opened) s

/-- The frame under assembly has begun field A only (R40). -/
def joinable (a : Assembly) : Bool := a.begunA && !a.begunB

/-- FIELD START in LOCKED (R39, R40). -/
def lockedFieldStart (parity : Field) (signals : SideSignals) (s : State) : State :=
  let s1 := { s with ingest := { s.ingest with watch := 0 } }
  match parity with
  | .a => frameStart .a signals (closeFrame s1)
  | .b =>
    match s.ingest.frame with
    | some a => if joinable a then joinFrame a signals s1 else frameStart .b signals (closeFrame s1)
    | none => frameStart .b signals s1

/-- FIELD START in ACQUIRE (R35). -/
def acquireFieldStart (parity : Field) (signals : SideSignals) (s : State) : State :=
  if s.ingest.discardPending then
    discardField { s with ingest := { s.ingest with discardPending := false } }
  else
    match parity with
    | .b => discardField s
    | .a =>
      if titleIsFull s then refuseFull s
      else beginFrame .a signals { s with ingest := { s.ingest with state := .locked, watch := 0 } }

/-- FIELD START, by ingest state (R31, R35, R39, R40). -/
def takeFieldStart (parity : Field) (signals : SideSignals) (s : State) : State :=
  match s.ingest.state with
  | .stopped => s
  | .acquire => acquireFieldStart parity signals s
  | .locked => lockedFieldStart parity signals s

/-! ### BAND and FIELD END (R41, R42) -/

/-- A BAND in the open field of a frame with a slot: stored, or ignored when out of range or a duplicate (R41). -/
def storeBand (i : Fin 32) (f : Field) (index count : Byte) (samples : BandImage) (s : State) : State :=
  if h : index.toNat < 18 then
    if index.toNat < bandsPer s.settings.format then
      match (s.slots[i]).band f ⟨index.toNat, h⟩ with
      | none => recordBand i f ⟨index.toNat, h⟩ count samples s
      | some _ => ignoreBand s
    else ignoreBand s
  else ignoreBand s

/-- BAND in LOCKED (R41). -/
def lockedBand (index count : Byte) (samples : BandImage) (s : State) : State :=
  match s.ingest.frame with
  | none => ignoreBand s
  | some a =>
    match a.openField with
    | none => ignoreBand s
    | some f =>
      match a.slot with
      | none => s
      | some i => storeBand i f index count samples s

/-- BAND, by ingest state (R31, R35, R41). -/
def takeBand (index count : Byte) (samples : BandImage) (s : State) : State :=
  match s.ingest.state with
  | .stopped => s
  | .acquire => ignoreBand s
  | .locked => lockedBand index count samples s

/-- A frame has ended while ingest is not accepting: ingest enters STOPPED (R46). -/
def stopIfDrained (s : State) : State := if s.ingest.accepting then s else ensureStopped s

/-- The end of field B of the frame under assembly (R42, R46). -/
def endFieldB (a : Assembly) (s : State) : State :=
  match a.slot with
  | some i => stopIfDrained (completeFrame i s)
  | none => stopIfDrained (setFrame none s)

/-- The end of field A: its undelivered bands are MISSING and no field is open (R42, R43). -/
def endFieldA (a : Assembly) (s : State) : State :=
  setFrame (some { a with openField := none })
    (match a.slot with
     | some i => markFieldMissing i .a s
     | none => s)

/-- FIELD END, by ingest state (R31, R35, R42). -/
def takeFieldEnd (s : State) : State :=
  match s.ingest.state with
  | .stopped => s
  | .acquire => s
  | .locked =>
    match s.ingest.frame with
    | none => s
    | some a =>
      match a.openField with
      | none => s
      | some .a => endFieldA a s
      | some .b => endFieldB a s

/-! ### Lock watch (R45) -/

/-- The lock is lost (R45). -/
def loseLock (s : State) : State :=
  let s1 := closeFrame s
  let g := s1.ingest
  if g.accepting then
    decisionPoint { s1 with ingest := { g with watch := 0, state := .acquire, discardPending := true } }
  else decisionPoint { s1 with ingest := { g with watch := 0, state := .stopped } }

/-- The lock is lost when ingest is LOCKED with a watch count of 3 (R45). -/
def checkLock (s : State) : State :=
  if s.ingest.state = .locked ∧ 3 ≤ s.ingest.watch then loseLock s else s

/-- Ingest's part of a field boundary (R45). -/
def watchBoundary (s : State) : State :=
  if s.ingest.state = .locked then checkLock { s with ingest := { s.ingest with watch := s.ingest.watch + 1 } } else s

/-! ### Section reset and Abort (R47, R48) -/

/-- Ingest's new state at SECTION RESET INGEST (R47). -/
def resetIngestState (s : State) : State :=
  if s.title.state = .running then { s with ingest := { s.ingest with state := .acquire, discardPending := true } }
  else { s with ingest := { s.ingest with state := .stopped } }

/-- The window discards the frame under assembly: its number becomes a gap, or is handed back with SOURCE GAP, and its slot is
FREE (R15, R24); says whether the gap was recorded. -/
def discardFilling (a : Assembly) (i : Fin 32) (s : State) : State × Bool :=
  match recordGap s.gaps a.number with
  | some runs => (freeSlot i { s with gaps := runs }, true)
  | none => (freeSlot i (postSourceGap { s with ingest := { s.ingest with next := some a.number } }), false)

/-- The frame under assembly is discarded or set aside (R47); says whether a gap was recorded. -/
def discardAssembly (s : State) : State × Bool :=
  match s.ingest.frame with
  | none => (s, false)
  | some a =>
    match a.slot with
    | some i => discardFilling a i s
    | none => (s, false)

/-- SECTION RESET INGEST (R47). A number that becomes a gap and ingest's leaving LOCKED are each told to the Scheduler (R101). -/
def resetIngest (s : State) : State :=
  let r := discardAssembly s
  let s1 := resetIngestState { r.1 with ingest := { r.1.ingest with frame := none, watch := 0 } }
  let s2 := if r.2 then decisionPoint s1 else s1
  if s.ingest.state = .locked then decisionPoint s2 else s2

/-- Ingest's part of an Abort (R48). -/
def abortIngest (s : State) : State :=
  let s1 :=
    { s with
      ingest :=
        { s.ingest with
          state := .stopped, accepting := false, frame := none, watch := 0, discardPending := false, next := none, last := none } }
  if s.ingest.state = .locked then decisionPoint s1 else s1

/-- Ingest's record at a START (R32, R34, R36). -/
def startedIngest (d : TitleDeclaration) : Ingest :=
  { state := .acquire, accepting := true, next := some d.first, last := some (min (d.first + d.capacity - 1) 4294967295),
    discardPending := true, watch := 0, frame := none, accepted := 0, dropped := 0, fieldsDiscarded := 0, bandsIgnored := 0 }

end Sys2Proof.Machine
end

