-- ==== Sys2Proof/Machine/Layouts.lean ====
section
/-! DEFINITION. Record and message layouts (chapter 11): name codes, set bits, the records, the recorder line's blocks, and the
control-line message with its check (R180, R181). -/

namespace Sys2Proof.Machine

/-! ### Names (Table 11-1) -/

/-- A yes or no item as a byte: no 0, yes 1 (log entry 9). -/
def yesByte (b : Bool) : Byte := if b then 1 else 0

/-- Title state codes. -/
def titleStateCode : TitleState → Byte
  | .idle => 0 | .armed => 1 | .running => 2 | .draining => 3 | .closing => 4

/-- Slot state codes. -/
def slotStateCode : SlotState → Byte
  | .free => 0 | .filling => 1 | .repairing => 2 | .ready => 3 | .sent => 4 | .relocating => 5 | .retained => 6

/-- Ingest state codes. -/
def ingestStateCode : IngestState → Byte
  | .stopped => 0 | .acquire => 1 | .locked => 2

/-- Recorder state codes. -/
def recorderStateCode : RecorderState → Byte
  | .waiting => 0 | .writing => 1 | .paused => 2

/-- Job state codes. -/
def jobStateCode : JobState → Nat
  | .pending => 0 | .waitingNext => 1 | .active => 2 | .suspended => 3

/-- Write kind codes. -/
def writeKindCode : WriteKind → Byte
  | .original => 1 | .gapFill => 2 | .relocated => 3 | .index => 4

/-- Outcome codes. -/
def outcomeCode : FrameOutcome → Byte
  | .good => 1 | .marginal => 2 | .lost => 3 | .unverified => 4

/-- The strategy kind code of a band operation's kind. -/
def repairKindCode : RepairKind → Byte
  | .temporal => 1 | .spatial => 2 | .adaptive => 3 | .hold => 4

/-- Picture format codes. -/
def formatCode : Format → Byte
  | .f25 => 25 | .f30 => 30

/-- Marginal policy codes. -/
def marginalCode : MarginalPolicy → Byte
  | .accept => 0 | .relocate => 1

/-- Pressure policy codes. -/
def pressureCode : PressurePolicy → Byte
  | .protectDisc => 0 | .protectSource => 1

/-- Tier mode codes. -/
def tierModeCode : TierMode → Byte
  | .fixed => 0 | .rotating => 1

/-- Timebase mode codes. -/
def timebaseCode : TimebaseMode → Byte
  | .synced => 0 | .freeRun => 1

/-- Fill source codes. -/
def fillCode : Option FillSource → Byte
  | none => 0 | some (.anchor _) => 1 | some .black => 2

/-- The fill frame number, 0 unless ANCHOR. -/
def fillFrame : Option FillSource → Nat
  | some (.anchor n) => n
  | some .black => 0
  | none => 0

/-! ### Sets (Table 11-2) and the treatment byte -/

/-- The number whose bit k is the k-th of a list of bits. -/
def bitsNumber : List Bool → Nat
  | [] => 0
  | b :: rest => (if b then 1 else 0) + 2 * bitsNumber rest

/-- A side-signal set, in three bits. -/
def signalsNumber (x : SideSignals) : Nat := bitsNumber [x.headFault, x.trackingLow, x.noSignal]

/-- Both fields' side signals in one byte: field A in bits 0..2, field B in bits 3..5. -/
def signalsByte (x : PerField SideSignals) : Byte := byteOf (signalsNumber x.a + 8 * signalsNumber x.b)

/-- A set of conditions as a byte. -/
def conditionsByte (c : Conditions) : Byte :=
  byteOf (bitsNumber [c.windowLow, c.spareLow, c.recorderPaused, c.ingestUnlocked, c.referenceFreeRun])

/-- A set of alerts as a byte. -/
def alertsByte (a : Alerts) : Byte :=
  byteOf (bitsNumber [a.frameLost, a.sourceGap, a.spareExhausted, a.reportsMissed, a.indexFailed, a.titleFull])

/-- The alerts that a byte names; bits 6 and 7 name no alert. -/
def alertsOf (b : Byte) : Alerts :=
  { frameLost := b.getLsbD 0, sourceGap := b.getLsbD 1, spareExhausted := b.getLsbD 2, reportsMissed := b.getLsbD 3,
    indexFailed := b.getLsbD 4, titleFull := b.getLsbD 5 }

/-- The side signals that a byte names; bits 3 to 7 name none. -/
def signalsOf (b : Byte) : SideSignals :=
  { headFault := b.getLsbD 0, trackingLow := b.getLsbD 1, noSignal := b.getLsbD 2 }

/-- The low four bits of a treatment byte: the motion class, or 0xF (11.1). -/
def motionNibble : Option (Fin 4) → Nat
  | some c => c.val
  | none => 15

/-- The band treatment byte (11.1). -/
def treatmentByte : HeaderTreatment → Byte
  | .clean => byteOf (16 * 0 + 15)
  | .repaired .temporal => byteOf (16 * 1 + 15)
  | .repaired .spatial => byteOf (16 * 2 + 15)
  | .repaired (.adaptive motion) => byteOf (16 * 3 + motionNibble motion)
  | .repaired .hold => byteOf (16 * 4 + 15)
  | .held => byteOf (16 * 5 + 15)
  | .passed => byteOf (16 * 6 + 15)
  | .fill => byteOf (16 * 7 + 15)

/-! ### Absent values (R199) -/

/-- A one-byte field that may be absent, 0xFF marking absence. -/
def orFF (x : Option Byte) : Byte := x.getD 0xFF

/-- A cue mark, 0 marking absence. -/
def cueByte (x : Option Byte) : Byte := x.getD 0

/-- A presence byte and a four-byte number, zeros when absent. -/
def presentNumber (x : Option Nat) : List Byte := yesByte x.isSome :: beBytes 4 (x.getD 0)

/-! ### The settings record (Table 11-5) -/

/-- A weight row. -/
def weightBytes (w : Weights) : List Byte := [byteOf w.p, byteOf w.n, byteOf w.s]

/-- The settings record as held: the Title Controller's settings and the Scheduler's four (R174, R175). -/
def settingsBytes (c : Settings) (q : Scheduler) : List Byte :=
  [formatCode c.format, byteOf c.threshold, byteOf c.commitLag, byteOf q.bandBudget, byteOf c.verifyTimeout,
    byteOf c.attempts, marginalCode c.marginal, pressureCode c.pressure] ++
    beBytes 2 c.t1 ++ beBytes 2 c.t2 ++ beBytes 2 c.t3 ++
    weightBytes c.weights[0] ++ weightBytes c.weights[1] ++ weightBytes c.weights[2] ++ weightBytes c.weights[3] ++
    [tierModeCode q.tierMode, byteOf q.bottom.val, q.maskSet]

/-! ### Reports and notices (Table 11-7, the notice payload) -/

/-- The field and band byte of a report's band entry: bit 7 set for field B. -/
def bandByte (f : Field) (b : Nat) : Byte :=
  match f with
  | .a => byteOf b
  | .b => byteOf (128 + b)

/-- A report's band entry. -/
def reportBandBytes (x : ReportBand) : List Byte := [bandByte x.field x.band, x.count, treatmentByte x.treatment]

/-- The report record (Table 11-7). -/
def reportBytes (r : Report) : List Byte :=
  beBytes 2 r.title ++ beBytes 4 r.frame ++ [writeKindCode r.kind] ++ beBytes 4 r.address ++
    [outcomeCode r.outcome, byteOf r.relocations, yesByte r.forfeited, signalsByte r.signals, cueByte r.cue, fillCode r.fill] ++
    beBytes 4 (fillFrame r.fill) ++ [byteOf r.bands.length] ++ r.bands.flatMap reportBandBytes

/-- A title event: TITLE CLOSED 1, the title number and the ten totals. -/
def titleEventBytes (e : TitleEvent) : List Byte :=
  [1] ++ beBytes 2 e.title ++ beBytes 4 e.accepted ++ beBytes 4 e.dropped ++ beBytes 4 e.good ++ beBytes 4 e.marginal ++
    beBytes 4 e.lost ++ beBytes 4 e.unverified ++ beBytes 4 e.grants ++ beBytes 4 e.indexWrites ++ beBytes 4 e.indexRewrites ++
    beBytes 4 e.indexFailed

/-- The notice payload (11.3). -/
def noticeBytes (n : Notice) : List Byte :=
  [byteOf n.count, conditionsByte n.carried, conditionsByte n.truths, alertsByte n.alerts, byteOf n.events.length] ++
    n.events.flatMap titleEventBytes

/-! ### Recorder-line blocks (R202, R203, Tables 11-9 and 11-10) -/

/-- A band's place in a frame header. -/
def headerBandBytes (x : HeaderBand) : List Byte := [treatmentByte x.treatment, x.count]

/-- The frame header (Table 11-9). -/
def headerBytes (h : FrameHeader) : List Byte :=
  beBytes 2 h.title ++ beBytes 4 h.frame ++
    [writeKindCode h.kind, byteOf h.attempt, cueByte h.cue, fillCode h.fill] ++ beBytes 4 (fillFrame h.fill) ++
    [signalsByte h.signals, byteOf h.bandsPerField] ++
    h.treatments.a.flatMap headerBandBytes ++ h.treatments.b.flatMap headerBandBytes

/-- A band's samples, two bytes each (R203). -/
def bandBytes (img : BandImage) : List Byte := (List.range 23040).flatMap (fun p => beBytes 2 (sampleAt img p).toNat)

/-- A relocation table entry, 13 bytes (Table 11-10). -/
def relocationBytes (x : RelocationEntry) : List Byte :=
  beBytes 4 x.original ++ beBytes 4 x.relocated ++ beBytes 4 x.frame ++ [byteOf x.attempt]

/-- An index block before padding (Table 11-10). -/
def indexBytes (b : IndexBlock) : List Byte :=
  beBytes 2 b.title ++ beBytes 2 b.number ++ beBytes 2 b.blocks ++ [byteOf b.entries.length, yesByte b.rewrite] ++
    b.entries.flatMap relocationBytes

/-- The length of a format 25 frame block: the 88-byte header and 36 bands (R203). -/
def frameBlockLength : Nat := 88 + 36 * (2 * 23040)

/-- The bytes of a block on the disc (R203). -/
def blockBytes : BlockContent → List Byte
  | .frameBlock header bands => headerBytes header ++ bands.a.flatMap bandBytes ++ bands.b.flatMap bandBytes
  | .indexBlock b => indexBytes b ++ List.replicate (frameBlockLength - (indexBytes b).length) 0

/-- The content code of a WRITE (R202). -/
def contentCode : BlockContent → Byte
  | .frameBlock _ _ => 1
  | .indexBlock _ => 2

/-- The bytes a WRITE, a CANCEL or an IDLE SLOT carries on the recorder line (R202). -/
def recorderBytes : RecorderMessage → List Byte
  | .write tag address content => beBytes 2 tag ++ beBytes 4 address ++ [contentCode content] ++ blockBytes content
  | .idleSlot => []
  | .cancel tag => beBytes 2 tag

/-! ### The control-line message (R180, R181) -/

/-- One bit into the check register, most significant first: x^16 + x^12 + x^5 + 1 (R181). -/
def checkBit (crc : BitVec 16) (bit : Bool) : BitVec 16 :=
  if xor crc.msb bit then (crc <<< 1) ^^^ 0x1021 else crc <<< 1

/-- One byte into the check register, most significant bit first (R181). -/
def checkByte (crc : BitVec 16) (b : Byte) : BitVec 16 :=
  [7, 6, 5, 4, 3, 2, 1, 0].foldl (fun c k => checkBit c (b.getLsbD k)) crc

/-- The check of a run of bytes, from a register of all ones (R181). -/
def checkOf (bs : List Byte) : BitVec 16 := bs.foldl checkByte 0xFFFF

/-- The bytes the check covers: length, kind, tag, payload (R180, R181). -/
def coveredBytes (kind tag : Byte) (payload : List Byte) : List Byte :=
  byteOf (payload.length + 2) :: kind :: tag :: payload

/-- The bytes of a whole message on the control line (R180, 11.2). -/
def framed (kind tag : Byte) (payload : List Byte) : List Byte :=
  0xA5 :: (coveredBytes kind tag payload ++ beBytes 2 (checkOf (coveredBytes kind tag payload)).toNat)

end Sys2Proof.Machine
end

