-- ==== Sys2Proof/Machine/Operands.lean ====
section
/-! DEFINITION. The operand forms of the requests: kinds, payload lengths, and the reading and checking of every payload's values
(R185 to R188, R199, R200, Tables 11-3 to 11-6). A reading that answers `none` is a structural error, REFUSED VALUE. -/

namespace Sys2Proof.Machine

/-! ### Requests, their kinds and payload lengths (Tables 11-3, 11-4) -/

/-- The fifteen requests (R187). -/
inductive RequestName where
  | configure | loadRule | loadEntry | adjust | declareSpare | openTitle | start | stop | abort | cue | readReport | ackAlerts
  | sectionReset | query | reset
deriving DecidableEq, Repr

/-- The request of a kind, if one is assigned (Table 11-3). -/
def requestOf (kind : Byte) : Option RequestName :=
  match kind.toNat with
  | 1 => some .configure
  | 2 => some .loadRule
  | 3 => some .loadEntry
  | 4 => some .adjust
  | 5 => some .declareSpare
  | 6 => some .openTitle
  | 7 => some .start
  | 8 => some .stop
  | 9 => some .abort
  | 10 => some .cue
  | 11 => some .readReport
  | 12 => some .ackAlerts
  | 13 => some .sectionReset
  | 14 => some .query
  | 15 => some .reset
  | _ => none

/-- The number of items an ADJUST's presence byte marks in bits 0..3 (R200). -/
def adjustItems (presence : Byte) : Nat :=
  ([presence.getLsbD 0, presence.getLsbD 1, presence.getLsbD 2, presence.getLsbD 3].filter (fun b => b)).length

/-- The length of an ADJUST payload fits its presence byte (R200). -/
def adjustFits (payload : List Byte) : Bool :=
  match payload with
  | [] => false
  | presence :: items => items.length == adjustItems presence

/-- The length check of R185, by Table 11-4. -/
def lengthFits (q : RequestName) (payload : List Byte) : Bool :=
  match q with
  | .configure => payload.length == 29
  | .loadRule => payload.length == 1 || payload.length == 9
  | .loadEntry => payload.length == 5
  | .adjust => adjustFits payload
  | .declareSpare => payload.length == 8
  | .openTitle => payload.length == 14
  | .start => payload.length == 0
  | .stop => payload.length == 0
  | .abort => payload.length == 0
  | .cue => payload.length == 1
  | .readReport => payload.length == 0
  | .ackAlerts => payload.length == 1
  | .sectionReset => payload.length == 1
  | .query => payload.length == 2
  | .reset => payload.length == 0

/-! ### Name codes received (Table 11-1) -/

/-- A picture format code. -/
def formatOf (b : Nat) : Option Format := if b = 25 then some .f25 else if b = 30 then some .f30 else none

/-- A marginal policy code. -/
def marginalOf (b : Nat) : Option MarginalPolicy := if b = 0 then some .accept else if b = 1 then some .relocate else none

/-- A pressure policy code. -/
def pressureOf (b : Nat) : Option PressurePolicy :=
  if b = 0 then some .protectDisc else if b = 1 then some .protectSource else none

/-- A tier mode code. -/
def tierModeOf (b : Nat) : Option TierMode := if b = 0 then some .fixed else if b = 1 then some .rotating else none

/-- A tier number 0..7. -/
def tierOf (b : Nat) : Option (Fin 8) := if h : b < 8 then some ⟨b, h⟩ else none

/-- A strategy entry index 0..31. -/
def entryOf32 (b : Nat) : Option (Fin 32) := if h : b < 32 then some ⟨b, h⟩ else none

/-- A rule slot index 0..15. -/
def ruleSlotOf (b : Nat) : Option (Fin 16) := if h : b < 16 then some ⟨b, h⟩ else none

/-- A strategy kind code. -/
def strategyKindOf (b : Nat) : Option StrategyKind :=
  match b with
  | 1 => some .temporal
  | 2 => some .spatial
  | 3 => some .adaptive
  | 4 => some .hold
  | 5 => some .pass
  | _ => none

/-- A field selector code. -/
def selectorOf (b : Nat) : Option Selector :=
  match b with
  | 1 => some .fieldA
  | 2 => some .fieldB
  | 3 => some .either
  | _ => none

/-- A test code. -/
def testOf (b : Nat) : Option RuleTest :=
  match b with
  | 1 => some .any
  | 2 => some .all
  | 3 => some .none
  | _ => none

/-- A wait-for-next item: 0 no, 1 yes (Table 11-4). -/
def waitOf (b : Nat) : Option Bool := if b = 0 then some false else if b = 1 then some true else none

/-- A next link: 0..31, or 0xFF for END (Table 11-4). -/
def nextOf (b : Nat) : Option (Option (Fin 32)) := if b = 255 then some none else (entryOf32 b).map some

/-! ### The settings record (R174, Table 11-5) -/

/-- The values a CONFIGURE carries, clamped, with the mark that some item was clamped. -/
structure ConfigRecord where
  settings : Settings
  bandBudget : Nat
  tierMode : TierMode
  bottom : Fin 8
  maskSet : Byte
  adjusted : Bool
deriving DecidableEq, Repr

/-- An item lies outside its range. -/
def outside (lo hi v : Nat) : Bool := decide (v < lo) || decide (hi < v)

/-- A weight row that sums to 64 (R117). -/
def weightRowOf (bs : List Byte) (offset : Nat) : Option Weights :=
  let w : Weights := ⟨byteAt bs offset, byteAt bs (offset + 1), byteAt bs (offset + 2)⟩
  if w.p + w.n + w.s = 64 then some w else none

/-- The motion thresholds are each 1..1015 and strictly ascending (R115). -/
def thresholdsFit (t1 t2 t3 : Nat) : Bool := decide (1 ≤ t1) && decide (t1 < t2) && decide (t2 < t3) && decide (t3 ≤ 1015)

/-- Some clampable item of a settings record is out of range (R174). -/
def someClamped (bs : List Byte) : Bool :=
  outside 1 255 (byteAt bs 1) || outside 2 24 (byteAt bs 2) || outside 1 64 (byteAt bs 3) || outside 4 60 (byteAt bs 4) ||
    outside 1 3 (byteAt bs 5)

/-- The settings record read, checked in full and clamped (R174). -/
def configRecordOf (bs : List Byte) : Option ConfigRecord := do
  let format ← formatOf (byteAt bs 0)
  let marginal ← marginalOf (byteAt bs 6)
  let pressure ← pressureOf (byteAt bs 7)
  let w0 ← weightRowOf bs 14
  let w1 ← weightRowOf bs 17
  let w2 ← weightRowOf bs 20
  let w3 ← weightRowOf bs 23
  let tierMode ← tierModeOf (byteAt bs 26)
  let bottom ← tierOf (byteAt bs 27)
  if thresholdsFit (numberAt bs 8 2) (numberAt bs 10 2) (numberAt bs 12 2) then
    some
      { settings :=
          { format := format
            threshold := clamp 1 255 (byteAt bs 1)
            commitLag := clamp 2 24 (byteAt bs 2)
            verifyTimeout := clamp 4 60 (byteAt bs 4)
            attempts := clamp 1 3 (byteAt bs 5)
            marginal := marginal
            pressure := pressure
            t1 := numberAt bs 8 2
            t2 := numberAt bs 10 2
            t3 := numberAt bs 12 2
            weights := #v[w0, w1, w2, w3] }
        bandBudget := clamp 1 64 (byteAt bs 3)
        tierMode := tierMode
        bottom := bottom
        maskSet := byteOf (byteAt bs 28)
        adjusted := someClamped bs }
  else none

/-! ### LOAD RULE and LOAD ENTRY (R57, R61, Tables 11-4, 11-6) -/

/-- A band mask of three bytes that names no index above 17. -/
def maskOf (bs : List Byte) (offset : Nat) : Option (BitVec 18) :=
  let m := numberAt bs offset 3
  if m < 2 ^ 18 then some (BitVec.ofNat 18 m) else none

/-- A side-signal requirement that names no signal but the three. -/
def requirementOf (bs : List Byte) (offset : Nat) : Option SideSignals :=
  let m := byteAt bs offset
  if m < 8 then some (signalsOf (byteOf m)) else none

/-- A rule record at an offset (Table 11-6). -/
def ruleOf (bs : List Byte) (offset : Nat) : Option Rule := do
  let selector ← selectorOf (byteAt bs offset)
  let mask ← maskOf bs (offset + 1)
  let test ← testOf (byteAt bs (offset + 4))
  let requirement ← requirementOf bs (offset + 5)
  let tier ← tierOf (byteAt bs (offset + 6))
  let chain ← entryOf32 (byteAt bs (offset + 7))
  return { selector := selector, mask := mask, test := test, requirement := requirement, tier := tier, chain := chain }

/-- A LOAD RULE payload: a slot, and a rule or EMPTY (R57). -/
def loadRuleOf (bs : List Byte) : Option (Fin 16 × Option Rule) := do
  let slot ← ruleSlotOf (byteAt bs 0)
  if bs.length = 1 then return (slot, none)
  else
    let rule ← ruleOf bs 1
    return (slot, some rule)

/-- A band limit 1..18 (R61). -/
def limitOf (b : Nat) : Option Nat := if 1 ≤ b ∧ b ≤ 18 then some b else none

/-- A LOAD ENTRY payload (R61). -/
def loadEntryOf (bs : List Byte) : Option (Fin 32 × StrategyEntry) := do
  let index ← entryOf32 (byteAt bs 0)
  let kind ← strategyKindOf (byteAt bs 1)
  let next ← nextOf (byteAt bs 2)
  let wait ← waitOf (byteAt bs 3)
  let limit ← limitOf (byteAt bs 4)
  return (index, { kind := kind, next := next, wait := wait, limit := limit })

/-! ### ADJUST (R84, R200) -/

/-- The items of an ADJUST; an absent one is `none`. -/
structure Adjustment where
  bandBudget : Option Nat
  maskSet : Option Byte
  tierMode : Option TierMode
  bottom : Option (Fin 8)
deriving DecidableEq, Repr

/-- Read an item that the presence byte marks, or leave it absent; `none` outside is a structural error. -/
def itemOf {α : Type} (present : Bool) (reading : Nat → Option α) (items : List Byte) : Option (Option α × List Byte) :=
  if present then
    match items with
    | [] => none
    | b :: rest => (reading b.toNat).map (fun v => (some v, rest))
  else some (none, items)

/-- An ADJUST payload, every present item checked (R84). -/
def adjustmentOf (bs : List Byte) : Option Adjustment :=
  match bs with
  | [] => none
  | presence :: items =>
    if 16 ≤ presence.toNat then none
    else do
      let budget ← itemOf (presence.getLsbD 0) (fun b => some b) items
      let mask ← itemOf (presence.getLsbD 1) (fun b => some (byteOf b)) budget.2
      let mode ← itemOf (presence.getLsbD 2) tierModeOf mask.2
      let bottom ← itemOf (presence.getLsbD 3) tierOf mode.2
      return { bandBudget := budget.1, maskSet := mask.1, tierMode := mode.1, bottom := bottom.1 }

/-- The band budget item was clamped (R84). -/
def adjustClamped (a : Adjustment) : Bool :=
  match a.bandBudget with
  | some b => outside 1 64 b
  | none => false

/-! ### Declarations (R155, R167) -/

/-- An OPEN TITLE payload (Table 11-4). -/
def declarationOf (bs : List Byte) : TitleDeclaration :=
  { number := numberAt bs 0 2, start := numberAt bs 2 4, capacity := numberAt bs 6 4, first := numberAt bs 10 4 }

/-- The title area's last address (R166). -/
def lastAddress (d : TitleDeclaration) : Nat := d.start + d.capacity - 1

/-- The capacity is at least 1 and the title area ends at or below 4294967295 (R167). -/
def areaFits (d : TitleDeclaration) : Bool := decide (1 ≤ d.capacity) && decide (lastAddress d ≤ 4294967295)

/-- Some address from `lo` to `hi` lies within the title area (R155, R167). -/
def overlaps (d : TitleDeclaration) (lo hi : Nat) : Bool := decide (d.start ≤ hi) && decide (lo ≤ lastAddress d)

/-- The spare region's size lies in 16..65536 (R155). -/
def regionFits (lo hi : Nat) : Bool := decide (lo ≤ hi) && decide (16 ≤ hi - lo + 1) && decide (hi - lo + 1 ≤ 65536)

/-! ### Sections and snapshots (R188, R189) -/

/-- The sections of SECTION RESET. -/
inductive Section where
  | ingest | scheduler | recorder
deriving DecidableEq, Repr

/-- A section code. -/
def sectionOf (b : Nat) : Option Section :=
  match b with
  | 1 => some .ingest
  | 2 => some .scheduler
  | 3 => some .recorder
  | _ => none

/-- The snapshots of QUERY. -/
inductive SnapshotName where
  | status | window | tiers | spare
deriving DecidableEq, Repr

/-- A snapshot code. -/
def snapshotOf (b : Nat) : Option SnapshotName :=
  match b with
  | 1 => some .status
  | 2 => some .window
  | 3 => some .tiers
  | 4 => some .spare
  | _ => none

/-- The number of parts of a snapshot that has parts (Table 11-8); SPARE is one part. -/
def partCount : SnapshotName → Nat
  | .status => 3
  | .window => 5
  | .tiers => 5
  | .spare => 1

end Sys2Proof.Machine
end

