-- ==== Sys2Proof/Config.lean ====
section
/-! DEFINITION. What an implementation fixes and the spec leaves open. Every constant here is a FREE VALUE: it has no body, so
no proof can lean on its value. They are byte codes that the snapshots of R201 carry and Table 11-1 does not assign
(log entry 5), and the four bytes of a spare pointer that has left the address range (log entry 10). -/

namespace Sys2Proof

/-- FREE VALUE. The byte that shows "fields begun" (A begun, B begun) of the frame under assembly in STATUS part 1. -/
opaque Config.fieldsBegunCode : Bool → Bool → Byte

/-- FREE VALUE. The byte that shows the open field (A or B) of the frame under assembly in STATUS part 1; none is 0xFF (R199). -/
opaque Config.openFieldCode : Field → Byte

/-- FREE VALUE. The byte that shows the field of the band in flight in TIERS part 0. -/
opaque Config.fieldCode : Field → Byte

/-- FREE VALUE. The byte that shows the phase of the band in flight in TIERS part 0; the argument says whether it is BLEND. -/
opaque Config.phaseCode : Bool → Byte

/-- FREE VALUE. The four bytes SPARE sends for a pointer outside 0..4294967295: down at -1, or up at 4294967296 (R155). -/
opaque Config.wideAddress : Int → BitVec 32

end Sys2Proof
end

