-- ==== Sys2Proof/Machine/Snapshots.lean ====
section
/-! DEFINITION. The snapshots of QUERY, part by part (R201, Table 11-8; R6a, R49, R103, R143, R165, R175, R198). Gathering one reads
the state and changes nothing. -/

namespace Sys2Proof.Machine

/-! ### STATUS -/

/-- The title declaration in fourteen bytes, zeros when absent. -/
def declarationBytes : Option TitleDeclaration → List Byte
  | some d => beBytes 2 d.number ++ beBytes 4 d.start ++ beBytes 4 d.capacity ++ beBytes 4 d.first
  | none => List.replicate 14 0

/-- S lo and S hi in eight bytes, zeros when absent. -/
def regionBytes : Option Region → List Byte
  | some r => beBytes 4 r.lo ++ beBytes 4 r.hi
  | none => List.replicate 8 0

/-- STATUS part 0: the Title Controller's part (R175). -/
def statusTitle (s : State) : List Byte :=
  [titleStateCode s.title.state, byteOf (bitsNumber [s.title.declaration.isSome, s.spare.region.isSome])] ++
    declarationBytes s.title.declaration ++ regionBytes s.spare.region ++ settingsBytes s.settings s.sched ++
    [timebaseCode s.timebase.mode] ++ beBytes 4 s.timebase.ignored

/-- The frame under assembly in eight bytes, zeros when absent; slot 0xFE for DROPPED, and 0xFF for no open field (R199). -/
def assemblyBytes : Option Assembly → List Byte
  | some a =>
    [1] ++ beBytes 4 a.number ++
      [match a.slot with
       | some i => byteOf i.val
       | none => 0xFE,
       Config.fieldsBegunCode a.begunA a.begunB, orFF (a.openField.map Config.openFieldCode)]
  | none => List.replicate 8 0

/-- Ingest's part of STATUS (R49). -/
def ingestBytes (g : Ingest) : List Byte :=
  [ingestStateCode g.state, yesByte g.accepting, yesByte g.discardPending, byteOf g.watch] ++ presentNumber g.next ++
    assemblyBytes g.frame ++ beBytes 4 g.accepted ++ beBytes 4 g.dropped ++ beBytes 4 g.fieldsDiscarded ++
    beBytes 4 g.bandsIgnored

/-- The write in flight in eleven bytes, kind 0 when absent (R188). An INDEX write has no frame number (R122) and the eleven bytes hold
no presence mark for it: that its four frame-number bytes are zeros is the model's choice (log entry 41). -/
def flightBytes : Option Flight → List Byte
  | some w => [writeKindCode w.kind] ++ beBytes 2 w.tag ++ beBytes 4 w.address ++ beBytes 4 (w.frame.getD 0)
  | none => List.replicate 11 0

/-- The Feed's eleven tallies. -/
def feedTallyBytes (t : FeedTallies) : List Byte :=
  [t.slotsTaken, t.idleSlots, t.overlapping, t.original, t.forcedOriginal, t.forcedCommits, t.gapFills, t.relocations, t.refused,
    t.indexWrites, t.cancels].flatMap (beBytes 4)

/-- The Feed's part of STATUS (R143). -/
def feedBytes (f : Feed) (commitLag : Nat) : List Byte :=
  [recorderStateCode f.state, yesByte f.pausePending] ++ presentNumber f.h ++ beBytes 2 f.tagCounter ++ [cueByte f.pendingCue] ++
    flightBytes f.flight ++ [byteOf commitLag] ++ feedTallyBytes f.tallies

/-- STATUS part 1: ingest and the Feed. -/
def statusTransfer (s : State) : List Byte := ingestBytes s.ingest ++ feedBytes s.feed s.settings.commitLag

/-- STATUS part 2: the Report Unit and the Control Link Unit (R198), as Table 11-8 lists them. R198 says that this part carries all
its items but the done list's contents, and the table gives no byte for the receiver and only counts for the receive queue, the
messages waiting and the title events: that the table's list is the whole part is the model's choice (log entry 39). -/
def statusLink (s : State) : List Byte :=
  [byteOf s.reports.done.length, byteOf s.reports.missed, byteOf s.reports.added, conditionsByte s.reports.truths,
    conditionsByte s.reports.reported, alertsByte s.reports.alerts, byteOf s.reports.events.length,
    byteOf s.link.queue.length, byteOf s.link.waiting.length] ++
    [s.link.lengthDiscards, s.link.gapDiscards, s.link.checkDiscards, s.link.kindDiscards, s.link.refusedFull,
      s.link.noticesSent, s.link.noticesWithdrawn, s.link.eventsLost].flatMap (beBytes 4)

/-! ### WINDOW (R6a) -/

/-- A slot in fifteen bytes. -/
def slotBytes (r : SlotRecord) : List Byte :=
  [slotStateCode r.state] ++ beBytes 4 (r.frame.getD 0) ++
    [byteOf (r.age.getD 0), byteOf r.refs, byteOf r.jobsOutstanding] ++ beBytes 2 (r.tag.getD 0) ++
    [orFF (r.kind.map writeKindCode),
      byteOf (bitsNumber [r.streaming, false, r.frame.isSome, r.age.isSome, r.tag.isSome]),
      byteOf r.attempts, orFF (r.outcome.map outcomeCode), cueByte r.cue]

/-- A run of the gap list in six bytes. -/
def runBytes (r : GapRun) : List Byte := beBytes 4 r.first ++ beBytes 2 r.length

/-- WINDOW parts 0..3: eight slots each, preceded by their count (R201; log entry 27). -/
def windowSlots (s : State) (part : Nat) : List Byte :=
  let slots := (s.slots.toList.drop (8 * part)).take 8
  byteOf slots.length :: slots.flatMap slotBytes

/-- WINDOW part 4: the anchor, the FREE count and the gap list. -/
def windowGaps (s : State) : List Byte :=
  [orFF (s.anchor.map (fun i => byteOf i.val)), byteOf (countSlots (fun r => r.state == .free) s), byteOf s.gaps.length] ++
    s.gaps.flatMap runBytes

/-! ### TIERS (R103) -/

/-- The band in flight in nine bytes, zeros when absent. -/
def operationBytes : Option Operation → List Byte
  | some op =>
    [1, byteOf op.slot.val, Config.fieldCode op.field, byteOf op.band.val, repairKindCode op.kind,
      Config.phaseCode (op.phase == .blend), orFF (op.motion.map (fun c => byteOf c.val))] ++
      beBytes 2 (op.m.getD 0xFFFF)
  | none => List.replicate 9 0

/-- The six Scheduler tallies (R102). -/
def schedTallyBytes (q : Scheduler) : List Byte :=
  [q.created, q.completed, q.abandoned, q.removed, q.bandsStarted, q.bandsCut].flatMap (beBytes 4)

/-- The ten counts of the Band Reconstruction Unit (R120). -/
def unitCountBytes (c : UnitCounts) : List Byte :=
  [c.temporal, c.spatial, c.hold, c.adaptive, c.class0, c.class1, c.class2, c.class3, c.classNone, c.conditioned].flatMap
    (beBytes 4)

/-- TIERS part 0. -/
def tiersState (s : State) : List Byte :=
  [byteOf s.sched.bottom.val, tierModeCode s.sched.tierMode, s.sched.maskSet, byteOf s.sched.bandBudget, byteOf s.sched.counter,
    byteOf s.sched.started, yesByte s.sched.owed] ++
    operationBytes s.repair.op ++ schedTallyBytes s.sched ++ unitCountBytes s.repair.counts

/-- TIERS part 1: the match counts and the walk counts (R58, R76). -/
def tiersCounts (s : State) : List Byte :=
  (s.classifier.counts.toList ++ [s.classifier.defaultCount]).flatMap (beBytes 2) ++
    (s.strategy.taken.toList ++ [s.strategy.passedAtEnd, s.strategy.passedAtLimit, s.strategy.deferrals]).flatMap (beBytes 2)

/-- The job list: the in-service stack from top to bottom, then the tier queues in priority order, oldest first (R201). -/
def jobList (s : State) : List Job := serviceStack s ++ (tierOrder s.sched.bottom).flatMap (tierQueue s)

/-- A job's field, state, eligible and held in one byte. -/
def jobFlags (s : State) (j : Job) : Byte :=
  byteOf ((if j.field = .b then 128 else 0) + 16 * jobStateCode j.state + (if isEligible s j then 2 else 0) +
    (if j.held then 1 else 0))

/-- A job in ten bytes. -/
def jobBytes (s : State) (j : Job) : List Byte :=
  [byteOf j.slot.val] ++ beBytes 4 (s.slots[j.slot].frame.getD 0) ++
    [jobFlags s j, byteOf j.tier.val,
      match j.cursor with
      | some b => byteOf b.val
      | none => 0xFE,
      byteOf j.damaged, byteOf j.settled]

/-- TIERS parts 2..4: twenty-four jobs each, preceded by their count (R201). -/
def tiersJobs (s : State) (part : Nat) : List Byte :=
  let jobs := ((jobList s).drop (24 * (part - 2))).take 24
  byteOf jobs.length :: jobs.flatMap (jobBytes s)

/-! ### SPARE (R165) -/

/-- A spare pointer in four bytes; one outside the address range is a free value (log entry 10). -/
def pointerBytes (a : Int) : List Byte :=
  beBytes 4 (if 0 ≤ a ∧ a ≤ 4294967295 then a.toNat else (Config.wideAddress a).toNat)

/-- Size in four bytes after S lo and S hi; up and down; zeros when no region is declared. -/
def regionPart (region : Option Region) : List Byte :=
  regionBytes region ++ beBytes 4 ((region.map Region.size).getD 0)

/-- up and down, zeros when no region is declared. -/
def pointerPart : Option Region → List Byte
  | some r => pointerBytes r.up ++ pointerBytes r.down
  | none => List.replicate 8 0

/-- A block of the index plan in one byte. -/
def planByte (b : PlanBlock) : Byte :=
  byteOf ((match b.state with
    | .toWrite => 0
    | .written => 1
    | .done => 2
    | .abandoned => 3) + (if b.mark.rewrite then 128 else 0))

/-- The pending entry count, and the oldest entry's tag and age; with no entry the tag, which uses its whole range, is sent as zeros
and the age as 0xFF (R199; log entry 6). -/
def oldestPart (entries : List PendingEntry) : List Byte :=
  [byteOf entries.length] ++
    (match entries.head? with
     | some e => beBytes 2 e.tag ++ [byteOf e.age]
     | none => [0, 0, 0xFF])

/-- The twelve tallies of R164. -/
def spareTallyBytes (v : Verify) (p : Spare) : List Byte :=
  [v.good, v.marginal, v.lost, v.unverified, v.timeouts, v.discarded, v.queued, p.grants, p.refusals, p.indexWrites,
    p.indexRewrites, p.indexFailed].flatMap (beBytes 4)

/-- Up to eight relocation table entries from an index, preceded by their count. -/
def tablePart (table : List RelocationEntry) (first : Nat) : List Byte :=
  byteOf ((table.drop first).take 8).length :: ((table.drop first).take 8).flatMap relocationBytes

/-- The SPARE snapshot, with table entries from an index (R165). With no index plan its block count byte is 0, which the spec does not
state (log entry 43). -/
def spareSnapshot (s : State) (first : Nat) : List Byte :=
  [yesByte s.spare.region.isSome] ++ regionPart s.spare.region ++ pointerPart s.spare.region ++
    beBytes 2 s.spare.table.length ++ beBytes 2 s.spare.inFlight ++ beBytes 2 ((headroom s).getD 0) ++
    [yesByte (spareLowNow s), byteOf s.settings.verifyTimeout, byteOf s.settings.attempts, marginalCode s.settings.marginal] ++
    oldestPart s.verify.entries ++
    (byteOf s.verify.queue.length :: s.verify.queue.map (fun q => byteOf q.slot.val)) ++
    (byteOf (s.spare.plan.getD []).length :: (s.spare.plan.getD []).map planByte) ++
    tablePart s.spare.table first ++ spareTallyBytes s.verify s.spare

/-! ### Parts -/

/-- The contents of a part of a snapshot (Table 11-8); for SPARE the parameter is the first table index. -/
def snapshotPart (n : SnapshotName) (parameter : Nat) (s : State) : List Byte :=
  match n with
  | .status => if parameter = 0 then statusTitle s else if parameter = 1 then statusTransfer s else statusLink s
  | .window => if parameter < 4 then windowSlots s parameter else windowGaps s
  | .tiers => if parameter = 0 then tiersState s else if parameter = 1 then tiersCounts s else tiersJobs s parameter
  | .spare => spareSnapshot s parameter

/-- A part number at or above the snapshot's part count is refused; SPARE's parameter is no part number (R188). -/
def parameterFits (n : SnapshotName) (parameter : Nat) : Bool :=
  match n with
  | .status => decide (parameter < partCount .status)
  | .window => decide (parameter < partCount .window)
  | .tiers => decide (parameter < partCount .tiers)
  | .spare => true

/-- The part number a QUERY reply carries; SPARE, being one part, answers 0 (log entry 11). -/
def partNumber (n : SnapshotName) (parameter : Nat) : Nat :=
  match n with
  | .status => parameter
  | .window => parameter
  | .tiers => parameter
  | .spare => 0

end Sys2Proof.Machine
end

