-- ==== Sys2Proof/Machine/Requests.lean ====
section
/-! DEFINITION. What each request does when it is served (R185 to R189): the four checks, then the owner's act and the reply payload. A
refused request changes nothing. -/

namespace Sys2Proof.Machine

/-! ### Replies (R186, Table 11-1) -/

/-- What serving a request gives: the state after it, and the reply payload. -/
abbrev Served := State × List Byte

/-- Reply statuses (R186). -/
inductive ReplyStatus where
  | ok | okAdjusted | okReplaced | refusedState | refusedValue | refusedUnknown | refusedLength | refusedFull
deriving DecidableEq, Repr

/-- Reply status codes (Table 11-1). -/
def statusCode : ReplyStatus → Byte
  | .ok => 0
  | .okAdjusted => 1
  | .okReplaced => 2
  | .refusedState => 16
  | .refusedValue => 17
  | .refusedUnknown => 18
  | .refusedLength => 19
  | .refusedFull => 20

/-- A reply that carries its status alone, with a state. -/
def answer (status : ReplyStatus) (s : State) : Served := (s, [statusCode status])

/-! ### CONFIGURE (R174) -/

/-- The Scheduler's settings and the Title Controller's take a record's values. -/
def takeConfig (c : ConfigRecord) (s : State) : State :=
  { s with
    settings := c.settings
    sched := { s.sched with bandBudget := c.bandBudget, tierMode := c.tierMode, bottom := c.bottom, maskSet := c.maskSet } }

/-- CONFIGURE in IDLE (R174). -/
def carryConfigure (payload : List Byte) (s : State) : Served :=
  match configRecordOf payload with
  | none => answer .refusedValue s
  | some c => answer (if c.adjusted then .okAdjusted else .ok) (takeConfig c s)

/-! ### LOAD RULE, LOAD ENTRY (R57, R61) -/

/-- A rule slot takes a rule or becomes empty, and its match count is 0 (R57, R58). -/
def takeRule (slot : Fin 16) (rule : Option Rule) (s : State) : State :=
  { s with
    classifier :=
      { s.classifier with rules := s.classifier.rules.set slot rule, counts := s.classifier.counts.set slot 0 } }

/-- LOAD RULE in IDLE or ARMED (R57). -/
def carryLoadRule (payload : List Byte) (s : State) : Served :=
  match loadRuleOf payload with
  | none => answer .refusedValue s
  | some (slot, rule) => answer .ok (takeRule slot rule s)

/-- A strategy entry takes its four items, and its taken count is 0 (R61, R76). -/
def takeEntry (index : Fin 32) (e : StrategyEntry) (s : State) : State :=
  { s with
    strategy := { s.strategy with entries := s.strategy.entries.set index e, taken := s.strategy.taken.set index 0 } }

/-- LOAD ENTRY in IDLE or ARMED (R61). -/
def carryLoadEntry (payload : List Byte) (s : State) : Served :=
  match loadEntryOf payload with
  | none => answer .refusedValue s
  | some (index, e) => answer .ok (takeEntry index e s)

/-! ### ADJUST (R84, R85) -/

/-- The Scheduler takes the present items (R84). -/
def takeAdjustment (a : Adjustment) (s : State) : State :=
  { s with
    sched :=
      { s.sched with
        bandBudget := (a.bandBudget.map (clamp 1 64)).getD s.sched.bandBudget
        maskSet := a.maskSet.getD s.sched.maskSet
        tierMode := a.tierMode.getD s.sched.tierMode
        bottom := a.bottom.getD s.sched.bottom } }

/-- ADJUST in any state: the items present are taken, then comes the decision point every accepted ADJUST is; with no item present no
item changes, and the decision point comes all the same (R84, R85, R87; log entry 12). -/
def carryAdjust (payload : List Byte) (s : State) : Served :=
  match adjustmentOf payload with
  | none => answer .refusedValue s
  | some a => answer (if adjustClamped a then .okAdjusted else .ok) (tellConditions (decisionPoint (takeAdjustment a s)))

/-! ### DECLARE SPARE, OPEN TITLE (R155, R167, R168) -/

/-- The title state, in IDLE, once a declaration is accepted: ARMED when its partner is present (R168). -/
def armedIf (partner : Bool) : TitleState := if partner then .armed else .idle

/-- The allocator takes a region: up at S lo, down at S hi, f 0, no plan (R155, R167). -/
def takeRegion (lo hi : Nat) (s : State) : State :=
  { s with
    spare := { s.spare with region := some { lo := lo, hi := hi, up := lo, down := (hi : Int) }, inFlight := 0, plan := none } }

/-- The title state and the partner after an accepted DECLARE SPARE (R168). -/
def pairSpare (s : State) : State :=
  match s.title.state with
  | .idle => { s with title := { s.title with state := armedIf s.title.declaration.isSome } }
  | .armed => { s with title := { state := .idle, declaration := none } }
  | .running => s
  | .draining => s
  | .closing => s

/-- A region overlaps the title area it is checked against: in IDLE, where a title declaration is present (R155, R167). -/
def regionOverlaps (lo hi : Nat) (s : State) : Bool :=
  s.title.state == .idle &&
    (match s.title.declaration with
     | some d => overlaps d lo hi
     | none => false)

/-- DECLARE SPARE in IDLE or ARMED (R155, R167, R168). -/
def carryDeclareSpare (payload : List Byte) (s : State) : Served :=
  let lo := numberAt payload 0 4
  let hi := numberAt payload 4 4
  if regionFits lo hi && !regionOverlaps lo hi s then answer .ok (pairSpare (takeRegion lo hi s)) else answer .refusedValue s

/-- The title declaration is replaced and the relocation table emptied (R167). -/
def takeDeclaration (d : TitleDeclaration) (s : State) : State :=
  { s with title := { s.title with declaration := some d }, spare := { s.spare with table := [] } }

/-- The title state and the partner after an accepted OPEN TITLE (R168). -/
def pairTitle (s : State) : State :=
  match s.title.state with
  | .idle => { s with title := { s.title with state := armedIf s.spare.region.isSome } }
  | .armed => { s with title := { s.title with state := .idle }, spare := { s.spare with region := none, plan := none } }
  | .running => s
  | .draining => s
  | .closing => s

/-- A title area overlaps the region it is checked against: in IDLE, where a spare declaration is present (R167). -/
def titleOverlaps (d : TitleDeclaration) (s : State) : Bool :=
  s.title.state == .idle &&
    (match s.spare.region with
     | some r => overlaps d r.lo r.hi
     | none => false)

/-- OPEN TITLE in IDLE or ARMED (R167, R168). -/
def carryOpenTitle (payload : List Byte) (s : State) : Served :=
  let d := declarationOf payload
  if areaFits d && !titleOverlaps d s then answer .ok (pairTitle (takeDeclaration d s)) else answer .refusedValue s

/-! ### START (R57, R169) -/

/-- A rule slot's band mask fits the picture format (R57). -/
def maskFits (f : Format) (r : Option Rule) : Bool :=
  match r with
  | some r => decide (r.mask.toNat < 2 ^ bandsPer f)
  | none => true

/-- The lowest rule slot whose mask does not fit the format (R57). -/
def failingSlot (s : State) : Option (Fin 16) :=
  (List.finRange 16).find? (fun k => !maskFits s.settings.format s.classifier.rules[k])

/-- The counts and tallies a START clears (R58, R76, R102, R120, R142, R164). -/
def clearCounts (s : State) : State :=
  { s with
    classifier := { s.classifier with counts := Vector.replicate 16 0, defaultCount := 0 }
    strategy :=
      { s.strategy with taken := Vector.replicate 32 0, passedAtEnd := 0, passedAtLimit := 0, deferrals := 0 }
    sched :=
      { s.sched with created := 0, completed := 0, abandoned := 0, removed := 0, bandsStarted := 0, bandsCut := 0 }
    repair := { s.repair with counts := ⟨0, 0, 0, 0, 0, 0, 0, 0, 0, 0⟩ }
    feed := { s.feed with tallies := ⟨0, 0, 0, 0, 0, 0, 0, 0, 0, 0, 0⟩ }
    verify :=
      { s.verify with good := 0, marginal := 0, lost := 0, unverified := 0, timeouts := 0, discarded := 0, queued := 0 }
    spare := { s.spare with grants := 0, refusals := 0, indexWrites := 0, indexRewrites := 0, indexFailed := 0 } }

/-- A START that passes: RUNNING, ingest in ACQUIRE, H set, the pending cue absent, the counts cleared (R34, R122, R141, R169). -/
def startTitle (d : TitleDeclaration) (s : State) : State :=
  let s1 := clearCounts s
  tellConditions
    { s1 with
      title := { s1.title with state := .running }
      ingest := startedIngest d
      feed := { s1.feed with h := some d.first, pendingCue := none, flight := none } }

/-- START in ARMED (R169). -/
def carryStart (s : State) : Served :=
  match failingSlot s with
  | some k => (s, [statusCode .refusedValue, byteOf k.val])
  | none =>
    match s.title.declaration with
    | some d => answer .ok (startTitle d s)
    | none => answer .ok s

/-! ### STOP, ABORT (R170, R173) -/

/-- STOP in RUNNING (R170). -/
def carryStop (s : State) : Served := answer .ok (settle (enterDraining s))

/-- A slot's frame is discarded unwritten by an Abort (R29). -/
def unwritten (r : SlotRecord) : Bool :=
  match r.state with
  | .filling => true
  | .repairing => true
  | .ready => true
  | .sent => r.streaming && r.kind == some .original
  | .free => false
  | .relocating => false
  | .retained => false

/-- A slot's frame is written but unverified at an Abort (R29). -/
def writtenUnverified (r : SlotRecord) : Bool :=
  match r.state with
  | .sent => !r.streaming || r.kind == some .relocated
  | .relocating => true
  | .filling => false
  | .repairing => false
  | .ready => false
  | .free => false
  | .retained => false

/-- The two counts of an Abort: frames discarded unwritten, and frames written but unverified with the forfeited entries (R29,
R163, R173). -/
def abortCounts (s : State) : Nat × Nat :=
  (countSlots unwritten s, countSlots writtenUnverified s + (s.verify.entries.filter (fun e => e.forfeited)).length)

/-- Verification ends without verdicts: list, queue, f and plan (R163). -/
def abortVerify (s : State) : State :=
  { s with verify := { s.verify with entries := [], queue := [] }, spare := { s.spare with inFlight := 0, plan := none } }

/-- The title enters IDLE. -/
def enterIdle (s : State) : State := { s with title := { s.title with state := .idle } }

/-- The steps of an Abort after its counts (R173). -/
def abortTitle (s : State) : State :=
  tellConditions
    (enterIdle (clearDeclarations (abortIngest (abortVerify (windowAbort (removeJobs (abortFeed (cancelWrite s))))))))

/-- ABORT in RUNNING, DRAINING or CLOSING (R173). -/
def carryAbort (s : State) : Served :=
  (abortTitle s, [statusCode .ok, byteOf (abortCounts s).1, byteOf (abortCounts s).2])

/-! ### CUE, READ REPORT, ACK ALERTS (R131, R193, R195) -/

/-- A cue mark becomes the pending cue (R131). -/
def takeCue (mark : Byte) (s : State) : State := { s with feed := { s.feed with pendingCue := some mark } }

/-- CUE in RUNNING (R131). -/
def carryCue (payload : List Byte) (s : State) : Served :=
  let mark := byteOf (byteAt payload 0)
  if mark = 0 then answer .refusedValue s
  else answer (if s.feed.pendingCue.isSome then .okReplaced else .ok) (takeCue mark s)

/-- READ REPORT in any state (R193). -/
def carryReadReport (s : State) : Served :=
  match s.reports.done with
  | [] => (s, [statusCode .ok, 0])
  | r :: rest =>
    ({ s with reports := { s.reports with done := rest } }, [statusCode .ok, byteOf rest.length] ++ reportBytes r)

/-- The alerts left once some are acknowledged. -/
def acknowledged (named held : Alerts) : Alerts :=
  { frameLost := held.frameLost && !named.frameLost
    sourceGap := held.sourceGap && !named.sourceGap
    spareExhausted := held.spareExhausted && !named.spareExhausted
    reportsMissed := held.reportsMissed && !named.reportsMissed
    indexFailed := held.indexFailed && !named.indexFailed
    titleFull := held.titleFull && !named.titleFull }

/-- The named alerts are cleared, and the missed count when REPORTS MISSED is named (R195). -/
def takeAck (named : Alerts) (s : State) : State :=
  { s with
    reports :=
      { s.reports with
        alerts := acknowledged named s.reports.alerts
        missed := if named.reportsMissed then 0 else s.reports.missed } }

/-- ACK ALERTS in any state (R195). -/
def carryAckAlerts (payload : List Byte) (s : State) : Served :=
  let named := byteAt payload 0
  if named < 64 then (takeAck (alertsOf (byteOf named)) s, [statusCode .ok, byteOf s.reports.missed])
  else answer .refusedValue s

/-! ### SECTION RESET, QUERY, RESET (R188, R189) -/

/-- A section's reset (R47, R100, R26, R140, R152). -/
def resetSection : Section → State → State
  | .ingest, s => settle (resetIngest s)
  | .scheduler, s => settle (resetScheduler s)
  | .recorder, s => settle (resetRecorder s)

/-- SECTION RESET in any state (R189). -/
def carrySectionReset (payload : List Byte) (s : State) : Served :=
  match sectionOf (byteAt payload 0) with
  | none => answer .refusedValue s
  | some x => answer .ok (resetSection x s)

/-- The reply payload of a QUERY that passes (11.3). -/
def queryReply (n : SnapshotName) (parameter : Nat) (s : State) : List Byte :=
  [statusCode .ok, byteOf (partNumber n parameter), byteOf (partCount n)] ++ snapshotPart n parameter s

/-- QUERY in any state (R188). -/
def carryQuery (payload : List Byte) (s : State) : Served :=
  match snapshotOf (byteAt payload 0) with
  | none => answer .refusedValue s
  | some n =>
    if parameterFits n (byteAt payload 1) then (s, queryReply n (byteAt payload 1) s) else answer .refusedValue s

/-! ### Serving (R185, R187) -/

/-- The title states a request is accepted in (R187). -/
def acceptedIn (q : RequestName) (t : TitleState) : Bool :=
  match q with
  | .configure => t == .idle
  | .loadRule => t == .idle || t == .armed
  | .loadEntry => t == .idle || t == .armed
  | .adjust => true
  | .declareSpare => t == .idle || t == .armed
  | .openTitle => t == .idle || t == .armed
  | .start => t == .armed
  | .stop => t == .running
  | .abort => t == .running || t == .draining || t == .closing
  | .cue => t == .running
  | .readReport => true
  | .ackAlerts => true
  | .sectionReset => true
  | .query => true
  | .reset => true

/-- A request that has passed its kind, length and state checks: the value check and the owner's act. RESET changes nothing
until its reply has been sent (R189). -/
def carryOut (q : RequestName) (payload : List Byte) (s : State) : Served :=
  match q with
  | .configure => carryConfigure payload s
  | .loadRule => carryLoadRule payload s
  | .loadEntry => carryLoadEntry payload s
  | .adjust => carryAdjust payload s
  | .declareSpare => carryDeclareSpare payload s
  | .openTitle => carryOpenTitle payload s
  | .start => carryStart s
  | .stop => carryStop s
  | .abort => carryAbort s
  | .cue => carryCue payload s
  | .readReport => carryReadReport s
  | .ackAlerts => carryAckAlerts payload s
  | .sectionReset => carrySectionReset payload s
  | .query => carryQuery payload s
  | .reset => answer .ok s

/-- The checks of R185 in their order, then the owner's act. -/
def serveRequest (r : Request) (s : State) : Served :=
  match requestOf r.kind with
  | none => answer .refusedUnknown s
  | some q =>
    if !lengthFits q r.payload then answer .refusedLength s
    else if !acceptedIn q s.title.state then answer .refusedState s
    else carryOut q r.payload s

/-- The class of a served request's reply: the reply of a RESET carried out brings the reset at its end (R184, R189). -/
def replyClass (r : Request) (reply : List Byte) : MessageClass :=
  if requestOf r.kind = some .reset ∧ reply = [statusCode .ok] then .resetReply else .served

end Sys2Proof.Machine
end

