-- ==== Sys2Proof/Machine/Transmit.lean ====
section
/-! DEFINITION. The transmitter and the notice (chapter 10): messages waiting, the start of a transmission, and the notice composed
at a field boundary (R184, R197). -/

namespace Sys2Proof.Machine

/-! ### The transmitter (R184) -/

/-- Change the link's record. -/
def setLink (change : Link → Link) (s : State) : State := { s with link := change s.link }

/-- A condition's reported truth once a notice has begun: the truth carried if it was carried (R197). -/
def reportedAfter (carried truth reported : Bool) : Bool := if carried then truth else reported

/-- The reported truths once a notice has begun (R197). -/
def takeReported (n : Notice) (r : Conditions) : Conditions :=
  { windowLow := reportedAfter n.carried.windowLow n.truths.windowLow r.windowLow
    spareLow := reportedAfter n.carried.spareLow n.truths.spareLow r.spareLow
    recorderPaused := reportedAfter n.carried.recorderPaused n.truths.recorderPaused r.recorderPaused
    ingestUnlocked := reportedAfter n.carried.ingestUnlocked n.truths.ingestUnlocked r.ingestUnlocked
    referenceFreeRun := reportedAfter n.carried.referenceFreeRun n.truths.referenceFreeRun r.referenceFreeRun }

/-- What a notice's start of transmission does to the Report Unit and the tally (R197). -/
def beginNotice (n : Notice) (s : State) : State :=
  { s with
    reports :=
      { s.reports with
        added := s.reports.added - n.count
        reported := takeReported n s.reports.reported
        events := s.reports.events.drop n.events.length }
    link := { s.link with noticesSent := bump s.link.noticesSent } }

/-- The bytes of a message as the line carries them: start marker, length, kind, tag, payload, and the check computed over all but
the start marker (R180, R181). -/
def messageBytes (m : Message) : List Byte := framed m.kind m.tag m.payload

/-- A message begins transmission: its bytes, check and all, go to the line (R180, R181, R184, R197). -/
def beginMessage (m : Message) (s : State) : State :=
  let s1 := setLink (fun k => { k with sending := some m, lineOut := some (messageBytes m) }) s
  match m.cls with
  | .notice n => beginNotice n s1
  | .served => s1
  | .resetReply => s1
  | .refusedFull => s1

/-- When nothing is being sent, the oldest waiting message begins (R184). -/
def sendNext (s : State) : State :=
  match s.link.sending, s.link.waiting with
  | none, m :: rest => beginMessage m (setLink (fun k => { k with waiting := rest }) s)
  | _, _ => s

/-- A message is placed for sending behind those waiting (R184). -/
def placeMessage (m : Message) (s : State) : State :=
  sendNext (setLink (fun k => { k with waiting := k.waiting ++ [m] }) s)

/-- The class of a reply that holds back serving: the reply of a served request (R183). -/
def isReply (m : Message) : Bool :=
  match m.cls with
  | .served => true
  | .resetReply => true
  | .refusedFull => false
  | .notice _ => false

/-- A REFUSED FULL reply. -/
def isRefusal (m : Message) : Bool :=
  match m.cls with
  | .refusedFull => true
  | .served => false
  | .resetReply => false
  | .notice _ => false

/-- A notice. -/
def isNotice (m : Message) : Bool :=
  match m.cls with
  | .notice _ => true
  | .served => false
  | .resetReply => false
  | .refusedFull => false

/-! ### The notice (R197) -/

/-- The conditions owed: those whose truth differs from their reported truth (R194). -/
def owedConditions (r : ReportUnit) : Conditions :=
  { windowLow := r.truths.windowLow != r.reported.windowLow
    spareLow := r.truths.spareLow != r.reported.spareLow
    recorderPaused := r.truths.recorderPaused != r.reported.recorderPaused
    ingestUnlocked := r.truths.ingestUnlocked != r.reported.ingestUnlocked
    referenceFreeRun := r.truths.referenceFreeRun != r.reported.referenceFreeRun }

/-- The truths of a set of conditions; a condition outside the set is shown false (11.3). -/
def within (set truths : Conditions) : Conditions :=
  { windowLow := set.windowLow && truths.windowLow
    spareLow := set.spareLow && truths.spareLow
    recorderPaused := set.recorderPaused && truths.recorderPaused
    ingestUnlocked := set.ingestUnlocked && truths.ingestUnlocked
    referenceFreeRun := set.referenceFreeRun && truths.referenceFreeRun }

/-- A notice is owed (R197). -/
def noticeOwed (r : ReportUnit) : Bool :=
  decide (0 < r.added) || owedConditions r != Conditions.none || r.alerts != Alerts.none || !r.events.isEmpty

/-- The notice composed now (R197). -/
def composedNotice (r : ReportUnit) : Notice :=
  { count := r.added
    carried := owedConditions r
    truths := within (owedConditions r) r.truths
    alerts := r.alerts
    events := r.events }

/-- The message of a notice: its own kind, tag 0 (R180, Table 11-3). -/
def noticeMessage (n : Notice) : Message := { cls := .notice n, kind := 0xC0, tag := 0, payload := noticeBytes n }

/-- A notice takes the place of the one still waiting (R197). -/
def replaceNotice (m : Message) (waiting : List Message) : List Message :=
  waiting.map (fun w => if isNotice w then m else w)

/-- A notice is placed for sending, or replaces the one still waiting, which is withdrawn (R197). -/
def placeNotice (m : Message) (s : State) : State :=
  if s.link.waiting.any isNotice then
    setLink (fun k => { k with waiting := replaceNotice m k.waiting, noticesWithdrawn := bump k.noticesWithdrawn }) s
  else placeMessage m s

/-- The Report Unit's part of a field boundary (R197). -/
def composeNotice (s : State) : State :=
  if noticeOwed s.reports then placeNotice (noticeMessage (composedNotice s.reports)) s else s

end Sys2Proof.Machine
end

