-- ==== Sys2Proof/Machine/Link.lean ====
section
/-! DEFINITION. The Control Link Unit (chapter 10): the receiver, the receive queue, serving, the end of a transmission, and the device
reset that the reply to RESET brings (R176, R182 to R185, R189). -/

namespace Sys2Proof.Machine

/-! ### The receive queue and serving (R183, R184) -/

/-- No reply of an earlier served request is waiting or being sent (R183). -/
def serverFree (s : State) : Bool :=
  !s.link.waiting.any isReply &&
    (match s.link.sending with
     | some m => !isReply m
     | none => true)

/-- The reply message of a served request: its kind plus 128, its tag (R180). -/
def replyMessage (r : Request) (reply : List Byte) : Message :=
  { cls := replyClass r reply, kind := byteOf (r.kind.toNat + 128), tag := r.tag, payload := reply }

/-- Serve a request: it is checked, handed to its owner and answered, in one act (R183, R185). -/
def serveAndReply (r : Request) (s : State) : State :=
  placeMessage (replyMessage r (serveRequest r s).2) (serveRequest r s).1

/-- The request at the head of the queue leaves it and is served, when serving is free (R183). -/
def serveNext (s : State) : State :=
  match s.link.queue with
  | [] => s
  | r :: rest => if serverFree s then serveAndReply r (setLink (fun k => { k with queue := rest }) s) else s

/-- The REFUSED FULL replies waiting (R184). -/
def refusalsWaiting (s : State) : Nat := (s.link.waiting.filter isRefusal).length

/-- The REFUSED FULL reply to a request (R183). -/
def refusalMessage (r : Request) : Message :=
  { cls := .refusedFull, kind := byteOf (r.kind.toNat + 128), tag := r.tag, payload := [statusCode .refusedFull] }

/-- A request that finds the queue full: the tally rises, and a REFUSED FULL reply is placed unless 4 are waiting (R183, R184). -/
def refuseFullQueue (r : Request) (s : State) : State :=
  let s1 := setLink (fun k => { k with refusedFull := bump k.refusedFull }) s
  if refusalsWaiting s < 4 then placeMessage (refusalMessage r) s1 else s1

/-- A request arrives at the receive queue (R183). -/
def takeRequest (r : Request) (s : State) : State :=
  if s.link.queue.length < 4 then serveNext (setLink (fun k => { k with queue := k.queue ++ [r] }) s)
  else refuseFullQueue r s

/-! ### The receiver (R182) -/

/-- The receiver hunts for a start marker. -/
def hunting (k : Link) : Link := { k with receiver := none }

/-- A received message whose check is good: a request, or a kind of 128 or above, discarded (R182, R183). -/
def takeMessage (kind tag : Byte) (payload : List Byte) (s : State) : State :=
  if kind.toNat < 128 then takeRequest { kind := kind, tag := tag, payload := payload } s
  else setLink (fun k => { k with kindDiscards := bump k.kindDiscards }) s

/-- The bytes of a whole message after its start marker: `size` bytes the check covers, then the check (R180, R182). -/
def takeWhole (gathered : List Byte) (size : Nat) (s : State) : State :=
  let covered := gathered.take size
  if gathered.drop size = beBytes 2 (checkOf covered).toNat then
    match covered with
    | _ :: kind :: tag :: payload => takeMessage kind tag payload s
    | _ => s
  else setLink (fun k => { k with checkDiscards := bump k.checkDiscards }) s

/-- A length byte of 0, 1 or 253..255 (R182). -/
def lengthBad (b : Byte) : Bool := decide (b.toNat < 2) || decide (252 < b.toNat)

/-- One byte inside a message (R182). -/
def gatherByte (gathered : List Byte) (b : Byte) (s : State) : State :=
  match gathered with
  | [] =>
    if lengthBad b then setLink (fun k => { hunting k with lengthDiscards := bump k.lengthDiscards }) s
    else setLink (fun k => { k with receiver := some [b] }) s
  | size :: _ =>
    let all := gathered ++ [b]
    if all.length = size.toNat + 3 then takeWhole all (size.toNat + 1) (setLink hunting s)
    else setLink (fun k => { k with receiver := some all }) s

/-- One byte from the control line (R182). -/
def receiveByte (b : Byte) (s : State) : State :=
  match s.link.receiver with
  | none => if b = 0xA5 then setLink (fun k => { k with receiver := some [] }) s else s
  | some gathered => gatherByte gathered b s

/-- A run of bytes from the control line, none with a gap before it (R182). -/
def receiveBytes (bs : List Byte) (s : State) : State := bs.foldl (fun t b => receiveByte b t) s

/-- 2 ms pass: inside a message it is discarded (R182). -/
def gapExpires (s : State) : State :=
  match s.link.receiver with
  | none => s
  | some _ => setLink (fun k => { hunting k with gapDiscards := bump k.gapDiscards }) s

/-! ### The device reset and the end of a transmission (R176, R184, R189) -/

/-- The CANCEL a reset sends for a write in flight (R137, R141). -/
def resetCancel (s : State) : Option RecorderMessage :=
  match s.feed.flight with
  | some w => some (.cancel w.tag)
  | none => none

/-- The whole part takes its reset values (R176). The frame buffers keep the samples they held, as a slot that becomes FREE by RESET
does (R1, R27); the model's queue of commands waiting is no part of the device (log entry 16). -/
def takeReset (s : State) : State :=
  { State.reset with buffers := s.buffers, recorderOut := resetCancel s, pending := s.pending }

/-- The whole part at power-on (R176); the frame memory is as `State.reset` has it (log entry 7). -/
def takePower (s : State) : State := { State.reset with pending := s.pending }

/-- A message that is no reply to RESET has been sent: the oldest waiting begins, and the next request may be served (R184). The spec
names the two in this order without saying which comes first; that the waiting message begins before the request is served is the
model's choice (log entry 40). -/
def nextMessage (s : State) : State := serveNext (sendNext (setLink (fun k => { k with sending := none }) s))

/-- A message's transmission ends (R184). -/
def endTransmission (s : State) : State :=
  match s.link.sending with
  | none => s
  | some m =>
    match m.cls with
    | .resetReply => takeReset s
    | .served => nextMessage s
    | .refusedFull => nextMessage s
    | .notice _ => nextMessage s

/-- The reset that a RESET brings, when its reply is in transmission (R176, R189). -/
def resetArrives (s : State) : State :=
  match s.link.sending with
  | none => s
  | some m => if m.cls = .resetReply then takeReset s else s

end Sys2Proof.Machine
end

