-- ==== Sys2Proof/Machine/ControlLine.lean ====
section
/-! DEFINITION. The commands of the control line and of the device reset: bytes received, the gap, the end of a transmission, power-on
and the reset a RESET brings (R176, R182, R184). -/

namespace Sys2Proof.Machine

/-- RECEIVED_MESSAGE (R182, R183): the receiver takes the bytes one at a time. -/
def execReceivedMessage (bytes : List Byte) (s : State) : Host.Outcome State Fault Refusal := .next (receiveBytes bytes s)

/-- GAP_DISCARD (R182): inside a message the partial message is discarded; while hunting no gap timer runs. -/
def execGapDiscard (s : State) : Host.Outcome State Fault Refusal := .next (gapExpires s)

/-- TRANSMISSION_END (R184, R189): the message in transmission has been sent; with none it does not arise (log entry 14). -/
def execTransmissionEnd (s : State) : Host.Outcome State Fault Refusal := .next (endTransmission s)

/-- POWER_ON (R176): the whole part takes its reset values. -/
def execPowerOn (s : State) : Host.Outcome State Fault Refusal := .next (takePower s)

/-- RESET_TAKES_EFFECT (R176, R189): the reply to RESET has been sent and the whole part takes its reset values; without such a
reply in transmission it does not arise (log entry 2). -/
def execResetTakesEffect (s : State) : Host.Outcome State Fault Refusal := .next (resetArrives s)

end Sys2Proof.Machine
end

