-- ==== Sys2Proof/Machine/PictureLine.lean ====
section
/-! DEFINITION. The commands of the picture line: FIELD START, BAND, FIELD END (R31), and the loss of the lock they miss (R45). -/

namespace Sys2Proof.Machine

/-- FIELD_START (R31, R35 to R40): ingest takes it by its state. What the event completes or stops is settled with it (R170, R171),
and the conditions it turns are told (R10, R33, R158). -/
def execFieldStart (parity : Field) (signals : SideSignals) (s : State) : Host.Outcome State Fault Refusal :=
  .next (settle (takeFieldStart parity signals s))

/-- BAND (R31, R35, R41): stored, recorded as MISSING, or ignored. -/
def execBand (index count : Byte) (samples : BandImage) (s : State) : Host.Outcome State Fault Refusal :=
  .next (takeBand index count samples s)

/-- FIELD_END (R42): the open field closes; the end of field B completes the frame (R44). -/
def execFieldEnd (s : State) : Host.Outcome State Fault Refusal := .next (settle (takeFieldEnd s))

/-- LOCK_LOSS (R45): taken when the watch count of a LOCKED ingest has reached 3; without that it does not arise and changes no
more than what is settled at every event (log entry 2). -/
def execLockLoss (s : State) : Host.Outcome State Fault Refusal := .next (settle (checkLock s))

end Sys2Proof.Machine
end

