-- ==== Sys2Proof/Machine/RecorderLine.lean ====
section
/-! DEFINITION. The commands of the recorder line: WRITE SLOT, PAUSE, RESUME, the end of a write, OUTCOME, and the timeout of an entry
(R121, R123, R124, R136, R146, R147). -/

namespace Sys2Proof.Machine

/-- WRITE_SLOT (R124): the tally, the Tracker's ageing and timeouts, the Feed's answer, then the drain or close that these complete. A
slot whose timeout completes the drain is answered by DRAINING's choice, and index blocks are written from the next WRITE SLOT (R138,
R171; log entry 13). -/
def execWriteSlot (s : State) : Host.Outcome State Fault Refusal :=
  .next (settle (answerSlot (ageAndTimeOut (tallyFeed (fun t => { t with slotsTaken := bump t.slotsTaken }) s))))

/-- PAUSE (R123). -/
def execPause (s : State) : Host.Outcome State Fault Refusal := .next (tellRecorder (pauseFeed s))

/-- RESUME (R123). -/
def execResume (s : State) : Host.Outcome State Fault Refusal := .next (tellRecorder (resumeFeed s))

/-- WRITE_END (R136): the write in flight ends; with none in flight the event does not arise and changes nothing (R123; log
entry 14). -/
def execWriteEnd (s : State) : Host.Outcome State Fault Refusal :=
  match s.feed.flight with
  | some w => .next (settle (endWrite w s))
  | none => .next s

/-- OUTCOME (R147, R202): matched by its write tag and resolved, or discarded. -/
def execOutcome (tag : BitVec 16) (result : Byte) (s : State) : Host.Outcome State Fault Refusal :=
  .next (settle (takeOutcome tag.toNat result s))

/-- VERIFY_TIMEOUT (R146): the oldest entry whose age exceeds the verify timeout is resolved; with none overdue it does not arise
(log entry 2). -/
def execVerifyTimeout (s : State) : Host.Outcome State Fault Refusal := .next (settle (timeOutOldest s))

end Sys2Proof.Machine
end

