-- ==== Sys2Proof/Machine/Timebase.lean ====
section
/-! DEFINITION. The field timebase (R177, R178): reference pulses, the internal generator, and the field boundary with the four blocks
that receive it. -/

namespace Sys2Proof.Machine

/-! ### The four blocks of a boundary (R178) -/

/-- The blocks that receive a field boundary (R178). -/
inductive BoundaryBlock where
  | window | scheduler | ingest | report
deriving DecidableEq, Repr

/-- The four blocks. -/
def boundaryBlocks : List BoundaryBlock := [.window, .scheduler, .ingest, .report]

/-- The block at a place of a list, with the list that is left. -/
def pickBlock (blocks : List BoundaryBlock) (k : Nat) : List BoundaryBlock × List BoundaryBlock :=
  (blocks[k]?.toList, blocks.eraseIdx k)

/-- The order a boundary's number names, one of the 24 (log entry 3). -/
def blockOrder (k : BoundaryOrder) : List BoundaryBlock :=
  let p1 := pickBlock boundaryBlocks (k.val / 6)
  let p2 := pickBlock p1.2 (k.val % 6 / 2)
  let p3 := pickBlock p2.2 (k.val % 2)
  p1.1 ++ p2.1 ++ p3.1 ++ p3.2

/-- One block takes the boundary (R13, R93, R45, R197). What a lost lock completes is completed with it (R171), and the conditions
told by then are those the Report Unit composes from (R194). -/
def takeBoundary : BoundaryBlock → State → State
  | .window, s => ageSlots s
  | .scheduler, s => reloadBudget s
  | .ingest, s => settle (watchBoundary s)
  | .report, s => composeNotice (tellConditions s)

/-- A field boundary: each of the four blocks takes it, in the order given (R178). -/
def fieldBoundary (order : BoundaryOrder) (s : State) : State :=
  settle ((blockOrder order).foldl (fun t block => takeBoundary block t) s)

/-! ### Pulses and the generator (R177, R178) -/

/-- The nominal field period in 1/120 ms: 20 ms, or 1001/60 ms (R177). -/
def nominalPeriod : Format → Nat
  | .f25 => 2400
  | .f30 => 2002

/-- A pulse arriving at a time is accepted: at least half a nominal period after the last boundary, or before the first (R177). -/
def pulseAccepted (t : Timebase) (time : Nat) : Bool :=
  !t.boundaryMade || decide (t.period ≤ 2 * (time - t.last))

/-- The timebase makes a boundary at a time: the nominal period is read there and the mode told (R177, R178). -/
def markBoundary (mode : TimebaseMode) (time : Nat) (s : State) : State :=
  tellTimebase
    { s with
      timebase :=
        { s.timebase with mode := mode, last := time, boundaryMade := true, period := nominalPeriod s.settings.format } }

/-- A pulse that comes too soon is ignored and tallied (R177). -/
def ignorePulse (s : State) : State := { s with timebase := { s.timebase with ignored := bump s.timebase.ignored } }

/-- A reference pulse at a time (R177). -/
def takePulse (time : Nat) (order : BoundaryOrder) (s : State) : State :=
  if pulseAccepted s.timebase time then fieldBoundary order (markBoundary .synced time s) else ignorePulse s

/-- Three nominal periods have passed with no pulse accepted: FREE RUN, with a boundary at that moment (R178). -/
def freeRunEntry (order : BoundaryOrder) (s : State) : State :=
  match s.timebase.mode with
  | .synced => fieldBoundary order (markBoundary .freeRun (s.timebase.last + 3 * s.timebase.period) s)
  | .freeRun => s

/-- The generator's boundary, one nominal period after the last, while in FREE RUN (R178). -/
def generatorTick (order : BoundaryOrder) (s : State) : State :=
  match s.timebase.mode with
  | .synced => s
  | .freeRun => fieldBoundary order (markBoundary .freeRun (s.timebase.last + s.timebase.period) s)

end Sys2Proof.Machine
end

