-- ==== Sys2Proof/Machine/ReferenceInput.lean ====
section
/-! DEFINITION. The commands of the field timebase: the reference pulse, the entry to FREE RUN and the generated boundary (R177,
R178). -/

namespace Sys2Proof.Machine

/-- REFERENCE_PULSE (R177): accepted, making a field boundary, or ignored. -/
def execReferencePulse (time : Nat) (order : BoundaryOrder) (s : State) : Host.Outcome State Fault Refusal :=
  .next (takePulse time order s)

/-- ENTER_FREE_RUN (R178): three nominal periods have passed in SYNCED with no pulse accepted. -/
def execEnterFreeRun (order : BoundaryOrder) (s : State) : Host.Outcome State Fault Refusal := .next (freeRunEntry order s)

/-- GENERATED_BOUNDARY (R178): the generator's next boundary in FREE RUN. -/
def execGeneratedBoundary (order : BoundaryOrder) (s : State) : Host.Outcome State Fault Refusal := .next (generatorTick order s)

end Sys2Proof.Machine
end

