-- ==== Sys2Proof/Machine/RepairEvents.lean ====
section
/-! DEFINITION. The events of the Band Reconstruction Unit: measure done and BAND DONE (R106, R107). -/

namespace Sys2Proof.Machine

/-- MEASURE_DONE (R106): the operation in its MEASURE phase chooses its weights; without one it does not arise (log entry 14). -/
def execMeasureDone (s : State) : Host.Outcome State Fault Refusal := .next (measureDone s)

/-- BAND_DONE (R107): the operation in its BLEND phase ends, the Scheduler decides (R91), and the slots it frees are told (R10);
without one it does not arise (log entry 14). -/
def execBandDone (s : State) : Host.Outcome State Fault Refusal := .next (tellConditions (bandDone s))

end Sys2Proof.Machine
end

