-- ==== Sys2Proof/Machine/RequestCommands.lean ====
section
/-! DEFINITION. The requests as commands: each is the arrival at the receive queue of a whole request of its kind, served at once when
serving is free (R183, R185, R187; log entry 1). What serving does is `Machine/Requests.lean`. -/

namespace Sys2Proof.Machine

/-- CONFIGURE (R174). -/
def execConfigure (tag : Byte) (payload : List Byte) (s : State) : Host.Outcome State Fault Refusal :=
  .next (takeRequest { kind := 1, tag := tag, payload := payload } s)

/-- LOAD_RULE (R57). -/
def execLoadRule (tag : Byte) (payload : List Byte) (s : State) : Host.Outcome State Fault Refusal :=
  .next (takeRequest { kind := 2, tag := tag, payload := payload } s)

/-- LOAD_ENTRY (R61). -/
def execLoadEntry (tag : Byte) (payload : List Byte) (s : State) : Host.Outcome State Fault Refusal :=
  .next (takeRequest { kind := 3, tag := tag, payload := payload } s)

/-- ADJUST (R84, R85). -/
def execAdjust (tag : Byte) (payload : List Byte) (s : State) : Host.Outcome State Fault Refusal :=
  .next (takeRequest { kind := 4, tag := tag, payload := payload } s)

/-- DECLARE_SPARE (R155, R167, R168). -/
def execDeclareSpare (tag : Byte) (payload : List Byte) (s : State) : Host.Outcome State Fault Refusal :=
  .next (takeRequest { kind := 5, tag := tag, payload := payload } s)

/-- OPEN_TITLE (R167, R168). -/
def execOpenTitle (tag : Byte) (payload : List Byte) (s : State) : Host.Outcome State Fault Refusal :=
  .next (takeRequest { kind := 6, tag := tag, payload := payload } s)

/-- START (R57, R169). -/
def execStart (tag : Byte) (payload : List Byte) (s : State) : Host.Outcome State Fault Refusal :=
  .next (takeRequest { kind := 7, tag := tag, payload := payload } s)

/-- STOP (R170). -/
def execStop (tag : Byte) (payload : List Byte) (s : State) : Host.Outcome State Fault Refusal :=
  .next (takeRequest { kind := 8, tag := tag, payload := payload } s)

/-- ABORT (R173). -/
def execAbort (tag : Byte) (payload : List Byte) (s : State) : Host.Outcome State Fault Refusal :=
  .next (takeRequest { kind := 9, tag := tag, payload := payload } s)

/-- CUE (R131). -/
def execCue (tag : Byte) (payload : List Byte) (s : State) : Host.Outcome State Fault Refusal :=
  .next (takeRequest { kind := 10, tag := tag, payload := payload } s)

/-- READ_REPORT (R193). -/
def execReadReport (tag : Byte) (payload : List Byte) (s : State) : Host.Outcome State Fault Refusal :=
  .next (takeRequest { kind := 11, tag := tag, payload := payload } s)

/-- ACK_ALERTS (R195). -/
def execAckAlerts (tag : Byte) (payload : List Byte) (s : State) : Host.Outcome State Fault Refusal :=
  .next (takeRequest { kind := 12, tag := tag, payload := payload } s)

/-- SECTION_RESET_INGEST (R47, R189): SECTION RESET naming INGEST. -/
def execSectionResetIngest (tag : Byte) (s : State) : Host.Outcome State Fault Refusal :=
  .next (takeRequest { kind := 13, tag := tag, payload := [1] } s)

/-- SECTION_RESET_SCHEDULER (R26, R100, R189): SECTION RESET naming SCHEDULER. -/
def execSectionResetScheduler (tag : Byte) (s : State) : Host.Outcome State Fault Refusal :=
  .next (takeRequest { kind := 13, tag := tag, payload := [2] } s)

/-- SECTION_RESET_RECORDER (R28, R140, R152, R189): SECTION RESET naming RECORDER. -/
def execSectionResetRecorder (tag : Byte) (s : State) : Host.Outcome State Fault Refusal :=
  .next (takeRequest { kind := 13, tag := tag, payload := [3] } s)

/-- QUERY_STATUS (R49, R143, R175, R188, R198): QUERY naming STATUS. -/
def execQueryStatus (tag parameter : Byte) (s : State) : Host.Outcome State Fault Refusal :=
  .next (takeRequest { kind := 14, tag := tag, payload := [1, parameter] } s)

/-- QUERY_TIERS (R103, R188): QUERY naming TIERS. -/
def execQueryTiers (tag parameter : Byte) (s : State) : Host.Outcome State Fault Refusal :=
  .next (takeRequest { kind := 14, tag := tag, payload := [3, parameter] } s)

/-- QUERY_SPARE (R165, R188): QUERY naming SPARE. -/
def execQuerySpare (tag parameter : Byte) (s : State) : Host.Outcome State Fault Refusal :=
  .next (takeRequest { kind := 14, tag := tag, payload := [4, parameter] } s)

/-- RESET (R189): answered OK; its effect comes when the reply has been sent. -/
def execReset (tag : Byte) (payload : List Byte) (s : State) : Host.Outcome State Fault Refusal :=
  .next (takeRequest { kind := 15, tag := tag, payload := payload } s)

/-- UNASSIGNED_REQUEST (R185): a request of a kind that none is assigned, answered REFUSED UNKNOWN. A kind the table does assign, or
one of 128 and above, is taken as the message of that kind it is. -/
def execUnassignedRequest (kind tag : Byte) (payload : List Byte) (s : State) : Host.Outcome State Fault Refusal :=
  .next (takeMessage kind tag payload s)

end Sys2Proof.Machine
end

