-- ==== Sys2Proof/Machine/TitleEvents.lean ====
section
/-! DEFINITION. The Title Controller's own moves as commands: the drain complete and the close complete (R171, R172). -/

namespace Sys2Proof.Machine

/-- DRAIN_COMPLETE (R171): in DRAINING with the five answers done, the title enters CLOSING; otherwise it does not arise (log
entry 2). -/
def execDrainComplete (s : State) : Host.Outcome State Fault Refusal := .next (tellConditions (checkDrain s))

/-- CLOSE_COMPLETE (R172): in CLOSING with the close complete, the title ends; otherwise it does not arise (log entry 2). -/
def execCloseComplete (s : State) : Host.Outcome State Fault Refusal := .next (tellConditions (checkClose s))

end Sys2Proof.Machine
end

