-- ==== Sys2Proof/Machine/Dispatch.lean ====
section
/-! DEFINITION. The effect of every command: one arm per constructor, one call of its meaning. -/

namespace Sys2Proof.Machine

/-- The effect of a command on everything but the queue of commands waiting. -/
def exec (i : Instr) (s : State) : Host.Outcome State Fault Refusal :=
  match i with
  | .powerOn => Sys2Proof.Machine.execPowerOn s
  | .fieldStart parity signals => Sys2Proof.Machine.execFieldStart parity signals s
  | .band index count samples => Sys2Proof.Machine.execBand index count samples s
  | .fieldEnd => Sys2Proof.Machine.execFieldEnd s
  | .referencePulse time order => Sys2Proof.Machine.execReferencePulse time order s
  | .enterFreeRun order => Sys2Proof.Machine.execEnterFreeRun order s
  | .generatedBoundary order => Sys2Proof.Machine.execGeneratedBoundary order s
  | .lockLoss => Sys2Proof.Machine.execLockLoss s
  | .writeSlot => Sys2Proof.Machine.execWriteSlot s
  | .verifyTimeout => Sys2Proof.Machine.execVerifyTimeout s
  | .pause => Sys2Proof.Machine.execPause s
  | .resume => Sys2Proof.Machine.execResume s
  | .writeEnd => Sys2Proof.Machine.execWriteEnd s
  | .outcome tag result => Sys2Proof.Machine.execOutcome tag result s
  | .measureDone => Sys2Proof.Machine.execMeasureDone s
  | .bandDone => Sys2Proof.Machine.execBandDone s
  | .drainComplete => Sys2Proof.Machine.execDrainComplete s
  | .closeComplete => Sys2Proof.Machine.execCloseComplete s
  | .receivedMessage bytes => Sys2Proof.Machine.execReceivedMessage bytes s
  | .gapDiscard => Sys2Proof.Machine.execGapDiscard s
  | .transmissionEnd => Sys2Proof.Machine.execTransmissionEnd s
  | .configure tag payload => Sys2Proof.Machine.execConfigure tag payload s
  | .loadRule tag payload => Sys2Proof.Machine.execLoadRule tag payload s
  | .loadEntry tag payload => Sys2Proof.Machine.execLoadEntry tag payload s
  | .adjust tag payload => Sys2Proof.Machine.execAdjust tag payload s
  | .declareSpare tag payload => Sys2Proof.Machine.execDeclareSpare tag payload s
  | .openTitle tag payload => Sys2Proof.Machine.execOpenTitle tag payload s
  | .start tag payload => Sys2Proof.Machine.execStart tag payload s
  | .stop tag payload => Sys2Proof.Machine.execStop tag payload s
  | .abort tag payload => Sys2Proof.Machine.execAbort tag payload s
  | .cue tag payload => Sys2Proof.Machine.execCue tag payload s
  | .readReport tag payload => Sys2Proof.Machine.execReadReport tag payload s
  | .ackAlerts tag payload => Sys2Proof.Machine.execAckAlerts tag payload s
  | .sectionResetIngest tag => Sys2Proof.Machine.execSectionResetIngest tag s
  | .sectionResetScheduler tag => Sys2Proof.Machine.execSectionResetScheduler tag s
  | .sectionResetRecorder tag => Sys2Proof.Machine.execSectionResetRecorder tag s
  | .queryStatus tag parameter => Sys2Proof.Machine.execQueryStatus tag parameter s
  | .queryTiers tag parameter => Sys2Proof.Machine.execQueryTiers tag parameter s
  | .querySpare tag parameter => Sys2Proof.Machine.execQuerySpare tag parameter s
  | .reset tag payload => Sys2Proof.Machine.execReset tag payload s
  | .resetTakesEffect => Sys2Proof.Machine.execResetTakesEffect s
  | .unassignedRequest kind tag payload => Sys2Proof.Machine.execUnassignedRequest kind tag payload s

end Sys2Proof.Machine
end

