-- ==== Sys2Proof/Safety.lean ====
section
/-! DEFINITION. What counts as a safe state, and the terms in which the statements speak of a state: the invariants that every command
keeps, and the control line at rest. -/

namespace Sys2Proof.Machine

/-! ### Invariants -/

/-- The frame memory is in canonical form. -/
abbrev memoryCanonical (s : State) : Prop := Memory.wf s.buffers = true

/-- The messages of a class among those waiting to be sent. -/
def waitingOf (test : Message → Bool) (s : State) : Nat := (s.link.waiting.filter test).length

/-- Replies of served requests waiting or in transmission. -/
def repliesOut (s : State) : Nat :=
  waitingOf isReply s +
    (match s.link.sending with
     | some m => if isReply m then 1 else 0
     | none => 0)

/-- The receive queue and the messages waiting keep within the bounds of R183 and R184, and nothing waits while nothing is sent. -/
abbrev linkBounded (s : State) : Prop :=
  s.link.queue.length ≤ 4 ∧ repliesOut s ≤ 1 ∧ waitingOf isRefusal s ≤ 4 ∧ waitingOf isNotice s ≤ 1 ∧
    (s.link.sending = none → s.link.waiting = [])

/-- The done list, the title event list, the two counts beside them and the gap list keep within their bounds (R24, R192, R196,
R197). -/
abbrev listsBounded (s : State) : Prop :=
  s.reports.done.length ≤ 32 ∧ s.reports.missed ≤ 255 ∧ s.reports.added ≤ 255 ∧ s.reports.events.length ≤ 4 ∧
    s.gaps.length ≤ 16

/-- A weight row sums to 64 (R117). -/
abbrev rowLegal (w : Weights) : Prop := w.p + w.n + w.s = 64

/-- Every setting of the Title Controller is within its range (R174). -/
abbrev settingsLegal (c : Settings) : Prop :=
  (1 ≤ c.threshold ∧ c.threshold ≤ 255) ∧ (2 ≤ c.commitLag ∧ c.commitLag ≤ 24) ∧
    (4 ≤ c.verifyTimeout ∧ c.verifyTimeout ≤ 60) ∧ (1 ≤ c.attempts ∧ c.attempts ≤ 3) ∧
    (1 ≤ c.t1 ∧ c.t1 < c.t2 ∧ c.t2 < c.t3 ∧ c.t3 ≤ 1015) ∧
    (rowLegal c.weights[0] ∧ rowLegal c.weights[1] ∧ rowLegal c.weights[2] ∧ rowLegal c.weights[3])

/-- The settings, the band budget and the strategy entries' band limits are within their ranges (R60, R84, R174). -/
abbrev configurationLegal (s : State) : Prop :=
  settingsLegal s.settings ∧ (1 ≤ s.sched.bandBudget ∧ s.sched.bandBudget ≤ 64) ∧
    ∀ e : Fin 32, 1 ≤ s.strategy.entries[e].limit ∧ s.strategy.entries[e].limit ≤ 18

/-! ### The control line at rest -/

/-- No request is queued, and no message is waiting or in transmission. -/
abbrev lineAtRest (s : State) : Prop := s.link.queue = [] ∧ s.link.sending = none ∧ s.link.waiting = []

/-- A message in transmission, its bytes sent on the line with their check, on an otherwise unchanged state (R180, R181). -/
def sending (cls : MessageClass) (kind tag : Byte) (payload : List Byte) (s : State) : State :=
  { s with
    link :=
      { s.link with
        sending := some { cls := cls, kind := kind, tag := tag, payload := payload }
        lineOut := some (framed kind tag payload) } }

/-- The reply of a served request in transmission. -/
abbrev replying (kind tag : Byte) (payload : List Byte) (s : State) : State := sending .served kind tag payload s

/-! ### The title and the Report Unit up to date -/

/-- No drain or close that is complete has been left untaken: the title leaves DRAINING and CLOSING as soon as it may (R171, R172). -/
abbrev titleSettled (s : State) : Prop :=
  (s.title.state = .draining → drainDone s = false) ∧ (s.title.state = .closing → closeDone s = false)

/-- Every condition's truth has been told. -/
abbrev conditionsTold (s : State) : Prop := s.reports.truths = conditionsNow s

/-- A report placed on a done list with room for it, and counted (R192). -/
def withReport (p : Report) (r : ReportUnit) : ReportUnit := { r with done := r.done ++ [p], added := min (r.added + 1) 255 }

/-- A report built while 32 are held: it is discarded, the missed count rises to 255 at most, and REPORTS MISSED is set (R192). -/
def reportMissed (r : ReportUnit) : ReportUnit :=
  { r with missed := min (r.missed + 1) 255, alerts := { r.alerts with reportsMissed := true } }

/-- A report built: placed on the done list with fewer than 32 held, missed otherwise (R192). -/
def reportAdded (p : Report) (r : ReportUnit) : ReportUnit := if r.done.length < 32 then withReport p r else reportMissed r

/-! ### Repairs -/

/-- The Scheduler has no job and the Band Reconstruction Unit is IDLE, so that a decision point only discharges a decision owed. -/
abbrev repairIdle (s : State) : Prop := s.sched.jobs = [] ∧ s.repair.op = none

/-- A decision taken with nothing to serve: a decision owed is discharged (R87). -/
def decided (s : State) : State := { s with sched := { s.sched with owed := false } }

/-- How serving goes on until nothing more is to be done at once, with no bound on its length: a decision brings the band turn of the
ACTIVE job (R88); with no job ACTIVE, or the ACTIVE one held and the counter at 0, serving rests (R88, R94); a band turn that starts or
holds its band rests, one that passes its band with a further one DAMAGED brings the next band turn, and one that defers or completes
its job brings a decision (R89, R92, R95). -/
inductive ServedTo : TurnNext → State → State → Prop
  | rest (s : State) : ServedTo .rest s s
  | decision (s t : State) : ServedTo .turn (arbitrate s) t → ServedTo .decision s t
  | idle (s : State) : activeJob s = none → ServedTo .turn s s
  | held (s : State) (j : Job) : activeJob s = some j → j.held = true → s.sched.counter = 0 → ServedTo .turn s s
  | turn (s t : State) (j : Job) :
      activeJob s = some j → (j.held = false ∨ 0 < s.sched.counter) → ServedTo (bandTurn j s).2 (bandTurn j s).1 t → ServedTo .turn s t

/-- The job of a creation number changed, every other as it was. -/
def jobsWith (c : Nat) (change : Job → Job) (jobs : List Job) : List Job :=
  jobs.map (fun k => if k.creation = c then change k else k)

/-- The Scheduler once a job has completed: the job gone and tallied, its tier the bottom tier in ROTATING mode (R82, R92). -/
def completedSched (j : Job) (c : Scheduler) : Scheduler :=
  { c with
    jobs := c.jobs.filter (fun k => k.creation != j.creation)
    completed := bump c.completed
    bottom := if c.tierMode = .rotating then j.tier else c.bottom }

/-- A rule applies to a field of a slot: its selector, its test of the damaged bands and its required side signals all hold (R53). -/
def ruleApplies (s : State) (i : Fin 32) (f : Field) (r : Rule) : Prop :=
  let present := (s.slots[i].signals.get f).getD noSignals
  (r.selector = .either ∨ (r.selector = .fieldA ∧ f = .a) ∨ (r.selector = .fieldB ∧ f = .b)) ∧
    (match r.test with
     | .any => ∃ b ∈ damagedSet s i f, r.mask.getLsbD b.val = true
     | .all => ∀ b : Fin 18, r.mask.getLsbD b.val = true → b ∈ damagedSet s i f
     | .none => ∀ b ∈ damagedSet s i f, r.mask.getLsbD b.val = false) ∧
    (r.requirement.headFault = true → present.headFault = true) ∧
    (r.requirement.trackingLow = true → present.trackingLow = true) ∧
    (r.requirement.noSignal = true → present.noSignal = true)

/-- A field's classification: the lowest rule slot whose rule applies, or none (R54). -/
def classifiedAs (s : State) (i : Fin 32) (f : Field) (k : Option (Fin 16)) : Prop :=
  let applies (j : Fin 16) : Prop := ∃ r, s.classifier.rules[j] = some r ∧ ruleApplies s i f r
  match k with
  | some j => applies j ∧ ∀ l < j, ¬applies l
  | none => ∀ l, ¬applies l

/-- A slot's record once slot `i` has released the references it held on it (R12, R23). -/
def releasedRecord (s : State) (i j : Fin 32) : SlotRecord :=
  let held := (if s.slots[i].heldP = some j then 1 else 0) + (if s.slots[i].heldN = some j then 1 else 0)
  if 0 < held ∧ s.slots[j].state = .retained ∧ s.slots[j].refs ≤ held ∧ s.anchor ≠ some j then SlotRecord.freed
  else { s.slots[j] with refs := s.slots[j].refs - held }

/-! ### Frames under assembly -/

/-- Bands of some fields of slot `i` not yet recorded have become MISSING, with count 255, state DAMAGED and black lines; nothing else
has changed (R2, R43). -/
def markedMissing (i : Fin 32) (fields : List Field) (s u : State) : Prop :=
  let absent (j : Fin 32) (f : Field) (b : Fin 18) : Prop :=
    j = i ∧ f ∈ fields ∧ b.val < bandsPer s.settings.format ∧ (s.slots[i]).band f b = none
  (∀ (f : Field) (b : Fin 18), absent i f b →
    (u.slots[i]).band f b = some { count := 255, state := .damaged } ∧ u.image i f b = blackImage) ∧
  (∀ (j : Fin 32) (f : Field) (b : Fin 18), ¬absent j f b →
    (u.slots[j]).band f b = (s.slots[j]).band f b ∧ u.image j f b = s.image j f b) ∧
  (∀ j : Fin 32, { u.slots[j] with bands := s.slots[j].bands } = s.slots[j]) ∧
  { u with slots := s.slots, buffers := s.buffers } = s

/-- Every band of the frame in slot `i` is recorded and CLEAN. -/
def cleanFrame (s : State) (i : Fin 32) : Prop :=
  ∀ (f : Field) (b : Fin 18), b.val < bandsPer s.settings.format → ((s.slots[i]).band f b).map (fun x => x.state) = some .clean

/-- The tier and chain head of the rule slot a field was classified by, or tier 7 and chain head 0 (R54). -/
def classified (s : State) (k : Option (Fin 16)) : Fin 8 × Fin 32 :=
  ((k.bind (fun j => s.classifier.rules[j])).map (fun r => (r.tier, r.chain))).getD (7, 0)

/-- The job a field brings at its frame's completion, with its lowest DAMAGED band at the cursor, or none (R55, R79). -/
def fieldJob (s : State) (i : Fin 32) (f : Field) (k : Option (Fin 16)) (creation : Nat) : List Job :=
  if damagedSet s i f = [] then []
  else
    [{ slot := i, field := f, tier := (classified s k).1, chain := (classified s k).2,
       damaged := (damagedSet s i f).length, creation := creation, state := .pending,
       cursor := (damagedSet s i f).head?, held := false, settled := 0 }]

/-- Frame `n` in slot `i`, every band of it recorded, has completed while a band operation was in flight, its fields classified by the
rule slots `kA` and `kB`. The slot takes age 0; without damage it is READY, with damage REPAIRING with its jobs outstanding and a P
reference on the slot of frame n - 1; that slot, if REPAIRING, takes an N reference on it (R11, R12). Each damaged field's match count
has risen and its job is queued, field A's first (R55, R58, R79), and a decision is owed (R87). -/
def frameCompleted (s : State) (i : Fin 32) (n : Nat) (kA kB : Option (Fin 16)) (u : State) : Prop :=
  let previous : Option (Fin 32) := if n = 0 then none else slotOf s (n - 1)
  let waits (j : Fin 32) : Bool := s.slots[j].state == .repairing
  let next (c : Nat) : Nat := (c + 1) % 4294967296
  let jobsA := fieldJob s i .a kA s.sched.creation
  let jobsB := fieldJob s i .b kB (next^[jobsA.length] s.sched.creation)
  let jobs := jobsA ++ jobsB
  let counted (f : Field) (k : Option (Fin 16)) (c : Classifier) : Classifier :=
    if damagedSet s i f = [] then c else countMatch k c
  let leans : Bool := !jobs.isEmpty
  u.slots[i] =
    { s.slots[i] with
      state := if leans then .repairing else .ready
      age := some 0
      heldP := if leans && previous.isSome then previous else s.slots[i].heldP
      jobsOutstanding := if leans then jobs.length else s.slots[i].jobsOutstanding
      refs := s.slots[i].refs + (if previous.any waits then 1 else 0) } ∧
  (∀ j : Fin 32, j ≠ i →
    u.slots[j] =
      if previous = some j then
        { s.slots[j] with
          refs := s.slots[j].refs + (if leans then 1 else 0), heldN := if waits j then some i else s.slots[j].heldN }
      else s.slots[j]) ∧
  u.sched =
    { s.sched with
      jobs := s.sched.jobs ++ jobs
      creation := next^[jobs.length] s.sched.creation
      created := bump^[jobs.length] s.sched.created
      owed := true } ∧
  u.classifier = counted .b kB (counted .a kA s.classifier) ∧
  { u with slots := s.slots, sched := s.sched, classifier := s.classifier } = s

/-- What closing the frame under assembly comes to while a band operation is in flight, for a frame `n` in slot `i`: the bands of both
fields not yet recorded become MISSING and the frame completes, no frame being left under assembly, with the watch count given (R39,
R40, R43 to R45). Whichever rule slots classify its fields, the state so reached has the property asked. -/
def frameClosed (s : State) (i : Fin 32) (n watch : Nat) (reached : State → Prop) : Prop :=
  ∃ m, markedMissing i [.a, .b] s m ∧
    ∀ kA kB : Option (Fin 16), classifiedAs m i .a kA → classifiedAs m i .b kB →
      ∃ u, frameCompleted { m with ingest := { s.ingest with frame := none, watch := watch } } i n kA kB u ∧ reached u

/-! ### Ingest and the lock -/

/-- Ingest's record once it has taken a field boundary, where no frame is under assembly if the lock is lost there (R45). -/
def watched (g : Ingest) : Ingest :=
  if g.state = .locked then
    if g.watch + 1 < 3 then { g with watch := g.watch + 1 }
    else if g.accepting then { g with state := .acquire, watch := 0, discardPending := true }
    else { g with state := .stopped, watch := 0 }
  else g

/-! ### Recordings -/

/-- No pending entry is overdue once every entry has aged by one WRITE SLOT (R146). -/
abbrev noneOverdue (s : State) : Prop := ∀ e ∈ s.verify.entries, e.age + 1 ≤ s.settings.verifyTimeout

/-- Every pending entry has aged by one WRITE SLOT (R146). -/
def agedEntries (v : Verify) : Verify := { v with entries := v.entries.map (fun e => { e with age := e.age + 1 }) }

/-- A slot's record once its frame has retired with an outcome: RETAINED as the anchor or while referenced, FREE otherwise (R19, R21,
R28). -/
def retiredRecord (s : State) (i : Fin 32) (o : FrameOutcome) : SlotRecord :=
  if s.anchor = some i ∨ 0 < s.slots[i].refs then { s.slots[i] with outcome := some o, state := .retained }
  else SlotRecord.freed

/-- A table that has taken an entry at its place by ascending original address (R157). -/
def tableTakes (x : RelocationEntry) (old new : List RelocationEntry) : Prop :=
  ∃ below above, old = below ++ above ∧ new = below ++ x :: above ∧ (∀ y ∈ below, y.original ≤ x.original) ∧
    ∀ y, above.head? = some y → x.original < y.original

/-- What a frame header shows of a slot: the bands per field, the side signals with an absent set as none present, and the treatment
and count of every band (R132). -/
def headerShows (t : State) (i : Fin 32) (h : FrameHeader) : Prop :=
  h.bandsPerField = bandsPer t.settings.format ∧
    h.signals = ⟨t.slots[i].signals.a.getD noSignals, t.slots[i].signals.b.getD noSignals⟩ ∧
    ∀ f : Field, (h.treatments.get f).length = bandsPer t.settings.format ∧
      ∀ (b : Fin 18) (x : BandRecord), b.val < bandsPer t.settings.format → (t.slots[i]).band f b = some x →
        (h.treatments.get f)[b.val]? = some { treatment := shownTreatment x.state, count := x.count }

/-! ### Chains -/

/-- The entry reached from a chain head by following `k` next links, if the chain is that long (R60). -/
def chainEntry (entries : Vector StrategyEntry 32) : Nat → Fin 32 → Option (Fin 32)
  | 0, e => some e
  | k + 1, e => (entries[e].next).bind (chainEntry entries k)

/-- The walk goes on past an entry: it is neither available nor waited at (R73, R74). -/
abbrev passedOver (e : StrategyEntry) (count : Nat) (c : Candidates) (nPending : Bool) : Prop :=
  entryAvailable e count c = false ∧ entryDefers e count c nPending = false

/-- Every entry of a chain before the `k`-th is passed over (R73). -/
def chainPassed (entries : Vector StrategyEntry 32) (count : Nat) (c : Candidates) (nPending : Bool) (k : Nat)
    (head : Fin 32) : Prop :=
  ∀ j < k, ∃ d, chainEntry entries j head = some d ∧ passedOver entries[d] count c nPending

end Sys2Proof.Machine
end

