-- ==== Sys2Proof/Certificates/Slice0/Obligations.lean ====
section
/-! DEFINITION. The statements for the provers, in the order of OBLIGATIONS.json. A statement's docstring says which rules of the spec it
formalises, and where it rests on a choice of the model. -/

open Sys2Proof Sys2Proof.Machine

/-! ### The whole part -/

/-- The step takes the command at the front of the queue: it is `exec` of that command on the state with the queue's rest. On an empty
queue the part idles, which is the model's choice (log entry 15). -/
def Obligations.StepTakesFront : Prop :=
  (∀ (c : Instr) (rest : List Instr) (s : State), s.pending = c :: rest → step s = exec c { s with pending := rest }) ∧
    ∀ s : State, s.pending = [] → step s = .next s

/-- Every command answers a next state and leaves the queue of commands waiting as it is. That it holds of every command is the
model's own: POWER ON and a RESET's effect leave the queue, which is no part of the device (log entry 16), and a row whose event does
not arise still answers a next state (log entries 2 and 14). The spec names the commands and states no such rule. -/
def Obligations.ExecCompletes : Prop := ∀ (c : Instr) (s : State), ∃ t, exec c s = .next t ∧ t.pending = s.pending

/-- What the spec gives for reset: the title IDLE with no declarations and default settings, the timebase SYNCED, an empty window,
ingest STOPPED, no rules, PASS entries, an idle Scheduler and unit, a WAITING recorder, nothing to verify, no region, nothing to
report, and a link that hunts with nothing queued (R27, R32, R59, R60, R101, R104, R122, R144, R153, R155, R176, R198). -/
def Obligations.ResetValues : Prop :=
  let s := State.reset
  (s.title.state = .idle ∧ s.title.declaration = none ∧ s.settings = Settings.defaults ∧ s.timebase.mode = .synced ∧
    s.timebase.ignored = 0) ∧
  ((∀ i : Fin 32, s.slots[i] = SlotRecord.freed) ∧ s.anchor = none ∧ s.gaps = []) ∧
  (s.ingest.state = .stopped ∧ s.ingest.next = none ∧ s.ingest.frame = none) ∧
  ((∀ k : Fin 16, s.classifier.rules[k] = none) ∧
    ∀ e : Fin 32, s.strategy.entries[e] = { kind := .pass, next := none, wait := false, limit := 18 }) ∧
  (s.sched.jobs = [] ∧ s.sched.bottom = 7 ∧ s.sched.tierMode = .fixed ∧ s.sched.maskSet = 0 ∧ s.sched.creation = 0 ∧
    s.sched.counter = 24 ∧ s.repair.op = none) ∧
  (s.feed.state = .waiting ∧ s.feed.pausePending = false ∧ s.feed.h = none ∧ s.feed.tagCounter = 0 ∧ s.feed.flight = none) ∧
  (s.verify.entries = [] ∧ s.verify.queue = [] ∧ s.spare.region = none ∧ s.spare.inFlight = 0 ∧ s.spare.table = []) ∧
  (s.reports.done = [] ∧ s.reports.missed = 0 ∧ s.reports.truths = Conditions.none ∧ s.reports.reported = Conditions.none ∧
    s.reports.alerts = Alerts.none ∧ s.reports.events = []) ∧
  (s.link.receiver = none ∧ s.link.queue = [] ∧ s.link.sending = none ∧ s.link.waiting = [])

/-- POWER ON returns every block to its reset values. The end of the reset reply's transmission does so too, but that the frame memory
keeps its samples, the last message on the recorder line then being CANCEL exactly when a write was in flight (R1, R27, R141, R176,
R184, R189). The model's choices: RESET TAKES EFFECT standing alone is that end where such a reply is in transmission and changes
nothing otherwise (log entry 2); the last message on the recorder line is a field of the model's (log entry 23); the queue of commands
waiting stays (log entry 16); at power-on the frame memory reads black (log entry 7). -/
def Obligations.DeviceResets : Prop :=
  ∀ s : State,
    exec .powerOn s = .next { State.reset with pending := s.pending } ∧
    (∀ m : Message, s.link.sending = some m → m.cls = .resetReply →
      let cancelled : State :=
        { State.reset with
          buffers := s.buffers, pending := s.pending, recorderOut := s.feed.flight.map (fun w => .cancel w.tag) }
      exec .resetTakesEffect s = .next cancelled ∧ exec .transmissionEnd s = .next cancelled) ∧
    ((∀ m : Message, s.link.sending = some m → m.cls ≠ .resetReply) → exec .resetTakesEffect s = .next s)

/-! ### Invariants -/

/-- The frame memory keeps its canonical form: no command breaks it, from any state that has it. -/
def Obligations.MemoryStaysCanonical : Prop :=
  ∀ s t : State, memoryCanonical s → step s = .next t → memoryCanonical t

/-- Through every step the receive queue and the messages waiting keep within R183's and R184's bounds, and the done list, the title
event list, their counts and the gap list within theirs (R24, R192, R196, R197). No step leaves a complete drain or close untaken
(R171, R172), nor a condition's truth untold (R194). -/
def Obligations.QueuesStayBounded : Prop :=
  ∀ s t : State, step s = .next t →
    (linkBounded s → linkBounded t) ∧ (listsBounded s → listsBounded t) ∧ (titleSettled s → titleSettled t) ∧
      (conditionsTold s → conditionsTold t)

/-- The settings, the band budget and the band limits keep within their ranges through every step. -/
def Obligations.ConfigurationStaysLegal : Prop :=
  ∀ s t : State, configurationLegal s → step s = .next t → configurationLegal t

/-- The invariants hold at reset. -/
def Obligations.InvariantsAtReset : Prop :=
  memoryCanonical State.reset ∧ linkBounded State.reset ∧ listsBounded State.reset ∧ configurationLegal State.reset ∧
    titleSettled State.reset ∧ conditionsTold State.reset

/-! ### The picture line -/

/-- In STOPPED the picture line's events are consumed and change nothing (R31). In ACQUIRE the first FIELD START is given up, whichever
its parity, and after it every FIELD START B; a FIELD END is consumed (R35, R49). What settling does is stated of the drain and the
close; here, with the title settled and the conditions told, it does nothing. -/
def Obligations.UnlockedIngestConsumes : Prop :=
  ∀ (s : State) (parity : Field) (signals : SideSignals),
    (titleSettled s → conditionsTold s → settle s = s) ∧
    (s.ingest.state = .stopped →
      (∀ (index count : Byte) (samples : BandImage), exec (.band index count samples) s = .next s) ∧
        exec (.fieldStart parity signals) s = .next (settle s) ∧ exec .fieldEnd s = .next (settle s)) ∧
    (s.ingest.state = .acquire →
      exec .fieldEnd s = .next (settle s) ∧
      (s.ingest.discardPending = true →
        exec (.fieldStart parity signals) s =
          .next
            (settle
              { s with
                ingest :=
                  { s.ingest with discardPending := false, fieldsDiscarded := bump s.ingest.fieldsDiscarded } })) ∧
      (s.ingest.discardPending = false →
        exec (.fieldStart .b signals) s =
          .next (settle { s with ingest := { s.ingest with fieldsDiscarded := bump s.ingest.fieldsDiscarded } })))

/-- A FIELD START that begins a frame, with a FREE slot: the frame takes the next frame number and the lowest-numbered FREE slot, whose
record is that of R7, the watch count 0 and ingest LOCKED. FIELD START A does so in ACQUIRE, and both parities in LOCKED with no frame
under assembly, a frame begun with field B having field A all MISSING (R7, R35, R36, R38). While new frames are not accepted the field
is consumed instead and ingest enters STOPPED (R46). In LOCKED a FIELD START that cannot join closes the frame under assembly first: it
is what it is with none, taken on the state reached once that frame is closed, a DROPPED one set aside, one with a slot completed with
its absent bands MISSING (R39, R40, R43, R44). That completion is stated with a band operation in flight, and of a clean frame with no
job. -/
def Obligations.FieldStartBeginsFrame : Prop :=
  ∀ (s : State) (signals : SideSignals),
    (∀ (n last : Nat) (i : Fin 32),
      s.ingest.next = some n → s.ingest.last = some last → n ≤ last →
      s.slots[i].state = .free → (∀ j : Fin 32, j < i → s.slots[j].state ≠ .free) →
        let begun (p : Field) : State :=
          { s with
            slots :=
              s.slots.set i
                { SlotRecord.freed with
                  state := .filling, frame := some n
                  signals := if p = .a then ⟨some signals, none⟩ else ⟨none, some signals⟩ }
            ingest :=
              { s.ingest with
                state := .locked
                watch := 0
                next := if n = 4294967295 then none else some (n + 1)
                frame :=
                  some
                    { number := n, slot := some i, begunA := decide (p = .a), begunB := decide (p = .b), openField := some p }
                accepted := bump s.ingest.accepted } }
        (s.ingest.state = .acquire → s.ingest.discardPending = false →
          exec (.fieldStart .a signals) s = .next (settle (begun .a))) ∧
        (s.ingest.state = .locked → s.ingest.frame = none → s.ingest.accepting = true →
          exec (.fieldStart .a signals) s = .next (settle (begun .a)) ∧
            ∃ u, exec (.fieldStart .b signals) s = .next (settle u) ∧ markedMissing i [.a] (begun .b) u)) ∧
    (∀ (n last : Nat) (p : Field),
      s.ingest.next = some n → s.ingest.last = some last → n ≤ last →
      s.ingest.state = .locked → s.ingest.frame = none → s.ingest.accepting = false →
        exec (.fieldStart p signals) s =
          .next
            (settle (decisionPoint
              { s with
                ingest :=
                  { s.ingest with
                    state := .stopped, watch := 0, fieldsDiscarded := bump s.ingest.fieldsDiscarded } }))) ∧
    (∀ (p : Field) (a : Assembly),
      s.ingest.state = .locked → s.ingest.frame = some a → (p = .a ∨ a.begunA = false ∨ a.begunB = true) →
        (a.slot = none →
          exec (.fieldStart p signals) s =
            exec (.fieldStart p signals) { s with ingest := { s.ingest with frame := none } }) ∧
        ∀ (i : Fin 32) (n : Nat), a.slot = some i → s.slots[i].frame = some n →
          (s.repair.op.isSome = true →
            frameClosed s i n 0 (fun c => exec (.fieldStart p signals) s = exec (.fieldStart p signals) c)) ∧
          (repairIdle s → cleanFrame s i → (∀ j : Fin 32, s.slots[j].state ≠ .repairing) →
            exec (.fieldStart p signals) s =
              exec (.fieldStart p signals)
                (decided
                  { s with
                    slots := s.slots.set i { s.slots[i] with state := .ready, age := some 0 }
                    ingest := { s.ingest with frame := none, watch := 0 } })))

/-- With no FREE slot the pressure policy decides. PROTECT SOURCE, with a candidate (SENT, not streaming, unreferenced, not the anchor):
the one whose write tag was assigned earliest is forfeited, its entry keeping a copy of the record and no slot, and its slot holds
the new frame (R9). PROTECT DISC, or no candidate: the frame is dropped, its number becomes a gap and SOURCE GAP is posted (R8, R24,
R38), which is a decision point (R38, R87); a refused gap's number is the next frame's. -/
def Obligations.FieldStartDropsFrame : Prop :=
  ∀ (s : State) (signals : SideSignals) (n last : Nat),
    s.ingest.state = .locked → s.ingest.frame = none → s.ingest.accepting = true →
    s.ingest.next = some n → s.ingest.last = some last → n ≤ last → (∀ j : Fin 32, s.slots[j].state ≠ .free) →
      let candidate (i : Fin 32) : Prop :=
        s.slots[i].state = .sent ∧ s.slots[i].streaming = false ∧ s.slots[i].refs = 0 ∧ s.anchor ≠ some i
      let distance (i : Fin 32) : Nat := (s.feed.tagCounter + 65536 - s.slots[i].tag.getD 0) % 65536
      let begun (slot : Option (Fin 32)) : Assembly :=
        { number := n, slot := slot, begunA := true, begunB := false, openField := some .a }
      let after : Option Nat := if n = 4294967295 then none else some (n + 1)
      let dropped (next : Option Nat) (t : State) : State :=
        { t with
          reports := { s.reports with alerts := { s.reports.alerts with sourceGap := true } }
          ingest :=
            { s.ingest with watch := 0, next := next, frame := some (begun none), dropped := bump s.ingest.dropped } }
      (∀ i : Fin 32, s.settings.pressure = .protectSource → candidate i →
        (∀ j : Fin 32, j ≠ i → candidate j → distance j < distance i) →
          let copy : SlotRecord := { s.slots[i] with forfeited := true }
          exec (.fieldStart .a signals) s =
            .next
              (settle
                { s with
                  slots :=
                    s.slots.set i
                      { SlotRecord.freed with state := .filling, frame := some n, signals := ⟨some signals, none⟩ }
                  verify :=
                    { s.verify with
                      entries :=
                        s.verify.entries.map
                          (fun e =>
                            if some e.tag = copy.tag then { e with forfeited := true, slot := none, copy := some copy }
                            else e) }
                  ingest :=
                    { s.ingest with
                      watch := 0, next := after, frame := some (begun (some i)), accepted := bump s.ingest.accepted } })) ∧
      ((s.settings.pressure = .protectDisc ∨ ∀ i : Fin 32, ¬candidate i) →
        (∀ runs : List GapRun, recordGap s.gaps n = some runs →
          exec (.fieldStart .a signals) s = .next (settle (decisionPoint (dropped after { s with gaps := runs }))) ∧
            (repairIdle s →
              decisionPoint (dropped after { s with gaps := runs }) = decided (dropped after { s with gaps := runs }))) ∧
        (recordGap s.gaps n = none → exec (.fieldStart .a signals) s = .next (settle (dropped (some n) s))))

/-- A FIELD START B joins the frame under assembly that has begun field A alone: with a slot its side signals are recorded and field B
opens; a field A still open is closed first, its undelivered bands becoming MISSING; for a DROPPED frame the field opens and nothing is
kept of it (R40, R43). -/
def Obligations.FieldStartJoinsFrame : Prop :=
  ∀ (s : State) (signals : SideSignals) (a : Assembly),
    s.ingest.state = .locked → s.ingest.frame = some a → a.begunA = true → a.begunB = false →
      let joined : Ingest := { s.ingest with watch := 0, frame := some { a with begunB := true, openField := some .b } }
      (a.slot = none → exec (.fieldStart .b signals) s = .next (settle { s with ingest := joined })) ∧
      ∀ i : Fin 32, a.slot = some i →
        let told : State :=
          { s with
            slots := s.slots.set i { s.slots[i] with signals := ⟨s.slots[i].signals.a, some signals⟩ }
            ingest := joined }
        (a.openField ≠ some .a → exec (.fieldStart .b signals) s = .next (settle told)) ∧
        (a.openField = some .a →
          ∃ u, exec (.fieldStart .b signals) s = .next (settle u) ∧ markedMissing i [.a] told u)

/-- A frame start beyond the last title frame number, taken in LOCKED with no frame under assembly while RUNNING, is refused: the
title moves to DRAINING with TITLE FULL posted and ingest enters STOPPED (R37, R46, R170). -/
def Obligations.TitleFullDrains : Prop :=
  ∀ (s : State) (p : Field) (signals : SideSignals) (n last : Nat),
    s.ingest.state = .locked → s.ingest.frame = none → s.title.state = .running →
    s.ingest.next = some n → s.ingest.last = some last → last < n →
      let full : State :=
        { s with
          title := { s.title with state := .draining }
          reports := { s.reports with alerts := { s.reports.alerts with titleFull := true } }
          ingest :=
            { s.ingest with
              state := .stopped
              accepting := false
              watch := 0
              fieldsDiscarded := bump s.ingest.fieldsDiscarded } }
      exec (.fieldStart p signals) s = .next (settle (decisionPoint full)) ∧ (repairIdle s → decisionPoint full = decided full)

/-- A BAND in the open field of a frame with a slot, of an index below B and not yet recorded, is recorded with its count and the
state the threshold gives; its samples are stored, or black lines when it is MISSING. No other band changes (R2, R41, R50). -/
def Obligations.BandIsStored : Prop :=
  ∀ (s : State) (index count : Byte) (samples : BandImage) (a : Assembly) (f : Field) (i : Fin 32) (b : Fin 18),
    s.ingest.state = .locked → s.ingest.frame = some a → a.openField = some f → a.slot = some i →
    b.val = index.toNat → b.val < bandsPer s.settings.format → (s.slots[i]).band f b = none → imageWf samples = true →
      ∃ t, exec (.band index count samples) s = .next t ∧
        (t.slots[i]).band f b =
          some
            { count := count
              state := if s.settings.threshold ≤ count.toNat ∨ count = 255 then .damaged else .clean } ∧
        (∀ p < 23040, sampleAt (t.image i f b) p = if count = 255 then blackAt p else sampleAt samples p) ∧
        (∀ (j : Fin 32) (g : Field) (c : Fin 18), ¬(j = i ∧ g = f ∧ c = b) →
          t.image j g c = s.image j g c ∧ (t.slots[j]).band g c = (s.slots[j]).band g c) ∧
        (∀ j : Fin 32, { t.slots[j] with bands := s.slots[j].bands } = s.slots[j]) ∧
        { t with slots := s.slots, buffers := s.buffers } = s

/-- A BAND out of range, already recorded, outside an open field, or taken in ACQUIRE is ignored and counted; a BAND of a DROPPED
frame changes nothing (R35, R41). -/
def Obligations.BandIsIgnored : Prop :=
  ∀ (s : State) (index count : Byte) (samples : BandImage),
    let ignored : State := { s with ingest := { s.ingest with bandsIgnored := bump s.ingest.bandsIgnored } }
    (s.ingest.state = .acquire → exec (.band index count samples) s = .next ignored) ∧
    (s.ingest.state = .locked → s.ingest.frame = none → exec (.band index count samples) s = .next ignored) ∧
    (∀ a : Assembly, s.ingest.state = .locked → s.ingest.frame = some a →
      (a.openField = none → exec (.band index count samples) s = .next ignored) ∧
      (∀ f : Field, a.openField = some f →
        (a.slot = none → exec (.band index count samples) s = .next s) ∧
        (∀ i : Fin 32, a.slot = some i →
          (bandsPer s.settings.format ≤ index.toNat → exec (.band index count samples) s = .next ignored) ∧
          (∀ b : Fin 18, b.val = index.toNat → ((s.slots[i]).band f b).isSome = true →
            exec (.band index count samples) s = .next ignored))))

/-- A FIELD END of field A closes it: every band of field A not recorded becomes MISSING, with count 255, state DAMAGED and black
lines, and no field is open; nothing else changes (R2, R42, R43). -/
def Obligations.FieldEndClosesFieldA : Prop :=
  ∀ (s : State) (a : Assembly) (i : Fin 32),
    s.ingest.state = .locked → s.ingest.frame = some a → a.slot = some i → a.openField = some .a →
      ∃ u, exec .fieldEnd s = .next (settle u) ∧
        u.ingest = { s.ingest with frame := some { a with openField := none } } ∧
        (∀ b : Fin 18, b.val < bandsPer s.settings.format → (s.slots[i]).band .a b = none →
          (u.slots[i]).band .a b = some { count := 255, state := .damaged } ∧ u.image i .a b = blackImage) ∧
        (∀ (j : Fin 32) (g : Field) (c : Fin 18),
          ¬(j = i ∧ g = .a ∧ c.val < bandsPer s.settings.format ∧ (s.slots[i]).band .a c = none) →
            u.image j g c = s.image j g c ∧ (u.slots[j]).band g c = (s.slots[j]).band g c) ∧
        (∀ j : Fin 32, { u.slots[j] with bands := s.slots[j].bands } = s.slots[j]) ∧
        { u with slots := s.slots, buffers := s.buffers, ingest := s.ingest } = s

/-- The FIELD END of field B completes the frame; with new frames no longer accepted ingest then enters STOPPED (R11, R42, R44, R46).
With every band CLEAN and the predecessor not under repair, its slot takes age 0 and becomes READY. In general the bands not yet recorded
become MISSING (R43), and with DAMAGED bands it becomes REPAIRING: it holds a P reference on the slot of frame n - 1, and that slot, if
REPAIRING, an N reference on it (R11, R12); each damaged field is classified by the lowest rule slot that applies, or tier 7 and chain 0,
and its count raised (R51 to R54, R58); and a job is queued for each, field A's first, with the lowest DAMAGED band at its cursor (R55,
R79). That is stated with a band operation in flight, so that the decisions are owed (R87). -/
def Obligations.FieldEndCompletesCleanFrame : Prop :=
  ∀ (s : State) (a : Assembly) (i : Fin 32) (n : Nat),
    s.ingest.state = .locked → s.ingest.frame = some a → a.slot = some i → a.openField = some .b → s.slots[i].frame = some n →
      let ended : Ingest :=
        { s.ingest with state := if s.ingest.accepting then .locked else .stopped, frame := none }
      (repairIdle s → cleanFrame s i → (∀ j : Fin 32, s.slots[j].state ≠ .repairing) →
        exec .fieldEnd s =
          .next
            (settle (decided
              { s with
                slots := s.slots.set i { s.slots[i] with state := .ready, age := some 0 }
                ingest := ended }))) ∧
      (s.repair.op.isSome = true →
        frameClosed s i n s.ingest.watch (fun c => exec .fieldEnd s = .next (settle { c with ingest := ended })))

/-- When the watch count of a LOCKED ingest has reached 3, the lock is lost: ingest enters ACQUIRE with discard pending yes while
accepting new frames, STOPPED otherwise, the watch count is 0, and the Scheduler is told (R33, R45). A frame under assembly is closed
first: a DROPPED one is set aside, one with a slot completes with its absent bands MISSING, the lock being lost from the state so reached
(R43 to R45, step 1 of R45). That completion is stated with a band operation in flight, and of a clean frame with no job. The event
standing alone is log entry 2. -/
def Obligations.LockIsLost : Prop :=
  ∀ s : State, s.ingest.state = .locked → 3 ≤ s.ingest.watch →
    (s.ingest.frame = none →
      let lost : State :=
        { s with
          ingest :=
            { s.ingest with
              state := if s.ingest.accepting then .acquire else .stopped
              watch := 0
              discardPending := if s.ingest.accepting then true else s.ingest.discardPending } }
      exec .lockLoss s = .next (settle (decisionPoint lost)) ∧ (repairIdle s → decisionPoint lost = decided lost)) ∧
    ∀ a : Assembly, s.ingest.frame = some a →
      (a.slot = none → exec .lockLoss s = exec .lockLoss { s with ingest := { s.ingest with frame := none } }) ∧
      ∀ (i : Fin 32) (n : Nat), a.slot = some i → s.slots[i].frame = some n →
        (s.repair.op.isSome = true → frameClosed s i n s.ingest.watch (fun c => exec .lockLoss s = exec .lockLoss c)) ∧
        (repairIdle s → cleanFrame s i → (∀ j : Fin 32, s.slots[j].state ≠ .repairing) →
          exec .lockLoss s =
            exec .lockLoss
              (decided
                { s with
                  slots := s.slots.set i { s.slots[i] with state := .ready, age := some 0 }
                  ingest := { s.ingest with frame := none } }))

/-- Recording a gap above every number recorded keeps every covered number covered, covers the new one, and keeps at most 16 runs;
it is refused only with 16 runs whose newest cannot be stretched to it within 65535 (R24). That a gap next to a newest run already
65535 long starts a run beside it, while fewer than 16 are held, is the model's reading (log entry 34). -/
def Obligations.GapIsRecorded : Prop :=
  ∀ (runs : List GapRun) (g : Nat),
    runs.length ≤ 16 → (∀ r ∈ runs, r.first + r.length ≤ g) →
      (∀ runs', recordGap runs g = some runs' →
        runs'.length ≤ 16 ∧ runs'.any (runCovers g) = true ∧
          ∀ k, runs.any (runCovers k) = true → runs'.any (runCovers k) = true) ∧
      (recordGap runs g = none →
        runs.length = 16 ∧ ∀ r, runs.getLast? = some r → 65535 < g - r.first + 1)

/-! ### The field timebase -/

/-- A pulse arriving less than half a nominal period after the last boundary is ignored: only its tally rises (R177). A pulse at half a
nominal period or more after the last boundary, or before the first, makes a boundary in any of the 24 orders
of its four receivers: SYNCED from its arrival, ages up by one, the budget counter reloaded, and, in LOCKED, the watch count up by
one, or at the third boundary the lock lost (R13, R45, R93, R177, R178). With no job, and no frame under assembly where the lock is
lost, nothing else changes but what settling changes and what the Report Unit says. That the pulse carries its time and the order is
free are log entries 4 and 3. -/
def Obligations.PulseMakesBoundary : Prop :=
  ∀ (s : State) (time : Nat) (order : BoundaryOrder),
    (s.timebase.boundaryMade = true → 2 * (time - s.timebase.last) < s.timebase.period →
      exec (.referencePulse time order) s =
        .next { s with timebase := { s.timebase with ignored := bump s.timebase.ignored } }) ∧
    ((s.timebase.boundaryMade = false ∨ s.timebase.period ≤ 2 * (time - s.timebase.last)) →
    repairIdle s → (s.ingest.state = .locked → 2 ≤ s.ingest.watch → s.ingest.frame = none) →
      let u : State :=
        { s with
          timebase :=
            { mode := .synced, last := time, boundaryMade := true, period := nominalPeriod s.settings.format,
              ignored := s.timebase.ignored }
          slots := s.slots.map agedRecord
          sched := { s.sched with counter := s.sched.bandBudget, started := 0, owed := false }
          ingest := watched s.ingest }
      ∃ t, exec (.referencePulse time order) s = .next t ∧ t.reports.truths = conditionsNow t ∧
        { t with reports := s.reports, link := s.link } = { settle u with reports := s.reports, link := s.link })

/-- The generator: in SYNCED the entry to FREE RUN makes a boundary three nominal periods after the last, and REFERENCE FREE RUN
holds; in FREE RUN each generated boundary comes one nominal period after the last (R178). The boundary's effects are as for a
pulse (R13, R45, R93). That its time is computed and no clock is held against it is the model's choice (log entry 4). -/
def Obligations.GeneratorMakesBoundary : Prop :=
  ∀ (s : State) (order : BoundaryOrder),
    repairIdle s → (s.ingest.state = .locked → 2 ≤ s.ingest.watch → s.ingest.frame = none) →
    let made (last : Nat) (t : State) : Prop :=
      let u : State :=
        { s with
          timebase :=
            { mode := .freeRun, last := last, boundaryMade := true, period := nominalPeriod s.settings.format,
              ignored := s.timebase.ignored }
          slots := s.slots.map agedRecord
          sched := { s.sched with counter := s.sched.bandBudget, started := 0, owed := false }
          ingest := watched s.ingest }
      t.reports.truths = conditionsNow t ∧ t.reports.truths.referenceFreeRun = true ∧
        { t with reports := s.reports, link := s.link } = { settle u with reports := s.reports, link := s.link }
    (s.timebase.mode = .synced →
      ∃ t, exec (.enterFreeRun order) s = .next t ∧ made (s.timebase.last + 3 * s.timebase.period) t) ∧
    (s.timebase.mode = .freeRun →
      ∃ t, exec (.generatedBoundary order) s = .next t ∧ made (s.timebase.last + s.timebase.period) t)

/-- At every boundary, of a pulse or of the generator, the Report Unit tells what is owed. With something to say and the line free a
notice begins: it carries the count of reports added, the owed conditions with their truths, the alerts and the title events; the
count falls to 0, the reported truths become the truths, the events leave the list. With a message in transmission the notice waits
behind the others, or takes the place of one that still waits, which is withdrawn and tallied. With nothing owed the link stays as it
is. The Report Unit is as it was but for REFERENCE FREE RUN (R194, R196, R197; R177 and R178 for the boundaries). That the notice of the
very boundary that enters FREE RUN or returns to SYNCED already carries the new truth of REFERENCE FREE RUN is the model's reading, for
the spec gives the boundary and the telling no order (log entry 24); that the order of the four receivers and a pulse's time are operands
is the model's choice (log entries 3 and 4). -/
def Obligations.BoundaryBeginsNotice : Prop :=
  ∀ (s : State) (order : BoundaryOrder) (c : Instr) (free : Bool),
    titleSettled s → conditionsTold s → repairIdle s → (s.ingest.state = .locked → s.ingest.watch < 2) →
    ((free = false ∧ ∃ time, c = .referencePulse time order ∧
        (s.timebase.boundaryMade = false ∨ s.timebase.period ≤ 2 * (time - s.timebase.last))) ∨
      (free = true ∧ c = .enterFreeRun order ∧ s.timebase.mode = .synced) ∨
      (free = true ∧ c = .generatedBoundary order ∧ s.timebase.mode = .freeRun)) →
      let told : ReportUnit := { s.reports with truths := { s.reports.truths with referenceFreeRun := free } }
      (noticeOwed told = false → ∃ t, exec c s = .next t ∧ t.link = s.link ∧ t.reports = told) ∧
      (noticeOwed told = true →
        ∃ (t : State) (n : Notice), exec c s = .next t ∧
          (n.count = told.added ∧ n.alerts = told.alerts ∧ n.events = told.events ∧ n.carried = owedConditions told ∧
            n.truths = within n.carried told.truths) ∧
          let m : Message := { cls := .notice n, kind := 0xC0, tag := 0, payload := noticeBytes n }
          (s.link.sending = none → s.link.waiting = [] →
            t.reports = { told with added := 0, reported := told.truths, events := [] } ∧
            t.link =
              { s.link with
                sending := some m, lineOut := some (framed 0xC0 0 (noticeBytes n)),
                noticesSent := bump s.link.noticesSent }) ∧
          (s.link.sending.isSome = true → t.reports = told ∧
            ((∀ w ∈ s.link.waiting, isNotice w = false) →
              t.link = { s.link with waiting := s.link.waiting ++ [m] }) ∧
            (∀ (before after : List Message) (w : Message), s.link.waiting = before ++ w :: after → isNotice w = true →
              (∀ x ∈ before ++ after, isNotice x = false) →
                t.link =
                  { s.link with
                    waiting := before ++ m :: after, noticesWithdrawn := bump s.link.noticesWithdrawn })))

/-! ### Strategies and repair -/

/-- The walk takes or waits at the first entry of the chain that it does not pass over, among the first eight; having
passed over one whose next link is END it ends at END, and having passed over eight with a further link it ends at the visit limit
(R72 to R75). -/
def Obligations.WalkFollowsChain : Prop :=
  ∀ (entries : Vector StrategyEntry 32) (count : Nat) (c : Candidates) (nPending : Bool) (head e : Fin 32),
    let walked := walkFrom entries count c nPending 8 head
    (walked = .taken e ↔
      ∃ k < 8, chainEntry entries k head = some e ∧ chainPassed entries count c nPending k head ∧
        entryAvailable entries[e] count c = true) ∧
    (walked = .defer e ↔
      ∃ k < 8, chainEntry entries k head = some e ∧ chainPassed entries count c nPending k head ∧
        entryDefers entries[e] count c nPending = true) ∧
    (walked = .passedAtLimit ↔
      chainPassed entries count c nPending 8 head ∧ (chainEntry entries 8 head).isSome = true) ∧
    (walked = .passedAtEnd ↔
      ∃ k < 8, chainPassed entries count c nPending (k + 1) head ∧ chainEntry entries (k + 1) head = none)

/-- The job the decision grants is queued, eligible, of an unmasked tier above every tier in service; no such job has a higher tier,
and none of its tier that is eligible is older (R80, R83, R88). The decision makes that job ACTIVE, or with none the highest in
service, the job that was ACTIVE becoming SUSPENDED (R86, R88); it is owed while a band operation is in flight (R87), and a band turn
follows it unless no job is ACTIVE or the ACTIVE one is held with the counter at 0 (R88, R89). The band turn: an entry taken starts
the band, the counter falling by one, or holds the job at a counter of 0 (R89, R90, R94); DEFER puts the job back in its queue (R95);
PASS passes the band at no cost and moves the cursor on, or past the last band completes the job, rotating the bottom tier in ROTATING
mode, its slot READY once no job is outstanding (R82, R89, R92, R14). What follows is served in the same act to its end: after a PASS with
a further DAMAGED band the next band turn, after a deferral or a completion the next decision, until a band starts or is held or no job
is ACTIVE, whatever the jobs, their creation numbers being distinct (R79, R80, R88, R89, R92, R95). -/
def Obligations.DecisionGrantsHighest : Prop :=
  (∀ (s : State) (j : Job), grantCandidate s = some j →
    (j ∈ s.sched.jobs ∧ isQueued j = true ∧ isEligible s j = true ∧ isMasked s j.tier = false ∧ aboveService s j.tier = true) ∧
    ∀ k ∈ s.sched.jobs, isQueued k = true → isEligible s k = true → isMasked s k.tier = false →
      aboveService s k.tier = true →
        rank s.sched.bottom j.tier ≤ rank s.sched.bottom k.tier ∧ (k.tier = j.tier → jobAge s k ≤ jobAge s j)) ∧
  (∀ (s : State) (g : Job),
    (grantCandidate s = some g ∨
      (grantCandidate s = none ∧ g ∈ s.sched.jobs ∧ inService g = true ∧
        ∀ k ∈ s.sched.jobs, inService k = true → k ≠ g → rank s.sched.bottom g.tier < rank s.sched.bottom k.tier)) →
      arbitrate s =
        { s with
          sched :=
            { s.sched with
              owed := false
              jobs :=
                s.sched.jobs.map
                  (fun k =>
                    if k.creation = g.creation then { k with state := .active, held := k.held && k.state == .active }
                    else if k.state = .active then { k with state := .suspended, held := false }
                    else k) } }) ∧
  (∀ s : State, grantCandidate s = none → (∀ k ∈ s.sched.jobs, inService k = false) → arbitrate s = decided s) ∧
  (∀ s : State,
    (s.repair.op.isSome = true → decisionPoint s = { s with sched := { s.sched with owed := true } }) ∧
    (s.repair.op = none →
      (activeJob (arbitrate s) = none → decisionPoint s = arbitrate s) ∧
      ∀ j : Job, activeJob (arbitrate s) = some j →
        (j.held = true → s.sched.counter = 0 → decisionPoint s = arbitrate s) ∧
        ((j.held = false ∨ 0 < s.sched.counter) → (bandTurn j (arbitrate s)).2 = .rest →
          decisionPoint s = (bandTurn j (arbitrate s)).1)) ∧
    (s.repair.op = none → (s.sched.jobs.map (fun k => k.creation)).Nodup → ServedTo .decision s (decisionPoint s))) ∧
  (∀ (s : State) (j : Job) (b : Fin 18), j.cursor = some b →
    let walked := walk s j b
    let turned (change : Job → Job) : Scheduler :=
      { s.sched with jobs := s.sched.jobs.map (fun k => if k.creation = j.creation then change k else k) }
    (∀ (e : Fin 32) (kind : RepairKind), walked = .taken e → repairKind s.strategy.entries[e].kind = some kind →
      let usable := candidatesOf s j.slot j.field b
      let counted : Strategy :=
        { s.strategy with taken := s.strategy.taken.set e (min (s.strategy.taken[e] + 1) 65535) }
      (0 < s.sched.counter →
        bandTurn j s =
          ({ s with
             strategy := counted
             sched :=
               { turned (fun k => { k with held := false }) with
                 counter := s.sched.counter - 1, started := s.sched.started + 1,
                 bandsStarted := bump s.sched.bandsStarted }
             repair :=
               { s.repair with
                 op :=
                   some
                     { slot := j.slot, field := j.field, band := b, kind := kind, usable := usable
                       phase := if kind = .adaptive ∧ usable.p = true ∧ usable.n = true then .measure else .blend
                       m := none
                       motion := none
                       weights :=
                         match kind with
                         | .temporal => some ⟨32, 32, 0⟩
                         | .spatial => some ⟨0, 0, 64⟩
                         | .hold => some ⟨64, 0, 0⟩
                         | .adaptive => if usable.p = true ∧ usable.n = true then none else some ⟨0, 0, 64⟩
                       conditioned := false
                       result := [] } } }, .rest)) ∧
      (s.sched.counter = 0 →
        bandTurn j s = ({ s with strategy := counted, sched := turned (fun k => { k with held := true }) }, .rest))) ∧
    (∀ e : Fin 32, walked = .defer e →
      bandTurn j s =
        ({ s with
           strategy := { s.strategy with deferrals := min (s.strategy.deferrals + 1) 65535 }
           sched := turned (fun k => { k with state := .waitingNext, held := false }) }, .decision)) ∧
    (∀ x : BandRecord,
      (walked = .passedAtEnd ∨ walked = .passedAtLimit ∨
        ∃ e, walked = .taken e ∧ s.strategy.entries[e].kind = .pass) →
      (s.slots[j.slot]).band j.field b = some x → x.state = .damaged →
        let passed : SlotRecord := (s.slots[j.slot]).setBand j.field b { x with state := .passed }
        let counted := countWalk walked s.strategy
        (∀ c : Fin 18, nextDamaged s j.slot j.field (b.val + 1) = some c →
          bandTurn j s =
            ({ s with
               slots := s.slots.set j.slot passed
               strategy := counted
               sched := turned (fun k => { k with held := false, settled := k.settled + 1, cursor := some c }) }, .turn)) ∧
        (nextDamaged s j.slot j.field (b.val + 1) = none → s.slots[j.slot].state = .repairing →
          let ended : Scheduler :=
            { s.sched with
              jobs := s.sched.jobs.filter (fun k => k.creation != j.creation)
              completed := bump s.sched.completed
              bottom := if s.sched.tierMode = .rotating then j.tier else s.sched.bottom }
          (1 < s.slots[j.slot].jobsOutstanding →
            bandTurn j s =
              ({ s with
                 slots := s.slots.set j.slot { passed with jobsOutstanding := s.slots[j.slot].jobsOutstanding - 1 }
                 strategy := counted
                 sched := ended }, .decision)) ∧
          (s.slots[j.slot].jobsOutstanding ≤ 1 → s.slots[j.slot].heldP ≠ some j.slot → s.slots[j.slot].heldN ≠ some j.slot →
            ∃ t, bandTurn j s = (t, .decision) ∧
              t.slots[j.slot] = { passed with jobsOutstanding := 0, state := .ready, heldP := none, heldN := none } ∧
              (∀ i : Fin 32, i ≠ j.slot → t.slots[i] = releasedRecord s j.slot i) ∧
              { t with slots := s.slots } = { s with strategy := counted, sched := ended }))))

/-- Measure done: m is the mean probe difference with a half rounded up, the class follows from the thresholds, the weights are the
class's row when S is usable and (32, 32, 0) when not, and the operation enters its BLEND phase; the conditioned mark is
yes if it was, or if a probe sample read lay outside the legal range; nothing else changes (R106, R110, R113, R114, R116). -/
def Obligations.MeasureDoneChoosesWeights : Prop :=
  ∀ (s : State) (op : Operation), s.repair.op = some op → op.phase = .measure →
    let m := (probeSum s op + 32) / 64
    let c : Fin 4 := if m < s.settings.t1 then 0 else if m < s.settings.t2 then 1 else if m < s.settings.t3 then 2 else 3
    ∃ mark : Bool,
      exec .measureDone s =
        .next
          { s with
            repair :=
              { s.repair with
                op :=
                  some
                    { op with
                      phase := .blend
                      m := some m
                      motion := some c
                      weights := some (if op.usable.s then s.settings.weights[c] else ⟨32, 32, 0⟩)
                      conditioned := mark } } } ∧
        (mark = true ↔
          op.conditioned = true ∨
            ∃ p ∈ probes, isReserved (storedP s op p) = true ∨ isReserved (storedN s op p) = true)

/-- BAND DONE of an operation on a DAMAGED band of a REPAIRING slot: the band becomes REPAIRED with the operation's treatment and keeps
its count, every sample of it is the blend's, no other band's samples change, and the counts of R120 rise (R107, R118 to R120). The
ACTIVE job, of that slot and field, has one more band settled and its cursor at the next DAMAGED band (R91); with none it completes: it
is gone and tallied, its tier the bottom tier in ROTATING mode, and its slot has one job fewer outstanding, or at 0 is READY and has
released its references (R14, R82, R92). Then comes the decision of the BAND DONE, with the band turns it brings (R88, R91). At its end
the band is still so, and every other band record is as it was, or went from DAMAGED to PASSED, or left with a RETAINED slot that became
FREE; nothing changes outside the window's records, the memory, the Scheduler, the unit, the walk counts and the conditions told. -/
def Obligations.BandDoneRepairsBand : Prop :=
  ∀ (s : State) (op : Operation) (x : BandRecord),
    s.repair.op = some op → op.phase = .blend → s.slots[op.slot].state = .repairing →
    (s.slots[op.slot]).band op.field op.band = some x → x.state = .damaged →
      let repaired : BandRecord := { count := x.count, state := .repaired (treatmentOf op) }
      let record : SlotRecord := (s.slots[op.slot]).setBand op.field op.band repaired
      let blended (t : State) : Prop :=
        (∀ p < 23040,
          sampleAt (t.image op.slot op.field op.band) p = BitVec.ofNat 10 (blendAt s op (weightsOf op) p)) ∧
        (∀ (j : Fin 32) (g : Field) (b : Fin 18), ¬(j = op.slot ∧ g = op.field ∧ b = op.band) →
          t.image j g b = s.image j g b)
      let counts : UnitCounts := countRepair (Sys2Proof.Machine.blended s op) s.repair.counts
      ∃ u t, exec .bandDone s = .next t ∧ t = tellConditions (decisionPoint u) ∧
        u.repair = { s.repair with op := none, counts := counts } ∧ blended u ∧
        { u with slots := s.slots, buffers := s.buffers, sched := s.sched, repair := s.repair } = s ∧
        (∀ j : Job, activeJob s = some j → j.slot = op.slot → j.field = op.field →
          (∀ c : Fin 18, nextDamaged s op.slot op.field (op.band.val + 1) = some c →
            u.slots = s.slots.set op.slot record ∧
            u.sched =
              { s.sched with
                jobs :=
                  jobsWith j.creation (fun k => { k with held := false, settled := k.settled + 1, cursor := some c })
                    s.sched.jobs }) ∧
          (nextDamaged s op.slot op.field (op.band.val + 1) = none →
            u.sched = completedSched j s.sched ∧
            (1 < s.slots[op.slot].jobsOutstanding →
              u.slots =
                s.slots.set op.slot { record with jobsOutstanding := s.slots[op.slot].jobsOutstanding - 1 }) ∧
            (s.slots[op.slot].jobsOutstanding ≤ 1 → s.slots[op.slot].heldP ≠ some op.slot →
              s.slots[op.slot].heldN ≠ some op.slot →
                u.slots[op.slot] = { record with jobsOutstanding := 0, state := .ready, heldP := none, heldN := none } ∧
                ∀ i : Fin 32, i ≠ op.slot → u.slots[i] = releasedRecord s op.slot i))) ∧
        (t.slots[op.slot]).band op.field op.band = some repaired ∧ blended t ∧
        (∀ (j : Fin 32) (g : Field) (b : Fin 18), ¬(j = op.slot ∧ g = op.field ∧ b = op.band) →
          (t.slots[j]).band g b = (s.slots[j]).band g b ∨
          (∃ y, (s.slots[j]).band g b = some y ∧ y.state = .damaged ∧
            (t.slots[j]).band g b = some { y with state := .passed }) ∨
          (s.slots[j].state = .retained ∧ t.slots[j] = SlotRecord.freed)) ∧
        t.repair.counts = counts ∧
        { t with
          slots := s.slots, buffers := s.buffers, sched := s.sched, repair := s.repair, strategy := s.strategy,
          reports := s.reports } = s

/-- The blend never leaves the range its candidates span: with weights that sum to 64, and within bounds in the legal range every
candidate whose weight is above 0, the output is within them; with all weight on one candidate the output is that candidate, of the
rows for TEMPORAL's sides, SPATIAL and HOLD alike. It is said of the sum R118 gives and of each sample an operation blends, a
candidate of weight 0 being read by neither (R105, R109, R118). -/
def Obligations.BlendStaysWithin : Prop :=
  (∀ (w : Weights) (lo hi p n sp : Nat), w.p + w.n + w.s = 64 → 4 ≤ lo → hi ≤ 1019 →
    (0 < w.p → lo ≤ p ∧ p ≤ hi) → (0 < w.n → lo ≤ n ∧ n ≤ hi) → (0 < w.s → lo ≤ sp ∧ sp ≤ hi) →
      lo ≤ blendSample w p n sp ∧ blendSample w p n sp ≤ hi) ∧
  ∀ (s : State) (op : Operation) (at_ : Nat),
    let p := condition (storedP s op at_)
    let n := condition (storedN s op at_)
    let sp := spatialAt s op at_
    (∀ (w : Weights) (lo hi : Nat), w.p + w.n + w.s = 64 → 4 ≤ lo → hi ≤ 1019 →
      (0 < w.p → lo ≤ p ∧ p ≤ hi) → (0 < w.n → lo ≤ n ∧ n ≤ hi) → (0 < w.s → lo ≤ sp ∧ sp ≤ hi) →
        lo ≤ blendAt s op w at_ ∧ blendAt s op w at_ ≤ hi) ∧
    (4 ≤ sp ∧ sp ≤ 1019) ∧
    blendAt s op ⟨64, 0, 0⟩ at_ = p ∧ blendAt s op ⟨0, 64, 0⟩ at_ = n ∧ blendAt s op ⟨0, 0, 64⟩ at_ = sp

/-- At the top and the bottom of the picture S is the one neighbour's conditioned sample, of line 0 for field A line 0 and of line
16B - 1 (287 or 239) for field B line 16B - 1, so field A band 0 is supplied by field B band 0 alone and field B band B - 1 by field A
band B - 1 alone; every other line takes the mean of its two neighbours with a half rounded up (R112). -/
def Obligations.SpatialAtEdges : Prop :=
  ∀ (s : State) (op : Operation) (p : Nat), p < 23040 → op.band.val < bandsPer s.settings.format →
    let bands := bandsPer s.settings.format
    let l := 16 * op.band.val + p / 1440
    let other (line : Nat) : Nat := condition (lineSample s op.slot (otherField op.field) line (p % 1440))
    (op.field = .a → l = 0 → spatialAt s op p = other 0) ∧
    (op.field = .a → l ≠ 0 → spatialAt s op p = (other (l - 1) + other l + 1) / 2) ∧
    (op.field = .b → l + 1 = 16 * bands → spatialAt s op p = other l) ∧
    (op.field = .b → l + 1 ≠ 16 * bands → spatialAt s op p = (other l + other (l + 1) + 1) / 2) ∧
    (16 * bandsPer .f25 - 1 = 287 ∧ 16 * bandsPer .f30 - 1 = 239) ∧
    supplyingBands bands .a 0 = [0] ∧
    (∀ b : Fin 18, b.val + 1 = bands → supplyingBands bands .b b = [b])

/-- The probe set is positions 181, 541, 901 and 1261 on each of the 16 lines, all odd; D is the sum over the 64 probes of the
difference of the conditioned P and N samples, lies in 0..64960, and depends on P and N at the probes alone (R113). -/
def Obligations.ProbeSumMeasuresLuma : Prop :=
  probes.length = 64 ∧
  (∀ p, p ∈ probes ↔
    ∃ line < 16, p = 1440 * line + 181 ∨ p = 1440 * line + 541 ∨ p = 1440 * line + 901 ∨ p = 1440 * line + 1261) ∧
  (∀ p ∈ probes, p % 2 = 1) ∧
  ∀ (s s' : State) (op op' : Operation),
    probeSum s op =
        (probes.map (fun p =>
          (condition (storedP s op p) - condition (storedN s op p)) +
            (condition (storedN s op p) - condition (storedP s op p)))).sum ∧
      probeSum s op ≤ 64960 ∧
      ((∀ p ∈ probes, storedP s op p = storedP s' op' p ∧ storedN s op p = storedN s' op' p) →
        probeSum s op = probeSum s' op')

/-! ### The recorder line -/

/-- PAUSE and RESUME move the recorder state as the table of R123 gives, and RECORDER PAUSED is told; nothing else changes. -/
def Obligations.PauseAndResume : Prop :=
  ∀ s : State,
    let moved (state : RecorderState) (pausePending : Bool) : State :=
      { s with
        feed := { s.feed with state := state, pausePending := pausePending }
        reports := { s.reports with truths := { s.reports.truths with recorderPaused := state == .paused } } }
    (s.feed.state = .waiting →
      exec .pause s = .next (moved .paused s.feed.pausePending) ∧ exec .resume s = .next (moved .waiting s.feed.pausePending)) ∧
    (s.feed.state = .writing →
      exec .pause s = .next (moved .writing true) ∧ exec .resume s = .next (moved .writing false)) ∧
    (s.feed.state = .paused →
      exec .pause s = .next (moved .paused s.feed.pausePending) ∧ exec .resume s = .next (moved .waiting s.feed.pausePending))

/-- A WRITE SLOT while WRITING is answered IDLE SLOT and tallied as overlapping. Otherwise it ends a pause, and it is answered IDLE
SLOT in IDLE and ARMED, in RUNNING and DRAINING with no title candidate and nothing to relocate, and in CLOSING with no index block to
write (R123, R124, R127, R135, R142). Every pending entry ages by one; none is overdue here (R146). -/
def Obligations.WriteSlotAnsweredIdle : Prop :=
  ∀ s : State, noneOverdue s → titleSettled s →
    let sent (state : RecorderState) (overlap : Nat) : State :=
      tellConditions
        { s with
          verify := agedEntries s.verify
          feed :=
            { s.feed with
              state := state
              tallies :=
                { s.feed.tallies with
                  slotsTaken := bump s.feed.tallies.slotsTaken
                  idleSlots := bump s.feed.tallies.idleSlots
                  overlapping := overlap } }
          recorderOut := some .idleSlot }
    (s.feed.state = .writing → exec .writeSlot s = .next (sent .writing (bump s.feed.tallies.overlapping))) ∧
    (s.feed.state ≠ .writing →
      ((s.title.state = .idle ∨ s.title.state = .armed) ∨
        ((s.title.state = .running ∨ s.title.state = .draining) ∧ titleCandidate s = .none ∧ s.verify.queue = []) ∨
        (s.title.state = .closing ∧ nextIndexBlock s = none)) →
      exec .writeSlot s = .next (sent .waiting s.feed.tallies.overlapping))

/-- A WRITE SLOT in RUNNING or DRAINING with frame H in a slot READY, its write forced by the commit lag or with nothing to relocate,
or REPAIRING and forced, starts the ORIGINAL write: the slot becomes SENT and streaming with the tag, the title address, the kind and
the pending cue; the tag counter and H rise; the gap list gives up H; the burner receives the frame with its header (R16, R125, R127
to R129, R131 to R133, R142). A forced commit first abandons the frame's jobs, cutting its band in flight (R97), makes every DAMAGED
band HELD with the anchor's samples where the anchor's band is usable and PASSED otherwise (R17), and releases the frame's references
(R12, R16); no other frame has a job here. Every pending entry ages by one, and none is overdue here (R146). -/
def Obligations.WriteSlotWritesFrame : Prop :=
  ∀ (s : State) (d : TitleDeclaration) (h age : Nat) (i : Fin 32),
    (s.title.state = .running ∨ s.title.state = .draining) → s.title.declaration = some d → s.feed.state ≠ .writing →
    noneOverdue s → s.feed.h = some h → s.slots[i].frame = some h → s.slots[i].age = some age →
    (∀ j : Fin 32, s.slots[j].frame = some h → s.slots[j].state ≠ .free → j = i) →
      let tag := s.feed.tagCounter
      let address := d.start + (h - d.first)
      let sent (r : SlotRecord) : SlotRecord :=
        { r with
          state := .sent, streaming := true, tag := some tag, address := some address, kind := some .original,
          cue := s.feed.pendingCue }
      let started (commits : Nat) (t : State) : Prop :=
        t.feed =
          { s.feed with
            state := .writing
            h := if h = 4294967295 then none else some (h + 1)
            tagCounter := (tag + 1) % 65536
            pendingCue := none
            flight :=
              some
                { kind := .original, tag := tag, address := address, frame := some h, slot := some i,
                  cue := s.feed.pendingCue, fill := none, index := none }
            tallies :=
              { s.feed.tallies with
                slotsTaken := bump s.feed.tallies.slotsTaken
                original := bump s.feed.tallies.original
                forcedOriginal :=
                  if s.settings.commitLag ≤ age then bump s.feed.tallies.forcedOriginal
                  else s.feed.tallies.forcedOriginal
                forcedCommits := commits } } ∧
        t.gaps = consumeGap s.gaps h ∧ t.verify = agedEntries s.verify ∧
        (∃ header : FrameHeader,
          t.recorderOut = some (.write tag address (.frameBlock header (slotBands t i))) ∧
          (header.title = d.number ∧ header.frame = h ∧ header.kind = .original ∧ header.attempt = 0 ∧
            header.cue = s.feed.pendingCue ∧ header.fill = none) ∧
          headerShows t i header) ∧
        t.reports = { s.reports with truths := conditionsNow t }
      (s.slots[i].state = .ready → (s.settings.commitLag ≤ age ∨ s.verify.queue = []) →
        ∃ t, exec .writeSlot s = .next t ∧ started s.feed.tallies.forcedCommits t ∧
          t.slots = s.slots.set i (sent s.slots[i]) ∧
          { t with
            slots := s.slots, feed := s.feed, gaps := s.gaps, verify := s.verify, recorderOut := s.recorderOut,
            reports := s.reports } = s) ∧
      (s.slots[i].state = .repairing → s.settings.commitLag ≤ age → s.slots[i].heldP ≠ some i → s.slots[i].heldN ≠ some i →
        (∀ j ∈ s.sched.jobs, j.slot = i) → (∀ op, s.repair.op = some op → op.slot = i) →
        let damaged (f : Field) (b : Fin 18) : Prop :=
          b.val < bandsPer s.settings.format ∧ ∃ x, (s.slots[i]).band f b = some x ∧ x.state = .damaged
        ∃ t, exec .writeSlot s = .next t ∧ started (bump s.feed.tallies.forcedCommits) t ∧
          { t.slots[i] with bands := s.slots[i].bands } =
            { sent s.slots[i] with jobsOutstanding := 0, heldP := none, heldN := none } ∧
          (∀ (f : Field) (b : Fin 18),
            (¬damaged f b → (t.slots[i]).band f b = (s.slots[i]).band f b ∧ t.image i f b = s.image i f b) ∧
            (damaged f b →
              (∀ a : Fin 32, s.anchor = some a → bandUsable s a f b = true →
                (t.slots[i]).band f b = ((s.slots[i]).band f b).map (fun x => { x with state := .held }) ∧
                  t.image i f b = s.image a f b) ∧
              ((∀ a : Fin 32, s.anchor = some a → bandUsable s a f b = false) →
                (t.slots[i]).band f b = ((s.slots[i]).band f b).map (fun x => { x with state := .passed }) ∧
                  t.image i f b = s.image i f b))) ∧
          (∀ j : Fin 32, j ≠ i →
            t.slots[j] = releasedRecord s i j ∧ ∀ (f : Field) (b : Fin 18), t.image j f b = s.image j f b) ∧
          t.sched =
            { s.sched with
              jobs := [], owed := false, abandoned := addTally s.sched.abandoned s.sched.jobs.length
              bandsCut := if s.repair.op.isSome then bump s.sched.bandsCut else s.sched.bandsCut } ∧
          t.repair = { s.repair with op := none } ∧
          { t with
            slots := s.slots, buffers := s.buffers, sched := s.sched, repair := s.repair, feed := s.feed, gaps := s.gaps,
            verify := s.verify, recorderOut := s.recorderOut, reports := s.reports } = s)

/-- A WRITE SLOT in RUNNING or DRAINING with H a gap starts a GAP FILL: the anchor's picture, or black with no anchor, every band of it
shown as FILL; the gap list gives up H (R25, R125, R127, R128, R130, R132). No slot changes; every pending entry ages by one, and none
is overdue here (R146). -/
def Obligations.WriteSlotFillsGap : Prop :=
  ∀ (s : State) (d : TitleDeclaration) (h : Nat),
    (s.title.state = .running ∨ s.title.state = .draining) → s.title.declaration = some d → s.feed.state ≠ .writing →
    noneOverdue s →
    s.feed.h = some h → (∀ j : Fin 32, s.slots[j].frame ≠ some h) → s.gaps.any (runCovers h) = true →
      let tag := s.feed.tagCounter
      let address := d.start + (h - d.first)
      let count := bandsPer s.settings.format
      let shown : List HeaderBand := List.replicate count { treatment := .fill, count := 0 }
      let black : List BandImage := List.replicate count blackImage
      ∃ t bands fill, exec .writeSlot s = .next t ∧
        t.slots = s.slots ∧ t.gaps = consumeGap s.gaps h ∧ t.verify = agedEntries s.verify ∧
        t.feed =
          { s.feed with
            state := .writing
            h := if h = 4294967295 then none else some (h + 1)
            tagCounter := (tag + 1) % 65536
            pendingCue := none
            flight :=
              some
                { kind := .gapFill, tag := tag, address := address, frame := some h, slot := none,
                  cue := s.feed.pendingCue, fill := some fill, index := none }
            tallies :=
              { s.feed.tallies with
                slotsTaken := bump s.feed.tallies.slotsTaken, gapFills := bump s.feed.tallies.gapFills } } ∧
        t.recorderOut =
          some
            (.write tag address
              (.frameBlock
                { title := d.number, frame := h, kind := .gapFill, attempt := 0, cue := s.feed.pendingCue, fill := some fill,
                  signals := ⟨noSignals, noSignals⟩, bandsPerField := count, treatments := ⟨shown, shown⟩ }
                bands)) ∧
        (∀ a : Fin 32, s.anchor = some a →
          fill = .anchor (s.slots[a].frame.getD 0) ∧ bands = slotBands s a ∧
            ∀ f : Field, (bands.get f).length = count ∧
              ∀ b : Fin 18, b.val < count → (bands.get f)[b.val]? = some (s.image a f b)) ∧
        (s.anchor = none → fill = .black ∧ bands = ⟨black, black⟩) ∧
        { t with
          feed := s.feed, gaps := s.gaps, verify := s.verify, recorderOut := s.recorderOut, reports := s.reports } = s

/-- A WRITE SLOT in RUNNING or DRAINING with no forced title candidate turns to the head of the relocation queue (R127). With a block
granted it is written there: the block is up, which rises with f; the slot is SENT again with its attempts raised, the new tag and
address; the head leaves the queue, and the burner receives the slot's picture with a header of kind RELOCATED, the attempt and no
cue (R20, R129, R132, R134, R156). Refused, with the queue then empty and no title candidate, the frame retires, MARGINAL if that
failed it and LOST otherwise, SPARE EXHAUSTED is posted, a report built, which is missed where 32 are held, and IDLE SLOT sent (R21,
R154, R190, R192). Every pending entry ages by one, and none is overdue here (R146). -/
def Obligations.WriteSlotRelocates : Prop :=
  ∀ (s : State) (d : TitleDeclaration) (r : Region) (q : QueueEntry) (rest : List QueueEntry),
    (s.title.state = .running ∨ s.title.state = .draining) → s.title.declaration = some d → s.feed.state ≠ .writing →
    noneOverdue s → titleCandidate s ≠ .gapFill → (∀ i : Fin 32, titleCandidate s ≠ .original i true) →
    s.verify.queue = q :: rest → s.spare.region = some r → s.slots[q.slot].frame = some q.frame →
      let tag := s.feed.tagCounter
      (headroomFits r (s.spare.table.length + s.spare.inFlight) 1 = true →
        ∃ t header, exec .writeSlot s = .next t ∧
          t.slots =
            s.slots.set q.slot
              { s.slots[q.slot] with
                state := .sent, streaming := true, attempts := s.slots[q.slot].attempts + 1, tag := some tag,
                address := some r.up, kind := some .relocated } ∧
          t.spare =
            { s.spare with
              region := some { r with up := r.up + 1 }, inFlight := s.spare.inFlight + 1, grants := bump s.spare.grants } ∧
          t.verify = { agedEntries s.verify with queue := rest } ∧
          t.feed =
            { s.feed with
              state := .writing
              tagCounter := (tag + 1) % 65536
              flight :=
                some
                  { kind := .relocated, tag := tag, address := r.up, frame := some q.frame, slot := some q.slot,
                    cue := none, fill := none, index := none }
              tallies :=
                { s.feed.tallies with
                  slotsTaken := bump s.feed.tallies.slotsTaken, relocations := bump s.feed.tallies.relocations } } ∧
          t.recorderOut = some (.write tag r.up (.frameBlock header (slotBands s q.slot))) ∧
          (header.title = d.number ∧ header.frame = q.frame ∧ header.kind = .relocated ∧
            header.attempt = s.slots[q.slot].attempts + 1 ∧ header.cue = none ∧ header.fill = none) ∧
          headerShows s q.slot header ∧
          { t with
            slots := s.slots, spare := s.spare, verify := s.verify, feed := s.feed, recorderOut := s.recorderOut,
            reports := s.reports } = s) ∧
      (headroomFits r (s.spare.table.length + s.spare.inFlight) 1 = false → rest = [] → titleCandidate s = .none →
        let o : FrameOutcome := if q.cause = .marginal then .marginal else .lost
        ∃ (u : State) (p : Report), exec .writeSlot s = .next (settle u) ∧
          u.slots = s.slots.set q.slot (retiredRecord s q.slot o) ∧
          u.spare = { s.spare with refusals := bump s.spare.refusals } ∧
          u.verify = tallyRetirement o { agedEntries s.verify with queue := [] } ∧
          u.feed =
            { s.feed with
              state := .waiting
              tallies :=
                { s.feed.tallies with
                  slotsTaken := bump s.feed.tallies.slotsTaken, refused := bump s.feed.tallies.refused
                  idleSlots := bump s.feed.tallies.idleSlots } } ∧
          u.recorderOut = some .idleSlot ∧
          u.reports =
            reportAdded p
              { s.reports with
                alerts :=
                  { s.reports.alerts with
                    spareExhausted := true, frameLost := s.reports.alerts.frameLost || decide (o = .lost) }
                truths := u.reports.truths } ∧
          (p.title = d.number ∧ p.frame = q.frame ∧ p.outcome = o ∧ p.relocations = s.slots[q.slot].attempts ∧
            p.address = s.slots[q.slot].address.getD 0) ∧
          { u with
            slots := s.slots, spare := s.spare, verify := s.verify, feed := s.feed, recorderOut := s.recorderOut,
            reports := s.reports } = s)

/-- A WRITE SLOT in CLOSING writes the first block of the write list TO WRITE at address down, which falls by one; the block becomes
WRITTEN with its tag and address (R135, R159, R160). The relocation table is not touched. Every pending entry ages by one, and none is
overdue here (R146). -/
def Obligations.WriteSlotWritesIndex : Prop :=
  ∀ (s : State) (r : Region) (b : PlanBlock) (before after : List PlanBlock),
    s.title.state = .closing → s.feed.state ≠ .writing → noneOverdue s → s.spare.region = some r →
    s.spare.plan = some (before ++ b :: after) → (∀ x ∈ before, x.state ≠ .toWrite) → b.state = .toWrite →
    (∀ x ∈ before ++ after, x.mark ≠ b.mark) → (r.up : Int) ≤ r.down →
      let tag := s.feed.tagCounter
      let address := r.down.toNat
      ∃ t content, exec .writeSlot s = .next t ∧
        t.spare =
          { s.spare with
            region := some { r with down := r.down - 1 }
            plan :=
              some (before ++ { b with state := .written, tag := some tag, address := some address } :: after)
            indexWrites := bump s.spare.indexWrites } ∧
        t.feed =
          { s.feed with
            state := .writing
            tagCounter := (tag + 1) % 65536
            flight :=
              some
                { kind := .index, tag := tag, address := address, frame := none, slot := none, cue := none, fill := none,
                  index := some b.mark }
            tallies :=
              { s.feed.tallies with
                slotsTaken := bump s.feed.tallies.slotsTaken, indexWrites := bump s.feed.tallies.indexWrites } } ∧
        t.verify = agedEntries s.verify ∧
        t.recorderOut = some (.write tag address (.indexBlock content)) ∧
        (content.number = b.mark.number ∧ content.rewrite = b.mark.rewrite ∧
          content.blocks = (max s.spare.table.length 1 + 31) / 32 ∧
          (∀ d, s.title.declaration = some d → content.title = d.number) ∧
          content.entries = (s.spare.table.drop (32 * b.mark.number)).take 32) ∧
        { t with
          spare := s.spare, feed := s.feed, verify := s.verify, recorderOut := s.recorderOut, reports := s.reports } = s

/-- WRITE END: the write's entry goes to the tail of the pending list, with the cue of a gap fill alone, the slot stops streaming, no
write is in flight, the recorder is PAUSED if a pause was pending and WAITING otherwise; an ORIGINAL write makes its slot the anchor,
any other leaves the anchor (R18, R22, R123, R136, R145). With no write in flight nothing changes (log entry 14). -/
def Obligations.WriteEndMakesEntry : Prop :=
  ∀ s : State,
    (s.feed.flight = none → exec .writeEnd s = .next s) ∧
    ∀ w : Flight, s.feed.flight = some w →
      ∃ u, exec .writeEnd s = .next (settle u) ∧
        u.verify =
          { s.verify with
            entries :=
              s.verify.entries ++
                [{ tag := w.tag, kind := w.kind, address := w.address, frame := w.frame, slot := w.slot, forfeited := false,
                   copy := none, fill := w.fill, cue := if w.kind = .gapFill then w.cue else none, index := w.index,
                   age := 0 }] } ∧
        u.feed =
          { s.feed with
            flight := none, pausePending := false, state := if s.feed.pausePending then .paused else .waiting } ∧
        (∀ i : Fin 32, w.slot = some i → s.slots[i].state = .sent →
          u.slots[i] = { s.slots[i] with streaming := false }) ∧
        (∀ j : Fin 32, w.slot ≠ some j →
          u.slots[j] =
            if w.kind = .original ∧ (∃ i, w.slot = some i ∧ s.slots[i].streaming = true) ∧ s.anchor = some j ∧
                s.slots[j].state = .retained ∧ s.slots[j].refs = 0 then SlotRecord.freed
            else s.slots[j]) ∧
        (∀ i : Fin 32, w.slot = some i → s.slots[i].streaming = true →
          u.anchor = if w.kind = .original then some i else s.anchor) ∧
        (w.slot = none → u.anchor = s.anchor ∧ u.slots = s.slots) ∧
        { u with slots := s.slots, anchor := s.anchor, verify := s.verify, feed := s.feed } = s

/-- An OUTCOME whose result byte is none of 1, 2 and 3, or whose tag no entry has, is discarded and tallied (R147, R202). -/
def Obligations.OutcomeDiscarded : Prop :=
  ∀ (s : State) (tag : BitVec 16) (result : Byte),
    ((result ≠ 1 ∧ result ≠ 2 ∧ result ≠ 3) ∨ ∀ e ∈ s.verify.entries, e.tag ≠ tag.toNat) →
      exec (.outcome tag result) s =
        .next (settle { s with verify := { s.verify with discarded := bump s.verify.discarded } })

/-- What an OUTCOME for an entry of a frame does, and its timeout, an event that standing alone is log entry 2. The entry leaves the
list, f falling by one for a RELOCATED one (R146 to R148). ORIGINAL or RELOCATED, its slot SENT, holding its frame and streaming no
longer: GOOD and an accepted MARGINAL retire the frame, as does a failure at the attempts setting, MARGINAL or else LOST with FRAME LOST;
the slot is RETAINED as the anchor or while referenced, FREE otherwise, and a report is built only if the record has something to tell
(R19, R21, R149, R190), missed where 32 are held (R192); a failure with attempts left queues the frame for relocation with its cause,
BAD, MARGINAL or TIMEOUT, nothing retiring (R20, R149). A forfeited entry retires from its record copy, no slot changing (R150; log entry
42 for its failure of cause MARGINAL). A RELOCATED frame whose recording stands joins the relocation table (R157). A GAP FILL retires by
its OUTCOME, and its report is always built (R151). At a WRITE SLOT every entry ages by one and the overdue one times out just so before
the Feed answers: stated of a slot taken while WRITING (R124, R146). -/
def Obligations.OutcomeSettlesFrame : Prop :=
  ∀ (s : State) (tag : BitVec 16) (d : TitleDeclaration) (e : PendingEntry) (before after : List PendingEntry) (n : Nat),
    s.title.declaration = some d → s.verify.entries = before ++ e :: after → e.tag = tag.toNat →
    (∀ x ∈ before ++ after, x.tag ≠ tag.toNat) → e.kind ≠ .index →
      let left : Verify := { s.verify with entries := before ++ after }
      let told (o : FrameOutcome) : ReportUnit :=
        { s.reports with
          alerts := { s.reports.alerts with frameLost := s.reports.alerts.frameLost || decide (o = .lost) } }
      let outcome (c : Instr) (v : Verify) (result : Byte) : Prop := c = .outcome tag result ∧ v = left
      let timeout (c : Instr) (v : Verify) : Prop :=
        c = .verifyTimeout ∧ v = { left with timeouts := bump s.verify.timeouts } ∧
          (∀ x ∈ before, x.age ≤ s.settings.verifyTimeout) ∧ s.settings.verifyTimeout < e.age
      ((e.kind = .original ∨ e.kind = .relocated) →
        let settledFlight : Spare :=
          { s.spare with inFlight := if e.kind = .relocated then s.spare.inFlight - 1 else s.spare.inFlight }
        let retires (v : Verify) (r : SlotRecord) (o : FrameOutcome) (u : State) : Prop :=
          u.verify = tallyRetirement o v ∧
          (e.kind = .relocated ∧ o ≠ .lost →
            ∃ table, u.spare = { settledFlight with table := table } ∧
              tableTakes { original := d.start + (n - d.first), relocated := e.address, frame := n, attempt := r.attempts }
                s.spare.table table) ∧
          (¬(e.kind = .relocated ∧ o ≠ .lost) → u.spare = settledFlight) ∧
          (reportWorthy r = false → u.reports = told o) ∧
          (reportWorthy r = true →
            ∃ p : Report, u.reports = reportAdded p (told o) ∧
              p.title = d.number ∧ p.frame = n ∧ p.outcome = o ∧ p.relocations = r.attempts ∧ p.cue = r.cue ∧
                p.address = r.address.getD 0 ∧ p.forfeited = r.forfeited)
        (∀ i : Fin 32, e.copy = none → e.slot = some i → e.frame = some n → s.slots[i].state = .sent →
          s.slots[i].frame = some n → s.slots[i].streaming = false →
          let spent : Prop := s.settings.attempts ≤ s.slots[i].attempts
          (∀ (c : Instr) (v : Verify) (o : FrameOutcome),
            ((outcome c v 1 ∧ o = .good) ∨
              (outcome c v 2 ∧ o = .marginal ∧ (s.settings.marginal = .accept ∨ spent)) ∨
              (outcome c v 3 ∧ o = .lost ∧ spent) ∨ (timeout c v ∧ o = .lost ∧ spent)) →
            ∃ u, exec c s = .next (settle u) ∧
              u.slots = s.slots.set i (retiredRecord s i o) ∧
              retires v { s.slots[i] with outcome := some o } o u ∧
              { u with slots := s.slots, verify := s.verify, spare := s.spare, reports := s.reports } = s) ∧
          (∀ (c : Instr) (v : Verify) (cause : FailCause),
            ((outcome c v 2 ∧ cause = .marginal ∧ s.settings.marginal = .relocate) ∨ (outcome c v 3 ∧ cause = .bad) ∨
              (timeout c v ∧ cause = .timeout)) →
            ¬spent →
              exec c s =
                .next
                  (settle
                    { s with
                      slots := s.slots.set i { s.slots[i] with state := .relocating }
                      spare := settledFlight
                      verify :=
                        { v with
                          queue := s.verify.queue ++ [{ slot := i, frame := n, cause := cause }]
                          queued := bump s.verify.queued } }))) ∧
        (∀ copy : SlotRecord, e.copy = some copy → copy.frame = some n →
          ∀ (c : Instr) (v : Verify) (o : FrameOutcome),
            ((outcome c v 1 ∧ o = .good) ∨ (outcome c v 2 ∧ o = .marginal) ∨ (outcome c v 3 ∧ o = .lost) ∨
              (timeout c v ∧ o = .lost)) →
            ∃ u, exec c s = .next (settle u) ∧ retires v { copy with outcome := some o } o u ∧
              { u with verify := s.verify, spare := s.spare, reports := s.reports } = s)) ∧
      (e.kind = .gapFill → e.frame = some n →
        ∀ (result : Byte) (o : FrameOutcome),
          ((result = 1 ∧ o = .good) ∨ (result = 2 ∧ o = .marginal) ∨ (result = 3 ∧ o = .lost)) →
          ∃ p : Report,
            (p.title = d.number ∧ p.kind = .gapFill ∧ p.frame = n ∧ p.address = e.address ∧ p.outcome = o ∧ p.cue = e.cue ∧
              p.fill = e.fill) ∧
            exec (.outcome tag result) s =
              .next (settle { s with verify := tallyRetirement o left, reports := reportAdded p (told o) })) ∧
      ((∀ x ∈ before ++ after, x.age + 1 ≤ s.settings.verifyTimeout) → s.settings.verifyTimeout < e.age + 1 →
        s.feed.state = .writing → s.feed.flight.isSome = true → titleSettled s →
        ∃ t, exec .verifyTimeout { s with verify := agedEntries s.verify } = .next t ∧
          exec .writeSlot s =
            .next
              { t with
                feed :=
                  { s.feed with
                    tallies :=
                      { s.feed.tallies with
                        slotsTaken := bump s.feed.tallies.slotsTaken, idleSlots := bump s.feed.tallies.idleSlots
                        overlapping := bump s.feed.tallies.overlapping } }
                recorderOut := some .idleSlot })

/-- VERIFY TIMEOUT: the oldest entry whose age exceeds the verify timeout leaves the list and fails with cause TIMEOUT; a GAP FILL entry so
retires LOST with FRAME LOST set and a report, missed where 32 are held (R146, R148, R151, R192). No slot and no other entry changes. The
event standing alone is log entry 2. At a WRITE SLOT every entry ages by one and then the overdue one times out so, before the Feed answers:
stated of a slot taken while WRITING, and of one whose timeout completes the drain, which is answered IDLE SLOT while the title enters
CLOSING, so that index blocks are written from the next WRITE SLOT (R124, R138, R146, R171; log entry 13). -/
def Obligations.TimeoutLosesGapFill : Prop :=
  ∀ (s : State) (e : PendingEntry) (before after : List PendingEntry),
    s.verify.entries = before ++ e :: after → (∀ x ∈ before ++ after, x.tag ≠ e.tag) → e.kind = .gapFill →
      let lost (p : Report) (entries : List PendingEntry) (t : State) : State :=
        { t with
          verify :=
            { s.verify with
              entries := entries, timeouts := bump s.verify.timeouts, lost := bump s.verify.lost }
          reports := reportAdded p { s.reports with alerts := { s.reports.alerts with frameLost := true } } }
      let tells (p : Report) : Prop :=
        p.kind = .gapFill ∧ p.outcome = .lost ∧ p.address = e.address ∧ p.frame = e.frame.getD 0 ∧ p.cue = e.cue ∧
          p.fill = e.fill
      ((∀ x ∈ before, x.age ≤ s.settings.verifyTimeout) → s.settings.verifyTimeout < e.age →
        ∃ p, tells p ∧ exec .verifyTimeout s = .next (settle (lost p (before ++ after) s))) ∧
      ((∀ x ∈ before ++ after, x.age + 1 ≤ s.settings.verifyTimeout) → s.settings.verifyTimeout < e.age + 1 →
        s.feed.state = .writing → s.feed.flight.isSome = true → titleSettled s →
        ∃ p, tells p ∧
          exec .writeSlot s =
            .next
              (tellConditions
                (lost p ((before ++ after).map (fun x => { x with age := x.age + 1 }))
                  { s with
                    feed :=
                      { s.feed with
                        tallies :=
                          { s.feed.tallies with
                            slotsTaken := bump s.feed.tallies.slotsTaken, idleSlots := bump s.feed.tallies.idleSlots
                            overlapping := bump s.feed.tallies.overlapping } }
                    recorderOut := some .idleSlot }))) ∧
      (before ++ after = [] → s.settings.verifyTimeout < e.age + 1 → s.feed.state = .waiting → s.title.state = .draining →
        s.ingest.state = .stopped →
        (∀ i : Fin 32, s.slots[i].state ≠ .filling ∧ s.slots[i].state ≠ .repairing ∧ s.slots[i].state ≠ .ready) →
        s.gaps = [] → s.feed.flight = none → s.verify.queue = [] → s.spare.inFlight = 0 →
        ∃ p, tells p ∧
          let t :=
            settle
              (lost p []
                { s with
                  feed :=
                    { s.feed with
                      tallies :=
                        { s.feed.tallies with
                          slotsTaken := bump s.feed.tallies.slotsTaken, idleSlots := bump s.feed.tallies.idleSlots } }
                  recorderOut := some .idleSlot })
          exec .writeSlot s = .next t ∧ t.title.state = .closing ∧ t.recorderOut = some .idleSlot ∧ t.feed.flight = none)

/-! ### Spare space -/

/-- The headroom is the greatest j from 0 up for which the blocks used, j more and the index reserve for them fit the region, with
e + f + j at most 256 (R158). A grant gives the block at up, and the reserve law holds after it (R156). -/
def Obligations.HeadroomAndGrants : Prop :=
  (∀ (r : Region) (n j : Nat), 1 ≤ j →
    (((r.up - r.lo) + j + ((max (n + j) 1 + 31) / 32 + 1) ≤ r.hi - r.lo + 1 ∧ n + j ≤ 256) ↔
      j ≤ headroomFrom r n 256 0)) ∧
  ∀ (s : State) (r : Region) (address : Nat), s.spare.region = some r → r.lo ≤ r.up → grantAddress s = some address →
    address = r.up ∧
      (takeGrant s).spare.region = some { r with up := r.up + 1 } ∧
      (takeGrant s).spare.table = s.spare.table ∧ (takeGrant s).spare.inFlight = s.spare.inFlight + 1 ∧
      let n := s.spare.table.length + s.spare.inFlight + 1
      (r.up + 1 - r.lo) + ((max n 1 + 31) / 32 + 1) ≤ r.hi - r.lo + 1 ∧ n ≤ 256

/-! ### The title's own moves -/

/-- What an event that may complete a drain or a close ends with, and DRAIN COMPLETE. In DRAINING with the five answers done the title
enters CLOSING, the index plan is the first writings of blocks 0 to k - 1 for e table entries, and the pending cue is cleared, at the
event itself (settling) and at the command; with an answer not done, or in another state, the command moves nothing, and with no drain
or close to take settling tells the conditions alone (R138, R159, R171, R194; log entry 2 for the command). -/
def Obligations.DrainEntersClosing : Prop :=
  ∀ s : State,
    (titleSettled s → settle s = tellConditions s) ∧ (conditionsTold s → tellConditions s = s) ∧
    (s.title.state = .draining → s.ingest.state = .stopped →
      (∀ i : Fin 32, s.slots[i].state ≠ .filling ∧ s.slots[i].state ≠ .repairing ∧ s.slots[i].state ≠ .ready) → s.gaps = [] →
      s.feed.flight = none → s.verify.entries = [] → s.verify.queue = [] → s.spare.inFlight = 0 →
        ∃ plan : List PlanBlock,
          let t : State :=
            tellConditions
              { s with
                title := { s.title with state := .closing }
                spare := { s.spare with plan := some plan }
                feed := { s.feed with pendingCue := none } }
          exec .drainComplete s = .next t ∧ settle s = t ∧
          plan.length = (max s.spare.table.length 1 + 31) / 32 ∧
          ∀ (k : Nat) (b : PlanBlock), plan[k]? = some b →
            b = { mark := { number := k, rewrite := false }, state := .toWrite, tag := none, address := none }) ∧
    ((s.title.state ≠ .draining ∨ s.ingest.state ≠ .stopped ∨ s.gaps ≠ [] ∨ s.feed.flight.isSome = true ∨
        s.verify.entries ≠ [] ∨ s.verify.queue ≠ [] ∨ s.spare.inFlight ≠ 0 ∨
        ∃ i : Fin 32, s.slots[i].state = .filling ∨ s.slots[i].state = .repairing ∨ s.slots[i].state = .ready) →
      exec .drainComplete s = .next (tellConditions s) ∧ (s.title.state ≠ .closing → settle s = tellConditions s))

/-- The close. An OUTCOME for an INDEX entry makes its block DONE on a pass; on a failure a first writing is queued once more as a
rewrite where down less the blocks TO WRITE is at least up, and is ABANDONED with INDEX FAILED otherwise, as a rewrite is (R148, R161;
log entry 8 for the failed writing's place in the list). CLOSE COMPLETE, and the event that completes the close: in CLOSING with every
block DONE or ABANDONED and no index write in flight, TITLE CLOSED is posted with its totals, both declarations, the region and the plan
are cleared, the title is IDLE, the window clears its anchor, gap list and RETAINED slots, and ingest's numbers and H are absent; the
relocation table and the tallies stay; where 4 events are held, TITLE CLOSED is lost and tallied (R30, R162, R172, R196; log entry 2 for
the command). -/
def Obligations.CloseEndsTitle : Prop :=
  ∀ (s : State) (plan : List PlanBlock), s.spare.plan = some plan →
    (∀ (tag : BitVec 16) (r : Region) (e : PendingEntry) (m : IndexMark) (before after : List PendingEntry),
      s.spare.region = some r → s.verify.entries = before ++ e :: after → e.tag = tag.toNat →
      (∀ x ∈ before ++ after, x.tag ≠ tag.toNat) → e.kind = .index → e.index = some m →
        let left : Verify := { s.verify with entries := before ++ after }
        let marked (state : PlanState) : List PlanBlock :=
          plan.map (fun b => if b.mark = m then { b with state := state } else b)
        let fits : Prop := (r.up : Int) ≤ r.down - ((plan.filter (fun b => b.state == .toWrite)).length : Int)
        (∀ result : Byte, (result = 1 ∨ (result = 2 ∧ s.settings.marginal = .accept)) →
          exec (.outcome tag result) s =
            .next (settle { s with verify := left, spare := { s.spare with plan := some (marked .done) } })) ∧
        (∀ result : Byte, (result = 3 ∨ (result = 2 ∧ s.settings.marginal = .relocate)) →
          (m.rewrite = false → fits →
            exec (.outcome tag result) s =
              .next
                (settle
                  { s with
                    verify := left
                    spare :=
                      { s.spare with
                        plan :=
                          some
                            (plan.filter (fun b => b.mark != m) ++
                              [{ mark := { number := m.number, rewrite := true }, state := .toWrite, tag := none,
                                 address := none }])
                        indexRewrites := bump s.spare.indexRewrites } })) ∧
          ((m.rewrite = true ∨ ¬fits) →
            exec (.outcome tag result) s =
              .next
                (settle
                  { s with
                    verify := left
                    spare :=
                      { s.spare with plan := some (marked .abandoned), indexFailed := bump s.spare.indexFailed }
                    reports := { s.reports with alerts := { s.reports.alerts with indexFailed := true } } })))) ∧
    (s.title.state = .closing → (∀ b ∈ plan, b.state = .done ∨ b.state = .abandoned) →
    (∀ w, s.feed.flight = some w → w.kind ≠ .index) →
      ∃ (t : State) (e : TitleEvent), exec .closeComplete s = .next t ∧ settle s = t ∧
        t.title = { state := .idle, declaration := none } ∧ t.spare = { s.spare with region := none, plan := none } ∧
        t.anchor = none ∧ t.gaps = [] ∧
        (∀ i : Fin 32, t.slots[i] = if s.slots[i].state = .retained then SlotRecord.freed else s.slots[i]) ∧
        t.ingest = { s.ingest with next := none, last := none } ∧ t.feed = { s.feed with h := none } ∧
        (let room : Prop := s.reports.events.length < 4
         (room → t.link = s.link ∧ t.reports = { s.reports with events := s.reports.events ++ [e], truths := conditionsNow t }) ∧
         (¬room → t.link = { s.link with eventsLost := bump s.link.eventsLost } ∧
           t.reports = { s.reports with truths := conditionsNow t })) ∧
        (∀ d, s.title.declaration = some d → e.title = d.number) ∧
        (e.accepted = s.ingest.accepted ∧ e.dropped = s.ingest.dropped ∧ e.good = s.verify.good ∧
          e.marginal = s.verify.marginal ∧ e.lost = s.verify.lost ∧ e.unverified = s.verify.unverified ∧
          e.grants = s.spare.grants ∧ e.indexWrites = s.spare.indexWrites ∧ e.indexRewrites = s.spare.indexRewrites ∧
          e.indexFailed = s.spare.indexFailed) ∧
        { t with
          title := s.title, spare := s.spare, anchor := s.anchor, gaps := s.gaps, slots := s.slots, ingest := s.ingest,
          feed := s.feed, reports := s.reports, link := s.link } = s)

/-! ### The control line -/

/-- The bytes of a whole message with a good check, taken by a hunting receiver, are that message: a request of kind 0..127 arrives at
the receive queue with its kind, tag and payload, and a message of kind 128 or above is discarded and tallied (R180 to R183). -/
def Obligations.FramedMessageIsReceived : Prop :=
  ∀ (s : State) (kind tag : Byte) (payload : List Byte), s.link.receiver = none → payload.length ≤ 250 →
    (kind.toNat < 128 →
      exec (.receivedMessage (framed kind tag payload)) s =
        .next (takeRequest { kind := kind, tag := tag, payload := payload } s)) ∧
    (128 ≤ kind.toNat →
      exec (.receivedMessage (framed kind tag payload)) s =
        .next { s with link := { s.link with kindDiscards := bump s.link.kindDiscards } })

/-- The receiver's discards: hunting, a byte other than 0xA5 is consumed; a length byte of 0, 1 or 253..255, a check that differs from
the computed one, and a gap inside a message each discard it, raise the tally of their own and leave the receiver hunting; outside
a message a gap has no effect (R182). -/
def Obligations.ReceiverDiscards : Prop :=
  ∀ s : State,
    (s.link.receiver = none →
      (∀ b : Byte, b ≠ 0xA5 → exec (.receivedMessage [b]) s = .next s) ∧
      (∀ b : Byte, (b.toNat ≤ 1 ∨ 253 ≤ b.toNat) →
        exec (.receivedMessage [0xA5, b]) s =
          .next { s with link := { s.link with lengthDiscards := bump s.link.lengthDiscards } }) ∧
      (∀ (kind tag c1 c2 : Byte) (payload : List Byte), payload.length ≤ 250 →
        [c1, c2] ≠ beBytes 2 (checkOf (coveredBytes kind tag payload)).toNat →
          exec (.receivedMessage (0xA5 :: (coveredBytes kind tag payload ++ [c1, c2]))) s =
            .next { s with link := { s.link with checkDiscards := bump s.link.checkDiscards } }) ∧
      exec .gapDiscard s = .next s) ∧
    (∀ gathered : List Byte, s.link.receiver = some gathered →
      exec .gapDiscard s =
        .next { s with link := { s.link with receiver := none, gapDiscards := bump s.link.gapDiscards } })

/-- A request that arrives while the reply of an earlier one is outstanding joins the queue's tail when it holds fewer than 4;
with 4 held it is answered REFUSED FULL behind the messages waiting, or, with 4 such replies waiting, only tallied (R183, R184).
It is stated of the row of an unassigned kind at every kind below 128; that the row with a kind the table assigns is that request's
arrival is the model's choice (log entry 38), as is a row of a request being its arrival at the receive queue (log entry 1). -/
def Obligations.RequestQueuesOrIsRefused : Prop :=
  ∀ (s : State) (kind tag : Byte) (payload : List Byte) (m : Message),
    kind.toNat < 128 → s.link.sending = some m → isReply m = true →
      (s.link.queue.length < 4 →
        exec (.unassignedRequest kind tag payload) s =
          .next
            { s with
              link := { s.link with queue := s.link.queue ++ [{ kind := kind, tag := tag, payload := payload }] } }) ∧
      (4 ≤ s.link.queue.length →
        (waitingOf isRefusal s < 4 →
          exec (.unassignedRequest kind tag payload) s =
            .next
              { s with
                link :=
                  { s.link with
                    refusedFull := bump s.link.refusedFull
                    waiting :=
                      s.link.waiting ++
                        [{ cls := .refusedFull, kind := byteOf (kind.toNat + 128), tag := tag, payload := [20] }] } }) ∧
        (4 ≤ waitingOf isRefusal s →
          exec (.unassignedRequest kind tag payload) s =
            .next { s with link := { s.link with refusedFull := bump s.link.refusedFull } }))

/-- When a message has been sent, the oldest waiting begins, its bytes with their check going to the line (R180, R181); a notice that
begins lowers the reports added by its count, makes the truths it carries the reported ones, takes its events off the list and is
tallied. With nothing waiting the next queued request is served, and its reply begins. With no message in transmission nothing
happens (R183, R184, R197; log entry 14 for the last). -/
def Obligations.TransmissionGoesOn : Prop :=
  ∀ s : State,
    (s.link.sending = none → exec .transmissionEnd s = .next s) ∧
    ∀ m : Message, s.link.sending = some m → m.cls ≠ .resetReply →
      (s.link.queue = [] → s.link.waiting = [] →
        exec .transmissionEnd s = .next { s with link := { s.link with sending := none } }) ∧
      (∀ (w : Message) (rest : List Message), s.link.queue = [] → s.link.waiting = w :: rest →
        let line : Option (List Byte) := some (framed w.kind w.tag w.payload)
        (isNotice w = false →
          exec .transmissionEnd s =
            .next { s with link := { s.link with sending := some w, waiting := rest, lineOut := line } }) ∧
        (∀ n : Notice, w.cls = .notice n →
          exec .transmissionEnd s =
            .next
              { s with
                link :=
                  { s.link with
                    sending := some w, waiting := rest, lineOut := line, noticesSent := bump s.link.noticesSent }
                reports :=
                  { s.reports with
                    added := s.reports.added - n.count
                    reported := takeReported n s.reports.reported
                    events := s.reports.events.drop n.events.length } })) ∧
      (∀ (r : Request) (rest : List Request), s.link.waiting = [] → s.link.queue = r :: rest →
        let served := serveRequest r { s with link := { s.link with sending := none, queue := rest } }
        exec .transmissionEnd s =
          .next (sending (replyClass r served.2) (byteOf (r.kind.toNat + 128)) r.tag served.2 served.1))

/-! ### Requests -/

/-- Under any refusal a request changes nothing, and its reply carries the status alone but for START's failing slot. An unassigned
kind is REFUSED UNKNOWN; a length that does not fit, REFUSED LENGTH; a title state outside R187's table, REFUSED STATE (R185,
R186, R187). -/
def Obligations.RefusalsChangeNothing : Prop :=
  ∀ (s : State) (r : Request),
    (∀ b rest, (serveRequest r s).2 = b :: rest → 16 ≤ b.toNat →
      (serveRequest r s).1 = s ∧ (rest ≠ [] → r.kind = 7 ∧ b = 17)) ∧
    (requestOf r.kind = none → serveRequest r s = (s, [18])) ∧
    ∀ q, requestOf r.kind = some q →
      (lengthFits q r.payload = false → serveRequest r s = (s, [19])) ∧
      (lengthFits q r.payload = true →
        ((r.kind = 1 ∧ s.title.state ≠ .idle) ∨
          ((r.kind = 2 ∨ r.kind = 3 ∨ r.kind = 5 ∨ r.kind = 6) ∧ s.title.state ≠ .idle ∧ s.title.state ≠ .armed) ∨
          (r.kind = 7 ∧ s.title.state ≠ .armed) ∨ ((r.kind = 8 ∨ r.kind = 10) ∧ s.title.state ≠ .running) ∨
          (r.kind = 9 ∧ (s.title.state = .idle ∨ s.title.state = .armed))) →
        serveRequest r s = (s, [16]))

/-- CONFIGURE in IDLE with legal thresholds and weight rows takes every setting of the record, the five clampable ones brought to the
nearer bound of their range; the reply is OK ADJUSTED when one was, OK otherwise, and nothing else changes (R115, R117, R174,
Table 11-5). -/
def Obligations.ConfigureTakesRecord : Prop :=
  ∀ (s : State) (tag threshold lag budget timeout attempts mask : Byte) (c : Settings) (mode : TierMode) (bottom : Fin 8),
    lineAtRest s → s.title.state = .idle →
    (1 ≤ c.t1 ∧ c.t1 < c.t2 ∧ c.t2 < c.t3 ∧ c.t3 ≤ 1015) →
    (rowLegal c.weights[0] ∧ rowLegal c.weights[1] ∧ rowLegal c.weights[2] ∧ rowLegal c.weights[3]) →
      let inRange : Prop :=
        1 ≤ threshold.toNat ∧ (2 ≤ lag.toNat ∧ lag.toNat ≤ 24) ∧ (1 ≤ budget.toNat ∧ budget.toNat ≤ 64) ∧
          (4 ≤ timeout.toNat ∧ timeout.toNat ≤ 60) ∧ (1 ≤ attempts.toNat ∧ attempts.toNat ≤ 3)
      exec
          (.configure tag
            ([formatCode c.format, threshold, lag, budget, timeout, attempts, marginalCode c.marginal,
                pressureCode c.pressure] ++
              beBytes 2 c.t1 ++ beBytes 2 c.t2 ++ beBytes 2 c.t3 ++ weightBytes c.weights[0] ++ weightBytes c.weights[1] ++
              weightBytes c.weights[2] ++ weightBytes c.weights[3] ++ [tierModeCode mode, byteOf bottom.val, mask]))
          s =
        .next
          (replying 0x81 tag [if inRange then 0 else 1]
            { s with
              settings :=
                { c with
                  threshold := clamp 1 255 threshold.toNat
                  commitLag := clamp 2 24 lag.toNat
                  verifyTimeout := clamp 4 60 timeout.toNat
                  attempts := clamp 1 3 attempts.toNat }
              sched :=
                { s.sched with
                  bandBudget := clamp 1 64 budget.toNat, tierMode := mode, bottom := bottom, maskSet := mask } })

/-- LOAD RULE and LOAD ENTRY in IDLE or ARMED: the rule slot takes the rule of the record, or becomes empty, with its match count 0;
the entry takes its four items with its taken count 0; the reply is OK and nothing else changes (R52, R57, R58, R60, R61, R76,
Tables 11-4, 11-6). -/
def Obligations.LoadsTakeEffect : Prop :=
  ∀ (s : State) (tag : Byte), lineAtRest s → (s.title.state = .idle ∨ s.title.state = .armed) →
    (∀ k : Fin 16,
      exec (.loadRule tag [byteOf k.val]) s =
        .next
          (replying 0x82 tag [0]
            { s with
              classifier :=
                { s.classifier with rules := s.classifier.rules.set k none, counts := s.classifier.counts.set k 0 } })) ∧
    (∀ (k : Fin 16) (r : Rule),
      let selector : Byte := match r.selector with
        | .fieldA => 1
        | .fieldB => 2
        | .either => 3
      let test : Byte := match r.test with
        | .any => 1
        | .all => 2
        | .none => 3
      exec
          (.loadRule tag
            ([byteOf k.val, selector] ++ beBytes 3 r.mask.toNat ++
              [test, byteOf (signalsNumber r.requirement), byteOf r.tier.val, byteOf r.chain.val])) s =
        .next
          (replying 0x82 tag [0]
            { s with
              classifier :=
                { s.classifier with
                  rules := s.classifier.rules.set k (some r), counts := s.classifier.counts.set k 0 } })) ∧
    (∀ (k : Fin 32) (e : StrategyEntry), 1 ≤ e.limit → e.limit ≤ 18 →
      let kind : Byte := match e.kind with
        | .temporal => 1
        | .spatial => 2
        | .adaptive => 3
        | .hold => 4
        | .pass => 5
      let next : Byte := match e.next with
        | some n => byteOf n.val
        | none => 0xFF
      exec (.loadEntry tag [byteOf k.val, kind, next, if e.wait then 1 else 0, byteOf e.limit]) s =
        .next
          (replying 0x83 tag [0]
            { s with
              strategy :=
                { s.strategy with
                  entries := s.strategy.entries.set k e, taken := s.strategy.taken.set k 0 } }))

/-- ADJUST in any state takes every present item, the band budget clamped to 1..64, and is a decision point, with no item present too:
then no item changes (R84, R85, R87, R200; log entry 12 for that reading of R84). With no job the decision only discharges one owed;
during a band operation the decision is owed. -/
def Obligations.AdjustTakesItems : Prop :=
  ∀ (s : State) (tag : Byte) (budget mask : Option Byte) (mode : Option TierMode) (bottom : Option (Fin 8)), lineAtRest s →
    let payload :=
      byteOf (bitsNumber [budget.isSome, mask.isSome, mode.isSome, bottom.isSome]) ::
        (budget.toList ++ mask.toList ++ (mode.map tierModeCode).toList ++ (bottom.map (fun t => byteOf t.val)).toList)
    let adjusted : State :=
      { s with
        sched :=
          { s.sched with
            bandBudget := (budget.map (fun b => clamp 1 64 b.toNat)).getD s.sched.bandBudget
            maskSet := mask.getD s.sched.maskSet
            tierMode := mode.getD s.sched.tierMode
            bottom := bottom.getD s.sched.bottom } }
    (budget = none → mask = none → mode = none → bottom = none → adjusted = s) ∧
    exec (.adjust tag payload) s =
      .next
        (replying 0x84 tag [if ∃ b, budget = some b ∧ (b.toNat < 1 ∨ 64 < b.toNat) then 1 else 0]
          (tellConditions (decisionPoint adjusted))) ∧
    (repairIdle s → decisionPoint adjusted = decided adjusted) ∧
    (s.repair.op.isSome = true → decisionPoint adjusted = { adjusted with sched := { adjusted.sched with owed := true } })

/-- DECLARE SPARE and OPEN TITLE in IDLE or ARMED: an ill-sized region or area, and in IDLE one that overlaps the partner declared, is
REFUSED VALUE and changes nothing; otherwise the declaration is taken, the pointers set (or the relocation table emptied), and the
title arms in IDLE when the partner is present, or returns from ARMED to IDLE with its partner cleared (R155, R167, R168; log entry
36 for the overlap in ARMED). -/
def Obligations.DeclarationsPair : Prop :=
  ∀ (s : State) (tag : Byte), lineAtRest s → (s.title.state = .idle ∨ s.title.state = .armed) →
    (∀ lo hi : Nat, lo < 2 ^ 32 → hi < 2 ^ 32 →
      let sized := lo ≤ hi ∧ 16 ≤ hi - lo + 1 ∧ hi - lo + 1 ≤ 65536
      let clear := ∀ d, s.title.state = .idle → s.title.declaration = some d → hi < d.start ∨ d.start + d.capacity - 1 < lo
      (¬(sized ∧ clear) →
        exec (.declareSpare tag (beBytes 4 lo ++ beBytes 4 hi)) s = .next (replying 0x85 tag [17] s)) ∧
      (sized → clear →
        exec (.declareSpare tag (beBytes 4 lo ++ beBytes 4 hi)) s =
          .next
            (replying 0x85 tag [0]
              { s with
                spare :=
                  { s.spare with
                    region := some { lo := lo, hi := hi, up := lo, down := hi }, inFlight := 0, plan := none }
                title :=
                  if s.title.state = .armed then { state := .idle, declaration := none }
                  else
                    { state := if s.title.declaration.isSome then .armed else .idle
                      declaration := s.title.declaration } }))) ∧
    ∀ d : TitleDeclaration, d.number < 2 ^ 16 → d.start < 2 ^ 32 → d.capacity < 2 ^ 32 → d.first < 2 ^ 32 →
      let payload := beBytes 2 d.number ++ beBytes 4 d.start ++ beBytes 4 d.capacity ++ beBytes 4 d.first
      let sized := 1 ≤ d.capacity ∧ d.start + d.capacity - 1 ≤ 4294967295
      let clear := ∀ r, s.title.state = .idle → s.spare.region = some r → r.hi < d.start ∨ d.start + d.capacity - 1 < r.lo
      (¬(sized ∧ clear) → exec (.openTitle tag payload) s = .next (replying 0x86 tag [17] s)) ∧
      (sized → clear →
        exec (.openTitle tag payload) s =
          .next
            (replying 0x86 tag [0]
              { s with
                title :=
                  { state := if s.title.state = .idle ∧ s.spare.region.isSome then .armed else .idle
                    declaration := some d }
                spare :=
                  if s.title.state = .armed then { s.spare with table := [], region := none, plan := none }
                  else { s.spare with table := [] } }))

/-- START in ARMED: a rule slot whose mask does not fit the format refuses it, naming the lowest such slot, with nothing changed;
otherwise the title is RUNNING, ingest is in ACQUIRE with its numbers and tallies set, the Feed's H is the first frame number with no
pending cue, every count and tally of the title is cleared, and nothing else changes but the conditions told (R34, R57, R58, R76,
R102, R120, R141, R142, R164, R169). -/
def Obligations.StartRunsTitle : Prop :=
  ∀ (s : State) (tag : Byte) (d : TitleDeclaration),
    lineAtRest s → s.title.state = .armed → s.title.declaration = some d →
    let fits (k : Fin 16) : Prop := ∀ r, s.classifier.rules[k] = some r → r.mask.toNat < 2 ^ bandsPer s.settings.format
    (∀ k : Fin 16, ¬fits k → (∀ j : Fin 16, j < k → fits j) →
      exec (.start tag []) s = .next (replying 0x87 tag [17, byteOf k.val] s)) ∧
    ((∀ k, fits k) →
      ∃ t, exec (.start tag []) s = .next (replying 0x87 tag [0] t) ∧
        t.title = { s.title with state := .running } ∧
        t.ingest =
          { state := .acquire, accepting := true, next := some d.first,
            last := some (min (d.first + d.capacity - 1) 4294967295), discardPending := true, watch := 0, frame := none,
            accepted := 0, dropped := 0, fieldsDiscarded := 0, bandsIgnored := 0 } ∧
        t.feed =
          { s.feed with
            h := some d.first, pendingCue := none, flight := none, tallies := ⟨0, 0, 0, 0, 0, 0, 0, 0, 0, 0, 0⟩ } ∧
        t.classifier = { s.classifier with counts := Vector.replicate 16 0, defaultCount := 0 } ∧
        t.strategy =
          { s.strategy with taken := Vector.replicate 32 0, passedAtEnd := 0, passedAtLimit := 0, deferrals := 0 } ∧
        t.sched =
          { s.sched with created := 0, completed := 0, abandoned := 0, removed := 0, bandsStarted := 0, bandsCut := 0 } ∧
        t.repair = { s.repair with counts := ⟨0, 0, 0, 0, 0, 0, 0, 0, 0, 0⟩ } ∧
        t.verify =
          { s.verify with
            good := 0, marginal := 0, lost := 0, unverified := 0, timeouts := 0, discarded := 0, queued := 0 } ∧
        t.spare =
          { s.spare with grants := 0, refusals := 0, indexWrites := 0, indexRewrites := 0, indexFailed := 0 } ∧
        t.reports = { s.reports with truths := conditionsNow t } ∧ t.reports.truths.ingestUnlocked = true ∧
        { t with
          title := s.title, ingest := s.ingest, feed := s.feed, classifier := s.classifier, strategy := s.strategy,
          sched := s.sched, repair := s.repair, verify := s.verify, spare := s.spare, reports := s.reports } = s)

/-- STOP in RUNNING moves the title to DRAINING without an alert, and ingest stops accepting: from ACQUIRE, and from LOCKED with no frame
that has a slot, it is STOPPED; a frame with a slot runs on (R46, R170; log entry 21: leaving ACQUIRE is no decision point). -/
def Obligations.StopDrainsTitle : Prop :=
  ∀ (s : State) (tag : Byte), lineAtRest s → s.title.state = .running →
    let drained (g : Ingest) (t : State) : State :=
      { t with title := { t.title with state := .draining }, ingest := g }
    (s.ingest.state = .acquire →
      exec (.stop tag []) s =
        .next
          (replying 0x88 tag [0] (settle (drained { s.ingest with state := .stopped, accepting := false } s)))) ∧
    (∀ (a : Assembly) (i : Fin 32), s.ingest.state = .locked → s.ingest.frame = some a → a.slot = some i →
      exec (.stop tag []) s =
        .next (replying 0x88 tag [0] (settle (drained { s.ingest with accepting := false } s)))) ∧
    (s.ingest.state = .locked → (∀ a, s.ingest.frame = some a → a.slot = none) → repairIdle s →
      exec (.stop tag []) s =
        .next
          (replying 0x88 tag [0]
            (settle (decided
              (drained { s.ingest with state := .stopped, accepting := false, frame := none } s)))))

/-- ABORT in RUNNING, DRAINING or CLOSING: the reply carries the frames discarded unwritten and those written but unverified, the
forfeited entries among the latter; a write in flight is cancelled with CANCEL, jobs and operation are gone, every slot is FREE with
no anchor and no gap, the pending list, the relocation queue, f and the plan are emptied, ingest is STOPPED, both declarations are
cleared and the title is IDLE. No frame retires, no report is built, no alert is posted; the settings, rules, strategies, relocation
table, tallies, tag counter and timebase are kept (R29, R48, R99, R137, R139, R163, R173). -/
def Obligations.AbortEndsTitle : Prop :=
  ∀ (s : State) (tag : Byte), lineAtRest s →
    (s.title.state = .running ∨ s.title.state = .draining ∨ s.title.state = .closing) →
      let unwrittenCount :=
        countSlots
          (fun r => r.state == .filling || r.state == .repairing || r.state == .ready ||
            (r.state == .sent && r.streaming && r.kind == some .original)) s
      let unverifiedCount :=
        countSlots
          (fun r => r.state == .relocating || (r.state == .sent && (!r.streaming || r.kind == some .relocated))) s +
          (s.verify.entries.filter (fun e => e.forfeited)).length
      ∃ t, exec (.abort tag []) s =
          .next (replying 0x89 tag [0, byteOf unwrittenCount, byteOf unverifiedCount] t) ∧
        t.title = { state := .idle, declaration := none } ∧
        (∀ i : Fin 32, t.slots[i] = SlotRecord.freed) ∧ t.anchor = none ∧ t.gaps = [] ∧
        t.sched =
          { s.sched with
            jobs := [], owed := false, removed := addTally s.sched.removed s.sched.jobs.length
            bandsCut := if s.repair.op.isSome then bump s.sched.bandsCut else s.sched.bandsCut } ∧
        t.repair = { s.repair with op := none } ∧
        t.verify = { s.verify with entries := [], queue := [] } ∧
        t.spare = { s.spare with region := none, plan := none, inFlight := 0 } ∧
        t.ingest =
          { s.ingest with
            state := .stopped, accepting := false, frame := none, watch := 0, discardPending := false, next := none,
            last := none } ∧
        t.feed =
          { s.feed with
            h := none
            pendingCue := none
            flight := none
            state :=
              if s.feed.state = .writing then (if s.feed.pausePending then .paused else .waiting) else s.feed.state
            pausePending := if s.feed.state = .writing then false else s.feed.pausePending
            tallies :=
              if s.feed.flight.isSome then { s.feed.tallies with cancels := bump s.feed.tallies.cancels }
              else s.feed.tallies } ∧
        (∀ w, s.feed.flight = some w → t.recorderOut = some (.cancel w.tag)) ∧
        (s.feed.flight = none → t.recorderOut = s.recorderOut) ∧
        t.reports = { s.reports with truths := conditionsNow t } ∧
        (t.reports.truths.windowLow = false ∧ t.reports.truths.spareLow = false ∧
          t.reports.truths.ingestUnlocked = false) ∧
        { t with
          title := s.title, slots := s.slots, anchor := s.anchor, gaps := s.gaps, sched := s.sched, repair := s.repair,
          verify := s.verify, spare := s.spare, ingest := s.ingest, feed := s.feed, recorderOut := s.recorderOut,
          reports := s.reports } = s

/-- CUE in RUNNING makes a mark other than 0 the pending cue, with OK REPLACED when one was pending, and refuses 0. READ REPORT removes
the oldest report and returns it with the number left, or none. ACK ALERTS clears the named alerts, returns the missed count and
zeroes it when REPORTS MISSED is named, and refuses a set with bit 6 or 7 (R131, R193, R195). -/
def Obligations.CueReadAndAcknowledge : Prop :=
  ∀ (s : State) (tag : Byte), lineAtRest s →
    (s.title.state = .running →
      exec (.cue tag [0]) s = .next (replying 0x8A tag [17] s) ∧
      ∀ mark : Byte, mark ≠ 0 →
        exec (.cue tag [mark]) s =
          .next
            (replying 0x8A tag [if s.feed.pendingCue = none then 0 else 2]
              { s with feed := { s.feed with pendingCue := some mark } })) ∧
    ((s.reports.done = [] → exec (.readReport tag []) s = .next (replying 0x8B tag [0, 0] s)) ∧
      ∀ (r : Report) (rest : List Report), s.reports.done = r :: rest →
        exec (.readReport tag []) s =
          .next
            (replying 0x8B tag ([0, byteOf rest.length] ++ reportBytes r)
              { s with reports := { s.reports with done := rest } })) ∧
    (∀ b : Byte,
      (64 ≤ b.toNat → exec (.ackAlerts tag [b]) s = .next (replying 0x8C tag [17] s)) ∧
      (b.toNat < 64 →
        exec (.ackAlerts tag [b]) s =
          .next
            (replying 0x8C tag [0, byteOf s.reports.missed]
              { s with
                reports :=
                  { s.reports with
                    alerts :=
                      { frameLost := s.reports.alerts.frameLost && !b.getLsbD 0
                        sourceGap := s.reports.alerts.sourceGap && !b.getLsbD 1
                        spareExhausted := s.reports.alerts.spareExhausted && !b.getLsbD 2
                        reportsMissed := s.reports.alerts.reportsMissed && !b.getLsbD 3
                        indexFailed := s.reports.alerts.indexFailed && !b.getLsbD 4
                        titleFull := s.reports.alerts.titleFull && !b.getLsbD 5 }
                    missed := if b.getLsbD 3 then 0 else s.reports.missed } })))

/-- SECTION RESET INGEST with a frame under assembly in a slot: its number becomes a gap, the slot is FREE, and ingest is in ACQUIRE
with discard pending in RUNNING, STOPPED otherwise; nothing else changes (R15, R24, R47, R189). -/
def Obligations.SectionResetIngestDiscards : Prop :=
  ∀ (s : State) (tag : Byte) (a : Assembly) (i : Fin 32) (runs : List GapRun),
    lineAtRest s → s.ingest.state = .locked → s.ingest.frame = some a → a.slot = some i →
    recordGap s.gaps a.number = some runs → repairIdle s →
      exec (.sectionResetIngest tag) s =
        .next
          (replying 0x8D tag [0]
            (settle (decided
              { s with
                slots := s.slots.set i SlotRecord.freed
                gaps := runs
                ingest :=
                  { s.ingest with
                    state := if s.title.state = .running then .acquire else .stopped
                    discardPending := if s.title.state = .running then true else s.ingest.discardPending
                    frame := none
                    watch := 0 } })))

/-- SECTION RESET SCHEDULER: no job and no operation is left, the bottom tier is 7, the counter is the band budget less the bands
started but never above its value; every REPAIRING slot is READY with its DAMAGED bands PASSED, its age kept, no job outstanding and
no reference held; any other slot keeps its record but for its reference count, or becomes FREE from RETAINED; samples, anchor and gap
list are unchanged (R26, R99, R100, R108, R189). -/
def Obligations.SectionResetSchedulerPasses : Prop :=
  ∀ (s : State) (tag : Byte), lineAtRest s →
    ∃ u, exec (.sectionResetScheduler tag) s = .next (replying 0x8D tag [0] (settle u)) ∧
      u.sched =
        { s.sched with
          jobs := []
          owed := false
          bottom := 7
          counter := min s.sched.counter (s.sched.bandBudget - s.sched.started)
          removed := addTally s.sched.removed s.sched.jobs.length
          bandsCut := if s.repair.op.isSome then bump s.sched.bandsCut else s.sched.bandsCut } ∧
      u.repair = { s.repair with op := none } ∧
      (∀ i : Fin 32, s.slots[i].state = .repairing →
        u.slots[i].state = .ready ∧ u.slots[i].jobsOutstanding = 0 ∧ u.slots[i].age = s.slots[i].age ∧
          u.slots[i].frame = s.slots[i].frame ∧ u.slots[i].heldP = none ∧ u.slots[i].heldN = none ∧
          ∀ (f : Field) (b : Fin 18), b.val < bandsPer s.settings.format →
            (u.slots[i]).band f b =
              ((s.slots[i]).band f b).map (fun x => if x.state = .damaged then { x with state := .passed } else x)) ∧
      (∀ i : Fin 32, s.slots[i].state ≠ .repairing →
        { u.slots[i] with refs := s.slots[i].refs } = s.slots[i] ∨
          (s.slots[i].state = .retained ∧ u.slots[i] = SlotRecord.freed)) ∧
      { u with slots := s.slots, sched := s.sched, repair := s.repair } = s

/-- SECTION RESET RECORDER: a write in flight is cancelled with CANCEL, no entry and no relocation is pending, f is 0, the recorder is
WAITING with no pause pending; FILLING, REPAIRING, READY and RETAINED slots, the anchor, the gap list, H, the tag counter and the
pending cue are unchanged (R28, R137, R140, R152, R189). Every open recording is settled: the frame of the write in flight and those
of the pending entries, gap fills and forfeited ones among them, retire UNVERIFIED, the relocation queue's LOST with FRAME LOST; each
slot is then RETAINED as the anchor or while referenced and FREE otherwise, every retirement is tallied, and a report built of each in
that order, missed once 32 are held (R28, R140, R152, R164, R190, R192). The block of a cancelled INDEX write, and those of the pending
INDEX entries, are taken as failed, oldest first (R140, R152, R161). The premises, that the
slots of the recordings are SENT, or RELOCATING in the queue, hold their frames and are each named once, are what the spec gives every
state a run reaches (R1, R145, R153). -/
def Obligations.SectionResetRecorderSettles : Prop :=
  ∀ (s : State) (tag : Byte), lineAtRest s →
    (∀ w i, s.feed.flight = some w → w.slot = some i → s.slots[i].state = .sent) →
    (∀ q ∈ s.verify.queue, s.slots[q.slot].state = .relocating) →
      ∃ u, exec (.sectionResetRecorder tag) s = .next (replying 0x8D tag [0] (settle u)) ∧
        u.verify.entries = [] ∧ u.verify.queue = [] ∧ u.spare.inFlight = 0 ∧
        u.feed =
          { s.feed with
            state := .waiting
            pausePending := false
            flight := none
            tallies :=
              if s.feed.flight.isSome then { s.feed.tallies with cancels := bump s.feed.tallies.cancels }
              else s.feed.tallies } ∧
        (∀ w, s.feed.flight = some w → u.recorderOut = some (.cancel w.tag)) ∧
        (s.feed.flight = none → u.recorderOut = s.recorderOut) ∧
        (∀ i : Fin 32,
          (s.slots[i].state = .filling ∨ s.slots[i].state = .repairing ∨ s.slots[i].state = .ready ∨
            s.slots[i].state = .retained) → u.slots[i] = s.slots[i]) ∧
        (settle u).reports.truths.recorderPaused = false ∧ u.spare.table = s.spare.table ∧ u.spare.region = s.spare.region ∧
        { u with
          slots := s.slots, verify := s.verify, spare := s.spare, feed := s.feed, recorderOut := s.recorderOut,
          reports := s.reports } = s ∧
        let cut : List Flight := s.feed.flight.toList
        let held : List (Fin 32) := cut.filterMap (fun w => w.slot) ++ s.verify.entries.filterMap (fun e => e.slot)
        let queued : List (Fin 32) := s.verify.queue.map (fun q => q.slot)
        ((held ++ queued).Nodup →
          (∀ w ∈ cut,
            (w.kind = .gapFill ∧ w.slot = none) ∨ (w.kind = .index ∧ w.slot = none ∧ w.index.isSome = true) ∨
              ((w.kind = .original ∨ w.kind = .relocated) ∧ ∃ i, w.slot = some i ∧ s.slots[i].frame = w.frame)) →
          (∀ e ∈ s.verify.entries,
            (e.kind = .gapFill ∧ e.slot = none) ∨ (e.kind = .index ∧ e.slot = none ∧ e.index.isSome = true) ∨
              ((e.kind = .original ∨ e.kind = .relocated) ∧
                ((e.slot = none ∧ ∃ copy, e.copy = some copy ∧ copy.frame = e.frame) ∨
                  (e.copy = none ∧ ∃ i, e.slot = some i ∧ s.slots[i].state = .sent ∧ s.slots[i].frame = e.frame ∧
                    s.slots[i].streaming = false)))) →
          (∀ q ∈ s.verify.queue, s.slots[q.slot].frame = some q.frame) →
          let unverified : List (Option Nat) :=
            (cut.filter (fun w => w.kind != .index)).map (fun w => w.frame) ++
              (s.verify.entries.filter (fun e => e.kind != .index)).map (fun e => e.frame)
          let retired : List (Nat × FrameOutcome) :=
            unverified.map (fun n => (n.getD 0, .unverified)) ++ s.verify.queue.map (fun q => (q.frame, .lost))
          let failed : List IndexMark :=
            (cut.filter (fun w => w.kind == .index)).filterMap (fun w => w.index) ++
              (s.verify.entries.filter (fun e => e.kind == .index)).filterMap (fun e => e.index)
          let indexed : State := failed.foldl (fun t m => failIndex m t) s
          (∀ i ∈ held, { u.slots[i] with streaming := false } = { retiredRecord s i .unverified with streaming := false } ∧
            u.slots[i].streaming = false) ∧
          (∀ i ∈ queued, u.slots[i] = retiredRecord s i .lost) ∧ (∀ i : Fin 32, i ∉ held ++ queued → u.slots[i] = s.slots[i]) ∧
          u.verify =
            { s.verify with
              entries := [], queue := []
              unverified := bump^[unverified.length] s.verify.unverified
              lost := bump^[s.verify.queue.length] s.verify.lost } ∧
          u.spare = { indexed.spare with inFlight := 0 } ∧
          ∃ built : List Report,
            built.map (fun p => (p.frame, p.outcome)) = retired ∧
            u.reports =
              built.foldl (fun r p => reportAdded p r)
                { s.reports with
                  alerts :=
                    { indexed.reports.alerts with
                      frameLost := s.reports.alerts.frameLost || !s.verify.queue.isEmpty } } ∧
            (s.reports.done.length + retired.length ≤ 32 →
              u.reports.done = s.reports.done ++ built ∧ u.reports.added = bumpByte^[retired.length] s.reports.added ∧
                u.reports.missed = s.reports.missed))

/-- A QUERY answers OK with the part number, the part count and the part gathered from the state, and changes nothing; a part number at
or above the part count is REFUSED VALUE. STATUS has 3 parts, TIERS and WINDOW 5; SPARE's parameter is a table index and its
snapshot one part (log entry 11). No part of STATUS, TIERS or WINDOW exceeds 247 bytes with at most 16 runs (R188, R201,
Table 11-8). -/
def Obligations.QueriesAnswer : Prop :=
  ∀ (s : State) (tag parameter : Byte), lineAtRest s →
    exec (.queryStatus tag parameter) s =
        .next
          (replying 0x8E tag
            (if parameter.toNat < 3 then 0 :: parameter :: 3 :: snapshotPart .status parameter.toNat s else [17]) s) ∧
      exec (.queryTiers tag parameter) s =
        .next
          (replying 0x8E tag
            (if parameter.toNat < 5 then 0 :: parameter :: 5 :: snapshotPart .tiers parameter.toNat s else [17]) s) ∧
      exec (.querySpare tag parameter) s =
        .next (replying 0x8E tag (0 :: 0 :: 1 :: snapshotPart .spare parameter.toNat s) s) ∧
      (s.link.receiver = none →
        exec (.receivedMessage (framed 0x0E tag [2, parameter])) s =
          .next
            (replying 0x8E tag
              (if parameter.toNat < 5 then 0 :: parameter :: 5 :: snapshotPart .window parameter.toNat s else [17]) s)) ∧
      (s.gaps.length ≤ 16 →
        ∀ n ∈ [SnapshotName.status, SnapshotName.window, SnapshotName.tiers], ∀ k < partCount n,
          (snapshotPart n k s).length ≤ 247)

/-- RESET is answered OK and changes nothing while its reply is sent; a request of an unassigned kind is answered REFUSED UNKNOWN and
changes nothing (R185, R186, R189, Table 11-3). -/
def Obligations.ResetAndUnassignedAnswered : Prop :=
  ∀ (s : State) (tag : Byte), lineAtRest s →
    exec (.reset tag []) s = .next (sending .resetReply 0x8F tag [0] s) ∧
    ∀ (kind : Byte) (payload : List Byte), kindUnassigned kind = true →
      exec (.unassignedRequest kind tag payload) s = .next (replying (byteOf (kind.toNat + 128)) tag [18] s)
end

