-- ==== Sys2Proof/Laws/State.lean ====
section
/-! SUPPORT. One lemma per field per update: which fields of State the named updates leave as they were. -/

namespace Sys2Proof.Machine

/-! State.setSlot -/

@[simp] theorem setSlot_buffers (s : State) (i : Fin 32) (r : SlotRecord) : (s.setSlot i r).buffers = s.buffers := rfl
@[simp] theorem setSlot_anchor (s : State) (i : Fin 32) (r : SlotRecord) : (s.setSlot i r).anchor = s.anchor := rfl
@[simp] theorem setSlot_gaps (s : State) (i : Fin 32) (r : SlotRecord) : (s.setSlot i r).gaps = s.gaps := rfl
@[simp] theorem setSlot_ingest (s : State) (i : Fin 32) (r : SlotRecord) : (s.setSlot i r).ingest = s.ingest := rfl
@[simp] theorem setSlot_classifier (s : State) (i : Fin 32) (r : SlotRecord) : (s.setSlot i r).classifier = s.classifier := rfl
@[simp] theorem setSlot_strategy (s : State) (i : Fin 32) (r : SlotRecord) : (s.setSlot i r).strategy = s.strategy := rfl
@[simp] theorem setSlot_sched (s : State) (i : Fin 32) (r : SlotRecord) : (s.setSlot i r).sched = s.sched := rfl
@[simp] theorem setSlot_repair (s : State) (i : Fin 32) (r : SlotRecord) : (s.setSlot i r).repair = s.repair := rfl
@[simp] theorem setSlot_feed (s : State) (i : Fin 32) (r : SlotRecord) : (s.setSlot i r).feed = s.feed := rfl
@[simp] theorem setSlot_recorderOut (s : State) (i : Fin 32) (r : SlotRecord) : (s.setSlot i r).recorderOut = s.recorderOut := rfl
@[simp] theorem setSlot_verify (s : State) (i : Fin 32) (r : SlotRecord) : (s.setSlot i r).verify = s.verify := rfl
@[simp] theorem setSlot_spare (s : State) (i : Fin 32) (r : SlotRecord) : (s.setSlot i r).spare = s.spare := rfl
@[simp] theorem setSlot_title (s : State) (i : Fin 32) (r : SlotRecord) : (s.setSlot i r).title = s.title := rfl
@[simp] theorem setSlot_settings (s : State) (i : Fin 32) (r : SlotRecord) : (s.setSlot i r).settings = s.settings := rfl
@[simp] theorem setSlot_timebase (s : State) (i : Fin 32) (r : SlotRecord) : (s.setSlot i r).timebase = s.timebase := rfl
@[simp] theorem setSlot_reports (s : State) (i : Fin 32) (r : SlotRecord) : (s.setSlot i r).reports = s.reports := rfl
@[simp] theorem setSlot_link (s : State) (i : Fin 32) (r : SlotRecord) : (s.setSlot i r).link = s.link := rfl
@[simp] theorem setSlot_pending (s : State) (i : Fin 32) (r : SlotRecord) : (s.setSlot i r).pending = s.pending := rfl

/-! State.setImage -/

@[simp] theorem setImage_slots (s : State) (i : Fin 32) (f : Field) (b : Fin 18) (img : BandImage) : (s.setImage i f b img).slots = s.slots := rfl
@[simp] theorem setImage_anchor (s : State) (i : Fin 32) (f : Field) (b : Fin 18) (img : BandImage) : (s.setImage i f b img).anchor = s.anchor := rfl
@[simp] theorem setImage_gaps (s : State) (i : Fin 32) (f : Field) (b : Fin 18) (img : BandImage) : (s.setImage i f b img).gaps = s.gaps := rfl
@[simp] theorem setImage_ingest (s : State) (i : Fin 32) (f : Field) (b : Fin 18) (img : BandImage) : (s.setImage i f b img).ingest = s.ingest := rfl
@[simp] theorem setImage_classifier (s : State) (i : Fin 32) (f : Field) (b : Fin 18) (img : BandImage) : (s.setImage i f b img).classifier = s.classifier := rfl
@[simp] theorem setImage_strategy (s : State) (i : Fin 32) (f : Field) (b : Fin 18) (img : BandImage) : (s.setImage i f b img).strategy = s.strategy := rfl
@[simp] theorem setImage_sched (s : State) (i : Fin 32) (f : Field) (b : Fin 18) (img : BandImage) : (s.setImage i f b img).sched = s.sched := rfl
@[simp] theorem setImage_repair (s : State) (i : Fin 32) (f : Field) (b : Fin 18) (img : BandImage) : (s.setImage i f b img).repair = s.repair := rfl
@[simp] theorem setImage_feed (s : State) (i : Fin 32) (f : Field) (b : Fin 18) (img : BandImage) : (s.setImage i f b img).feed = s.feed := rfl
@[simp] theorem setImage_recorderOut (s : State) (i : Fin 32) (f : Field) (b : Fin 18) (img : BandImage) : (s.setImage i f b img).recorderOut = s.recorderOut := rfl
@[simp] theorem setImage_verify (s : State) (i : Fin 32) (f : Field) (b : Fin 18) (img : BandImage) : (s.setImage i f b img).verify = s.verify := rfl
@[simp] theorem setImage_spare (s : State) (i : Fin 32) (f : Field) (b : Fin 18) (img : BandImage) : (s.setImage i f b img).spare = s.spare := rfl
@[simp] theorem setImage_title (s : State) (i : Fin 32) (f : Field) (b : Fin 18) (img : BandImage) : (s.setImage i f b img).title = s.title := rfl
@[simp] theorem setImage_settings (s : State) (i : Fin 32) (f : Field) (b : Fin 18) (img : BandImage) : (s.setImage i f b img).settings = s.settings := rfl
@[simp] theorem setImage_timebase (s : State) (i : Fin 32) (f : Field) (b : Fin 18) (img : BandImage) : (s.setImage i f b img).timebase = s.timebase := rfl
@[simp] theorem setImage_reports (s : State) (i : Fin 32) (f : Field) (b : Fin 18) (img : BandImage) : (s.setImage i f b img).reports = s.reports := rfl
@[simp] theorem setImage_link (s : State) (i : Fin 32) (f : Field) (b : Fin 18) (img : BandImage) : (s.setImage i f b img).link = s.link := rfl
@[simp] theorem setImage_pending (s : State) (i : Fin 32) (f : Field) (b : Fin 18) (img : BandImage) : (s.setImage i f b img).pending = s.pending := rfl

/-! State.setBand -/

@[simp] theorem setBand_buffers (s : State) (i : Fin 32) (f : Field) (b : Fin 18) (x : BandRecord) : (s.setBand i f b x).buffers = s.buffers := rfl
@[simp] theorem setBand_anchor (s : State) (i : Fin 32) (f : Field) (b : Fin 18) (x : BandRecord) : (s.setBand i f b x).anchor = s.anchor := rfl
@[simp] theorem setBand_gaps (s : State) (i : Fin 32) (f : Field) (b : Fin 18) (x : BandRecord) : (s.setBand i f b x).gaps = s.gaps := rfl
@[simp] theorem setBand_ingest (s : State) (i : Fin 32) (f : Field) (b : Fin 18) (x : BandRecord) : (s.setBand i f b x).ingest = s.ingest := rfl
@[simp] theorem setBand_classifier (s : State) (i : Fin 32) (f : Field) (b : Fin 18) (x : BandRecord) : (s.setBand i f b x).classifier = s.classifier := rfl
@[simp] theorem setBand_strategy (s : State) (i : Fin 32) (f : Field) (b : Fin 18) (x : BandRecord) : (s.setBand i f b x).strategy = s.strategy := rfl
@[simp] theorem setBand_sched (s : State) (i : Fin 32) (f : Field) (b : Fin 18) (x : BandRecord) : (s.setBand i f b x).sched = s.sched := rfl
@[simp] theorem setBand_repair (s : State) (i : Fin 32) (f : Field) (b : Fin 18) (x : BandRecord) : (s.setBand i f b x).repair = s.repair := rfl
@[simp] theorem setBand_feed (s : State) (i : Fin 32) (f : Field) (b : Fin 18) (x : BandRecord) : (s.setBand i f b x).feed = s.feed := rfl
@[simp] theorem setBand_recorderOut (s : State) (i : Fin 32) (f : Field) (b : Fin 18) (x : BandRecord) : (s.setBand i f b x).recorderOut = s.recorderOut := rfl
@[simp] theorem setBand_verify (s : State) (i : Fin 32) (f : Field) (b : Fin 18) (x : BandRecord) : (s.setBand i f b x).verify = s.verify := rfl
@[simp] theorem setBand_spare (s : State) (i : Fin 32) (f : Field) (b : Fin 18) (x : BandRecord) : (s.setBand i f b x).spare = s.spare := rfl
@[simp] theorem setBand_title (s : State) (i : Fin 32) (f : Field) (b : Fin 18) (x : BandRecord) : (s.setBand i f b x).title = s.title := rfl
@[simp] theorem setBand_settings (s : State) (i : Fin 32) (f : Field) (b : Fin 18) (x : BandRecord) : (s.setBand i f b x).settings = s.settings := rfl
@[simp] theorem setBand_timebase (s : State) (i : Fin 32) (f : Field) (b : Fin 18) (x : BandRecord) : (s.setBand i f b x).timebase = s.timebase := rfl
@[simp] theorem setBand_reports (s : State) (i : Fin 32) (f : Field) (b : Fin 18) (x : BandRecord) : (s.setBand i f b x).reports = s.reports := rfl
@[simp] theorem setBand_link (s : State) (i : Fin 32) (f : Field) (b : Fin 18) (x : BandRecord) : (s.setBand i f b x).link = s.link := rfl
@[simp] theorem setBand_pending (s : State) (i : Fin 32) (f : Field) (b : Fin 18) (x : BandRecord) : (s.setBand i f b x).pending = s.pending := rfl

/-! tellConditions -/

@[simp] theorem tellConditions_slots (s : State) : (tellConditions s).slots = s.slots := rfl
@[simp] theorem tellConditions_buffers (s : State) : (tellConditions s).buffers = s.buffers := rfl
@[simp] theorem tellConditions_anchor (s : State) : (tellConditions s).anchor = s.anchor := rfl
@[simp] theorem tellConditions_gaps (s : State) : (tellConditions s).gaps = s.gaps := rfl
@[simp] theorem tellConditions_ingest (s : State) : (tellConditions s).ingest = s.ingest := rfl
@[simp] theorem tellConditions_classifier (s : State) : (tellConditions s).classifier = s.classifier := rfl
@[simp] theorem tellConditions_strategy (s : State) : (tellConditions s).strategy = s.strategy := rfl
@[simp] theorem tellConditions_sched (s : State) : (tellConditions s).sched = s.sched := rfl
@[simp] theorem tellConditions_repair (s : State) : (tellConditions s).repair = s.repair := rfl
@[simp] theorem tellConditions_feed (s : State) : (tellConditions s).feed = s.feed := rfl
@[simp] theorem tellConditions_recorderOut (s : State) : (tellConditions s).recorderOut = s.recorderOut := rfl
@[simp] theorem tellConditions_verify (s : State) : (tellConditions s).verify = s.verify := rfl
@[simp] theorem tellConditions_spare (s : State) : (tellConditions s).spare = s.spare := rfl
@[simp] theorem tellConditions_title (s : State) : (tellConditions s).title = s.title := rfl
@[simp] theorem tellConditions_settings (s : State) : (tellConditions s).settings = s.settings := rfl
@[simp] theorem tellConditions_timebase (s : State) : (tellConditions s).timebase = s.timebase := rfl
@[simp] theorem tellConditions_link (s : State) : (tellConditions s).link = s.link := rfl
@[simp] theorem tellConditions_pending (s : State) : (tellConditions s).pending = s.pending := rfl

/-! tellRecorder -/

@[simp] theorem tellRecorder_slots (s : State) : (tellRecorder s).slots = s.slots := rfl
@[simp] theorem tellRecorder_buffers (s : State) : (tellRecorder s).buffers = s.buffers := rfl
@[simp] theorem tellRecorder_anchor (s : State) : (tellRecorder s).anchor = s.anchor := rfl
@[simp] theorem tellRecorder_gaps (s : State) : (tellRecorder s).gaps = s.gaps := rfl
@[simp] theorem tellRecorder_ingest (s : State) : (tellRecorder s).ingest = s.ingest := rfl
@[simp] theorem tellRecorder_classifier (s : State) : (tellRecorder s).classifier = s.classifier := rfl
@[simp] theorem tellRecorder_strategy (s : State) : (tellRecorder s).strategy = s.strategy := rfl
@[simp] theorem tellRecorder_sched (s : State) : (tellRecorder s).sched = s.sched := rfl
@[simp] theorem tellRecorder_repair (s : State) : (tellRecorder s).repair = s.repair := rfl
@[simp] theorem tellRecorder_feed (s : State) : (tellRecorder s).feed = s.feed := rfl
@[simp] theorem tellRecorder_recorderOut (s : State) : (tellRecorder s).recorderOut = s.recorderOut := rfl
@[simp] theorem tellRecorder_verify (s : State) : (tellRecorder s).verify = s.verify := rfl
@[simp] theorem tellRecorder_spare (s : State) : (tellRecorder s).spare = s.spare := rfl
@[simp] theorem tellRecorder_title (s : State) : (tellRecorder s).title = s.title := rfl
@[simp] theorem tellRecorder_settings (s : State) : (tellRecorder s).settings = s.settings := rfl
@[simp] theorem tellRecorder_timebase (s : State) : (tellRecorder s).timebase = s.timebase := rfl
@[simp] theorem tellRecorder_link (s : State) : (tellRecorder s).link = s.link := rfl
@[simp] theorem tellRecorder_pending (s : State) : (tellRecorder s).pending = s.pending := rfl

/-! tellTimebase -/

@[simp] theorem tellTimebase_slots (s : State) : (tellTimebase s).slots = s.slots := rfl
@[simp] theorem tellTimebase_buffers (s : State) : (tellTimebase s).buffers = s.buffers := rfl
@[simp] theorem tellTimebase_anchor (s : State) : (tellTimebase s).anchor = s.anchor := rfl
@[simp] theorem tellTimebase_gaps (s : State) : (tellTimebase s).gaps = s.gaps := rfl
@[simp] theorem tellTimebase_ingest (s : State) : (tellTimebase s).ingest = s.ingest := rfl
@[simp] theorem tellTimebase_classifier (s : State) : (tellTimebase s).classifier = s.classifier := rfl
@[simp] theorem tellTimebase_strategy (s : State) : (tellTimebase s).strategy = s.strategy := rfl
@[simp] theorem tellTimebase_sched (s : State) : (tellTimebase s).sched = s.sched := rfl
@[simp] theorem tellTimebase_repair (s : State) : (tellTimebase s).repair = s.repair := rfl
@[simp] theorem tellTimebase_feed (s : State) : (tellTimebase s).feed = s.feed := rfl
@[simp] theorem tellTimebase_recorderOut (s : State) : (tellTimebase s).recorderOut = s.recorderOut := rfl
@[simp] theorem tellTimebase_verify (s : State) : (tellTimebase s).verify = s.verify := rfl
@[simp] theorem tellTimebase_spare (s : State) : (tellTimebase s).spare = s.spare := rfl
@[simp] theorem tellTimebase_title (s : State) : (tellTimebase s).title = s.title := rfl
@[simp] theorem tellTimebase_settings (s : State) : (tellTimebase s).settings = s.settings := rfl
@[simp] theorem tellTimebase_timebase (s : State) : (tellTimebase s).timebase = s.timebase := rfl
@[simp] theorem tellTimebase_link (s : State) : (tellTimebase s).link = s.link := rfl
@[simp] theorem tellTimebase_pending (s : State) : (tellTimebase s).pending = s.pending := rfl

/-! postAlert -/

@[simp] theorem postAlert_slots (c : Alerts → Alerts) (s : State) : (postAlert c s).slots = s.slots := rfl
@[simp] theorem postAlert_buffers (c : Alerts → Alerts) (s : State) : (postAlert c s).buffers = s.buffers := rfl
@[simp] theorem postAlert_anchor (c : Alerts → Alerts) (s : State) : (postAlert c s).anchor = s.anchor := rfl
@[simp] theorem postAlert_gaps (c : Alerts → Alerts) (s : State) : (postAlert c s).gaps = s.gaps := rfl
@[simp] theorem postAlert_ingest (c : Alerts → Alerts) (s : State) : (postAlert c s).ingest = s.ingest := rfl
@[simp] theorem postAlert_classifier (c : Alerts → Alerts) (s : State) : (postAlert c s).classifier = s.classifier := rfl
@[simp] theorem postAlert_strategy (c : Alerts → Alerts) (s : State) : (postAlert c s).strategy = s.strategy := rfl
@[simp] theorem postAlert_sched (c : Alerts → Alerts) (s : State) : (postAlert c s).sched = s.sched := rfl
@[simp] theorem postAlert_repair (c : Alerts → Alerts) (s : State) : (postAlert c s).repair = s.repair := rfl
@[simp] theorem postAlert_feed (c : Alerts → Alerts) (s : State) : (postAlert c s).feed = s.feed := rfl
@[simp] theorem postAlert_recorderOut (c : Alerts → Alerts) (s : State) : (postAlert c s).recorderOut = s.recorderOut := rfl
@[simp] theorem postAlert_verify (c : Alerts → Alerts) (s : State) : (postAlert c s).verify = s.verify := rfl
@[simp] theorem postAlert_spare (c : Alerts → Alerts) (s : State) : (postAlert c s).spare = s.spare := rfl
@[simp] theorem postAlert_title (c : Alerts → Alerts) (s : State) : (postAlert c s).title = s.title := rfl
@[simp] theorem postAlert_settings (c : Alerts → Alerts) (s : State) : (postAlert c s).settings = s.settings := rfl
@[simp] theorem postAlert_timebase (c : Alerts → Alerts) (s : State) : (postAlert c s).timebase = s.timebase := rfl
@[simp] theorem postAlert_link (c : Alerts → Alerts) (s : State) : (postAlert c s).link = s.link := rfl
@[simp] theorem postAlert_pending (c : Alerts → Alerts) (s : State) : (postAlert c s).pending = s.pending := rfl

/-! freeSlot -/

@[simp] theorem freeSlot_buffers (i : Fin 32) (s : State) : (freeSlot i s).buffers = s.buffers := rfl
@[simp] theorem freeSlot_anchor (i : Fin 32) (s : State) : (freeSlot i s).anchor = s.anchor := rfl
@[simp] theorem freeSlot_gaps (i : Fin 32) (s : State) : (freeSlot i s).gaps = s.gaps := rfl
@[simp] theorem freeSlot_ingest (i : Fin 32) (s : State) : (freeSlot i s).ingest = s.ingest := rfl
@[simp] theorem freeSlot_classifier (i : Fin 32) (s : State) : (freeSlot i s).classifier = s.classifier := rfl
@[simp] theorem freeSlot_strategy (i : Fin 32) (s : State) : (freeSlot i s).strategy = s.strategy := rfl
@[simp] theorem freeSlot_sched (i : Fin 32) (s : State) : (freeSlot i s).sched = s.sched := rfl
@[simp] theorem freeSlot_repair (i : Fin 32) (s : State) : (freeSlot i s).repair = s.repair := rfl
@[simp] theorem freeSlot_feed (i : Fin 32) (s : State) : (freeSlot i s).feed = s.feed := rfl
@[simp] theorem freeSlot_recorderOut (i : Fin 32) (s : State) : (freeSlot i s).recorderOut = s.recorderOut := rfl
@[simp] theorem freeSlot_verify (i : Fin 32) (s : State) : (freeSlot i s).verify = s.verify := rfl
@[simp] theorem freeSlot_spare (i : Fin 32) (s : State) : (freeSlot i s).spare = s.spare := rfl
@[simp] theorem freeSlot_title (i : Fin 32) (s : State) : (freeSlot i s).title = s.title := rfl
@[simp] theorem freeSlot_settings (i : Fin 32) (s : State) : (freeSlot i s).settings = s.settings := rfl
@[simp] theorem freeSlot_timebase (i : Fin 32) (s : State) : (freeSlot i s).timebase = s.timebase := rfl
@[simp] theorem freeSlot_reports (i : Fin 32) (s : State) : (freeSlot i s).reports = s.reports := rfl
@[simp] theorem freeSlot_link (i : Fin 32) (s : State) : (freeSlot i s).link = s.link := rfl
@[simp] theorem freeSlot_pending (i : Fin 32) (s : State) : (freeSlot i s).pending = s.pending := rfl

/-! addRef -/

@[simp] theorem addRef_buffers (i : Fin 32) (s : State) : (addRef i s).buffers = s.buffers := rfl
@[simp] theorem addRef_anchor (i : Fin 32) (s : State) : (addRef i s).anchor = s.anchor := rfl
@[simp] theorem addRef_gaps (i : Fin 32) (s : State) : (addRef i s).gaps = s.gaps := rfl
@[simp] theorem addRef_ingest (i : Fin 32) (s : State) : (addRef i s).ingest = s.ingest := rfl
@[simp] theorem addRef_classifier (i : Fin 32) (s : State) : (addRef i s).classifier = s.classifier := rfl
@[simp] theorem addRef_strategy (i : Fin 32) (s : State) : (addRef i s).strategy = s.strategy := rfl
@[simp] theorem addRef_sched (i : Fin 32) (s : State) : (addRef i s).sched = s.sched := rfl
@[simp] theorem addRef_repair (i : Fin 32) (s : State) : (addRef i s).repair = s.repair := rfl
@[simp] theorem addRef_feed (i : Fin 32) (s : State) : (addRef i s).feed = s.feed := rfl
@[simp] theorem addRef_recorderOut (i : Fin 32) (s : State) : (addRef i s).recorderOut = s.recorderOut := rfl
@[simp] theorem addRef_verify (i : Fin 32) (s : State) : (addRef i s).verify = s.verify := rfl
@[simp] theorem addRef_spare (i : Fin 32) (s : State) : (addRef i s).spare = s.spare := rfl
@[simp] theorem addRef_title (i : Fin 32) (s : State) : (addRef i s).title = s.title := rfl
@[simp] theorem addRef_settings (i : Fin 32) (s : State) : (addRef i s).settings = s.settings := rfl
@[simp] theorem addRef_timebase (i : Fin 32) (s : State) : (addRef i s).timebase = s.timebase := rfl
@[simp] theorem addRef_reports (i : Fin 32) (s : State) : (addRef i s).reports = s.reports := rfl
@[simp] theorem addRef_link (i : Fin 32) (s : State) : (addRef i s).link = s.link := rfl
@[simp] theorem addRef_pending (i : Fin 32) (s : State) : (addRef i s).pending = s.pending := rfl

/-! ageSlots -/

@[simp] theorem ageSlots_buffers (s : State) : (ageSlots s).buffers = s.buffers := rfl
@[simp] theorem ageSlots_anchor (s : State) : (ageSlots s).anchor = s.anchor := rfl
@[simp] theorem ageSlots_gaps (s : State) : (ageSlots s).gaps = s.gaps := rfl
@[simp] theorem ageSlots_ingest (s : State) : (ageSlots s).ingest = s.ingest := rfl
@[simp] theorem ageSlots_classifier (s : State) : (ageSlots s).classifier = s.classifier := rfl
@[simp] theorem ageSlots_strategy (s : State) : (ageSlots s).strategy = s.strategy := rfl
@[simp] theorem ageSlots_sched (s : State) : (ageSlots s).sched = s.sched := rfl
@[simp] theorem ageSlots_repair (s : State) : (ageSlots s).repair = s.repair := rfl
@[simp] theorem ageSlots_feed (s : State) : (ageSlots s).feed = s.feed := rfl
@[simp] theorem ageSlots_recorderOut (s : State) : (ageSlots s).recorderOut = s.recorderOut := rfl
@[simp] theorem ageSlots_verify (s : State) : (ageSlots s).verify = s.verify := rfl
@[simp] theorem ageSlots_spare (s : State) : (ageSlots s).spare = s.spare := rfl
@[simp] theorem ageSlots_title (s : State) : (ageSlots s).title = s.title := rfl
@[simp] theorem ageSlots_settings (s : State) : (ageSlots s).settings = s.settings := rfl
@[simp] theorem ageSlots_timebase (s : State) : (ageSlots s).timebase = s.timebase := rfl
@[simp] theorem ageSlots_reports (s : State) : (ageSlots s).reports = s.reports := rfl
@[simp] theorem ageSlots_link (s : State) : (ageSlots s).link = s.link := rfl
@[simp] theorem ageSlots_pending (s : State) : (ageSlots s).pending = s.pending := rfl

/-! stopStreaming -/

@[simp] theorem stopStreaming_buffers (i : Fin 32) (s : State) : (stopStreaming i s).buffers = s.buffers := rfl
@[simp] theorem stopStreaming_anchor (i : Fin 32) (s : State) : (stopStreaming i s).anchor = s.anchor := rfl
@[simp] theorem stopStreaming_gaps (i : Fin 32) (s : State) : (stopStreaming i s).gaps = s.gaps := rfl
@[simp] theorem stopStreaming_ingest (i : Fin 32) (s : State) : (stopStreaming i s).ingest = s.ingest := rfl
@[simp] theorem stopStreaming_classifier (i : Fin 32) (s : State) : (stopStreaming i s).classifier = s.classifier := rfl
@[simp] theorem stopStreaming_strategy (i : Fin 32) (s : State) : (stopStreaming i s).strategy = s.strategy := rfl
@[simp] theorem stopStreaming_sched (i : Fin 32) (s : State) : (stopStreaming i s).sched = s.sched := rfl
@[simp] theorem stopStreaming_repair (i : Fin 32) (s : State) : (stopStreaming i s).repair = s.repair := rfl
@[simp] theorem stopStreaming_feed (i : Fin 32) (s : State) : (stopStreaming i s).feed = s.feed := rfl
@[simp] theorem stopStreaming_recorderOut (i : Fin 32) (s : State) : (stopStreaming i s).recorderOut = s.recorderOut := rfl
@[simp] theorem stopStreaming_verify (i : Fin 32) (s : State) : (stopStreaming i s).verify = s.verify := rfl
@[simp] theorem stopStreaming_spare (i : Fin 32) (s : State) : (stopStreaming i s).spare = s.spare := rfl
@[simp] theorem stopStreaming_title (i : Fin 32) (s : State) : (stopStreaming i s).title = s.title := rfl
@[simp] theorem stopStreaming_settings (i : Fin 32) (s : State) : (stopStreaming i s).settings = s.settings := rfl
@[simp] theorem stopStreaming_timebase (i : Fin 32) (s : State) : (stopStreaming i s).timebase = s.timebase := rfl
@[simp] theorem stopStreaming_reports (i : Fin 32) (s : State) : (stopStreaming i s).reports = s.reports := rfl
@[simp] theorem stopStreaming_link (i : Fin 32) (s : State) : (stopStreaming i s).link = s.link := rfl
@[simp] theorem stopStreaming_pending (i : Fin 32) (s : State) : (stopStreaming i s).pending = s.pending := rfl

/-! setJobs -/

@[simp] theorem setJobs_slots (jobs : List Job) (s : State) : (setJobs jobs s).slots = s.slots := rfl
@[simp] theorem setJobs_buffers (jobs : List Job) (s : State) : (setJobs jobs s).buffers = s.buffers := rfl
@[simp] theorem setJobs_anchor (jobs : List Job) (s : State) : (setJobs jobs s).anchor = s.anchor := rfl
@[simp] theorem setJobs_gaps (jobs : List Job) (s : State) : (setJobs jobs s).gaps = s.gaps := rfl
@[simp] theorem setJobs_ingest (jobs : List Job) (s : State) : (setJobs jobs s).ingest = s.ingest := rfl
@[simp] theorem setJobs_classifier (jobs : List Job) (s : State) : (setJobs jobs s).classifier = s.classifier := rfl
@[simp] theorem setJobs_strategy (jobs : List Job) (s : State) : (setJobs jobs s).strategy = s.strategy := rfl
@[simp] theorem setJobs_repair (jobs : List Job) (s : State) : (setJobs jobs s).repair = s.repair := rfl
@[simp] theorem setJobs_feed (jobs : List Job) (s : State) : (setJobs jobs s).feed = s.feed := rfl
@[simp] theorem setJobs_recorderOut (jobs : List Job) (s : State) : (setJobs jobs s).recorderOut = s.recorderOut := rfl
@[simp] theorem setJobs_verify (jobs : List Job) (s : State) : (setJobs jobs s).verify = s.verify := rfl
@[simp] theorem setJobs_spare (jobs : List Job) (s : State) : (setJobs jobs s).spare = s.spare := rfl
@[simp] theorem setJobs_title (jobs : List Job) (s : State) : (setJobs jobs s).title = s.title := rfl
@[simp] theorem setJobs_settings (jobs : List Job) (s : State) : (setJobs jobs s).settings = s.settings := rfl
@[simp] theorem setJobs_timebase (jobs : List Job) (s : State) : (setJobs jobs s).timebase = s.timebase := rfl
@[simp] theorem setJobs_reports (jobs : List Job) (s : State) : (setJobs jobs s).reports = s.reports := rfl
@[simp] theorem setJobs_link (jobs : List Job) (s : State) : (setJobs jobs s).link = s.link := rfl
@[simp] theorem setJobs_pending (jobs : List Job) (s : State) : (setJobs jobs s).pending = s.pending := rfl

/-! setFrame -/

@[simp] theorem setFrame_slots (a : Option Assembly) (s : State) : (setFrame a s).slots = s.slots := rfl
@[simp] theorem setFrame_buffers (a : Option Assembly) (s : State) : (setFrame a s).buffers = s.buffers := rfl
@[simp] theorem setFrame_anchor (a : Option Assembly) (s : State) : (setFrame a s).anchor = s.anchor := rfl
@[simp] theorem setFrame_gaps (a : Option Assembly) (s : State) : (setFrame a s).gaps = s.gaps := rfl
@[simp] theorem setFrame_classifier (a : Option Assembly) (s : State) : (setFrame a s).classifier = s.classifier := rfl
@[simp] theorem setFrame_strategy (a : Option Assembly) (s : State) : (setFrame a s).strategy = s.strategy := rfl
@[simp] theorem setFrame_sched (a : Option Assembly) (s : State) : (setFrame a s).sched = s.sched := rfl
@[simp] theorem setFrame_repair (a : Option Assembly) (s : State) : (setFrame a s).repair = s.repair := rfl
@[simp] theorem setFrame_feed (a : Option Assembly) (s : State) : (setFrame a s).feed = s.feed := rfl
@[simp] theorem setFrame_recorderOut (a : Option Assembly) (s : State) : (setFrame a s).recorderOut = s.recorderOut := rfl
@[simp] theorem setFrame_verify (a : Option Assembly) (s : State) : (setFrame a s).verify = s.verify := rfl
@[simp] theorem setFrame_spare (a : Option Assembly) (s : State) : (setFrame a s).spare = s.spare := rfl
@[simp] theorem setFrame_title (a : Option Assembly) (s : State) : (setFrame a s).title = s.title := rfl
@[simp] theorem setFrame_settings (a : Option Assembly) (s : State) : (setFrame a s).settings = s.settings := rfl
@[simp] theorem setFrame_timebase (a : Option Assembly) (s : State) : (setFrame a s).timebase = s.timebase := rfl
@[simp] theorem setFrame_reports (a : Option Assembly) (s : State) : (setFrame a s).reports = s.reports := rfl
@[simp] theorem setFrame_link (a : Option Assembly) (s : State) : (setFrame a s).link = s.link := rfl
@[simp] theorem setFrame_pending (a : Option Assembly) (s : State) : (setFrame a s).pending = s.pending := rfl

/-! tallyFeed -/

@[simp] theorem tallyFeed_slots (c : FeedTallies → FeedTallies) (s : State) : (tallyFeed c s).slots = s.slots := rfl
@[simp] theorem tallyFeed_buffers (c : FeedTallies → FeedTallies) (s : State) : (tallyFeed c s).buffers = s.buffers := rfl
@[simp] theorem tallyFeed_anchor (c : FeedTallies → FeedTallies) (s : State) : (tallyFeed c s).anchor = s.anchor := rfl
@[simp] theorem tallyFeed_gaps (c : FeedTallies → FeedTallies) (s : State) : (tallyFeed c s).gaps = s.gaps := rfl
@[simp] theorem tallyFeed_ingest (c : FeedTallies → FeedTallies) (s : State) : (tallyFeed c s).ingest = s.ingest := rfl
@[simp] theorem tallyFeed_classifier (c : FeedTallies → FeedTallies) (s : State) : (tallyFeed c s).classifier = s.classifier := rfl
@[simp] theorem tallyFeed_strategy (c : FeedTallies → FeedTallies) (s : State) : (tallyFeed c s).strategy = s.strategy := rfl
@[simp] theorem tallyFeed_sched (c : FeedTallies → FeedTallies) (s : State) : (tallyFeed c s).sched = s.sched := rfl
@[simp] theorem tallyFeed_repair (c : FeedTallies → FeedTallies) (s : State) : (tallyFeed c s).repair = s.repair := rfl
@[simp] theorem tallyFeed_recorderOut (c : FeedTallies → FeedTallies) (s : State) : (tallyFeed c s).recorderOut = s.recorderOut := rfl
@[simp] theorem tallyFeed_verify (c : FeedTallies → FeedTallies) (s : State) : (tallyFeed c s).verify = s.verify := rfl
@[simp] theorem tallyFeed_spare (c : FeedTallies → FeedTallies) (s : State) : (tallyFeed c s).spare = s.spare := rfl
@[simp] theorem tallyFeed_title (c : FeedTallies → FeedTallies) (s : State) : (tallyFeed c s).title = s.title := rfl
@[simp] theorem tallyFeed_settings (c : FeedTallies → FeedTallies) (s : State) : (tallyFeed c s).settings = s.settings := rfl
@[simp] theorem tallyFeed_timebase (c : FeedTallies → FeedTallies) (s : State) : (tallyFeed c s).timebase = s.timebase := rfl
@[simp] theorem tallyFeed_reports (c : FeedTallies → FeedTallies) (s : State) : (tallyFeed c s).reports = s.reports := rfl
@[simp] theorem tallyFeed_link (c : FeedTallies → FeedTallies) (s : State) : (tallyFeed c s).link = s.link := rfl
@[simp] theorem tallyFeed_pending (c : FeedTallies → FeedTallies) (s : State) : (tallyFeed c s).pending = s.pending := rfl

/-! takeTag -/

@[simp] theorem takeTag_slots (s : State) : (takeTag s).slots = s.slots := rfl
@[simp] theorem takeTag_buffers (s : State) : (takeTag s).buffers = s.buffers := rfl
@[simp] theorem takeTag_anchor (s : State) : (takeTag s).anchor = s.anchor := rfl
@[simp] theorem takeTag_gaps (s : State) : (takeTag s).gaps = s.gaps := rfl
@[simp] theorem takeTag_ingest (s : State) : (takeTag s).ingest = s.ingest := rfl
@[simp] theorem takeTag_classifier (s : State) : (takeTag s).classifier = s.classifier := rfl
@[simp] theorem takeTag_strategy (s : State) : (takeTag s).strategy = s.strategy := rfl
@[simp] theorem takeTag_sched (s : State) : (takeTag s).sched = s.sched := rfl
@[simp] theorem takeTag_repair (s : State) : (takeTag s).repair = s.repair := rfl
@[simp] theorem takeTag_recorderOut (s : State) : (takeTag s).recorderOut = s.recorderOut := rfl
@[simp] theorem takeTag_verify (s : State) : (takeTag s).verify = s.verify := rfl
@[simp] theorem takeTag_spare (s : State) : (takeTag s).spare = s.spare := rfl
@[simp] theorem takeTag_title (s : State) : (takeTag s).title = s.title := rfl
@[simp] theorem takeTag_settings (s : State) : (takeTag s).settings = s.settings := rfl
@[simp] theorem takeTag_timebase (s : State) : (takeTag s).timebase = s.timebase := rfl
@[simp] theorem takeTag_reports (s : State) : (takeTag s).reports = s.reports := rfl
@[simp] theorem takeTag_link (s : State) : (takeTag s).link = s.link := rfl
@[simp] theorem takeTag_pending (s : State) : (takeTag s).pending = s.pending := rfl

/-! clearCue -/

@[simp] theorem clearCue_slots (s : State) : (clearCue s).slots = s.slots := rfl
@[simp] theorem clearCue_buffers (s : State) : (clearCue s).buffers = s.buffers := rfl
@[simp] theorem clearCue_anchor (s : State) : (clearCue s).anchor = s.anchor := rfl
@[simp] theorem clearCue_gaps (s : State) : (clearCue s).gaps = s.gaps := rfl
@[simp] theorem clearCue_ingest (s : State) : (clearCue s).ingest = s.ingest := rfl
@[simp] theorem clearCue_classifier (s : State) : (clearCue s).classifier = s.classifier := rfl
@[simp] theorem clearCue_strategy (s : State) : (clearCue s).strategy = s.strategy := rfl
@[simp] theorem clearCue_sched (s : State) : (clearCue s).sched = s.sched := rfl
@[simp] theorem clearCue_repair (s : State) : (clearCue s).repair = s.repair := rfl
@[simp] theorem clearCue_recorderOut (s : State) : (clearCue s).recorderOut = s.recorderOut := rfl
@[simp] theorem clearCue_verify (s : State) : (clearCue s).verify = s.verify := rfl
@[simp] theorem clearCue_spare (s : State) : (clearCue s).spare = s.spare := rfl
@[simp] theorem clearCue_title (s : State) : (clearCue s).title = s.title := rfl
@[simp] theorem clearCue_settings (s : State) : (clearCue s).settings = s.settings := rfl
@[simp] theorem clearCue_timebase (s : State) : (clearCue s).timebase = s.timebase := rfl
@[simp] theorem clearCue_reports (s : State) : (clearCue s).reports = s.reports := rfl
@[simp] theorem clearCue_link (s : State) : (clearCue s).link = s.link := rfl
@[simp] theorem clearCue_pending (s : State) : (clearCue s).pending = s.pending := rfl

/-! passH -/

@[simp] theorem passH_slots (h : Nat) (s : State) : (passH h s).slots = s.slots := rfl
@[simp] theorem passH_buffers (h : Nat) (s : State) : (passH h s).buffers = s.buffers := rfl
@[simp] theorem passH_anchor (h : Nat) (s : State) : (passH h s).anchor = s.anchor := rfl
@[simp] theorem passH_ingest (h : Nat) (s : State) : (passH h s).ingest = s.ingest := rfl
@[simp] theorem passH_classifier (h : Nat) (s : State) : (passH h s).classifier = s.classifier := rfl
@[simp] theorem passH_strategy (h : Nat) (s : State) : (passH h s).strategy = s.strategy := rfl
@[simp] theorem passH_sched (h : Nat) (s : State) : (passH h s).sched = s.sched := rfl
@[simp] theorem passH_repair (h : Nat) (s : State) : (passH h s).repair = s.repair := rfl
@[simp] theorem passH_recorderOut (h : Nat) (s : State) : (passH h s).recorderOut = s.recorderOut := rfl
@[simp] theorem passH_verify (h : Nat) (s : State) : (passH h s).verify = s.verify := rfl
@[simp] theorem passH_spare (h : Nat) (s : State) : (passH h s).spare = s.spare := rfl
@[simp] theorem passH_title (h : Nat) (s : State) : (passH h s).title = s.title := rfl
@[simp] theorem passH_settings (h : Nat) (s : State) : (passH h s).settings = s.settings := rfl
@[simp] theorem passH_timebase (h : Nat) (s : State) : (passH h s).timebase = s.timebase := rfl
@[simp] theorem passH_reports (h : Nat) (s : State) : (passH h s).reports = s.reports := rfl
@[simp] theorem passH_link (h : Nat) (s : State) : (passH h s).link = s.link := rfl
@[simp] theorem passH_pending (h : Nat) (s : State) : (passH h s).pending = s.pending := rfl

/-! beginStream -/

@[simp] theorem beginStream_slots (w : Flight) (c : BlockContent) (s : State) : (beginStream w c s).slots = s.slots := rfl
@[simp] theorem beginStream_buffers (w : Flight) (c : BlockContent) (s : State) : (beginStream w c s).buffers = s.buffers := rfl
@[simp] theorem beginStream_anchor (w : Flight) (c : BlockContent) (s : State) : (beginStream w c s).anchor = s.anchor := rfl
@[simp] theorem beginStream_gaps (w : Flight) (c : BlockContent) (s : State) : (beginStream w c s).gaps = s.gaps := rfl
@[simp] theorem beginStream_ingest (w : Flight) (c : BlockContent) (s : State) : (beginStream w c s).ingest = s.ingest := rfl
@[simp] theorem beginStream_classifier (w : Flight) (c : BlockContent) (s : State) : (beginStream w c s).classifier = s.classifier := rfl
@[simp] theorem beginStream_strategy (w : Flight) (c : BlockContent) (s : State) : (beginStream w c s).strategy = s.strategy := rfl
@[simp] theorem beginStream_sched (w : Flight) (c : BlockContent) (s : State) : (beginStream w c s).sched = s.sched := rfl
@[simp] theorem beginStream_repair (w : Flight) (c : BlockContent) (s : State) : (beginStream w c s).repair = s.repair := rfl
@[simp] theorem beginStream_verify (w : Flight) (c : BlockContent) (s : State) : (beginStream w c s).verify = s.verify := rfl
@[simp] theorem beginStream_spare (w : Flight) (c : BlockContent) (s : State) : (beginStream w c s).spare = s.spare := rfl
@[simp] theorem beginStream_title (w : Flight) (c : BlockContent) (s : State) : (beginStream w c s).title = s.title := rfl
@[simp] theorem beginStream_settings (w : Flight) (c : BlockContent) (s : State) : (beginStream w c s).settings = s.settings := rfl
@[simp] theorem beginStream_timebase (w : Flight) (c : BlockContent) (s : State) : (beginStream w c s).timebase = s.timebase := rfl
@[simp] theorem beginStream_reports (w : Flight) (c : BlockContent) (s : State) : (beginStream w c s).reports = s.reports := rfl
@[simp] theorem beginStream_link (w : Flight) (c : BlockContent) (s : State) : (beginStream w c s).link = s.link := rfl
@[simp] theorem beginStream_pending (w : Flight) (c : BlockContent) (s : State) : (beginStream w c s).pending = s.pending := rfl

/-! addEntry -/

@[simp] theorem addEntry_slots (w : Flight) (s : State) : (addEntry w s).slots = s.slots := rfl
@[simp] theorem addEntry_buffers (w : Flight) (s : State) : (addEntry w s).buffers = s.buffers := rfl
@[simp] theorem addEntry_anchor (w : Flight) (s : State) : (addEntry w s).anchor = s.anchor := rfl
@[simp] theorem addEntry_gaps (w : Flight) (s : State) : (addEntry w s).gaps = s.gaps := rfl
@[simp] theorem addEntry_ingest (w : Flight) (s : State) : (addEntry w s).ingest = s.ingest := rfl
@[simp] theorem addEntry_classifier (w : Flight) (s : State) : (addEntry w s).classifier = s.classifier := rfl
@[simp] theorem addEntry_strategy (w : Flight) (s : State) : (addEntry w s).strategy = s.strategy := rfl
@[simp] theorem addEntry_sched (w : Flight) (s : State) : (addEntry w s).sched = s.sched := rfl
@[simp] theorem addEntry_repair (w : Flight) (s : State) : (addEntry w s).repair = s.repair := rfl
@[simp] theorem addEntry_feed (w : Flight) (s : State) : (addEntry w s).feed = s.feed := rfl
@[simp] theorem addEntry_recorderOut (w : Flight) (s : State) : (addEntry w s).recorderOut = s.recorderOut := rfl
@[simp] theorem addEntry_spare (w : Flight) (s : State) : (addEntry w s).spare = s.spare := rfl
@[simp] theorem addEntry_title (w : Flight) (s : State) : (addEntry w s).title = s.title := rfl
@[simp] theorem addEntry_settings (w : Flight) (s : State) : (addEntry w s).settings = s.settings := rfl
@[simp] theorem addEntry_timebase (w : Flight) (s : State) : (addEntry w s).timebase = s.timebase := rfl
@[simp] theorem addEntry_reports (w : Flight) (s : State) : (addEntry w s).reports = s.reports := rfl
@[simp] theorem addEntry_link (w : Flight) (s : State) : (addEntry w s).link = s.link := rfl
@[simp] theorem addEntry_pending (w : Flight) (s : State) : (addEntry w s).pending = s.pending := rfl

/-! removeEntry -/

@[simp] theorem removeEntry_slots (t : Nat) (s : State) : (removeEntry t s).slots = s.slots := rfl
@[simp] theorem removeEntry_buffers (t : Nat) (s : State) : (removeEntry t s).buffers = s.buffers := rfl
@[simp] theorem removeEntry_anchor (t : Nat) (s : State) : (removeEntry t s).anchor = s.anchor := rfl
@[simp] theorem removeEntry_gaps (t : Nat) (s : State) : (removeEntry t s).gaps = s.gaps := rfl
@[simp] theorem removeEntry_ingest (t : Nat) (s : State) : (removeEntry t s).ingest = s.ingest := rfl
@[simp] theorem removeEntry_classifier (t : Nat) (s : State) : (removeEntry t s).classifier = s.classifier := rfl
@[simp] theorem removeEntry_strategy (t : Nat) (s : State) : (removeEntry t s).strategy = s.strategy := rfl
@[simp] theorem removeEntry_sched (t : Nat) (s : State) : (removeEntry t s).sched = s.sched := rfl
@[simp] theorem removeEntry_repair (t : Nat) (s : State) : (removeEntry t s).repair = s.repair := rfl
@[simp] theorem removeEntry_feed (t : Nat) (s : State) : (removeEntry t s).feed = s.feed := rfl
@[simp] theorem removeEntry_recorderOut (t : Nat) (s : State) : (removeEntry t s).recorderOut = s.recorderOut := rfl
@[simp] theorem removeEntry_spare (t : Nat) (s : State) : (removeEntry t s).spare = s.spare := rfl
@[simp] theorem removeEntry_title (t : Nat) (s : State) : (removeEntry t s).title = s.title := rfl
@[simp] theorem removeEntry_settings (t : Nat) (s : State) : (removeEntry t s).settings = s.settings := rfl
@[simp] theorem removeEntry_timebase (t : Nat) (s : State) : (removeEntry t s).timebase = s.timebase := rfl
@[simp] theorem removeEntry_reports (t : Nat) (s : State) : (removeEntry t s).reports = s.reports := rfl
@[simp] theorem removeEntry_link (t : Nat) (s : State) : (removeEntry t s).link = s.link := rfl
@[simp] theorem removeEntry_pending (t : Nat) (s : State) : (removeEntry t s).pending = s.pending := rfl

/-! ageEntries -/

@[simp] theorem ageEntries_slots (s : State) : (ageEntries s).slots = s.slots := rfl
@[simp] theorem ageEntries_buffers (s : State) : (ageEntries s).buffers = s.buffers := rfl
@[simp] theorem ageEntries_anchor (s : State) : (ageEntries s).anchor = s.anchor := rfl
@[simp] theorem ageEntries_gaps (s : State) : (ageEntries s).gaps = s.gaps := rfl
@[simp] theorem ageEntries_ingest (s : State) : (ageEntries s).ingest = s.ingest := rfl
@[simp] theorem ageEntries_classifier (s : State) : (ageEntries s).classifier = s.classifier := rfl
@[simp] theorem ageEntries_strategy (s : State) : (ageEntries s).strategy = s.strategy := rfl
@[simp] theorem ageEntries_sched (s : State) : (ageEntries s).sched = s.sched := rfl
@[simp] theorem ageEntries_repair (s : State) : (ageEntries s).repair = s.repair := rfl
@[simp] theorem ageEntries_feed (s : State) : (ageEntries s).feed = s.feed := rfl
@[simp] theorem ageEntries_recorderOut (s : State) : (ageEntries s).recorderOut = s.recorderOut := rfl
@[simp] theorem ageEntries_spare (s : State) : (ageEntries s).spare = s.spare := rfl
@[simp] theorem ageEntries_title (s : State) : (ageEntries s).title = s.title := rfl
@[simp] theorem ageEntries_settings (s : State) : (ageEntries s).settings = s.settings := rfl
@[simp] theorem ageEntries_timebase (s : State) : (ageEntries s).timebase = s.timebase := rfl
@[simp] theorem ageEntries_reports (s : State) : (ageEntries s).reports = s.reports := rfl
@[simp] theorem ageEntries_link (s : State) : (ageEntries s).link = s.link := rfl
@[simp] theorem ageEntries_pending (s : State) : (ageEntries s).pending = s.pending := rfl

/-! dropHead -/

@[simp] theorem dropHead_slots (s : State) : (dropHead s).slots = s.slots := rfl
@[simp] theorem dropHead_buffers (s : State) : (dropHead s).buffers = s.buffers := rfl
@[simp] theorem dropHead_anchor (s : State) : (dropHead s).anchor = s.anchor := rfl
@[simp] theorem dropHead_gaps (s : State) : (dropHead s).gaps = s.gaps := rfl
@[simp] theorem dropHead_ingest (s : State) : (dropHead s).ingest = s.ingest := rfl
@[simp] theorem dropHead_classifier (s : State) : (dropHead s).classifier = s.classifier := rfl
@[simp] theorem dropHead_strategy (s : State) : (dropHead s).strategy = s.strategy := rfl
@[simp] theorem dropHead_sched (s : State) : (dropHead s).sched = s.sched := rfl
@[simp] theorem dropHead_repair (s : State) : (dropHead s).repair = s.repair := rfl
@[simp] theorem dropHead_feed (s : State) : (dropHead s).feed = s.feed := rfl
@[simp] theorem dropHead_recorderOut (s : State) : (dropHead s).recorderOut = s.recorderOut := rfl
@[simp] theorem dropHead_spare (s : State) : (dropHead s).spare = s.spare := rfl
@[simp] theorem dropHead_title (s : State) : (dropHead s).title = s.title := rfl
@[simp] theorem dropHead_settings (s : State) : (dropHead s).settings = s.settings := rfl
@[simp] theorem dropHead_timebase (s : State) : (dropHead s).timebase = s.timebase := rfl
@[simp] theorem dropHead_reports (s : State) : (dropHead s).reports = s.reports := rfl
@[simp] theorem dropHead_link (s : State) : (dropHead s).link = s.link := rfl
@[simp] theorem dropHead_pending (s : State) : (dropHead s).pending = s.pending := rfl

/-! discardOutcome -/

@[simp] theorem discardOutcome_slots (s : State) : (discardOutcome s).slots = s.slots := rfl
@[simp] theorem discardOutcome_buffers (s : State) : (discardOutcome s).buffers = s.buffers := rfl
@[simp] theorem discardOutcome_anchor (s : State) : (discardOutcome s).anchor = s.anchor := rfl
@[simp] theorem discardOutcome_gaps (s : State) : (discardOutcome s).gaps = s.gaps := rfl
@[simp] theorem discardOutcome_ingest (s : State) : (discardOutcome s).ingest = s.ingest := rfl
@[simp] theorem discardOutcome_classifier (s : State) : (discardOutcome s).classifier = s.classifier := rfl
@[simp] theorem discardOutcome_strategy (s : State) : (discardOutcome s).strategy = s.strategy := rfl
@[simp] theorem discardOutcome_sched (s : State) : (discardOutcome s).sched = s.sched := rfl
@[simp] theorem discardOutcome_repair (s : State) : (discardOutcome s).repair = s.repair := rfl
@[simp] theorem discardOutcome_feed (s : State) : (discardOutcome s).feed = s.feed := rfl
@[simp] theorem discardOutcome_recorderOut (s : State) : (discardOutcome s).recorderOut = s.recorderOut := rfl
@[simp] theorem discardOutcome_spare (s : State) : (discardOutcome s).spare = s.spare := rfl
@[simp] theorem discardOutcome_title (s : State) : (discardOutcome s).title = s.title := rfl
@[simp] theorem discardOutcome_settings (s : State) : (discardOutcome s).settings = s.settings := rfl
@[simp] theorem discardOutcome_timebase (s : State) : (discardOutcome s).timebase = s.timebase := rfl
@[simp] theorem discardOutcome_reports (s : State) : (discardOutcome s).reports = s.reports := rfl
@[simp] theorem discardOutcome_link (s : State) : (discardOutcome s).link = s.link := rfl
@[simp] theorem discardOutcome_pending (s : State) : (discardOutcome s).pending = s.pending := rfl

/-! takeGrant -/

@[simp] theorem takeGrant_slots (s : State) : (takeGrant s).slots = s.slots := rfl
@[simp] theorem takeGrant_buffers (s : State) : (takeGrant s).buffers = s.buffers := rfl
@[simp] theorem takeGrant_anchor (s : State) : (takeGrant s).anchor = s.anchor := rfl
@[simp] theorem takeGrant_gaps (s : State) : (takeGrant s).gaps = s.gaps := rfl
@[simp] theorem takeGrant_ingest (s : State) : (takeGrant s).ingest = s.ingest := rfl
@[simp] theorem takeGrant_classifier (s : State) : (takeGrant s).classifier = s.classifier := rfl
@[simp] theorem takeGrant_strategy (s : State) : (takeGrant s).strategy = s.strategy := rfl
@[simp] theorem takeGrant_sched (s : State) : (takeGrant s).sched = s.sched := rfl
@[simp] theorem takeGrant_repair (s : State) : (takeGrant s).repair = s.repair := rfl
@[simp] theorem takeGrant_feed (s : State) : (takeGrant s).feed = s.feed := rfl
@[simp] theorem takeGrant_recorderOut (s : State) : (takeGrant s).recorderOut = s.recorderOut := rfl
@[simp] theorem takeGrant_verify (s : State) : (takeGrant s).verify = s.verify := rfl
@[simp] theorem takeGrant_title (s : State) : (takeGrant s).title = s.title := rfl
@[simp] theorem takeGrant_settings (s : State) : (takeGrant s).settings = s.settings := rfl
@[simp] theorem takeGrant_timebase (s : State) : (takeGrant s).timebase = s.timebase := rfl
@[simp] theorem takeGrant_reports (s : State) : (takeGrant s).reports = s.reports := rfl
@[simp] theorem takeGrant_link (s : State) : (takeGrant s).link = s.link := rfl
@[simp] theorem takeGrant_pending (s : State) : (takeGrant s).pending = s.pending := rfl

/-! countRefusal -/

@[simp] theorem countRefusal_slots (s : State) : (countRefusal s).slots = s.slots := rfl
@[simp] theorem countRefusal_buffers (s : State) : (countRefusal s).buffers = s.buffers := rfl
@[simp] theorem countRefusal_anchor (s : State) : (countRefusal s).anchor = s.anchor := rfl
@[simp] theorem countRefusal_gaps (s : State) : (countRefusal s).gaps = s.gaps := rfl
@[simp] theorem countRefusal_ingest (s : State) : (countRefusal s).ingest = s.ingest := rfl
@[simp] theorem countRefusal_classifier (s : State) : (countRefusal s).classifier = s.classifier := rfl
@[simp] theorem countRefusal_strategy (s : State) : (countRefusal s).strategy = s.strategy := rfl
@[simp] theorem countRefusal_sched (s : State) : (countRefusal s).sched = s.sched := rfl
@[simp] theorem countRefusal_repair (s : State) : (countRefusal s).repair = s.repair := rfl
@[simp] theorem countRefusal_feed (s : State) : (countRefusal s).feed = s.feed := rfl
@[simp] theorem countRefusal_recorderOut (s : State) : (countRefusal s).recorderOut = s.recorderOut := rfl
@[simp] theorem countRefusal_verify (s : State) : (countRefusal s).verify = s.verify := rfl
@[simp] theorem countRefusal_title (s : State) : (countRefusal s).title = s.title := rfl
@[simp] theorem countRefusal_settings (s : State) : (countRefusal s).settings = s.settings := rfl
@[simp] theorem countRefusal_timebase (s : State) : (countRefusal s).timebase = s.timebase := rfl
@[simp] theorem countRefusal_reports (s : State) : (countRefusal s).reports = s.reports := rfl
@[simp] theorem countRefusal_link (s : State) : (countRefusal s).link = s.link := rfl
@[simp] theorem countRefusal_pending (s : State) : (countRefusal s).pending = s.pending := rfl

/-! changePlan -/

@[simp] theorem changePlan_slots (m : IndexMark) (c : PlanBlock → PlanBlock) (s : State) : (changePlan m c s).slots = s.slots := rfl
@[simp] theorem changePlan_buffers (m : IndexMark) (c : PlanBlock → PlanBlock) (s : State) : (changePlan m c s).buffers = s.buffers := rfl
@[simp] theorem changePlan_anchor (m : IndexMark) (c : PlanBlock → PlanBlock) (s : State) : (changePlan m c s).anchor = s.anchor := rfl
@[simp] theorem changePlan_gaps (m : IndexMark) (c : PlanBlock → PlanBlock) (s : State) : (changePlan m c s).gaps = s.gaps := rfl
@[simp] theorem changePlan_ingest (m : IndexMark) (c : PlanBlock → PlanBlock) (s : State) : (changePlan m c s).ingest = s.ingest := rfl
@[simp] theorem changePlan_classifier (m : IndexMark) (c : PlanBlock → PlanBlock) (s : State) : (changePlan m c s).classifier = s.classifier := rfl
@[simp] theorem changePlan_strategy (m : IndexMark) (c : PlanBlock → PlanBlock) (s : State) : (changePlan m c s).strategy = s.strategy := rfl
@[simp] theorem changePlan_sched (m : IndexMark) (c : PlanBlock → PlanBlock) (s : State) : (changePlan m c s).sched = s.sched := rfl
@[simp] theorem changePlan_repair (m : IndexMark) (c : PlanBlock → PlanBlock) (s : State) : (changePlan m c s).repair = s.repair := rfl
@[simp] theorem changePlan_feed (m : IndexMark) (c : PlanBlock → PlanBlock) (s : State) : (changePlan m c s).feed = s.feed := rfl
@[simp] theorem changePlan_recorderOut (m : IndexMark) (c : PlanBlock → PlanBlock) (s : State) : (changePlan m c s).recorderOut = s.recorderOut := rfl
@[simp] theorem changePlan_verify (m : IndexMark) (c : PlanBlock → PlanBlock) (s : State) : (changePlan m c s).verify = s.verify := rfl
@[simp] theorem changePlan_title (m : IndexMark) (c : PlanBlock → PlanBlock) (s : State) : (changePlan m c s).title = s.title := rfl
@[simp] theorem changePlan_settings (m : IndexMark) (c : PlanBlock → PlanBlock) (s : State) : (changePlan m c s).settings = s.settings := rfl
@[simp] theorem changePlan_timebase (m : IndexMark) (c : PlanBlock → PlanBlock) (s : State) : (changePlan m c s).timebase = s.timebase := rfl
@[simp] theorem changePlan_reports (m : IndexMark) (c : PlanBlock → PlanBlock) (s : State) : (changePlan m c s).reports = s.reports := rfl
@[simp] theorem changePlan_link (m : IndexMark) (c : PlanBlock → PlanBlock) (s : State) : (changePlan m c s).link = s.link := rfl
@[simp] theorem changePlan_pending (m : IndexMark) (c : PlanBlock → PlanBlock) (s : State) : (changePlan m c s).pending = s.pending := rfl

/-! setLink -/

@[simp] theorem setLink_slots (c : Link → Link) (s : State) : (setLink c s).slots = s.slots := rfl
@[simp] theorem setLink_buffers (c : Link → Link) (s : State) : (setLink c s).buffers = s.buffers := rfl
@[simp] theorem setLink_anchor (c : Link → Link) (s : State) : (setLink c s).anchor = s.anchor := rfl
@[simp] theorem setLink_gaps (c : Link → Link) (s : State) : (setLink c s).gaps = s.gaps := rfl
@[simp] theorem setLink_ingest (c : Link → Link) (s : State) : (setLink c s).ingest = s.ingest := rfl
@[simp] theorem setLink_classifier (c : Link → Link) (s : State) : (setLink c s).classifier = s.classifier := rfl
@[simp] theorem setLink_strategy (c : Link → Link) (s : State) : (setLink c s).strategy = s.strategy := rfl
@[simp] theorem setLink_sched (c : Link → Link) (s : State) : (setLink c s).sched = s.sched := rfl
@[simp] theorem setLink_repair (c : Link → Link) (s : State) : (setLink c s).repair = s.repair := rfl
@[simp] theorem setLink_feed (c : Link → Link) (s : State) : (setLink c s).feed = s.feed := rfl
@[simp] theorem setLink_recorderOut (c : Link → Link) (s : State) : (setLink c s).recorderOut = s.recorderOut := rfl
@[simp] theorem setLink_verify (c : Link → Link) (s : State) : (setLink c s).verify = s.verify := rfl
@[simp] theorem setLink_spare (c : Link → Link) (s : State) : (setLink c s).spare = s.spare := rfl
@[simp] theorem setLink_title (c : Link → Link) (s : State) : (setLink c s).title = s.title := rfl
@[simp] theorem setLink_settings (c : Link → Link) (s : State) : (setLink c s).settings = s.settings := rfl
@[simp] theorem setLink_timebase (c : Link → Link) (s : State) : (setLink c s).timebase = s.timebase := rfl
@[simp] theorem setLink_reports (c : Link → Link) (s : State) : (setLink c s).reports = s.reports := rfl
@[simp] theorem setLink_pending (c : Link → Link) (s : State) : (setLink c s).pending = s.pending := rfl

/-! beginNotice -/

@[simp] theorem beginNotice_slots (n : Notice) (s : State) : (beginNotice n s).slots = s.slots := rfl
@[simp] theorem beginNotice_buffers (n : Notice) (s : State) : (beginNotice n s).buffers = s.buffers := rfl
@[simp] theorem beginNotice_anchor (n : Notice) (s : State) : (beginNotice n s).anchor = s.anchor := rfl
@[simp] theorem beginNotice_gaps (n : Notice) (s : State) : (beginNotice n s).gaps = s.gaps := rfl
@[simp] theorem beginNotice_ingest (n : Notice) (s : State) : (beginNotice n s).ingest = s.ingest := rfl
@[simp] theorem beginNotice_classifier (n : Notice) (s : State) : (beginNotice n s).classifier = s.classifier := rfl
@[simp] theorem beginNotice_strategy (n : Notice) (s : State) : (beginNotice n s).strategy = s.strategy := rfl
@[simp] theorem beginNotice_sched (n : Notice) (s : State) : (beginNotice n s).sched = s.sched := rfl
@[simp] theorem beginNotice_repair (n : Notice) (s : State) : (beginNotice n s).repair = s.repair := rfl
@[simp] theorem beginNotice_feed (n : Notice) (s : State) : (beginNotice n s).feed = s.feed := rfl
@[simp] theorem beginNotice_recorderOut (n : Notice) (s : State) : (beginNotice n s).recorderOut = s.recorderOut := rfl
@[simp] theorem beginNotice_verify (n : Notice) (s : State) : (beginNotice n s).verify = s.verify := rfl
@[simp] theorem beginNotice_spare (n : Notice) (s : State) : (beginNotice n s).spare = s.spare := rfl
@[simp] theorem beginNotice_title (n : Notice) (s : State) : (beginNotice n s).title = s.title := rfl
@[simp] theorem beginNotice_settings (n : Notice) (s : State) : (beginNotice n s).settings = s.settings := rfl
@[simp] theorem beginNotice_timebase (n : Notice) (s : State) : (beginNotice n s).timebase = s.timebase := rfl
@[simp] theorem beginNotice_pending (n : Notice) (s : State) : (beginNotice n s).pending = s.pending := rfl

/-! discardField -/

@[simp] theorem discardField_slots (s : State) : (discardField s).slots = s.slots := rfl
@[simp] theorem discardField_buffers (s : State) : (discardField s).buffers = s.buffers := rfl
@[simp] theorem discardField_anchor (s : State) : (discardField s).anchor = s.anchor := rfl
@[simp] theorem discardField_gaps (s : State) : (discardField s).gaps = s.gaps := rfl
@[simp] theorem discardField_classifier (s : State) : (discardField s).classifier = s.classifier := rfl
@[simp] theorem discardField_strategy (s : State) : (discardField s).strategy = s.strategy := rfl
@[simp] theorem discardField_sched (s : State) : (discardField s).sched = s.sched := rfl
@[simp] theorem discardField_repair (s : State) : (discardField s).repair = s.repair := rfl
@[simp] theorem discardField_feed (s : State) : (discardField s).feed = s.feed := rfl
@[simp] theorem discardField_recorderOut (s : State) : (discardField s).recorderOut = s.recorderOut := rfl
@[simp] theorem discardField_verify (s : State) : (discardField s).verify = s.verify := rfl
@[simp] theorem discardField_spare (s : State) : (discardField s).spare = s.spare := rfl
@[simp] theorem discardField_title (s : State) : (discardField s).title = s.title := rfl
@[simp] theorem discardField_settings (s : State) : (discardField s).settings = s.settings := rfl
@[simp] theorem discardField_timebase (s : State) : (discardField s).timebase = s.timebase := rfl
@[simp] theorem discardField_reports (s : State) : (discardField s).reports = s.reports := rfl
@[simp] theorem discardField_link (s : State) : (discardField s).link = s.link := rfl
@[simp] theorem discardField_pending (s : State) : (discardField s).pending = s.pending := rfl

/-! ignoreBand -/

@[simp] theorem ignoreBand_slots (s : State) : (ignoreBand s).slots = s.slots := rfl
@[simp] theorem ignoreBand_buffers (s : State) : (ignoreBand s).buffers = s.buffers := rfl
@[simp] theorem ignoreBand_anchor (s : State) : (ignoreBand s).anchor = s.anchor := rfl
@[simp] theorem ignoreBand_gaps (s : State) : (ignoreBand s).gaps = s.gaps := rfl
@[simp] theorem ignoreBand_classifier (s : State) : (ignoreBand s).classifier = s.classifier := rfl
@[simp] theorem ignoreBand_strategy (s : State) : (ignoreBand s).strategy = s.strategy := rfl
@[simp] theorem ignoreBand_sched (s : State) : (ignoreBand s).sched = s.sched := rfl
@[simp] theorem ignoreBand_repair (s : State) : (ignoreBand s).repair = s.repair := rfl
@[simp] theorem ignoreBand_feed (s : State) : (ignoreBand s).feed = s.feed := rfl
@[simp] theorem ignoreBand_recorderOut (s : State) : (ignoreBand s).recorderOut = s.recorderOut := rfl
@[simp] theorem ignoreBand_verify (s : State) : (ignoreBand s).verify = s.verify := rfl
@[simp] theorem ignoreBand_spare (s : State) : (ignoreBand s).spare = s.spare := rfl
@[simp] theorem ignoreBand_title (s : State) : (ignoreBand s).title = s.title := rfl
@[simp] theorem ignoreBand_settings (s : State) : (ignoreBand s).settings = s.settings := rfl
@[simp] theorem ignoreBand_timebase (s : State) : (ignoreBand s).timebase = s.timebase := rfl
@[simp] theorem ignoreBand_reports (s : State) : (ignoreBand s).reports = s.reports := rfl
@[simp] theorem ignoreBand_link (s : State) : (ignoreBand s).link = s.link := rfl
@[simp] theorem ignoreBand_pending (s : State) : (ignoreBand s).pending = s.pending := rfl

/-! ignorePulse -/

@[simp] theorem ignorePulse_slots (s : State) : (ignorePulse s).slots = s.slots := rfl
@[simp] theorem ignorePulse_buffers (s : State) : (ignorePulse s).buffers = s.buffers := rfl
@[simp] theorem ignorePulse_anchor (s : State) : (ignorePulse s).anchor = s.anchor := rfl
@[simp] theorem ignorePulse_gaps (s : State) : (ignorePulse s).gaps = s.gaps := rfl
@[simp] theorem ignorePulse_ingest (s : State) : (ignorePulse s).ingest = s.ingest := rfl
@[simp] theorem ignorePulse_classifier (s : State) : (ignorePulse s).classifier = s.classifier := rfl
@[simp] theorem ignorePulse_strategy (s : State) : (ignorePulse s).strategy = s.strategy := rfl
@[simp] theorem ignorePulse_sched (s : State) : (ignorePulse s).sched = s.sched := rfl
@[simp] theorem ignorePulse_repair (s : State) : (ignorePulse s).repair = s.repair := rfl
@[simp] theorem ignorePulse_feed (s : State) : (ignorePulse s).feed = s.feed := rfl
@[simp] theorem ignorePulse_recorderOut (s : State) : (ignorePulse s).recorderOut = s.recorderOut := rfl
@[simp] theorem ignorePulse_verify (s : State) : (ignorePulse s).verify = s.verify := rfl
@[simp] theorem ignorePulse_spare (s : State) : (ignorePulse s).spare = s.spare := rfl
@[simp] theorem ignorePulse_title (s : State) : (ignorePulse s).title = s.title := rfl
@[simp] theorem ignorePulse_settings (s : State) : (ignorePulse s).settings = s.settings := rfl
@[simp] theorem ignorePulse_reports (s : State) : (ignorePulse s).reports = s.reports := rfl
@[simp] theorem ignorePulse_link (s : State) : (ignorePulse s).link = s.link := rfl
@[simp] theorem ignorePulse_pending (s : State) : (ignorePulse s).pending = s.pending := rfl

/-! markBoundary -/

@[simp] theorem markBoundary_slots (m : TimebaseMode) (t : Nat) (s : State) : (markBoundary m t s).slots = s.slots := rfl
@[simp] theorem markBoundary_buffers (m : TimebaseMode) (t : Nat) (s : State) : (markBoundary m t s).buffers = s.buffers := rfl
@[simp] theorem markBoundary_anchor (m : TimebaseMode) (t : Nat) (s : State) : (markBoundary m t s).anchor = s.anchor := rfl
@[simp] theorem markBoundary_gaps (m : TimebaseMode) (t : Nat) (s : State) : (markBoundary m t s).gaps = s.gaps := rfl
@[simp] theorem markBoundary_ingest (m : TimebaseMode) (t : Nat) (s : State) : (markBoundary m t s).ingest = s.ingest := rfl
@[simp] theorem markBoundary_classifier (m : TimebaseMode) (t : Nat) (s : State) : (markBoundary m t s).classifier = s.classifier := rfl
@[simp] theorem markBoundary_strategy (m : TimebaseMode) (t : Nat) (s : State) : (markBoundary m t s).strategy = s.strategy := rfl
@[simp] theorem markBoundary_sched (m : TimebaseMode) (t : Nat) (s : State) : (markBoundary m t s).sched = s.sched := rfl
@[simp] theorem markBoundary_repair (m : TimebaseMode) (t : Nat) (s : State) : (markBoundary m t s).repair = s.repair := rfl
@[simp] theorem markBoundary_feed (m : TimebaseMode) (t : Nat) (s : State) : (markBoundary m t s).feed = s.feed := rfl
@[simp] theorem markBoundary_recorderOut (m : TimebaseMode) (t : Nat) (s : State) : (markBoundary m t s).recorderOut = s.recorderOut := rfl
@[simp] theorem markBoundary_verify (m : TimebaseMode) (t : Nat) (s : State) : (markBoundary m t s).verify = s.verify := rfl
@[simp] theorem markBoundary_spare (m : TimebaseMode) (t : Nat) (s : State) : (markBoundary m t s).spare = s.spare := rfl
@[simp] theorem markBoundary_title (m : TimebaseMode) (t : Nat) (s : State) : (markBoundary m t s).title = s.title := rfl
@[simp] theorem markBoundary_settings (m : TimebaseMode) (t : Nat) (s : State) : (markBoundary m t s).settings = s.settings := rfl
@[simp] theorem markBoundary_link (m : TimebaseMode) (t : Nat) (s : State) : (markBoundary m t s).link = s.link := rfl
@[simp] theorem markBoundary_pending (m : TimebaseMode) (t : Nat) (s : State) : (markBoundary m t s).pending = s.pending := rfl

/-! enterClosing -/

@[simp] theorem enterClosing_slots (s : State) : (enterClosing s).slots = s.slots := rfl
@[simp] theorem enterClosing_buffers (s : State) : (enterClosing s).buffers = s.buffers := rfl
@[simp] theorem enterClosing_anchor (s : State) : (enterClosing s).anchor = s.anchor := rfl
@[simp] theorem enterClosing_gaps (s : State) : (enterClosing s).gaps = s.gaps := rfl
@[simp] theorem enterClosing_ingest (s : State) : (enterClosing s).ingest = s.ingest := rfl
@[simp] theorem enterClosing_classifier (s : State) : (enterClosing s).classifier = s.classifier := rfl
@[simp] theorem enterClosing_strategy (s : State) : (enterClosing s).strategy = s.strategy := rfl
@[simp] theorem enterClosing_sched (s : State) : (enterClosing s).sched = s.sched := rfl
@[simp] theorem enterClosing_repair (s : State) : (enterClosing s).repair = s.repair := rfl
@[simp] theorem enterClosing_recorderOut (s : State) : (enterClosing s).recorderOut = s.recorderOut := rfl
@[simp] theorem enterClosing_verify (s : State) : (enterClosing s).verify = s.verify := rfl
@[simp] theorem enterClosing_settings (s : State) : (enterClosing s).settings = s.settings := rfl
@[simp] theorem enterClosing_timebase (s : State) : (enterClosing s).timebase = s.timebase := rfl
@[simp] theorem enterClosing_reports (s : State) : (enterClosing s).reports = s.reports := rfl
@[simp] theorem enterClosing_link (s : State) : (enterClosing s).link = s.link := rfl
@[simp] theorem enterClosing_pending (s : State) : (enterClosing s).pending = s.pending := rfl

/-! clearDeclarations -/

@[simp] theorem clearDeclarations_slots (s : State) : (clearDeclarations s).slots = s.slots := rfl
@[simp] theorem clearDeclarations_buffers (s : State) : (clearDeclarations s).buffers = s.buffers := rfl
@[simp] theorem clearDeclarations_anchor (s : State) : (clearDeclarations s).anchor = s.anchor := rfl
@[simp] theorem clearDeclarations_gaps (s : State) : (clearDeclarations s).gaps = s.gaps := rfl
@[simp] theorem clearDeclarations_ingest (s : State) : (clearDeclarations s).ingest = s.ingest := rfl
@[simp] theorem clearDeclarations_classifier (s : State) : (clearDeclarations s).classifier = s.classifier := rfl
@[simp] theorem clearDeclarations_strategy (s : State) : (clearDeclarations s).strategy = s.strategy := rfl
@[simp] theorem clearDeclarations_sched (s : State) : (clearDeclarations s).sched = s.sched := rfl
@[simp] theorem clearDeclarations_repair (s : State) : (clearDeclarations s).repair = s.repair := rfl
@[simp] theorem clearDeclarations_feed (s : State) : (clearDeclarations s).feed = s.feed := rfl
@[simp] theorem clearDeclarations_recorderOut (s : State) : (clearDeclarations s).recorderOut = s.recorderOut := rfl
@[simp] theorem clearDeclarations_verify (s : State) : (clearDeclarations s).verify = s.verify := rfl
@[simp] theorem clearDeclarations_settings (s : State) : (clearDeclarations s).settings = s.settings := rfl
@[simp] theorem clearDeclarations_timebase (s : State) : (clearDeclarations s).timebase = s.timebase := rfl
@[simp] theorem clearDeclarations_reports (s : State) : (clearDeclarations s).reports = s.reports := rfl
@[simp] theorem clearDeclarations_link (s : State) : (clearDeclarations s).link = s.link := rfl
@[simp] theorem clearDeclarations_pending (s : State) : (clearDeclarations s).pending = s.pending := rfl

/-! windowAbort -/

@[simp] theorem windowAbort_buffers (s : State) : (windowAbort s).buffers = s.buffers := rfl
@[simp] theorem windowAbort_ingest (s : State) : (windowAbort s).ingest = s.ingest := rfl
@[simp] theorem windowAbort_classifier (s : State) : (windowAbort s).classifier = s.classifier := rfl
@[simp] theorem windowAbort_strategy (s : State) : (windowAbort s).strategy = s.strategy := rfl
@[simp] theorem windowAbort_sched (s : State) : (windowAbort s).sched = s.sched := rfl
@[simp] theorem windowAbort_repair (s : State) : (windowAbort s).repair = s.repair := rfl
@[simp] theorem windowAbort_feed (s : State) : (windowAbort s).feed = s.feed := rfl
@[simp] theorem windowAbort_recorderOut (s : State) : (windowAbort s).recorderOut = s.recorderOut := rfl
@[simp] theorem windowAbort_verify (s : State) : (windowAbort s).verify = s.verify := rfl
@[simp] theorem windowAbort_spare (s : State) : (windowAbort s).spare = s.spare := rfl
@[simp] theorem windowAbort_title (s : State) : (windowAbort s).title = s.title := rfl
@[simp] theorem windowAbort_settings (s : State) : (windowAbort s).settings = s.settings := rfl
@[simp] theorem windowAbort_timebase (s : State) : (windowAbort s).timebase = s.timebase := rfl
@[simp] theorem windowAbort_reports (s : State) : (windowAbort s).reports = s.reports := rfl
@[simp] theorem windowAbort_link (s : State) : (windowAbort s).link = s.link := rfl
@[simp] theorem windowAbort_pending (s : State) : (windowAbort s).pending = s.pending := rfl

/-! takeConfig -/

@[simp] theorem takeConfig_slots (c : ConfigRecord) (s : State) : (takeConfig c s).slots = s.slots := rfl
@[simp] theorem takeConfig_buffers (c : ConfigRecord) (s : State) : (takeConfig c s).buffers = s.buffers := rfl
@[simp] theorem takeConfig_anchor (c : ConfigRecord) (s : State) : (takeConfig c s).anchor = s.anchor := rfl
@[simp] theorem takeConfig_gaps (c : ConfigRecord) (s : State) : (takeConfig c s).gaps = s.gaps := rfl
@[simp] theorem takeConfig_ingest (c : ConfigRecord) (s : State) : (takeConfig c s).ingest = s.ingest := rfl
@[simp] theorem takeConfig_classifier (c : ConfigRecord) (s : State) : (takeConfig c s).classifier = s.classifier := rfl
@[simp] theorem takeConfig_strategy (c : ConfigRecord) (s : State) : (takeConfig c s).strategy = s.strategy := rfl
@[simp] theorem takeConfig_repair (c : ConfigRecord) (s : State) : (takeConfig c s).repair = s.repair := rfl
@[simp] theorem takeConfig_feed (c : ConfigRecord) (s : State) : (takeConfig c s).feed = s.feed := rfl
@[simp] theorem takeConfig_recorderOut (c : ConfigRecord) (s : State) : (takeConfig c s).recorderOut = s.recorderOut := rfl
@[simp] theorem takeConfig_verify (c : ConfigRecord) (s : State) : (takeConfig c s).verify = s.verify := rfl
@[simp] theorem takeConfig_spare (c : ConfigRecord) (s : State) : (takeConfig c s).spare = s.spare := rfl
@[simp] theorem takeConfig_title (c : ConfigRecord) (s : State) : (takeConfig c s).title = s.title := rfl
@[simp] theorem takeConfig_timebase (c : ConfigRecord) (s : State) : (takeConfig c s).timebase = s.timebase := rfl
@[simp] theorem takeConfig_reports (c : ConfigRecord) (s : State) : (takeConfig c s).reports = s.reports := rfl
@[simp] theorem takeConfig_link (c : ConfigRecord) (s : State) : (takeConfig c s).link = s.link := rfl
@[simp] theorem takeConfig_pending (c : ConfigRecord) (s : State) : (takeConfig c s).pending = s.pending := rfl

/-! takeRule -/

@[simp] theorem takeRule_slots (k : Fin 16) (r : Option Rule) (s : State) : (takeRule k r s).slots = s.slots := rfl
@[simp] theorem takeRule_buffers (k : Fin 16) (r : Option Rule) (s : State) : (takeRule k r s).buffers = s.buffers := rfl
@[simp] theorem takeRule_anchor (k : Fin 16) (r : Option Rule) (s : State) : (takeRule k r s).anchor = s.anchor := rfl
@[simp] theorem takeRule_gaps (k : Fin 16) (r : Option Rule) (s : State) : (takeRule k r s).gaps = s.gaps := rfl
@[simp] theorem takeRule_ingest (k : Fin 16) (r : Option Rule) (s : State) : (takeRule k r s).ingest = s.ingest := rfl
@[simp] theorem takeRule_strategy (k : Fin 16) (r : Option Rule) (s : State) : (takeRule k r s).strategy = s.strategy := rfl
@[simp] theorem takeRule_sched (k : Fin 16) (r : Option Rule) (s : State) : (takeRule k r s).sched = s.sched := rfl
@[simp] theorem takeRule_repair (k : Fin 16) (r : Option Rule) (s : State) : (takeRule k r s).repair = s.repair := rfl
@[simp] theorem takeRule_feed (k : Fin 16) (r : Option Rule) (s : State) : (takeRule k r s).feed = s.feed := rfl
@[simp] theorem takeRule_recorderOut (k : Fin 16) (r : Option Rule) (s : State) : (takeRule k r s).recorderOut = s.recorderOut := rfl
@[simp] theorem takeRule_verify (k : Fin 16) (r : Option Rule) (s : State) : (takeRule k r s).verify = s.verify := rfl
@[simp] theorem takeRule_spare (k : Fin 16) (r : Option Rule) (s : State) : (takeRule k r s).spare = s.spare := rfl
@[simp] theorem takeRule_title (k : Fin 16) (r : Option Rule) (s : State) : (takeRule k r s).title = s.title := rfl
@[simp] theorem takeRule_settings (k : Fin 16) (r : Option Rule) (s : State) : (takeRule k r s).settings = s.settings := rfl
@[simp] theorem takeRule_timebase (k : Fin 16) (r : Option Rule) (s : State) : (takeRule k r s).timebase = s.timebase := rfl
@[simp] theorem takeRule_reports (k : Fin 16) (r : Option Rule) (s : State) : (takeRule k r s).reports = s.reports := rfl
@[simp] theorem takeRule_link (k : Fin 16) (r : Option Rule) (s : State) : (takeRule k r s).link = s.link := rfl
@[simp] theorem takeRule_pending (k : Fin 16) (r : Option Rule) (s : State) : (takeRule k r s).pending = s.pending := rfl

/-! takeEntry -/

@[simp] theorem takeEntry_slots (k : Fin 32) (e : StrategyEntry) (s : State) : (takeEntry k e s).slots = s.slots := rfl
@[simp] theorem takeEntry_buffers (k : Fin 32) (e : StrategyEntry) (s : State) : (takeEntry k e s).buffers = s.buffers := rfl
@[simp] theorem takeEntry_anchor (k : Fin 32) (e : StrategyEntry) (s : State) : (takeEntry k e s).anchor = s.anchor := rfl
@[simp] theorem takeEntry_gaps (k : Fin 32) (e : StrategyEntry) (s : State) : (takeEntry k e s).gaps = s.gaps := rfl
@[simp] theorem takeEntry_ingest (k : Fin 32) (e : StrategyEntry) (s : State) : (takeEntry k e s).ingest = s.ingest := rfl
@[simp] theorem takeEntry_classifier (k : Fin 32) (e : StrategyEntry) (s : State) : (takeEntry k e s).classifier = s.classifier := rfl
@[simp] theorem takeEntry_sched (k : Fin 32) (e : StrategyEntry) (s : State) : (takeEntry k e s).sched = s.sched := rfl
@[simp] theorem takeEntry_repair (k : Fin 32) (e : StrategyEntry) (s : State) : (takeEntry k e s).repair = s.repair := rfl
@[simp] theorem takeEntry_feed (k : Fin 32) (e : StrategyEntry) (s : State) : (takeEntry k e s).feed = s.feed := rfl
@[simp] theorem takeEntry_recorderOut (k : Fin 32) (e : StrategyEntry) (s : State) : (takeEntry k e s).recorderOut = s.recorderOut := rfl
@[simp] theorem takeEntry_verify (k : Fin 32) (e : StrategyEntry) (s : State) : (takeEntry k e s).verify = s.verify := rfl
@[simp] theorem takeEntry_spare (k : Fin 32) (e : StrategyEntry) (s : State) : (takeEntry k e s).spare = s.spare := rfl
@[simp] theorem takeEntry_title (k : Fin 32) (e : StrategyEntry) (s : State) : (takeEntry k e s).title = s.title := rfl
@[simp] theorem takeEntry_settings (k : Fin 32) (e : StrategyEntry) (s : State) : (takeEntry k e s).settings = s.settings := rfl
@[simp] theorem takeEntry_timebase (k : Fin 32) (e : StrategyEntry) (s : State) : (takeEntry k e s).timebase = s.timebase := rfl
@[simp] theorem takeEntry_reports (k : Fin 32) (e : StrategyEntry) (s : State) : (takeEntry k e s).reports = s.reports := rfl
@[simp] theorem takeEntry_link (k : Fin 32) (e : StrategyEntry) (s : State) : (takeEntry k e s).link = s.link := rfl
@[simp] theorem takeEntry_pending (k : Fin 32) (e : StrategyEntry) (s : State) : (takeEntry k e s).pending = s.pending := rfl

/-! takeAdjustment -/

@[simp] theorem takeAdjustment_slots (a : Adjustment) (s : State) : (takeAdjustment a s).slots = s.slots := rfl
@[simp] theorem takeAdjustment_buffers (a : Adjustment) (s : State) : (takeAdjustment a s).buffers = s.buffers := rfl
@[simp] theorem takeAdjustment_anchor (a : Adjustment) (s : State) : (takeAdjustment a s).anchor = s.anchor := rfl
@[simp] theorem takeAdjustment_gaps (a : Adjustment) (s : State) : (takeAdjustment a s).gaps = s.gaps := rfl
@[simp] theorem takeAdjustment_ingest (a : Adjustment) (s : State) : (takeAdjustment a s).ingest = s.ingest := rfl
@[simp] theorem takeAdjustment_classifier (a : Adjustment) (s : State) : (takeAdjustment a s).classifier = s.classifier := rfl
@[simp] theorem takeAdjustment_strategy (a : Adjustment) (s : State) : (takeAdjustment a s).strategy = s.strategy := rfl
@[simp] theorem takeAdjustment_repair (a : Adjustment) (s : State) : (takeAdjustment a s).repair = s.repair := rfl
@[simp] theorem takeAdjustment_feed (a : Adjustment) (s : State) : (takeAdjustment a s).feed = s.feed := rfl
@[simp] theorem takeAdjustment_recorderOut (a : Adjustment) (s : State) : (takeAdjustment a s).recorderOut = s.recorderOut := rfl
@[simp] theorem takeAdjustment_verify (a : Adjustment) (s : State) : (takeAdjustment a s).verify = s.verify := rfl
@[simp] theorem takeAdjustment_spare (a : Adjustment) (s : State) : (takeAdjustment a s).spare = s.spare := rfl
@[simp] theorem takeAdjustment_title (a : Adjustment) (s : State) : (takeAdjustment a s).title = s.title := rfl
@[simp] theorem takeAdjustment_settings (a : Adjustment) (s : State) : (takeAdjustment a s).settings = s.settings := rfl
@[simp] theorem takeAdjustment_timebase (a : Adjustment) (s : State) : (takeAdjustment a s).timebase = s.timebase := rfl
@[simp] theorem takeAdjustment_reports (a : Adjustment) (s : State) : (takeAdjustment a s).reports = s.reports := rfl
@[simp] theorem takeAdjustment_link (a : Adjustment) (s : State) : (takeAdjustment a s).link = s.link := rfl
@[simp] theorem takeAdjustment_pending (a : Adjustment) (s : State) : (takeAdjustment a s).pending = s.pending := rfl

/-! takeRegion -/

@[simp] theorem takeRegion_slots (lo hi : Nat) (s : State) : (takeRegion lo hi s).slots = s.slots := rfl
@[simp] theorem takeRegion_buffers (lo hi : Nat) (s : State) : (takeRegion lo hi s).buffers = s.buffers := rfl
@[simp] theorem takeRegion_anchor (lo hi : Nat) (s : State) : (takeRegion lo hi s).anchor = s.anchor := rfl
@[simp] theorem takeRegion_gaps (lo hi : Nat) (s : State) : (takeRegion lo hi s).gaps = s.gaps := rfl
@[simp] theorem takeRegion_ingest (lo hi : Nat) (s : State) : (takeRegion lo hi s).ingest = s.ingest := rfl
@[simp] theorem takeRegion_classifier (lo hi : Nat) (s : State) : (takeRegion lo hi s).classifier = s.classifier := rfl
@[simp] theorem takeRegion_strategy (lo hi : Nat) (s : State) : (takeRegion lo hi s).strategy = s.strategy := rfl
@[simp] theorem takeRegion_sched (lo hi : Nat) (s : State) : (takeRegion lo hi s).sched = s.sched := rfl
@[simp] theorem takeRegion_repair (lo hi : Nat) (s : State) : (takeRegion lo hi s).repair = s.repair := rfl
@[simp] theorem takeRegion_feed (lo hi : Nat) (s : State) : (takeRegion lo hi s).feed = s.feed := rfl
@[simp] theorem takeRegion_recorderOut (lo hi : Nat) (s : State) : (takeRegion lo hi s).recorderOut = s.recorderOut := rfl
@[simp] theorem takeRegion_verify (lo hi : Nat) (s : State) : (takeRegion lo hi s).verify = s.verify := rfl
@[simp] theorem takeRegion_title (lo hi : Nat) (s : State) : (takeRegion lo hi s).title = s.title := rfl
@[simp] theorem takeRegion_settings (lo hi : Nat) (s : State) : (takeRegion lo hi s).settings = s.settings := rfl
@[simp] theorem takeRegion_timebase (lo hi : Nat) (s : State) : (takeRegion lo hi s).timebase = s.timebase := rfl
@[simp] theorem takeRegion_reports (lo hi : Nat) (s : State) : (takeRegion lo hi s).reports = s.reports := rfl
@[simp] theorem takeRegion_link (lo hi : Nat) (s : State) : (takeRegion lo hi s).link = s.link := rfl
@[simp] theorem takeRegion_pending (lo hi : Nat) (s : State) : (takeRegion lo hi s).pending = s.pending := rfl

/-! takeDeclaration -/

@[simp] theorem takeDeclaration_slots (d : TitleDeclaration) (s : State) : (takeDeclaration d s).slots = s.slots := rfl
@[simp] theorem takeDeclaration_buffers (d : TitleDeclaration) (s : State) : (takeDeclaration d s).buffers = s.buffers := rfl
@[simp] theorem takeDeclaration_anchor (d : TitleDeclaration) (s : State) : (takeDeclaration d s).anchor = s.anchor := rfl
@[simp] theorem takeDeclaration_gaps (d : TitleDeclaration) (s : State) : (takeDeclaration d s).gaps = s.gaps := rfl
@[simp] theorem takeDeclaration_ingest (d : TitleDeclaration) (s : State) : (takeDeclaration d s).ingest = s.ingest := rfl
@[simp] theorem takeDeclaration_classifier (d : TitleDeclaration) (s : State) : (takeDeclaration d s).classifier = s.classifier := rfl
@[simp] theorem takeDeclaration_strategy (d : TitleDeclaration) (s : State) : (takeDeclaration d s).strategy = s.strategy := rfl
@[simp] theorem takeDeclaration_sched (d : TitleDeclaration) (s : State) : (takeDeclaration d s).sched = s.sched := rfl
@[simp] theorem takeDeclaration_repair (d : TitleDeclaration) (s : State) : (takeDeclaration d s).repair = s.repair := rfl
@[simp] theorem takeDeclaration_feed (d : TitleDeclaration) (s : State) : (takeDeclaration d s).feed = s.feed := rfl
@[simp] theorem takeDeclaration_recorderOut (d : TitleDeclaration) (s : State) : (takeDeclaration d s).recorderOut = s.recorderOut := rfl
@[simp] theorem takeDeclaration_verify (d : TitleDeclaration) (s : State) : (takeDeclaration d s).verify = s.verify := rfl
@[simp] theorem takeDeclaration_settings (d : TitleDeclaration) (s : State) : (takeDeclaration d s).settings = s.settings := rfl
@[simp] theorem takeDeclaration_timebase (d : TitleDeclaration) (s : State) : (takeDeclaration d s).timebase = s.timebase := rfl
@[simp] theorem takeDeclaration_reports (d : TitleDeclaration) (s : State) : (takeDeclaration d s).reports = s.reports := rfl
@[simp] theorem takeDeclaration_link (d : TitleDeclaration) (s : State) : (takeDeclaration d s).link = s.link := rfl
@[simp] theorem takeDeclaration_pending (d : TitleDeclaration) (s : State) : (takeDeclaration d s).pending = s.pending := rfl

/-! takeCue -/

@[simp] theorem takeCue_slots (m : Byte) (s : State) : (takeCue m s).slots = s.slots := rfl
@[simp] theorem takeCue_buffers (m : Byte) (s : State) : (takeCue m s).buffers = s.buffers := rfl
@[simp] theorem takeCue_anchor (m : Byte) (s : State) : (takeCue m s).anchor = s.anchor := rfl
@[simp] theorem takeCue_gaps (m : Byte) (s : State) : (takeCue m s).gaps = s.gaps := rfl
@[simp] theorem takeCue_ingest (m : Byte) (s : State) : (takeCue m s).ingest = s.ingest := rfl
@[simp] theorem takeCue_classifier (m : Byte) (s : State) : (takeCue m s).classifier = s.classifier := rfl
@[simp] theorem takeCue_strategy (m : Byte) (s : State) : (takeCue m s).strategy = s.strategy := rfl
@[simp] theorem takeCue_sched (m : Byte) (s : State) : (takeCue m s).sched = s.sched := rfl
@[simp] theorem takeCue_repair (m : Byte) (s : State) : (takeCue m s).repair = s.repair := rfl
@[simp] theorem takeCue_recorderOut (m : Byte) (s : State) : (takeCue m s).recorderOut = s.recorderOut := rfl
@[simp] theorem takeCue_verify (m : Byte) (s : State) : (takeCue m s).verify = s.verify := rfl
@[simp] theorem takeCue_spare (m : Byte) (s : State) : (takeCue m s).spare = s.spare := rfl
@[simp] theorem takeCue_title (m : Byte) (s : State) : (takeCue m s).title = s.title := rfl
@[simp] theorem takeCue_settings (m : Byte) (s : State) : (takeCue m s).settings = s.settings := rfl
@[simp] theorem takeCue_timebase (m : Byte) (s : State) : (takeCue m s).timebase = s.timebase := rfl
@[simp] theorem takeCue_reports (m : Byte) (s : State) : (takeCue m s).reports = s.reports := rfl
@[simp] theorem takeCue_link (m : Byte) (s : State) : (takeCue m s).link = s.link := rfl
@[simp] theorem takeCue_pending (m : Byte) (s : State) : (takeCue m s).pending = s.pending := rfl

/-! takeAck -/

@[simp] theorem takeAck_slots (n : Alerts) (s : State) : (takeAck n s).slots = s.slots := rfl
@[simp] theorem takeAck_buffers (n : Alerts) (s : State) : (takeAck n s).buffers = s.buffers := rfl
@[simp] theorem takeAck_anchor (n : Alerts) (s : State) : (takeAck n s).anchor = s.anchor := rfl
@[simp] theorem takeAck_gaps (n : Alerts) (s : State) : (takeAck n s).gaps = s.gaps := rfl
@[simp] theorem takeAck_ingest (n : Alerts) (s : State) : (takeAck n s).ingest = s.ingest := rfl
@[simp] theorem takeAck_classifier (n : Alerts) (s : State) : (takeAck n s).classifier = s.classifier := rfl
@[simp] theorem takeAck_strategy (n : Alerts) (s : State) : (takeAck n s).strategy = s.strategy := rfl
@[simp] theorem takeAck_sched (n : Alerts) (s : State) : (takeAck n s).sched = s.sched := rfl
@[simp] theorem takeAck_repair (n : Alerts) (s : State) : (takeAck n s).repair = s.repair := rfl
@[simp] theorem takeAck_feed (n : Alerts) (s : State) : (takeAck n s).feed = s.feed := rfl
@[simp] theorem takeAck_recorderOut (n : Alerts) (s : State) : (takeAck n s).recorderOut = s.recorderOut := rfl
@[simp] theorem takeAck_verify (n : Alerts) (s : State) : (takeAck n s).verify = s.verify := rfl
@[simp] theorem takeAck_spare (n : Alerts) (s : State) : (takeAck n s).spare = s.spare := rfl
@[simp] theorem takeAck_title (n : Alerts) (s : State) : (takeAck n s).title = s.title := rfl
@[simp] theorem takeAck_settings (n : Alerts) (s : State) : (takeAck n s).settings = s.settings := rfl
@[simp] theorem takeAck_timebase (n : Alerts) (s : State) : (takeAck n s).timebase = s.timebase := rfl
@[simp] theorem takeAck_link (n : Alerts) (s : State) : (takeAck n s).link = s.link := rfl
@[simp] theorem takeAck_pending (n : Alerts) (s : State) : (takeAck n s).pending = s.pending := rfl

/-! abortVerify -/

@[simp] theorem abortVerify_slots (s : State) : (abortVerify s).slots = s.slots := rfl
@[simp] theorem abortVerify_buffers (s : State) : (abortVerify s).buffers = s.buffers := rfl
@[simp] theorem abortVerify_anchor (s : State) : (abortVerify s).anchor = s.anchor := rfl
@[simp] theorem abortVerify_gaps (s : State) : (abortVerify s).gaps = s.gaps := rfl
@[simp] theorem abortVerify_ingest (s : State) : (abortVerify s).ingest = s.ingest := rfl
@[simp] theorem abortVerify_classifier (s : State) : (abortVerify s).classifier = s.classifier := rfl
@[simp] theorem abortVerify_strategy (s : State) : (abortVerify s).strategy = s.strategy := rfl
@[simp] theorem abortVerify_sched (s : State) : (abortVerify s).sched = s.sched := rfl
@[simp] theorem abortVerify_repair (s : State) : (abortVerify s).repair = s.repair := rfl
@[simp] theorem abortVerify_feed (s : State) : (abortVerify s).feed = s.feed := rfl
@[simp] theorem abortVerify_recorderOut (s : State) : (abortVerify s).recorderOut = s.recorderOut := rfl
@[simp] theorem abortVerify_title (s : State) : (abortVerify s).title = s.title := rfl
@[simp] theorem abortVerify_settings (s : State) : (abortVerify s).settings = s.settings := rfl
@[simp] theorem abortVerify_timebase (s : State) : (abortVerify s).timebase = s.timebase := rfl
@[simp] theorem abortVerify_reports (s : State) : (abortVerify s).reports = s.reports := rfl
@[simp] theorem abortVerify_link (s : State) : (abortVerify s).link = s.link := rfl
@[simp] theorem abortVerify_pending (s : State) : (abortVerify s).pending = s.pending := rfl

/-! enterIdle -/

@[simp] theorem enterIdle_slots (s : State) : (enterIdle s).slots = s.slots := rfl
@[simp] theorem enterIdle_buffers (s : State) : (enterIdle s).buffers = s.buffers := rfl
@[simp] theorem enterIdle_anchor (s : State) : (enterIdle s).anchor = s.anchor := rfl
@[simp] theorem enterIdle_gaps (s : State) : (enterIdle s).gaps = s.gaps := rfl
@[simp] theorem enterIdle_ingest (s : State) : (enterIdle s).ingest = s.ingest := rfl
@[simp] theorem enterIdle_classifier (s : State) : (enterIdle s).classifier = s.classifier := rfl
@[simp] theorem enterIdle_strategy (s : State) : (enterIdle s).strategy = s.strategy := rfl
@[simp] theorem enterIdle_sched (s : State) : (enterIdle s).sched = s.sched := rfl
@[simp] theorem enterIdle_repair (s : State) : (enterIdle s).repair = s.repair := rfl
@[simp] theorem enterIdle_feed (s : State) : (enterIdle s).feed = s.feed := rfl
@[simp] theorem enterIdle_recorderOut (s : State) : (enterIdle s).recorderOut = s.recorderOut := rfl
@[simp] theorem enterIdle_verify (s : State) : (enterIdle s).verify = s.verify := rfl
@[simp] theorem enterIdle_spare (s : State) : (enterIdle s).spare = s.spare := rfl
@[simp] theorem enterIdle_settings (s : State) : (enterIdle s).settings = s.settings := rfl
@[simp] theorem enterIdle_timebase (s : State) : (enterIdle s).timebase = s.timebase := rfl
@[simp] theorem enterIdle_reports (s : State) : (enterIdle s).reports = s.reports := rfl
@[simp] theorem enterIdle_link (s : State) : (enterIdle s).link = s.link := rfl
@[simp] theorem enterIdle_pending (s : State) : (enterIdle s).pending = s.pending := rfl

/-! What the plainest updates write. -/

@[simp] theorem setSlot_slots_self (s : State) (i : Fin 32) (r : SlotRecord) : (s.setSlot i r).slots[i] = r := by
  simp [State.setSlot]

@[simp] theorem setJobs_jobs (jobs : List Job) (s : State) : (setJobs jobs s).sched.jobs = jobs := rfl

@[simp] theorem setFrame_frame (a : Option Assembly) (s : State) : (setFrame a s).ingest.frame = a := rfl

@[simp] theorem setLink_link (c : Link → Link) (s : State) : (setLink c s).link = c s.link := rfl

@[simp] theorem tellConditions_truths (s : State) : (tellConditions s).reports.truths = conditionsNow s := rfl

@[simp] theorem takeCue_pendingCue (m : Byte) (s : State) : (takeCue m s).feed.pendingCue = some m := rfl

theorem setSlot_slots_other (s : State) (i j : Fin 32) (r : SlotRecord) (h : i ≠ j) :
    (s.setSlot i r).slots[j] = s.slots[j] := by
  have hv : i.val ≠ j.val := fun e => h (Fin.ext e)
  simp [State.setSlot, hv]

/-- A slot record replaced, read at any index. -/
theorem setSlot_slots (s : State) (i j : Fin 32) (r : SlotRecord) :
    (s.setSlot i r).slots[j] = if i = j then r else s.slots[j] := by
  by_cases h : i = j
  · subst h
    rw [if_pos rfl]
    exact setSlot_slots_self s i r
  · rw [if_neg h]
    exact setSlot_slots_other s i j r h

/-- Telling conditions that are told already changes nothing. -/
theorem tellConditions_of_told (s : State) (h : conditionsTold s) : tellConditions s = s := by
  unfold tellConditions
  rw [← h]

/-- With no drain or close left to take, settling is telling the conditions (R171, R172, R194). -/
theorem settle_of_settled (s : State) (h : titleSettled s) : settle s = tellConditions s := by
  have hd : checkDrain s = s := by
    unfold checkDrain
    exact if_neg (fun c => by simp [h.1 c.1] at c)
  have hc : checkClose s = s := by
    unfold checkClose
    exact if_neg (fun c => by simp [h.2 c.1] at c)
  unfold settle
  rw [hd, hc]

/-- With nothing left to take or to tell, settling changes nothing. -/
theorem settle_of_told (s : State) (h : titleSettled s) (ht : conditionsTold s) : settle s = s := by
  rw [settle_of_settled s h, tellConditions_of_told s ht]

end Sys2Proof.Machine
end

