-- ==== Sys2Proof/Laws/Ops.lean ====
section
/-! SUPPORT. What each shared operation does, said once: the look-ups over slots, the band records, the numbers in bytes, the clamp,
and the operations that do nothing when there is nothing to do. -/

namespace Sys2Proof.Machine

/-! ### Slots -/

/-- A search over the slots in ascending order finds the lowest that meets the test. -/
theorem allSlots_find_some {test : Fin 32 → Bool} {i : Fin 32} (h : test i = true) (hl : ∀ j < i, test j = false) :
    allSlots.find? test = some i := by
  unfold allSlots
  rw [List.find?_eq_some_iff_append]
  refine ⟨h, (List.finRange 32).take i, (List.finRange 32).drop (i + 1), ?_, ?_⟩
  · conv_lhs => rw [← List.take_append_drop i.val (List.finRange 32)]
    congr 1
    rw [List.drop_eq_getElem_cons (by simp)]
    simp
  · intro a ha
    rw [List.mem_take_iff_getElem] at ha
    obtain ⟨k, hk, rfl⟩ := ha
    simp only [List.length_finRange, lt_inf_iff] at hk
    rw [hl _ (by rw [Fin.lt_def]; simpa using hk.1)]
    rfl

theorem allSlots_find_none {test : Fin 32 → Bool} (h : ∀ j, test j = false) : allSlots.find? test = none := by
  rw [List.find?_eq_none]
  intro x _
  simp [h x]

/-- The lowest-numbered FREE slot (R7). -/
theorem lowestFree_eq_some {s : State} {i : Fin 32} (h : s.slots[i].state = .free)
    (hl : ∀ j : Fin 32, j < i → s.slots[j].state ≠ .free) : lowestFree s = some i :=
  allSlots_find_some (by rw [h]; rfl) (fun j hj => by simpa using hl j hj)

theorem lowestFree_eq_none {s : State} (h : ∀ j : Fin 32, s.slots[j].state ≠ .free) : lowestFree s = none :=
  allSlots_find_none (fun j => by simpa using h j)

/-- A frame held by one slot alone is found there (R3). -/
theorem slotOf_eq_some {s : State} {n : Nat} {i : Fin 32} (hn : s.slots[i].frame = some n) (hf : s.slots[i].state ≠ .free)
    (hu : ∀ j : Fin 32, s.slots[j].frame = some n → s.slots[j].state ≠ .free → j = i) : slotOf s n = some i := by
  unfold slotOf
  refine allSlots_find_some ?_ ?_
  · rw [hn]
    simpa using hf
  · intro j hj
    by_contra hc
    simp only [Bool.not_eq_false, Bool.and_eq_true, bne_iff_ne, beq_iff_eq] at hc
    exact absurd (hu j hc.2 hc.1) (Fin.ne_of_lt hj)

/-- A frame that no slot names is found nowhere (R3). -/
theorem slotOf_eq_none {s : State} {n : Nat} (h : ∀ j : Fin 32, s.slots[j].frame ≠ some n) : slotOf s n = none := by
  unfold slotOf
  refine allSlots_find_none (fun j => ?_)
  rw [Bool.and_eq_false_iff]
  right
  simpa using h j

/-! ### Bands -/

theorem setBand_band (r : SlotRecord) (f : Field) (b : Fin 18) (x : BandRecord) : (r.setBand f b x).band f b = some x := by
  cases f <;> simp [SlotRecord.setBand, SlotRecord.band, PerField.put, PerField.get]

theorem setBand_band_other (r : SlotRecord) (f g : Field) (b c : Fin 18) (x : BandRecord) (h : ¬(g = f ∧ c = b)) :
    (r.setBand f b x).band g c = r.band g c := by
  have hv : g = f → ¬(b.val = c.val) := fun e k => h ⟨e, (Fin.ext k).symm⟩
  cases f <;> cases g <;> simp [SlotRecord.setBand, SlotRecord.band, PerField.put, PerField.get, hv]

/-- Setting a band record changes the band records alone. -/
theorem setBand_rest (r : SlotRecord) (f : Field) (b : Fin 18) (x : BandRecord) :
    { r.setBand f b x with bands := r.bands } = r := rfl

/-! ### Numbers -/

theorem clamp_bounds {lo hi : Nat} (h : lo ≤ hi) (v : Nat) : lo ≤ clamp lo hi v ∧ clamp lo hi v ≤ hi := by
  unfold clamp
  split
  · omega
  · split <;> omega

theorem clamp_of_mem {lo hi v : Nat} (h : lo ≤ v ∧ v ≤ hi) : clamp lo hi v = v := by
  unfold clamp
  rw [if_neg (by omega), if_neg (by omega)]

theorem beBytes_length (k n : Nat) : (beBytes k n).length = k := by
  induction k with
  | zero => rfl
  | succ k ih => simp [beBytes, ih]

theorem fromBytes_append (bs : List Byte) (b : Byte) : fromBytes (bs ++ [b]) = fromBytes bs * 256 + b.toNat := by
  simp [fromBytes]

theorem beBytes_succ (k n : Nat) : beBytes (k + 1) n = beBytes k (n / 256) ++ [byteOf n] := by
  induction k with
  | zero => simp [beBytes]
  | succ k ih =>
    rw [beBytes, ih, beBytes, List.cons_append]
    congr 2
    rw [Nat.div_div_eq_div_mul, pow_succ, Nat.mul_comm 256]

/-- Bytes written high byte first spell the number back (R199). -/
theorem fromBytes_beBytes (k n : Nat) (h : n < 256 ^ k) : fromBytes (beBytes k n) = n := by
  induction k generalizing n with
  | zero =>
    have : n = 0 := by simpa using h
    subst this
    rfl
  | succ k ih =>
    rw [beBytes_succ, fromBytes_append, ih (n / 256) (by rw [Nat.div_lt_iff_lt_mul (by decide)]; rw [pow_succ] at h; omega)]
    simp only [BitVec.toNat_ofNat]
    omega

/-! ### Nothing to do -/

/-- With no job and no operation a decision point only discharges a decision owed (R87, R88). -/
theorem decisionPoint_idle (s : State) (h : repairIdle s) : decisionPoint s = decided s := by
  obtain ⟨h1, h2⟩ := h
  have ho : ∀ t, oldestEligible s t = none := by
    intro t
    unfold oldestEligible tierQueue
    rw [h1]
    rfl
  have hg : grantCandidate s = none := by
    unfold grantCandidate
    cases (tierOrder s.sched.bottom).find? (tierQualifies s) with
    | none => rfl
    | some t => exact ho t
  have hs : serviceStack s = [] := by
    unfold serviceStack
    rw [h1]
    rfl
  have ha : arbitrate s = decided s := by
    unfold arbitrate
    rw [hg, hs]
    rfl
  have hj : activeJob (decided s) = none := by
    unfold activeJob decided
    simp [h1]
  unfold decisionPoint
  rw [h2]
  simp only [decideNow, actLength, h1, List.length_nil, Nat.zero_mul, Nat.zero_add, serveJobs, ha, hj]

/-- With no entry pending a WRITE SLOT ages and times out nothing (R146). -/
theorem ageAndTimeOut_empty (s : State) (h : s.verify.entries = []) : ageAndTimeOut s = s := by
  unfold ageAndTimeOut
  rw [h]
  unfold timeOutAll ageEntries
  rw [h]
  simp only [List.map_nil, List.length_nil]
  rw [← h]

end Sys2Proof.Machine
end

