-- ==== Sys2Proof/Laws/Window.lean ====
section
/-! SUPPORT. What the window's and the Verify Tracker's shared operations can do, said once: references released, a frame retired and
reported, the ageing of a WRITE SLOT, and the relocation table's insertion. -/

namespace Sys2Proof.Machine

/-! ### References (R12, R23) -/

/-- A reference released on a slot changes the slots alone. -/
theorem dropRef_rest (s : State) (j : Fin 32) : ∃ v, dropRef j s = { s with slots := v } := by
  unfold dropRef freeIfDone freeSlot
  split <;> exact ⟨_, rfl⟩

/-- A reference released lowers that slot's count alone; a RETAINED slot that has lost its last and is not the anchor becomes FREE. -/
theorem dropRef_slots (s : State) (j k : Fin 32) :
    (dropRef j s).slots[k] =
      if j = k then
        (if s.slots[j].state = .retained ∧ s.slots[j].refs ≤ 1 ∧ s.anchor ≠ some j then SlotRecord.freed
         else { s.slots[j] with refs := s.slots[j].refs - 1 })
      else s.slots[k] := by
  unfold dropRef freeIfDone freeSlot
  have e : (s.setSlot j { s.slots[j] with refs := s.slots[j].refs - 1 }).slots[j] =
      { s.slots[j] with refs := s.slots[j].refs - 1 } := setSlot_slots_self ..
  have ea : (s.setSlot j { s.slots[j] with refs := s.slots[j].refs - 1 }).anchor = s.anchor := rfl
  rw [e, ea]
  dsimp only
  have hp : (s.slots[j].state = .retained ∧ s.slots[j].refs - 1 = 0 ∧ s.anchor ≠ some j) ↔
      (s.slots[j].state = .retained ∧ s.slots[j].refs ≤ 1 ∧ s.anchor ≠ some j) := by
    constructor <;> (rintro ⟨a, b, c⟩; exact ⟨a, by omega, c⟩)
  by_cases h : s.slots[j].state = .retained ∧ s.slots[j].refs ≤ 1 ∧ s.anchor ≠ some j
  · rw [if_pos (hp.mpr h), setSlot_slots, if_pos h]
    split
    · rfl
    · rw [setSlot_slots, if_neg (by assumption)]
  · rw [if_neg (fun x => h (hp.mp x)), setSlot_slots, if_neg h]

/-- A slot that holds no reference on itself releases what it holds: its references are absent, every other slot is as
`releasedRecord` says, and nothing else changes. -/
theorem releaseRefs_spec (s : State) (i : Fin 32) (hp : s.slots[i].heldP ≠ some i) (hn : s.slots[i].heldN ≠ some i) :
  ∃ V : Vector SlotRecord 32, releaseRefs i s = { s with slots := V } ∧ V[i] = { s.slots[i] with heldP := none, heldN := none } ∧
    ∀ j : Fin 32, j ≠ i → V[j] = releasedRecord s i j := by
  unfold releaseRefs releasedRecord
  generalize hs1 : s.setSlot i { s.slots[i] with heldP := none, heldN := none } = s1
  have e1 : ∃ V, s1 = { s with slots := V } := ⟨_, hs1.symm⟩
  obtain ⟨V1, hV1⟩ := e1
  have ei : s1.slots[i] = { s.slots[i] with heldP := none, heldN := none } := by rw [← hs1]; exact setSlot_slots_self ..
  have ej : ∀ j : Fin 32, j ≠ i → s1.slots[j] = s.slots[j] := by intro j hj; rw [← hs1, setSlot_slots, if_neg (Ne.symm hj)]
  have ea : s1.anchor = s.anchor := by rw [hV1]
  dsimp only
  cases hP : s.slots[i].heldP with
  | none =>
    cases hN : s.slots[i].heldN with
    | none =>
      refine ⟨s1.slots, by rw [hV1], ei, fun j hj => ?_⟩
      rw [ej j hj]; simp
    | some k =>
      have hk : k ≠ i := by rintro rfl; exact hn hN
      obtain ⟨V, hV⟩ := dropRef_rest s1 k
      refine ⟨(dropRef k s1).slots, by dsimp only; rw [hV, hV1], ?_, fun j hj => ?_⟩
      · rw [dropRef_slots, if_neg hk, ei]
      · rw [dropRef_slots, ea]
        by_cases h : k = j
        · subst h; rw [if_pos rfl, ej k hk]; simp
        · rw [if_neg h, ej j hj]; simp [h]
  | some p =>
    have hpi : p ≠ i := by rintro rfl; exact hp hP
    obtain ⟨V, hV⟩ := dropRef_rest s1 p
    cases hN : s.slots[i].heldN with
    | none =>
      refine ⟨(dropRef p s1).slots, by dsimp only; rw [hV, hV1], ?_, fun j hj => ?_⟩
      · rw [dropRef_slots, if_neg hpi, ei]
      · rw [dropRef_slots, ea]
        by_cases h : p = j
        · subst h; rw [if_pos rfl, ej p hpi]; simp
        · rw [if_neg h, ej j hj]; simp [h]
    | some k =>
      have hk : k ≠ i := by rintro rfl; exact hn hN
      obtain ⟨V2, hV2⟩ := dropRef_rest (dropRef p s1) k
      have ea2 : (dropRef p s1).anchor = s.anchor := by rw [hV]; exact ea
      refine ⟨(dropRef k (dropRef p s1)).slots, by dsimp only; rw [hV2, hV, hV1], ?_, fun j hj => ?_⟩
      · rw [dropRef_slots, if_neg hk, dropRef_slots, if_neg hpi, ei]
      · rw [dropRef_slots, ea2]
        by_cases h : k = j
        · subst h
          rw [if_pos rfl, dropRef_slots, ea]
          by_cases h2 : p = k
          · subst h2; rw [if_pos rfl, ej p hpi]
            simp only [if_true]
            by_cases hr : s.slots[p].state = .retained ∧ s.slots[p].refs ≤ 1 ∧ s.anchor ≠ some p
            · rw [if_pos hr, if_neg (by simp), if_pos ⟨by omega, hr.1, by omega, hr.2.2⟩]; rfl
            · rw [if_neg hr]
              dsimp only
              by_cases hr2 : s.slots[p].state = .retained ∧ s.slots[p].refs ≤ 2 ∧ s.anchor ≠ some p
              · rw [if_pos ⟨hr2.1, by omega, hr2.2.2⟩, if_pos ⟨by omega, hr2.1, by omega, hr2.2.2⟩]
              · rw [if_neg (fun x => hr2 ⟨x.1, by omega, x.2.2⟩), if_neg (fun x => hr2 ⟨x.2.1, by omega, x.2.2.2⟩)]
                congr 1
          · rw [if_neg h2, ej k hk]; simp [h2]
        · rw [if_neg h, dropRef_slots, ea]
          by_cases h2 : p = j
          · subst h2; rw [if_pos rfl, ej p hpi]; simp [h]
          · rw [if_neg h2, ej j hj]; simp [h, h2]

/-! ### Retirement (R19, R21, R148, R190) -/

/-- A report built goes to the done list, or is missed where 32 are held; nothing else changes. -/
theorem addReport_spec (p : Report) (s : State) : addReport p s = { s with reports := reportAdded p s.reports } := by
  unfold addReport reportAdded
  split <;> rfl

/-- A record copy handed over leaves nothing when it has nothing to tell, and otherwise its report. -/
theorem handOver_spec (r : SlotRecord) (s : State) :
    handOver r s = { s with reports := if reportWorthy r then reportAdded (reportOf s r) s.reports else s.reports } := by
  unfold handOver
  rw [addReport_spec]
  split <;> rfl

/-- The alerts once a retirement is posted: FRAME LOST for outcome LOST. -/
theorem postRetirement_spec (o : FrameOutcome) (s : State) :
    postRetirement o s =
      { s with
        verify := tallyRetirement o s.verify
        reports :=
          { s.reports with
            alerts := { s.reports.alerts with frameLost := s.reports.alerts.frameLost || decide (o = .lost) } } } := by
  cases o <;> simp [postRetirement, postFrameLost, postAlert]

/-- A slot's frame retired: its record is as `retiredRecord` says, the retirement is tallied, and the report, if one is built, is the
copy's. -/
theorem retireFrame_spec (i : Fin 32) (o : FrameOutcome) (s : State) :
    let copy : SlotRecord := { s.slots[i] with outcome := some o }
    let posted : ReportUnit :=
      { s.reports with
        alerts := { s.reports.alerts with frameLost := s.reports.alerts.frameLost || decide (o = .lost) } }
    retireFrame i o s =
      { s with
        slots := s.slots.set i (retiredRecord s i o)
        verify := tallyRetirement o s.verify
        reports := if reportWorthy copy then reportAdded (reportOf s copy) posted else posted } := by
  intro copy posted
  unfold retireFrame retireSlot
  rw [postRetirement_spec]
  dsimp only
  rw [handOver_spec]
  have hs : ∀ r, (s.slots.set i copy).set i r = s.slots.set i r := fun r => by rw [Vector.set_set]
  unfold retiredRecord
  by_cases hx : s.anchor = some i ∨ 0 < s.slots[i].refs
  · rw [if_pos (by exact hx), if_pos hx]
    unfold State.setSlot
    dsimp only
    rw [hs]
    rfl
  · rw [if_neg (by exact hx), if_neg hx]
    unfold freeSlot State.setSlot
    dsimp only
    rw [hs]
    rfl

/-! ### Ageing (R146) -/

/-- With no entry overdue a WRITE SLOT ages every entry by one, and none times out. -/
theorem ageAndTimeOut_noneOverdue (s : State) (h : noneOverdue s) : ageAndTimeOut s = ageEntries s := by
  unfold ageAndTimeOut
  have : ∀ n, timeOutAll n (ageEntries s) = ageEntries s := by
    intro n
    induction n with
    | zero => rfl
    | succ n ih =>
      unfold timeOutAll
      have : timeOutOldest (ageEntries s) = ageEntries s := by
        unfold timeOutOldest
        have : overdueEntry (ageEntries s) = none := by
          unfold overdueEntry
          rw [List.find?_eq_none]
          intro x hx
          unfold ageEntries at hx; simp at hx
          obtain ⟨e, he, rfl⟩ := hx
          have := h e he
          show ¬ (decide (s.settings.verifyTimeout < e.age + 1) = true)
          simp; omega
        rw [this]
      rw [this]; exact ih
  exact this _

/-! ### The relocation table (R157) -/

/-- An entry placed in the table goes to its place by ascending original address. -/
theorem placeRelocation_spec (x : RelocationEntry) (table : List RelocationEntry) : tableTakes x table (placeRelocation x table) := by
  induction table with
  | nil => exact ⟨[], [], rfl, rfl, by simp, by simp⟩
  | cons y rest ih =>
    unfold placeRelocation
    by_cases h : x.original < y.original
    · rw [if_pos h]
      exact ⟨[], y :: rest, rfl, rfl, by simp, by simpa using h⟩
    · rw [if_neg h]
      obtain ⟨below, above, h1, h2, h3, h4⟩ := ih
      refine ⟨y :: below, above, by rw [h1]; rfl, by rw [h2]; rfl, ?_, h4⟩
      intro z hz
      rcases List.mem_cons.mp hz with rfl | hz
      · omega
      · exact h3 z hz

end Sys2Proof.Machine
end

