-- ==== Sys2Proof/Laws/Feed.lean ====
section
/-! SUPPORT. What the Recorder Feed's shared operations can do, said once: a WRITE SLOT up to its answer, a write in flight during a
drain, the header of a frame, and the start of a GAP FILL. -/

namespace Sys2Proof.Machine

/-! ### A WRITE SLOT up to its answer (R124, R142, R146) -/

/-- The state a WRITE SLOT is answered in, where no entry was overdue: the slot is tallied and every entry has aged. -/
def slotTaken (s : State) : State :=
  { s with
    verify := agedEntries s.verify
    feed := { s.feed with tallies := { s.feed.tallies with slotsTaken := bump s.feed.tallies.slotsTaken } } }

/-- With no entry overdue, a WRITE SLOT is the Feed's answer and what that completes. -/
theorem writeSlot_answers (s : State) (ho : noneOverdue s) : exec .writeSlot s = .next (settle (answerSlot (slotTaken s))) := by
  show Host.Outcome.next (settle (answerSlot (ageAndTimeOut (tallyFeed _ s)))) = _
  have ho' : noneOverdue (tallyFeed (fun t => { t with slotsTaken := bump t.slotsTaken }) s) := ho
  rw [ageAndTimeOut_noneOverdue _ ho']
  rfl

/-- A write in flight keeps a drain open, so that settling tells the conditions alone. -/
theorem settle_of_flight (t : State) (ht : t.title.state = .running ∨ t.title.state = .draining)
    (hf : t.feed.flight.isSome = true) : settle t = tellConditions t := by
  apply settle_of_settled
  refine ⟨fun _ => ?_, fun h => ?_⟩
  · unfold drainDone
    cases hx : t.feed.flight with
    | none =>
      rw [hx] at hf
      cases hf
    | some w => simp
  · rcases ht with ht | ht <;> rw [ht] at h <;> cases h

/-! ### Block contents (R129, R132) -/

/-- A list made of the bands 0 to B - 1 of a field has B members, the `b`-th made of band `b`. -/
theorem bandsOf_map {α : Type} (s : State) (g : Fin 18 → α) :
    ((bandsOf s).map g).length = bandsPer s.settings.format ∧
      ∀ b : Fin 18, b.val < bandsPer s.settings.format → ((bandsOf s).map g)[b.val]? = some (g b) := by
  unfold bandsOf
  cases s.settings.format
  · have all : (List.finRange 18).filter (fun b => decide (b.val < bandsPer .f25)) = List.finRange 18 := by decide
    rw [all]
    refine ⟨by simp; rfl, fun b _ => ?_⟩
    simp
  · have most : (List.finRange 18).filter (fun b => decide (b.val < bandsPer .f30)) = (List.finRange 18).take 15 := by decide
    rw [most]
    refine ⟨by simp; rfl, fun b hb => ?_⟩
    have hb' : b.val < 15 := hb
    rw [List.getElem?_map, List.getElem?_take, if_pos hb']
    simp

/-- The header made of a slot shows that slot. -/
theorem frameHeader_shows (s : State) (i : Fin 32) (kind : WriteKind) (attempt : Nat) (cue : Option Byte) :
    headerShows s i (frameHeader s i kind attempt cue) := by
  refine ⟨rfl, rfl, fun f => ?_⟩
  have e : (frameHeader s i kind attempt cue).treatments.get f = headerBands s s.slots[i] f := by cases f <;> rfl
  rw [e]
  unfold headerBands
  refine ⟨(bandsOf_map s _).1, fun b x hb hx => ?_⟩
  rw [(bandsOf_map s _).2 b hb, hx]
  rfl

/-! ### Write starts (R128, R130) -/

/-- The start of a GAP FILL changes the gap list, the Feed and the recorder line alone. -/
theorem startGapFill_spec (h : Nat) (s : State) (d : TitleDeclaration) (hd : s.title.declaration = some d) :
    startGapFill h s =
      { s with
        gaps := consumeGap s.gaps h
        feed :=
          { s.feed with
            state := .writing
            h := if h = 4294967295 then none else some (h + 1)
            tagCounter := (s.feed.tagCounter + 1) % 65536
            pendingCue := none
            flight :=
              some
                { kind := .gapFill, tag := s.feed.tagCounter, address := d.start + (h - d.first), frame := some h, slot := none,
                  cue := s.feed.pendingCue, fill := some (fillSource s), index := none }
            tallies := { s.feed.tallies with gapFills := bump s.feed.tallies.gapFills } }
        recorderOut :=
          some
            (.write s.feed.tagCounter (d.start + (h - d.first))
              (.frameBlock (gapFillHeader s h s.feed.pendingCue (fillSource s)) (fillBands s))) } := by
  have address : titleAddress s h = d.start + (h - d.first) := by
    unfold titleAddress
    rw [hd]
  unfold startGapFill
  rw [address]
  rfl

end Sys2Proof.Machine
end

