-- ==== Sys2Proof/Laws/Image.lean ====
section
/-! SUPPORT. The frame memory: every operation on a band's samples keeps the canonical form, a sample stored reads back, and the
memory at power-on is in canonical form. -/

namespace Sys2Proof.Machine

/-- Lowering the bound keeps the form. -/
theorem imageWfFrom_mono {low low' : Nat} (h : low' ≤ low) :
    ∀ {img : BandImage}, imageWfFrom low img = true → imageWfFrom low' img = true
  | [], _ => rfl
  | (p, v) :: rest, w => by
    simp only [imageWfFrom, Bool.and_eq_true, decide_eq_true_eq] at w ⊢
    exact ⟨⟨⟨by omega, w.1.1.2⟩, w.1.2⟩, w.2⟩

/-- Storing a sample at a position at or above the bound keeps the form. -/
theorem storeSample_wf {low p : Nat} (v : Sample) (hp : p < 23040) (hl : low ≤ p) :
    ∀ {img : BandImage}, imageWfFrom low img = true → imageWfFrom low (storeSample img p v) = true := by
  intro img
  induction img generalizing low with
  | nil =>
    intro _
    unfold storeSample
    split
    · rfl
    · next h => simp [imageWfFrom, hp, hl, h]
  | cons c rest ih =>
    obtain ⟨q, w⟩ := c
    intro hw
    have hw' := hw
    simp only [imageWfFrom, Bool.and_eq_true, decide_eq_true_eq] at hw
    obtain ⟨⟨⟨h1, h2⟩, h3⟩, h4⟩ := hw
    unfold storeSample
    split
    · next hlt =>
      split
      · exact hw'
      · next hv =>
        simp only [imageWfFrom, Bool.and_eq_true, decide_eq_true_eq]
        exact ⟨⟨⟨hl, hp⟩, by simpa using hv⟩, ⟨⟨by omega, h2⟩, h3⟩, h4⟩
    · split
      · next heq =>
        subst heq
        split
        · exact imageWfFrom_mono (by omega) h4
        · next hv =>
          simp only [imageWfFrom, Bool.and_eq_true, decide_eq_true_eq]
          exact ⟨⟨⟨hl, hp⟩, by simpa using hv⟩, h4⟩
      · next hn1 hn2 =>
        simp only [imageWfFrom, Bool.and_eq_true, decide_eq_true_eq]
        exact ⟨⟨⟨h1, h2⟩, h3⟩, ih (by omega) h4⟩

/-- A canonical image is in canonical form. -/
theorem canonicalImage_wf : ∀ img : BandImage, imageWf (canonicalImage img) = true
  | [] => rfl
  | (p, v) :: rest => by
    unfold canonicalImage
    split
    · next h => exact storeSample_wf v h (Nat.zero_le p) (canonicalImage_wf rest)
    · exact canonicalImage_wf rest

/-- Listing the positions of a rising range whose samples are not black gives the canonical form. -/
theorem imageFrom_range_wf (sample : Nat → Sample) : ∀ (n low : Nat), low + n ≤ 23040 →
    imageWfFrom low ((List.range' low n).filterMap (fun p => if sample p = blackAt p then none else some (p, sample p))) = true
  | 0, _, _ => rfl
  | n + 1, low, h => by
    rw [List.range'_succ, List.filterMap_cons]
    have ih := imageFrom_range_wf sample n (low + 1) (by omega)
    split
    · exact imageWfFrom_mono (by omega) ih
    · next c hc =>
      split at hc
      · exact absurd hc (by simp)
      · next hb =>
        obtain rfl : (low, sample low) = c := by simpa using hc
        simp only [imageWfFrom, Bool.and_eq_true, decide_eq_true_eq]
        exact ⟨⟨⟨le_refl _, by omega⟩, by simpa using hb⟩, ih⟩

/-- An image built from its samples is in canonical form. -/
theorem imageFrom_wf (sample : Nat → Sample) : imageWf (imageFrom sample) = true := by
  unfold imageFrom
  rw [List.range_eq_range']
  exact imageFrom_range_wf sample 23040 0 (by omega)

/-- A black band is in canonical form. -/
theorem blackImage_wf : imageWf blackImage = true := rfl

/-! ### Reading -/

/-- In an image whose positions rise from a bound, no position below the bound is listed. -/
theorem find?_below {low p : Nat} (h : p < low) :
    ∀ {img : BandImage}, imageWfFrom low img = true → img.find? (fun c => c.1 = p) = none
  | [], _ => rfl
  | (q, w) :: rest, hw => by
    simp only [imageWfFrom, Bool.and_eq_true, decide_eq_true_eq] at hw
    have hq : q ≠ p := by omega
    simp only [List.find?_cons, decide_eq_false hq]
    exact find?_below (by omega) hw.2

/-- A position below the bound reads as black. -/
theorem sampleAt_below {low p : Nat} (h : p < low) {img : BandImage} (hw : imageWfFrom low img = true) :
    sampleAt img p = blackAt p := by
  unfold sampleAt
  rw [find?_below h hw]

/-- Reading the head position of an image. -/
theorem sampleAt_cons_self (p : Nat) (v : Sample) (rest : BandImage) : sampleAt ((p, v) :: rest) p = v := by
  simp [sampleAt]

/-- Reading past the head position of an image. -/
theorem sampleAt_cons_other {p q : Nat} (v : Sample) (rest : BandImage) (h : q ≠ p) :
    sampleAt ((q, v) :: rest) p = sampleAt rest p := by
  simp [sampleAt, h]

/-- A sample stored reads back, and every other position reads as before. -/
theorem sampleAt_storeSample (p q : Nat) (v : Sample) :
    ∀ {low : Nat} {img : BandImage}, imageWfFrom low img = true →
      sampleAt (storeSample img p v) q = if q = p then v else sampleAt img q := by
  intro low img
  induction img generalizing low with
  | nil =>
    intro _
    unfold storeSample
    by_cases hv : v = blackAt p
    · by_cases hq : q = p
      · subst hq; simp [sampleAt, hv]
      · simp [hv, hq]
    · by_cases hq : q = p
      · subst hq; simp [sampleAt, hv]
      · simp only [hv, if_false, hq]
        exact sampleAt_cons_other v [] (fun h => hq h.symm)
  | cons c rest ih =>
    obtain ⟨r, w⟩ := c
    intro hw
    simp only [imageWfFrom, Bool.and_eq_true, decide_eq_true_eq] at hw
    obtain ⟨⟨⟨h1, h2⟩, h3⟩, h4⟩ := hw
    have hrest : imageWfFrom (p + 1) ((r, w) :: rest) = true ∨ r ≤ p := by
      by_cases hlt : p < r
      · left
        simp only [imageWfFrom, Bool.and_eq_true, decide_eq_true_eq]
        exact ⟨⟨⟨hlt, h2⟩, h3⟩, h4⟩
      · right; omega
    unfold storeSample
    split
    · next hlt =>
      have hbelow : imageWfFrom (p + 1) ((r, w) :: rest) = true := by
        rcases hrest with h | h
        · exact h
        · omega
      split
      · next hv =>
        by_cases hq : q = p
        · subst hq
          rw [sampleAt_below (Nat.lt_succ_self q) hbelow]
          simp [hv]
        · simp [hq]
      · by_cases hq : q = p
        · subst hq; simp [sampleAt]
        · rw [sampleAt_cons_other v _ (fun h => hq h.symm)]
          simp [hq]
    · split
      · next heq =>
        subst heq
        split
        · next hv =>
          by_cases hq : q = p
          · subst hq
            rw [sampleAt_below (Nat.lt_succ_self q) h4]
            simp [hv]
          · simp only [hq, if_false]
            rw [sampleAt_cons_other w rest (fun h => hq h.symm)]
        · by_cases hq : q = p
          · subst hq; simp [sampleAt]
          · simp only [hq, if_false]
            rw [sampleAt_cons_other v rest (fun h => hq h.symm), sampleAt_cons_other w rest (fun h => hq h.symm)]
      · next hn1 hn2 =>
        by_cases hqr : q = r
        · subst hqr
          rw [sampleAt_cons_self, sampleAt_cons_self]
          simp [show q ≠ p from fun h => hn2 h.symm]
        · rw [sampleAt_cons_other w _ (fun h => hqr h.symm), sampleAt_cons_other w _ (fun h => hqr h.symm), ih h4]

/-- An image built from samples over a rising range reads back each of them. -/
theorem sampleAt_range (sample : Nat → Sample) (q : Nat) : ∀ (n low : Nat), low ≤ q → q < low + n →
    sampleAt ((List.range' low n).filterMap (fun p => if sample p = blackAt p then none else some (p, sample p))) q = sample q
  | 0, _, h1, h2 => by omega
  | n + 1, low, h1, h2 => by
    rw [List.range'_succ, List.filterMap_cons]
    have wf : ∀ k, low + 1 + k ≤ 23040 → imageWfFrom (low + 1) ((List.range' (low + 1) k).filterMap
        (fun p => if sample p = blackAt p then none else some (p, sample p))) = true :=
      fun k h => imageFrom_range_wf sample k (low + 1) h
    have tail : low ≠ q → sampleAt ((List.range' (low + 1) n).filterMap
        (fun p => if sample p = blackAt p then none else some (p, sample p))) q = sample q := fun hne =>
      sampleAt_range sample q n (low + 1) (by omega) (by omega)
    have headless : sampleAt ((List.range' (low + 1) n).filterMap
        (fun p => if sample p = blackAt p then none else some (p, sample p))) low = blackAt low := by
      unfold sampleAt
      have : ((List.range' (low + 1) n).filterMap
        (fun p => if sample p = blackAt p then none else some (p, sample p))).find? (fun c => c.1 = low) = none := by
        rw [List.find?_eq_none]
        intro c hc
        rw [List.mem_filterMap] at hc
        obtain ⟨a, ha, hac⟩ := hc
        split at hac
        · exact absurd hac (by simp)
        · have : a = c.1 := by
            have := congrArg Prod.fst (Option.some.inj hac)
            simpa using this
          rw [List.mem_range'_1] at ha
          simp only [decide_eq_true_eq]
          omega
      rw [this]
    split
    · next hc =>
      split at hc
      · next hb =>
        by_cases hq : low = q
        · subst hq; rw [headless, hb]
        · exact tail hq
      · exact absurd hc (by simp)
    · next c hc =>
      split at hc
      · exact absurd hc (by simp)
      · obtain rfl : (low, sample low) = c := by simpa using hc
        by_cases hq : low = q
        · subst hq; exact sampleAt_cons_self low _ _
        · rw [sampleAt_cons_other _ _ hq]; exact tail hq

/-- An image built from its samples reads back each of them. -/
theorem sampleAt_imageFrom (sample : Nat → Sample) (q : Nat) (h : q < 23040) : sampleAt (imageFrom sample) q = sample q := by
  unfold imageFrom
  rw [List.range_eq_range']
  exact sampleAt_range sample q 23040 0 (by omega) (by omega)

/-- The canonical image of an image in canonical form reads as it does. -/
theorem sampleAt_canonicalImage (q : Nat) : ∀ {low : Nat} {img : BandImage}, imageWfFrom low img = true →
    sampleAt (canonicalImage img) q = sampleAt img q
  | _, [], _ => rfl
  | low, (p, v) :: rest, hw => by
    simp only [imageWfFrom, Bool.and_eq_true, decide_eq_true_eq] at hw
    unfold canonicalImage
    rw [if_pos hw.1.1.2, sampleAt_storeSample p q v (canonicalImage_wf rest), sampleAt_canonicalImage q hw.2]
    by_cases hq : q = p
    · subst hq; simp [sampleAt_cons_self]
    · simp only [hq, if_false]
      rw [sampleAt_cons_other v rest (fun h => hq h.symm)]

/-! ### The frame memory -/

/-- What the well-formed frame memory says of each band. -/
theorem Memory.wf_iff (m : Vector FrameBuffer 32) :
    Memory.wf m = true ↔ ∀ (i : Fin 32) (f : Field) (b : Fin 18), imageWf ((m[i].get f)[b]) = true := by
  simp only [Memory.wf, List.all_eq_true, List.mem_finRange, true_implies, Bool.and_eq_true]
  constructor
  · intro h i f b
    cases f with
    | a => exact (h i b).1
    | b => exact (h i b).2
  · intro h i b
    exact ⟨h i .a b, h i .b b⟩

/-- The image read back after one band's samples are written: the new samples there, the old everywhere else. -/
theorem setImage_image (s : State) (i j : Fin 32) (f g : Field) (b c : Fin 18) (img : BandImage) :
    (s.setImage i f b img).image j g c = if i = j ∧ f = g ∧ b = c then img else s.image j g c := by
  unfold State.setImage State.image
  by_cases hi : i = j
  · subst hi
    by_cases hf : f = g
    · subst hf
      by_cases hb : b = c
      · subst hb
        cases f <;> simp [PerField.get, PerField.put]
      · have hbv : b.val ≠ c.val := fun e => hb (Fin.ext e)
        cases f <;> simp [PerField.get, PerField.put, hb, hbv]
    · cases f <;> cases g <;> simp_all [PerField.get, PerField.put]
  · have hiv : i.val ≠ j.val := fun e => hi (Fin.ext e)
    simp [hi, hiv]

/-- Writing one band's samples in canonical form keeps the frame memory well formed. -/
theorem setImage_wf (s : State) (i : Fin 32) (f : Field) (b : Fin 18) (img : BandImage) (hm : Memory.wf s.buffers = true)
    (h : imageWf img = true) : Memory.wf (s.setImage i f b img).buffers = true := by
  rw [Memory.wf_iff] at hm ⊢
  intro j g c
  have := setImage_image s i j f g b c img
  unfold State.image at this
  rw [this]
  split
  · exact h
  · exact hm j g c

/-- The frame memory at power-on is well formed. -/
theorem reset_memory_wf : Memory.wf State.reset.buffers = true := by
  rw [Memory.wf_iff]
  intro i f b
  cases f <;> simp [State.reset, PerField.get, imageWf, imageWfFrom]

/-- Recording a delivered or missing band keeps the frame memory well formed. -/
theorem recordBand_wf (i : Fin 32) (f : Field) (b : Fin 18) (count : Byte) (samples : BandImage) (s : State)
    (hm : Memory.wf s.buffers = true) : Memory.wf (recordBand i f b count samples s).buffers = true := by
  unfold recordBand
  refine setImage_wf _ i f b _ hm ?_
  split
  · rfl
  · exact canonicalImage_wf samples

/-- Moving a band to another state leaves the frame memory as it is. -/
theorem moveBand_buffers (i : Fin 32) (f : Field) (b : Fin 18) (target : BandState) (s : State) :
    (moveBand i f b target s).buffers = s.buffers := by
  unfold moveBand
  split
  · split <;> rfl
  · rfl

/-- Moving a band with new samples in canonical form keeps the frame memory well formed. -/
theorem moveBandWith_wf (i : Fin 32) (f : Field) (b : Fin 18) (target : BandState) (img : BandImage) (s : State)
    (hm : Memory.wf s.buffers = true) (h : imageWf img = true) :
    Memory.wf (moveBandWith i f b target img s).buffers = true := by
  unfold moveBandWith
  split
  · exact setImage_wf _ i f b img (by rw [moveBand_buffers]; exact hm) h
  · exact hm

end Sys2Proof.Machine
end

