-- ==== Sys2Proof/Laws/Frame.lean ====
section
/-! SUPPORT. What no block's own act touches: `Kept` says once, of every operation below the Control Link Unit and the requests, that the
link's traffic, the settings, the timebase, the rules, the strategy entries, the band budget and the queue of commands stay, and that
the frame memory's form and the bounds of the lists are kept. -/

namespace Sys2Proof.Machine

/-- One state follows another with the link's traffic, the configuration, the timebase and the queue of commands as they were, the
frame memory's form and the lists' bounds kept. -/
structure Kept (s t : State) : Prop where
  receiver : t.link.receiver = s.link.receiver
  queue : t.link.queue = s.link.queue
  sending : t.link.sending = s.link.sending
  waiting : t.link.waiting = s.link.waiting
  settings : t.settings = s.settings
  timebase : t.timebase = s.timebase
  rules : t.classifier.rules = s.classifier.rules
  entries : t.strategy.entries = s.strategy.entries
  budget : t.sched.bandBudget = s.sched.bandBudget
  pending : t.pending = s.pending
  memory : memoryCanonical s → memoryCanonical t
  lists : listsBounded s → listsBounded t

/-- An update of none of these keeps them. -/
theorem Kept.of_same {s t : State} (hl : t.link = s.link) (hs : t.settings = s.settings) (ht : t.timebase = s.timebase)
    (hr : t.classifier.rules = s.classifier.rules) (he : t.strategy.entries = s.strategy.entries)
    (hb : t.sched.bandBudget = s.sched.bandBudget) (hp : t.pending = s.pending) (hm : t.buffers = s.buffers)
    (hd : t.reports = s.reports) (hg : t.gaps = s.gaps) : Kept s t :=
  { receiver := by rw [hl], queue := by rw [hl], sending := by rw [hl], waiting := by rw [hl], settings := hs, timebase := ht,
    rules := hr, entries := he, budget := hb, pending := hp
    memory := fun h => by unfold memoryCanonical at *; rw [hm]; exact h
    lists := fun h => by unfold listsBounded at *; rw [hd, hg]; exact h }

theorem Kept.refl (s : State) : Kept s s := .of_same rfl rfl rfl rfl rfl rfl rfl rfl rfl rfl

theorem Kept.trans {s t u : State} (h : Kept s t) (k : Kept t u) : Kept s u :=
  { receiver := k.receiver.trans h.receiver, queue := k.queue.trans h.queue, sending := k.sending.trans h.sending
    waiting := k.waiting.trans h.waiting, settings := k.settings.trans h.settings, timebase := k.timebase.trans h.timebase
    rules := k.rules.trans h.rules, entries := k.entries.trans h.entries, budget := k.budget.trans h.budget
    pending := k.pending.trans h.pending, memory := fun m => k.memory (h.memory m), lists := fun m => k.lists (h.lists m) }

/-- A fold of acts that keep keeps. -/
theorem foldl_kept {α : Type} {op : State → α → State} (h : ∀ t a, Kept t (op t a)) (l : List α) (s : State) :
    Kept s (l.foldl op s) := by
  induction l generalizing s with
  | nil => exact .refl s
  | cons a rest ih => exact (h s a).trans (ih _)

theorem ite_kept {s t u : State} {p : Prop} [Decidable p] (h : Kept s t) (k : Kept s u) : Kept s (if p then t else u) := by
  split
  · exact h
  · exact k

theorem forSlots_kept {op : Fin 32 → State → State} (h : ∀ i t, Kept t (op i t)) (s : State) : Kept s (forSlots op s) :=
  foldl_kept (fun t i => h i t) _ s

theorem forBands_kept {op : Field → Fin 18 → State → State} (h : ∀ f b t, Kept t (op f b t)) (s : State) :
    Kept s (forBands op s) :=
  (foldl_kept (fun t b => h .a b t) _ s).trans (foldl_kept (fun t b => h .b b t) _ _)

/-! ### Slots and bands -/

theorem setSlot_kept (i : Fin 32) (r : SlotRecord) (s : State) : Kept s (s.setSlot i r) :=
  .of_same rfl rfl rfl rfl rfl rfl rfl rfl rfl rfl

theorem setJobs_kept (jobs : List Job) (s : State) : Kept s (setJobs jobs s) :=
  .of_same rfl rfl rfl rfl rfl rfl rfl rfl rfl rfl

theorem setImage_kept (i : Fin 32) (f : Field) (b : Fin 18) (img : BandImage) (h : imageWf img = true) (s : State) :
    Kept s (s.setImage i f b img) :=
  ⟨rfl, rfl, rfl, rfl, rfl, rfl, rfl, rfl, rfl, rfl, fun m => setImage_wf s i f b img m h, id⟩

theorem recordBand_kept (i : Fin 32) (f : Field) (b : Fin 18) (count : Byte) (samples : BandImage) (s : State) :
    Kept s (recordBand i f b count samples s) := by
  refine (setSlot_kept i _ s).trans (setImage_kept i f b _ ?_ _)
  split
  · exact blackImage_wf
  · exact canonicalImage_wf samples

theorem markMissing_kept (i : Fin 32) (f : Field) (b : Fin 18) (s : State) : Kept s (markMissing i f b s) := by
  unfold markMissing
  split
  · exact .refl s
  · exact recordBand_kept i f b 255 [] s

theorem markFieldMissing_kept (i : Fin 32) (f : Field) (s : State) : Kept s (markFieldMissing i f s) :=
  foldl_kept (fun t b => markMissing_kept i f b t) _ s

theorem moveBand_kept (i : Fin 32) (f : Field) (b : Fin 18) (target : BandState) (s : State) :
    Kept s (moveBand i f b target s) := by
  unfold moveBand
  split
  · exact ite_kept (setSlot_kept i _ s) (.refl s)
  · exact .refl s

theorem moveBandWith_kept (i : Fin 32) (f : Field) (b : Fin 18) (target : BandState) (img : BandImage) (s : State)
    (h : memoryCanonical s → imageWf img = true) : Kept s (moveBandWith i f b target img s) := by
  unfold moveBandWith
  split
  · have k := moveBand_kept i f b target s
    exact ⟨k.receiver, k.queue, k.sending, k.waiting, k.settings, k.timebase, k.rules, k.entries, k.budget, k.pending,
      fun m => setImage_wf _ i f b img (k.memory m) (h m), k.lists⟩
  · exact .refl s

theorem freeSlot_kept (i : Fin 32) (s : State) : Kept s (freeSlot i s) := setSlot_kept i _ s

theorem freeIfDone_kept (i : Fin 32) (s : State) : Kept s (freeIfDone i s) := by
  unfold freeIfDone
  exact ite_kept (freeSlot_kept i s) (.refl s)

theorem addRef_kept (i : Fin 32) (s : State) : Kept s (addRef i s) := setSlot_kept i _ s

theorem dropRef_kept (i : Fin 32) (s : State) : Kept s (dropRef i s) := (setSlot_kept i _ s).trans (freeIfDone_kept i _)

theorem releaseRefs_kept (i : Fin 32) (s : State) : Kept s (releaseRefs i s) := by
  unfold releaseRefs
  have h1 := setSlot_kept i { s.slots[i] with heldP := none, heldN := none } s
  cases s.slots[i].heldP <;> cases s.slots[i].heldN
  · exact h1
  · exact h1.trans (dropRef_kept _ _)
  · exact h1.trans (dropRef_kept _ _)
  · exact (h1.trans (dropRef_kept _ _)).trans (dropRef_kept _ _)

theorem takeP_kept (i : Fin 32) (n : Nat) (s : State) : Kept s (takeP i n s) := by
  unfold takeP
  refine ite_kept (.refl s) ?_
  split
  · exact (setSlot_kept i _ s).trans (addRef_kept _ _)
  · exact .refl s

theorem takeN_kept (i : Fin 32) (n : Nat) (s : State) : Kept s (takeN i n s) := by
  unfold takeN
  refine ite_kept (.refl s) ?_
  split
  · exact ite_kept ((setSlot_kept _ _ s).trans (addRef_kept _ _)) (.refl s)
  · exact .refl s

theorem ageSlots_kept (s : State) : Kept s (ageSlots s) := .of_same rfl rfl rfl rfl rfl rfl rfl rfl rfl rfl

/-! ### Reports, conditions, alerts, gaps -/

theorem tellConditions_kept (s : State) : Kept s (tellConditions s) :=
  ⟨rfl, rfl, rfl, rfl, rfl, rfl, rfl, rfl, rfl, rfl, id, id⟩

theorem tellRecorder_kept (s : State) : Kept s (tellRecorder s) :=
  ⟨rfl, rfl, rfl, rfl, rfl, rfl, rfl, rfl, rfl, rfl, id, id⟩

theorem postAlert_kept (change : Alerts → Alerts) (s : State) : Kept s (postAlert change s) :=
  ⟨rfl, rfl, rfl, rfl, rfl, rfl, rfl, rfl, rfl, rfl, id, id⟩

theorem postSourceGap_kept (s : State) : Kept s (postSourceGap s) := postAlert_kept _ s

theorem bumpByte_le (t : Nat) : bumpByte t ≤ 255 := by unfold bumpByte; omega

theorem addReport_kept (r : Report) (s : State) : Kept s (addReport r s) := by
  unfold addReport
  split
  · next h =>
    exact ⟨rfl, rfl, rfl, rfl, rfl, rfl, rfl, rfl, rfl, rfl, id,
      fun l => ⟨by simp only [List.length_append, List.length_singleton]; omega, l.2.1, bumpByte_le _, l.2.2.2⟩⟩
  · exact ⟨rfl, rfl, rfl, rfl, rfl, rfl, rfl, rfl, rfl, rfl, id, fun l => ⟨l.1, bumpByte_le _, l.2.2⟩⟩

theorem handOver_kept (r : SlotRecord) (s : State) : Kept s (handOver r s) := by
  unfold handOver
  exact ite_kept (addReport_kept _ s) (.refl s)

theorem postTitleEvent_kept (e : TitleEvent) (s : State) : Kept s (postTitleEvent e s) := by
  unfold postTitleEvent
  split
  · next h =>
    exact ⟨rfl, rfl, rfl, rfl, rfl, rfl, rfl, rfl, rfl, rfl, id,
      fun l => ⟨l.1, l.2.1, l.2.2.1, by simp only [List.length_append, List.length_singleton]; omega, l.2.2.2.2⟩⟩
  · exact ⟨rfl, rfl, rfl, rfl, rfl, rfl, rfl, rfl, rfl, rfl, id, id⟩

/-- A gap recorded leaves at most 16 runs. -/
theorem recordGap_length {runs runs' : List GapRun} {g : Nat} (h : recordGap runs g = some runs') (hl : runs.length ≤ 16) :
    runs'.length ≤ 16 := by
  unfold recordGap at h
  split at h
  · cases h; simp
  · next r hr =>
    have hn : runs ≠ [] := fun e => by simp [e] at hr
    have hp : 0 < runs.length := List.length_pos_iff.mpr hn
    split at h
    · cases h; simp; omega
    · split at h
      · cases h; simp; omega
      · split at h
        · cases h; simp; omega
        · cases h

/-- A new gap list within its bound keeps the rest. -/
theorem gaps_kept {s : State} {runs : List GapRun} (h : s.gaps.length ≤ 16 → runs.length ≤ 16) :
    Kept s { s with gaps := runs } :=
  ⟨rfl, rfl, rfl, rfl, rfl, rfl, rfl, rfl, rfl, rfl, id, fun l => ⟨l.1, l.2.1, l.2.2.1, l.2.2.2.1, h l.2.2.2.2⟩⟩

theorem consumeGap_length (runs : List GapRun) (h : Nat) : (consumeGap runs h).length ≤ runs.length := by
  unfold consumeGap
  split
  · simp
  · split
    · split <;> simp
    · simp

theorem dropFrame_kept (n : Nat) (s : State) : Kept s (dropFrame n s).1 := by
  unfold dropFrame
  split
  · next h => exact (gaps_kept (recordGap_length h)).trans (postSourceGap_kept _)
  · exact postSourceGap_kept s

theorem forfeitSlot_kept (i : Fin 32) (s : State) : Kept s (forfeitSlot i s) :=
  .of_same rfl rfl rfl rfl rfl rfl rfl rfl rfl rfl

theorem allocate_kept (n : Nat) (parity : Field) (signals : SideSignals) (s : State) :
    Kept s (allocate n parity signals s).1 := by
  unfold allocate
  split
  · exact setSlot_kept _ _ s
  · split
    · exact dropFrame_kept n s
    · split
      · exact (forfeitSlot_kept _ s).trans (setSlot_kept _ _ _)
      · exact dropFrame_kept n s

theorem retireSlot_kept (i : Fin 32) (o : FrameOutcome) (s : State) : Kept s (retireSlot i o s) := by
  unfold retireSlot
  have h := (setSlot_kept i { s.slots[i] with outcome := some o } s).trans
    (handOver_kept { s.slots[i] with outcome := some o } _)
  exact ite_kept (h.trans (setSlot_kept _ _ _)) (h.trans (freeSlot_kept _ _))

theorem moveAnchor_kept (i : Fin 32) (s : State) : Kept s (moveAnchor i s) := by
  unfold moveAnchor
  have h : Kept s { s with anchor := some i } := .of_same rfl rfl rfl rfl rfl rfl rfl rfl rfl rfl
  cases s.anchor with
  | none => exact h
  | some j => exact h.trans (freeIfDone_kept j _)

theorem windowWriteEnd_kept (i : Fin 32) (kind : WriteKind) (s : State) : Kept s (windowWriteEnd i kind s) := by
  unfold windowWriteEnd
  exact ite_kept (ite_kept ((setSlot_kept i _ s).trans (moveAnchor_kept i _)) (setSlot_kept i _ s)) (.refl s)

theorem windowClose_kept (s : State) : Kept s (windowClose s) := by
  unfold windowClose
  have h : Kept s { s with anchor := none, gaps := [] } :=
    ⟨rfl, rfl, rfl, rfl, rfl, rfl, rfl, rfl, rfl, rfl, id, fun l => ⟨l.1, l.2.1, l.2.2.1, l.2.2.2.1, by simp⟩⟩
  exact h.trans (forSlots_kept (fun i t => ite_kept (freeSlot_kept i t) (.refl t)) _)

theorem windowAbort_kept (s : State) : Kept s (windowAbort s) :=
  ⟨rfl, rfl, rfl, rfl, rfl, rfl, rfl, rfl, rfl, rfl, id, fun l => ⟨l.1, l.2.1, l.2.2.1, l.2.2.2.1, by simp [windowAbort]⟩⟩

/-! ### The Scheduler and the Band Reconstruction Unit -/

/-- An update of the Scheduler, the unit and the walk counts that keeps the band budget and the entries. -/
theorem sched_kept (s : State) (c : Scheduler) (r : RepairUnit) (h : c.bandBudget = s.sched.bandBudget) :
    Kept s { s with sched := c, repair := r } :=
  .of_same rfl rfl rfl rfl rfl h rfl rfl rfl rfl

theorem activate_kept (c : Nat) (s : State) : Kept s (activate c s) := setJobs_kept _ s

theorem arbitrate_kept (s : State) : Kept s (arbitrate s) := by
  unfold arbitrate
  have h : Kept s { s with sched := { s.sched with owed := false } } := sched_kept s _ _ rfl
  cases grantCandidate s with
  | some j => exact h.trans (activate_kept _ _)
  | none =>
    cases (serviceStack s).head? with
    | some j => exact h.trans (activate_kept _ _)
    | none => exact h

theorem slotJobEnded_kept (i : Fin 32) (s : State) : Kept s (slotJobEnded i s) := by
  unfold slotJobEnded
  refine ite_kept ?_ (.refl s)
  exact ite_kept (((setSlot_kept i _ s).trans (setSlot_kept i _ _)).trans (releaseRefs_kept i _)) (setSlot_kept i _ s)

theorem rotated_budget (t : Fin 8) (c : Scheduler) : (rotated t c).bandBudget = c.bandBudget := by
  unfold rotated; split <;> rfl

theorem completeJob_kept (j : Job) (s : State) : Kept s (completeJob j s) := by
  unfold completeJob
  exact (slotJobEnded_kept j.slot s).trans (sched_kept _ _ _ (rotated_budget _ _))

theorem bandTurn_kept (j : Job) (s : State) : Kept s (bandTurn j s).1 := by
  have hc (w : WalkResult) : Kept s { s with strategy := countWalk w s.strategy } :=
    .of_same rfl rfl rfl rfl (by cases w <;> rfl) rfl rfl rfl rfl rfl
  have hp (b : Fin 18) (t : State) : Kept t (passTurn j b t).1 := by
    unfold passTurn
    have h := (moveBand_kept j.slot j.field b .passed t).trans (setJobs_kept ((moveBand j.slot j.field b .passed t).sched.jobs.map
      (fun k => if k.creation = j.creation then
        { k with
          held := false, settled := k.settled + 1,
          cursor := nextDamaged (moveBand j.slot j.field b .passed t) j.slot j.field (b.val + 1) } else k)) _)
    dsimp only
    split
    · exact h
    · exact h.trans (completeJob_kept j _)
  unfold bandTurn
  split
  · exact completeJob_kept j s
  · next b _ =>
    dsimp only
    split
    · split
      · unfold takeTurn
        split
        · exact (hc _).trans (setJobs_kept _ _)
        · exact (hc _).trans ((setJobs_kept _ _).trans (sched_kept _ _ _ rfl))
      · exact (hc _).trans (hp b _)
    · exact (hc _).trans (hp b _)
    · exact (hc _).trans (hp b _)
    · exact (hc _).trans (setJobs_kept _ _)

theorem serveJobs_kept (fuel : Nat) (next : TurnNext) (s : State) : Kept s (serveJobs fuel next s) := by
  induction fuel generalizing next s with
  | zero => exact .refl s
  | succ fuel ih =>
    cases next with
    | rest => exact .refl s
    | decision => exact (arbitrate_kept s).trans (ih _ _)
    | turn =>
      unfold serveJobs
      split
      · exact .refl s
      · exact ite_kept (.refl s) ((bandTurn_kept _ s).trans (ih _ _))

theorem decideNow_kept (s : State) : Kept s (decideNow s) := serveJobs_kept _ _ s

theorem decisionPoint_kept (s : State) : Kept s (decisionPoint s) := by
  unfold decisionPoint
  split
  · exact sched_kept s _ _ rfl
  · exact decideNow_kept s

theorem createJob_kept (i : Fin 32) (f : Field) (tier : Fin 8) (chain : Fin 32) (damaged : Nat) (s : State) :
    Kept s (createJob i f tier chain damaged s) := by
  unfold createJob
  refine Kept.trans ?_ (decisionPoint_kept _)
  exact .of_same rfl rfl rfl rfl rfl rfl rfl rfl rfl rfl

theorem measureDone_kept (s : State) : Kept s (measureDone s) := by
  unfold measureDone
  split
  · split
    · exact sched_kept s _ _ rfl
    · exact .refl s
  · exact .refl s

theorem handBand_kept (op : Operation) (s : State) (h : imageWf op.result = true) : Kept s (handBand op s) := by
  unfold handBand
  exact (moveBandWith_kept op.slot op.field op.band _ op.result s (fun _ => h)).trans (sched_kept _ _ _ rfl)

theorem settleJob_kept (op : Operation) (s : State) : Kept s (settleJob op s) := by
  unfold settleJob
  split
  · exact .refl s
  · dsimp only
    split
    · exact setJobs_kept _ s
    · exact (setJobs_kept _ s).trans (completeJob_kept _ _)

theorem blended_result (s : State) (op : Operation) :
    (blended s op).result = imageFrom (fun p => BitVec.ofNat 10 (blendAt s op (weightsOf op) p)) := by
  simp only [blended]

theorem bandDone_kept (s : State) : Kept s (bandDone s) := by
  unfold bandDone
  split
  · split
    · next op _ _ _ =>
      have h : imageWf (blended s op).result = true := by
        rw [blended_result]
        exact imageFrom_wf _
      exact ((handBand_kept (blended s op) s h).trans (settleJob_kept op _)).trans (decideNow_kept _)
    · exact .refl s
  · exact .refl s

theorem cutOperation_kept (s : State) : Kept s (cutOperation s) := by
  unfold cutOperation
  split
  · exact sched_kept s _ _ rfl
  · exact .refl s

theorem abandonJobs_kept (i : Fin 32) (s : State) : Kept s (abandonJobs i s) := by
  unfold abandonJobs
  exact (ite_kept (cutOperation_kept s) (.refl s)).trans (sched_kept _ _ _ rfl)

theorem removeJobs_kept (s : State) : Kept s (removeJobs s) := by
  unfold removeJobs
  refine (cutOperation_kept s).trans ?_
  exact .of_same rfl rfl rfl rfl rfl rfl rfl rfl rfl rfl

theorem passSlot_kept (i : Fin 32) (s : State) : Kept s (passSlot i s) := by
  unfold passSlot
  refine ite_kept ?_ (.refl s)
  refine Kept.trans ?_ (releaseRefs_kept i _)
  refine Kept.trans ?_ (setSlot_kept i _ _)
  exact forBands_kept (fun f b t => moveBand_kept i f b .passed t) s

theorem resetScheduler_kept (s : State) : Kept s (resetScheduler s) := by
  unfold resetScheduler
  have h := (removeJobs_kept s).trans (forSlots_kept passSlot_kept (removeJobs s))
  generalize forSlots passSlot (removeJobs s) = u at h ⊢
  exact h.trans (sched_kept u { u.sched with bottom := 7, counter := reloadedCounter u.sched } u.repair rfl)

theorem reloadBudget_kept (s : State) : Kept s (reloadBudget s) := by
  unfold reloadBudget
  refine Kept.trans ?_ (decisionPoint_kept _)
  exact .of_same rfl rfl rfl rfl rfl rfl rfl rfl rfl rfl

/-! ### Spare space and verification -/

/-- An update of the Tracker and the allocator alone. -/
theorem verify_kept (s : State) (v : Verify) (p : Spare) : Kept s { s with verify := v, spare := p } :=
  .of_same rfl rfl rfl rfl rfl rfl rfl rfl rfl rfl

theorem settleInFlight_kept (kind : WriteKind) (s : State) : Kept s (settleInFlight kind s) := by
  unfold settleInFlight
  exact ite_kept (verify_kept s _ _) (.refl s)

theorem addIfRelocated_kept (kind : WriteKind) (frame relocated attempt : Nat) (s : State) :
    Kept s (addIfRelocated kind frame relocated attempt s) := by
  unfold addIfRelocated
  exact ite_kept (verify_kept s _ _) (.refl s)

theorem changePlan_kept (mark : IndexMark) (change : PlanBlock → PlanBlock) (s : State) : Kept s (changePlan mark change s) :=
  verify_kept s _ _

theorem failIndex_kept (mark : IndexMark) (s : State) : Kept s (failIndex mark s) := by
  unfold failIndex
  refine ite_kept (verify_kept s _ _) ?_
  unfold abandonBlock postIndexFailed
  exact ((changePlan_kept mark _ s).trans (verify_kept _ _ _)).trans (postAlert_kept _ _)

theorem postRetirement_kept (o : FrameOutcome) (s : State) : Kept s (postRetirement o s) := by
  unfold postRetirement
  exact ite_kept ((verify_kept s _ _).trans (postAlert_kept _ _)) (verify_kept s _ _)

theorem retireFrame_kept (i : Fin 32) (o : FrameOutcome) (s : State) : Kept s (retireFrame i o s) :=
  (postRetirement_kept o s).trans (retireSlot_kept i o _)

theorem retireCopy_kept (copy : SlotRecord) (o : FrameOutcome) (s : State) : Kept s (retireCopy copy o s) :=
  (postRetirement_kept o s).trans (handOver_kept _ _)

theorem retireGapFill_kept (frame address : Nat) (fill : Option FillSource) (cue : Option Byte) (o : FrameOutcome) (s : State) :
    Kept s (retireGapFill frame address fill cue o s) :=
  (postRetirement_kept o s).trans (addReport_kept _ _)

theorem queueRelocation_kept (i : Fin 32) (cause : FailCause) (s : State) : Kept s (queueRelocation i cause s) :=
  (setSlot_kept i _ s).trans (verify_kept _ _ _)

theorem resolveFrame_kept (e : PendingEntry) (r : Effective) (s : State) : Kept s (resolveFrame e r s) := by
  unfold resolveFrame resolveForfeited resolveSlot
  split
  · dsimp only
    split
    · exact (addIfRelocated_kept ..).trans (retireCopy_kept ..)
    · exact ite_kept ((addIfRelocated_kept ..).trans (retireCopy_kept ..)) (retireCopy_kept ..)
  · split
    · refine ite_kept ?_ (.refl s)
      dsimp only
      split
      · exact (addIfRelocated_kept ..).trans (retireFrame_kept ..)
      · exact ite_kept (queueRelocation_kept ..)
          (ite_kept ((addIfRelocated_kept ..).trans (retireFrame_kept ..)) (retireFrame_kept ..))
    · exact .refl s

theorem resolveIndex_kept (e : PendingEntry) (r : Effective) (s : State) : Kept s (resolveIndex e r s) := by
  unfold resolveIndex
  cases e.index with
  | none => exact .refl s
  | some mark =>
    cases r with
    | pass o => exact changePlan_kept mark _ s
    | fail cause => exact failIndex_kept mark s

theorem resolveEntry_kept (e : PendingEntry) (v : Verdict) (s : State) : Kept s (resolveEntry e v s) := by
  unfold resolveEntry
  refine (settleInFlight_kept e.kind s).trans ?_
  split
  · exact resolveIndex_kept ..
  · exact retireGapFill_kept ..
  · exact resolveFrame_kept ..
  · exact resolveFrame_kept ..

theorem timeOutOldest_kept (s : State) : Kept s (timeOutOldest s) := by
  unfold timeOutOldest
  split
  · exact ((verify_kept s _ _).trans (verify_kept _ _ _)).trans (resolveEntry_kept _ _ _)
  · exact .refl s

theorem timeOutAll_kept (fuel : Nat) (s : State) : Kept s (timeOutAll fuel s) := by
  induction fuel generalizing s with
  | zero => exact .refl s
  | succ fuel ih => exact (timeOutOldest_kept s).trans (ih _)

theorem ageAndTimeOut_kept (s : State) : Kept s (ageAndTimeOut s) := (verify_kept s _ _).trans (timeOutAll_kept _ _)

theorem takeOutcome_kept (tag : Nat) (result : Byte) (s : State) : Kept s (takeOutcome tag result s) := by
  unfold takeOutcome
  split
  · exact verify_kept s _ _
  · split
    · exact verify_kept s _ _
    · exact (verify_kept s _ _).trans (resolveEntry_kept _ _ _)

theorem refuseRelocation_kept (q : QueueEntry) (s : State) : Kept s (refuseRelocation q s) := by
  unfold refuseRelocation postSpareExhausted
  refine Kept.trans ?_ (postAlert_kept _ _)
  refine Kept.trans ?_ (retireFrame_kept q.slot _ _)
  exact (verify_kept s _ _).trans (verify_kept _ _ _)

theorem resolveUnverified_kept (e : PendingEntry) (s : State) : Kept s (resolveUnverified e s) := by
  unfold resolveUnverified
  refine (settleInFlight_kept e.kind s).trans ?_
  have hf (u : State) : Kept u
      (match e.copy with
        | some copy => retireCopy copy .unverified u
        | none =>
          match e.slot with
          | some i => if slotFits e i u then retireFrame i .unverified u else u
          | none => u) := by
    split
    · exact retireCopy_kept ..
    · split
      · exact ite_kept (retireFrame_kept ..) (.refl u)
      · exact .refl u
  split
  · split
    · exact failIndex_kept _ _
    · exact .refl _
  · exact retireGapFill_kept ..
  · exact hf _
  · exact hf _

theorem resolveAllUnverified_kept (s : State) : Kept s (resolveAllUnverified s) := by
  unfold resolveAllUnverified
  refine Kept.trans ?_ (foldl_kept (fun t e => resolveUnverified_kept e t) _ _)
  exact .of_same rfl rfl rfl rfl rfl rfl rfl rfl rfl rfl

theorem loseQueue_kept (s : State) : Kept s (loseQueue s) := by
  unfold loseQueue
  have h : Kept s { s with verify := { s.verify with queue := [] } } := verify_kept s _ _
  refine h.trans ?_
  generalize ({ s with verify := { s.verify with queue := [] } } : State) = u
  exact foldl_kept (fun t (q : QueueEntry) => retireFrame_kept q.slot .lost t) s.verify.queue u

/-! ### The Recorder Feed -/

/-- An update of the Feed's record and of the last recorder-line message. -/
theorem feed_kept (s : State) (f : Feed) (m : Option RecorderMessage) : Kept s { s with feed := f, recorderOut := m } :=
  .of_same rfl rfl rfl rfl rfl rfl rfl rfl rfl rfl

theorem image_wf (s : State) (i : Fin 32) (f : Field) (b : Fin 18) (h : memoryCanonical s) : imageWf (s.image i f b) = true := by
  have k := (Memory.wf_iff s.buffers).mp h
  cases f
  · exact (k i .a b)
  · exact (k i .b b)

theorem settleBand_kept (i : Fin 32) (f : Field) (b : Fin 18) (s : State) : Kept s (settleBand i f b s) := by
  unfold settleBand
  split
  · exact moveBandWith_kept _ _ _ _ _ s (image_wf s _ f b)
  · exact moveBand_kept ..

theorem forceCommit_kept (i : Fin 32) (s : State) : Kept s (forceCommit i s) := by
  unfold forceCommit
  exact ((((abandonJobs_kept i s).trans (setSlot_kept i _ _)).trans
    (forBands_kept (fun f b t => settleBand_kept i f b t) _)).trans (releaseRefs_kept i _)).trans (decisionPoint_kept _)

theorem tallyFeed_kept (change : FeedTallies → FeedTallies) (s : State) : Kept s (tallyFeed change s) := feed_kept s _ _

theorem sendIdle_kept (s : State) : Kept s (sendIdle s) := (tallyFeed_kept _ s).trans (feed_kept _ _ _)

theorem passH_kept (h : Nat) (s : State) : Kept s (passH h s) := by
  have k : Kept s { s with gaps := consumeGap s.gaps h } := gaps_kept (fun l => (consumeGap_length _ _).trans l)
  exact k.trans (feed_kept _ _ _)

theorem startOriginal_kept (h : Nat) (i : Fin 32) (forced : Bool) (s : State) : Kept s (startOriginal h i forced s) := by
  unfold startOriginal
  have k1 := (feed_kept s { s.feed with tagCounter := (s.feed.tagCounter + 1) % 65536 } s.recorderOut).trans
    (tallyFeed_kept (tallyOriginal forced (s.slots[i].state == .repairing)) _)
  have k2 : Kept s (if (s.slots[i].state == .repairing) = true then
      forceCommit i (tallyFeed (tallyOriginal forced (s.slots[i].state == .repairing)) (takeTag s)) else
      tallyFeed (tallyOriginal forced (s.slots[i].state == .repairing)) (takeTag s)) :=
    ite_kept (k1.trans (forceCommit_kept i _)) k1
  exact (((k2.trans (setSlot_kept i _ _)).trans (feed_kept _ _ _)).trans (passH_kept h _)).trans (feed_kept _ _ _)

theorem startGapFill_kept (h : Nat) (s : State) : Kept s (startGapFill h s) := by
  unfold startGapFill
  exact ((((feed_kept s _ _).trans (tallyFeed_kept _ _)).trans (feed_kept _ _ _)).trans (passH_kept h _)).trans (feed_kept _ _ _)

theorem startRelocation_kept (q : QueueEntry) (address : Nat) (s : State) : Kept s (startRelocation q address s) := by
  unfold startRelocation
  exact (((((verify_kept s _ _).trans (feed_kept _ _ _)).trans (tallyFeed_kept _ _)).trans (verify_kept _ _ _)).trans
    (setSlot_kept _ _ _)).trans (feed_kept _ _ _)

theorem startIndex_kept (b : PlanBlock) (address : Nat) (s : State) : Kept s (startIndex b address s) := by
  unfold startIndex
  exact (((feed_kept s _ _).trans (tallyFeed_kept _ _)).trans ((changePlan_kept _ _ _).trans (verify_kept _ _ _))).trans
    (feed_kept _ _ _)

theorem relocate_kept (fuel : Nat) (s : State) : Kept s (relocate fuel s).1 := by
  induction fuel generalizing s with
  | zero => exact .refl s
  | succ fuel ih =>
    unfold relocate
    split
    · exact .refl s
    · split
      · exact startRelocation_kept _ _ s
      · exact ((refuseRelocation_kept _ s).trans (tallyFeed_kept _ _)).trans (ih _)

theorem relocateOr_kept (writable : Option (Nat × Fin 32)) (s : State) : Kept s (relocateOr writable s) := by
  unfold relocateOr
  have h := relocate_kept s.verify.queue.length s
  refine ite_kept h ?_
  split
  · exact h.trans (startOriginal_kept _ _ _ _)
  · exact h.trans (sendIdle_kept _)

theorem titleChoice_kept (s : State) : Kept s (titleChoice s) := by
  unfold titleChoice
  split
  · exact startGapFill_kept _ s
  · exact startOriginal_kept _ _ _ s
  · exact relocateOr_kept _ s
  · exact relocateOr_kept _ s

theorem answerSlot_kept (s : State) : Kept s (answerSlot s) := by
  unfold answerSlot
  have hw : Kept s { s with feed := { s.feed with state := .waiting } } := feed_kept s _ _
  have hc : Kept s
      (match ({ s with feed := { s.feed with state := .waiting } } : State).title.state with
        | .idle => sendIdle { s with feed := { s.feed with state := .waiting } }
        | .armed => sendIdle { s with feed := { s.feed with state := .waiting } }
        | .running => titleChoice { s with feed := { s.feed with state := .waiting } }
        | .draining => titleChoice { s with feed := { s.feed with state := .waiting } }
        | .closing => indexChoice { s with feed := { s.feed with state := .waiting } }) := by
    split
    · exact hw.trans (sendIdle_kept _)
    · exact hw.trans (sendIdle_kept _)
    · exact hw.trans (titleChoice_kept _)
    · exact hw.trans (titleChoice_kept _)
    · refine hw.trans ?_
      unfold indexChoice
      split
      · exact startIndex_kept _ _ _
      · exact sendIdle_kept _
  split
  · exact (tallyFeed_kept _ s).trans (sendIdle_kept _)
  · exact hc
  · exact hc

theorem pauseFeed_kept (s : State) : Kept s (pauseFeed s) := by
  unfold pauseFeed
  split
  · exact feed_kept s _ _
  · exact feed_kept s _ _
  · exact .refl s

theorem resumeFeed_kept (s : State) : Kept s (resumeFeed s) := by
  unfold resumeFeed
  split
  · exact .refl s
  · exact feed_kept s _ _
  · exact feed_kept s _ _

theorem endWrite_kept (w : Flight) (s : State) : Kept s (endWrite w s) := by
  unfold endWrite slotWriteEnd
  refine Kept.trans ?_ (feed_kept _ _ _)
  refine (verify_kept s _ _).trans (?_ : Kept (addEntry w s) _)
  split
  · exact windowWriteEnd_kept _ _ _
  · exact .refl _

theorem cancelWrite_kept (s : State) : Kept s (cancelWrite s) := by
  unfold cancelWrite
  split
  · exact .refl s
  · dsimp only
    split
    · exact (((setSlot_kept _ _ s).trans (feed_kept _ _ _)).trans (tallyFeed_kept _ _)).trans (feed_kept _ _ _)
    · exact ((feed_kept s _ _).trans (tallyFeed_kept _ _)).trans (feed_kept _ _ _)

theorem settleCancelled_kept (w : Flight) (s : State) : Kept s (settleCancelled w s) := by
  unfold settleCancelled
  have h : Kept s (match w.slot with | some i => retireFrame i .unverified s | none => s) := by
    split
    · exact retireFrame_kept ..
    · exact .refl s
  split
  · exact h
  · exact h
  · exact retireGapFill_kept ..
  · split
    · exact failIndex_kept _ s
    · exact .refl s

theorem resetRecorder_kept (s : State) : Kept s (resetRecorder s) := by
  unfold resetRecorder
  have h : Kept s (cancelAndSettle s) := by
    unfold cancelAndSettle
    split
    · exact .refl s
    · exact (cancelWrite_kept s).trans (settleCancelled_kept _ _)
  have h2 := (h.trans (resolveAllUnverified_kept _)).trans (loseQueue_kept _)
  refine h2.trans ?_
  exact .of_same rfl rfl rfl rfl rfl rfl rfl rfl rfl rfl

theorem abortFeed_kept (s : State) : Kept s (abortFeed s) := feed_kept s _ _

/-! ### The title and ingest -/

/-- An update of the title's record, ingest's, the Feed's and the allocator's alone. -/
theorem title_kept (s : State) (t : Title) (g : Ingest) (f : Feed) (p : Spare) :
    Kept s { s with title := t, ingest := g, feed := f, spare := p } :=
  .of_same rfl rfl rfl rfl rfl rfl rfl rfl rfl rfl

theorem checkDrain_kept (s : State) : Kept s (checkDrain s) := by
  unfold checkDrain
  exact ite_kept (title_kept s _ _ _ _) (.refl s)

theorem checkClose_kept (s : State) : Kept s (checkClose s) := by
  unfold checkClose
  refine ite_kept ?_ (.refl s)
  exact (((postTitleEvent_kept _ s).trans (title_kept _ _ _ _ _)).trans (windowClose_kept _)).trans (title_kept _ _ _ _ _)

theorem settle_kept (s : State) : Kept s (settle s) :=
  ((checkDrain_kept s).trans (checkClose_kept _)).trans (tellConditions_kept _)

theorem classifyField_kept (i : Fin 32) (f : Field) (s : State) : Kept s (classifyField i f s) := by
  unfold classifyField
  dsimp only
  refine ite_kept (.refl s) ?_
  have h (k : Option (Fin 16)) : Kept s { s with classifier := countMatch k s.classifier } :=
    .of_same rfl rfl rfl (by cases k <;> rfl) rfl rfl rfl rfl rfl rfl
  exact (h _).trans (createJob_kept ..)

theorem startRepair_kept (i : Fin 32) (n : Nat) (s : State) : Kept s (startRepair i n s) := by
  unfold startRepair
  exact ((((setSlot_kept i _ s).trans (takeP_kept i n _)).trans (setSlot_kept i _ _)).trans (classifyField_kept i .a _)).trans
    (classifyField_kept i .b _)

theorem windowComplete_kept (i : Fin 32) (s : State) : Kept s (windowComplete i s) := by
  unfold windowComplete
  have h1 := setSlot_kept i { s.slots[i] with age := some 0 } s
  exact ((ite_kept (h1.trans (setSlot_kept i _ _)) (h1.trans (startRepair_kept i _ _))).trans (takeN_kept i _ _)).trans
    (decisionPoint_kept _)

/-- An update of ingest's record and the title's alone. -/
theorem ingest_kept (s : State) (g : Ingest) (t : Title) : Kept s { s with ingest := g, title := t } :=
  .of_same rfl rfl rfl rfl rfl rfl rfl rfl rfl rfl

theorem setFrame_kept (a : Option Assembly) (s : State) : Kept s (setFrame a s) := ingest_kept s _ _

theorem completeFrame_kept (i : Fin 32) (s : State) : Kept s (completeFrame i s) :=
  (((markFieldMissing_kept i .a s).trans (markFieldMissing_kept i .b _)).trans (setFrame_kept none _)).trans
    (windowComplete_kept i _)

theorem closeFrame_kept (s : State) : Kept s (closeFrame s) := by
  unfold closeFrame
  split
  · exact .refl s
  · split
    · exact completeFrame_kept _ s
    · exact setFrame_kept _ s

theorem enterStopped_kept (s : State) : Kept s (enterStopped s) := by
  unfold enterStopped
  have h : Kept s { s with ingest := { s.ingest with state := .stopped } } := ingest_kept s _ _
  exact ite_kept (h.trans (decisionPoint_kept _)) h

theorem stopAccepting_kept (s : State) : Kept s (stopAccepting s) := by
  unfold stopAccepting
  have h : Kept s { s with ingest := { s.ingest with accepting := false } } := ingest_kept s _ _
  dsimp only
  split
  · exact h
  · exact h.trans (enterStopped_kept _)
  · split
    · exact h.trans (enterStopped_kept _)
    · split
      · exact h.trans ((setFrame_kept _ _).trans (enterStopped_kept _))
      · exact h

theorem enterDraining_kept (s : State) : Kept s (enterDraining s) := (ingest_kept s _ _).trans (stopAccepting_kept _)

theorem ensureStopped_kept (s : State) : Kept s (ensureStopped s) := ite_kept (.refl s) (enterStopped_kept s)

theorem refuseFull_kept (s : State) : Kept s (refuseFull s) := by
  unfold refuseFull reportTitleFull
  have h : Kept s (discardField s) := ingest_kept s _ _
  exact (h.trans (ite_kept ((postAlert_kept _ _).trans (enterDraining_kept _)) (.refl _))).trans (ensureStopped_kept _)

theorem beginFrame_kept (parity : Field) (signals : SideSignals) (s : State) : Kept s (beginFrame parity signals s) := by
  unfold beginFrame
  have h := (allocate_kept (s.ingest.next.getD 0) parity signals s).trans
    (ingest_kept _
      (begunIngest (s.ingest.next.getD 0) parity (allocate (s.ingest.next.getD 0) parity signals s).2
        (allocate (s.ingest.next.getD 0) parity signals s).1.ingest)
      (allocate (s.ingest.next.getD 0) parity signals s).1.title)
  dsimp only
  split
  · exact ite_kept (h.trans (markFieldMissing_kept _ .a _)) h
  · exact h.trans (decisionPoint_kept _)
  · exact h

theorem frameStart_kept (parity : Field) (signals : SideSignals) (s : State) : Kept s (frameStart parity signals s) := by
  unfold frameStart
  exact ite_kept (refuseFull_kept s)
    (ite_kept (beginFrame_kept parity signals s) ((ingest_kept s _ _).trans (ensureStopped_kept _)))

theorem joinFrame_kept (a : Assembly) (signals : SideSignals) (s : State) : Kept s (joinFrame a signals s) := by
  unfold joinFrame
  dsimp only
  split
  · exact ((ite_kept (markFieldMissing_kept _ .a s) (.refl s)).trans (setSlot_kept _ _ _)).trans (setFrame_kept _ _)
  · exact setFrame_kept _ s

theorem takeFieldStart_kept (parity : Field) (signals : SideSignals) (s : State) :
    Kept s (takeFieldStart parity signals s) := by
  unfold takeFieldStart
  split
  · exact .refl s
  · unfold acquireFieldStart
    refine ite_kept ((ingest_kept s _ _).trans (ingest_kept _ _ _)) ?_
    split
    · exact ingest_kept s _ _
    · exact ite_kept (refuseFull_kept s) ((ingest_kept s _ _).trans (beginFrame_kept _ _ _))
  · unfold lockedFieldStart
    have h : Kept s { s with ingest := { s.ingest with watch := 0 } } := ingest_kept s _ _
    dsimp only
    split
    · exact (h.trans (closeFrame_kept _)).trans (frameStart_kept _ _ _)
    · split
      · exact ite_kept (h.trans (joinFrame_kept _ _ _)) ((h.trans (closeFrame_kept _)).trans (frameStart_kept _ _ _))
      · exact h.trans (frameStart_kept _ _ _)

theorem takeBand_kept (index count : Byte) (samples : BandImage) (s : State) : Kept s (takeBand index count samples s) := by
  have hi : Kept s (ignoreBand s) := ingest_kept s _ _
  unfold takeBand lockedBand storeBand
  split
  · exact .refl s
  · exact hi
  · split
    · exact hi
    · split
      · exact hi
      · split
        · exact .refl s
        · split
          · split
            · split
              · exact recordBand_kept ..
              · exact hi
            · exact hi
          · exact hi

theorem stopIfDrained_kept (s : State) : Kept s (stopIfDrained s) := ite_kept (.refl s) (ensureStopped_kept s)

theorem takeFieldEnd_kept (s : State) : Kept s (takeFieldEnd s) := by
  unfold takeFieldEnd
  split
  · exact .refl s
  · exact .refl s
  · split
    · exact .refl s
    · split
      · exact .refl s
      · unfold endFieldA
        refine Kept.trans ?_ (setFrame_kept _ _)
        split
        · exact markFieldMissing_kept _ .a s
        · exact .refl s
      · unfold endFieldB
        split
        · exact (completeFrame_kept _ s).trans (stopIfDrained_kept _)
        · exact (setFrame_kept _ s).trans (stopIfDrained_kept _)

theorem loseLock_kept (s : State) : Kept s (loseLock s) := by
  unfold loseLock
  have h := closeFrame_kept s
  exact ite_kept ((h.trans (ingest_kept _ _ _)).trans (decisionPoint_kept _))
    ((h.trans (ingest_kept _ _ _)).trans (decisionPoint_kept _))

theorem checkLock_kept (s : State) : Kept s (checkLock s) := ite_kept (loseLock_kept s) (.refl s)

theorem watchBoundary_kept (s : State) : Kept s (watchBoundary s) :=
  ite_kept ((ingest_kept s _ _).trans (checkLock_kept _)) (.refl s)

theorem resetIngest_kept (s : State) : Kept s (resetIngest s) := by
  unfold resetIngest
  have hd : Kept s (discardAssembly s).1 := by
    unfold discardAssembly
    split
    · exact .refl s
    · split
      · unfold discardFilling
        split
        · next h => exact (gaps_kept (recordGap_length h)).trans (freeSlot_kept _ _)
        · exact ((ingest_kept s _ _).trans (postAlert_kept _ _)).trans (freeSlot_kept _ _)
      · exact .refl s
  have hr (t : State) : Kept t (resetIngestState t) := ite_kept (ingest_kept t _ _) (ingest_kept t _ _)
  have h :=
    (hd.trans (ingest_kept _ { (discardAssembly s).1.ingest with frame := none, watch := 0 } (discardAssembly s).1.title)).trans
      (hr _)
  dsimp only
  have h2 := ite_kept (p := (discardAssembly s).2 = true) (h.trans (decisionPoint_kept _)) h
  exact ite_kept (h2.trans (decisionPoint_kept _)) h2

theorem abortIngest_kept (s : State) : Kept s (abortIngest s) :=
  ite_kept ((ingest_kept s _ _).trans (decisionPoint_kept _)) (ingest_kept s _ _)

theorem abortTitle_kept (s : State) : Kept s (abortTitle s) := by
  unfold abortTitle
  exact ((((((((cancelWrite_kept s).trans (abortFeed_kept _)).trans (removeJobs_kept _)).trans (windowAbort_kept _)).trans
    (verify_kept _ _ _)).trans (abortIngest_kept _)).trans (title_kept _ _ _ _ _)).trans (ingest_kept _ _ _)).trans
    (tellConditions_kept _)

theorem resetSection_kept (x : Section) (s : State) : Kept s (resetSection x s) := by
  cases x
  · exact (resetIngest_kept s).trans (settle_kept _)
  · exact (resetScheduler_kept s).trans (settle_kept _)
  · exact (resetRecorder_kept s).trans (settle_kept _)

end Sys2Proof.Machine
end

