-- ==== Sys2Proof/Laws/Ingest.lean ====
section
/-! SUPPORT. What closing a field can do, said once: the bands not yet recorded become MISSING, and ingest's own record has no part in
it (R2, R43). -/

namespace Sys2Proof.Machine

/-- A band not yet recorded becomes MISSING. -/
theorem markMissing_spec (i : Fin 32) (f : Field) (b : Fin 18) (s : State) (h : (s.slots[i]).band f b = none) :
    markMissing i f b s = (s.setBand i f b { count := 255, state := .damaged }).setImage i f b blackImage := by
  unfold markMissing
  rw [h]
  dsimp only
  unfold recordBand
  have e : recordedState s.settings.threshold 255 = .damaged := by simp [recordedState]
  rw [e]
  rfl

/-- A band marked MISSING in a slot, read at any band: what the bands marked so far have become. -/
def MissingOver (i : Fin 32) (p : Field → Fin 18 → Prop) (s u : State) : Prop :=
  (∀ f b, p f b → (s.slots[i]).band f b = none →
    (u.slots[i]).band f b = some { count := 255, state := .damaged } ∧ u.image i f b = blackImage) ∧
  (∀ (j : Fin 32) f b, ¬(j = i ∧ p f b ∧ (s.slots[i]).band f b = none) →
    (u.slots[j]).band f b = (s.slots[j]).band f b ∧ u.image j f b = s.image j f b) ∧
  (∀ j : Fin 32, { u.slots[j] with bands := s.slots[j].bands } = s.slots[j]) ∧
  { u with slots := s.slots, buffers := s.buffers } = s

theorem MissingOver.none (i : Fin 32) (s : State) : MissingOver i (fun _ _ => False) s s :=
  ⟨fun _ _ h => h.elim, fun _ _ _ _ => ⟨rfl, rfl⟩, fun _ => rfl, rfl⟩

theorem MissingOver.one (i : Fin 32) (f : Field) (b : Fin 18) (s : State) :
    MissingOver i (fun g c => g = f ∧ c = b) s (markMissing i f b s) := by
  cases h : (s.slots[i]).band f b with
  | some x =>
    have e : markMissing i f b s = s := by
      unfold markMissing
      rw [h]
    rw [e]
    refine ⟨?_, fun _ _ _ _ => ⟨rfl, rfl⟩, fun _ => rfl, rfl⟩
    rintro g c ⟨rfl, rfl⟩ h2
    rw [h] at h2
    cases h2
  | none =>
    rw [markMissing_spec i f b s h]
    have hs : ∀ j : Fin 32,
        ((s.setBand i f b { count := 255, state := .damaged }).setImage i f b blackImage).slots[j] =
          if i = j then s.slots[i].setBand f b { count := 255, state := .damaged } else s.slots[j] := fun j => setSlot_slots s i j _
    have hi : ∀ (j : Fin 32) (g : Field) (c : Fin 18),
        ((s.setBand i f b { count := 255, state := .damaged }).setImage i f b blackImage).image j g c =
          if i = j ∧ f = g ∧ b = c then blackImage else s.image j g c := fun j g c => setImage_image _ i j f g b c _
    refine ⟨?_, ?_, ?_, rfl⟩
    · rintro g c ⟨rfl, rfl⟩ -
      rw [hs, hi, if_pos rfl, if_pos ⟨rfl, rfl, rfl⟩]
      exact ⟨setBand_band .., rfl⟩
    · intro j g c hn
      have hne : ¬(i = j ∧ f = g ∧ b = c) := by
        rintro ⟨rfl, rfl, rfl⟩
        exact hn ⟨rfl, ⟨rfl, rfl⟩, h⟩
      rw [hs, hi, if_neg hne]
      refine ⟨?_, rfl⟩
      split
      · next e =>
        subst e
        exact setBand_band_other _ _ _ _ _ _ (by rintro ⟨rfl, rfl⟩; exact hne ⟨rfl, rfl, rfl⟩)
      · rfl
    · intro j
      rw [hs]
      split
      · next e =>
        subst e
        rfl
      · rfl

theorem MissingOver.trans {i : Fin 32} {p q : Field → Fin 18 → Prop} {s t u : State} (h : MissingOver i p s t)
    (k : MissingOver i q t u) : MissingOver i (fun f b => p f b ∨ q f b) s u := by
  obtain ⟨a1, a2, a3, a4⟩ := h
  obtain ⟨b1, b2, b3, b4⟩ := k
  refine ⟨?_, ?_, ?_, ?_⟩
  · intro f b hpq hn
    by_cases hp : p f b
    · have h1 := a1 f b hp hn
      have h3 := b2 i f b (by rintro ⟨-, -, h⟩; rw [h1.1] at h; cases h)
      rw [h3.1, h3.2]
      exact h1
    · have h3 := a2 i f b (by rintro ⟨-, h, -⟩; exact hp h)
      exact b1 f b (hpq.resolve_left hp) (by rw [h3.1]; exact hn)
  · intro j f b hn
    have e1 := a2 j f b (by rintro ⟨h1, h2, h3⟩; exact hn ⟨h1, .inl h2, h3⟩)
    have e2 := b2 j f b (by rintro ⟨h1, h2, h3⟩; subst h1; exact hn ⟨rfl, .inr h2, by rw [← e1.1]; exact h3⟩)
    exact ⟨e2.1.trans e1.1, e2.2.trans e1.2⟩
  · intro j
    have h1 := a3 j
    have h2 := b3 j
    generalize u.slots[j] = U at *
    generalize t.slots[j] = T at *
    generalize s.slots[j] = S at *
    rw [← h1, ← h2]
  · rw [← a4, ← b4]

theorem MissingOver.field (i : Fin 32) (f : Field) (s : State) :
    MissingOver i (fun g b => g = f ∧ b.val < bandsPer s.settings.format) s (markFieldMissing i f s) := by
  unfold markFieldMissing
  have key : ∀ (l : List (Fin 18)) (s : State),
      MissingOver i (fun g b => g = f ∧ b ∈ l) s (l.foldl (fun t b => markMissing i f b t) s) := by
    intro l
    induction l with
    | nil => intro s; simpa using MissingOver.none i s
    | cons a l ih =>
      intro s
      rw [List.foldl_cons]
      convert (MissingOver.one i f a s).trans (ih (markMissing i f a s)) using 3
      simp
      tauto
  convert key (bandsOf s) s using 4
  unfold bandsOf
  simp

theorem MissingOver.marked {i : Fin 32} {fields : List Field} {s u : State}
    (h : MissingOver i (fun g b => g ∈ fields ∧ b.val < bandsPer s.settings.format) s u) : markedMissing i fields s u := by
  obtain ⟨a1, a2, a3, a4⟩ := h
  refine ⟨?_, ?_, a3, a4⟩
  · rintro f b ⟨-, h1, h2, h3⟩
    exact a1 f b ⟨h1, h2⟩ h3
  · intro j f b hn
    refine a2 j f b ?_
    rintro ⟨h1, ⟨h2, h3⟩, h4⟩
    exact hn ⟨h1, h2, h3, h4⟩

/-- A field closed: its bands not yet recorded are MISSING, and nothing else changes. -/
theorem markFieldMissing_spec (i : Fin 32) (f : Field) (s : State) : markedMissing i [f] s (markFieldMissing i f s) := by
  apply MissingOver.marked
  simpa using MissingOver.field i f s

/-- Both fields closed: the bands of either not yet recorded are MISSING, and nothing else changes. -/
theorem markFrameMissing_spec (i : Fin 32) (s : State) :
    markedMissing i [.a, .b] s (markFieldMissing i .b (markFieldMissing i .a s)) := by
  apply MissingOver.marked
  have h := (MissingOver.field i .a s).trans (MissingOver.field i .b (markFieldMissing i .a s))
  have e : (markFieldMissing i .a s).settings = s.settings := by
    have h := congrArg State.settings (MissingOver.field i .a s).2.2.2
    exact h
  rw [e] at h
  convert h using 3
  simp
  tauto

/-- Closing a field reads and writes nothing of ingest's own record. -/
theorem markFieldMissing_ingest (i : Fin 32) (f : Field) (s : State) (g : Ingest) :
    markFieldMissing i f { s with ingest := g } = { markFieldMissing i f s with ingest := g } := by
  unfold markFieldMissing
  have key : ∀ (l : List (Fin 18)) (s : State),
      l.foldl (fun t b => markMissing i f b t) { s with ingest := g } =
        { l.foldl (fun t b => markMissing i f b t) s with ingest := g } := by
    intro l
    induction l with
    | nil => intro s; rfl
    | cons a l ih =>
      intro s
      rw [List.foldl_cons, List.foldl_cons, ← ih]
      congr 1
      unfold markMissing
      dsimp only
      cases (s.slots[i]).band f a <;> rfl
  exact key _ s

end Sys2Proof.Machine
end

