-- ==== Sys2Proof/Laws/Link.lean ====
section
/-! SUPPORT. The control line: what serving a request leaves of the link, what a request does on a line at rest, and what a message's
start of transmission does. -/

namespace Sys2Proof.Machine

/-- The owner of a request leaves the link's traffic as it is. -/
structure LinkKept (s t : State) : Prop where
  receiver : t.link.receiver = s.link.receiver
  queue : t.link.queue = s.link.queue
  sending : t.link.sending = s.link.sending
  waiting : t.link.waiting = s.link.waiting
  pending : t.pending = s.pending

theorem LinkKept.of_same {s t : State} (h : t.link = s.link) (hp : t.pending = s.pending) : LinkKept s t := by
  constructor <;> simp [h, hp]

theorem LinkKept.of_kept {s t : State} (h : Kept s t) : LinkKept s t := ⟨h.receiver, h.queue, h.sending, h.waiting, h.pending⟩

theorem LinkKept.trans {s t u : State} (h : LinkKept s t) (k : LinkKept t u) : LinkKept s u :=
  ⟨k.receiver.trans h.receiver, k.queue.trans h.queue, k.sending.trans h.sending, k.waiting.trans h.waiting,
    k.pending.trans h.pending⟩

theorem carryOut_link (q : RequestName) (payload : List Byte) (s : State) : LinkKept s (carryOut q payload s).1 := by
  have same : LinkKept s s := .of_same rfl rfl
  cases q
  · unfold carryOut carryConfigure
    dsimp only
    split
    · exact same
    · exact .of_same rfl rfl
  · unfold carryOut carryLoadRule
    dsimp only
    split
    · exact same
    · exact .of_same rfl rfl
  · unfold carryOut carryLoadEntry
    dsimp only
    split
    · exact same
    · exact .of_same rfl rfl
  · unfold carryOut carryAdjust
    dsimp only
    split
    · exact same
    · refine LinkKept.trans ?_ (.of_kept ((decisionPoint_kept _).trans (tellConditions_kept _)))
      exact .of_same rfl rfl
  · unfold carryOut carryDeclareSpare
    dsimp only
    split
    · unfold pairSpare
      dsimp only [answer]
      split <;> exact .of_same rfl rfl
    · exact same
  · unfold carryOut carryOpenTitle
    dsimp only
    split
    · unfold pairTitle
      dsimp only [answer]
      split <;> exact .of_same rfl rfl
    · exact same
  · unfold carryOut carryStart
    dsimp only
    split
    · exact same
    · split
      · exact .of_same rfl rfl
      · exact same
  · exact .of_kept ((enterDraining_kept s).trans (settle_kept _))
  · exact .of_kept (abortTitle_kept s)
  · unfold carryOut carryCue
    dsimp only
    split
    · exact same
    · exact .of_same rfl rfl
  · unfold carryOut carryReadReport
    dsimp only
    split
    · exact same
    · exact .of_same rfl rfl
  · unfold carryOut carryAckAlerts
    dsimp only
    split
    · exact .of_same rfl rfl
    · exact same
  · unfold carryOut carrySectionReset
    dsimp only
    split
    · exact same
    · exact .of_kept (resetSection_kept _ s)
  · unfold carryOut carryQuery
    dsimp only
    split
    · exact same
    · split <;> exact same
  · exact same

/-- Serving a request leaves the link's traffic and the queue of commands as they are. -/
theorem serveRequest_link (r : Request) (s : State) : LinkKept s (serveRequest r s).1 := by
  have same : LinkKept s s := .of_same rfl rfl
  unfold serveRequest
  split
  · exact same
  · split
    · exact same
    · split
      · exact same
      · exact carryOut_link _ _ s

/-- A message placed with nothing waiting or in transmission begins. -/
theorem placeMessage_begins (m : Message) (s : State) (hs : s.link.sending = none) (hw : s.link.waiting = []) :
    placeMessage m s = beginMessage m s := by
  unfold placeMessage sendNext setLink
  simp only [hs, hw, List.nil_append]
  congr 1
  rw [← hw, ← hs]

/-- On a line at rest a request is served at once, and its reply begins. -/
theorem takeRequest_at_rest (r : Request) (s : State) (h : lineAtRest s) :
    takeRequest r s =
      sending (replyClass r (serveRequest r s).2) (byteOf (r.kind.toNat + 128)) r.tag (serveRequest r s).2
        (serveRequest r s).1 := by
  obtain ⟨hq, hs, hw⟩ := h
  have k := serveRequest_link r s
  have e : (setLink (fun k => { k with queue := k.queue ++ [r] }) s).link.queue = [r] := by simp [hq]
  have e2 : setLink (fun k => { k with queue := [] }) (setLink (fun k => { k with queue := k.queue ++ [r] }) s) = s := by
    unfold setLink
    dsimp only
    rw [← hq]
  unfold takeRequest
  rw [if_pos (by simp [hq])]
  unfold serveNext
  rw [e]
  dsimp only
  rw [if_pos (by simp [serverFree, hs, hw]), e2]
  unfold serveAndReply
  rw [placeMessage_begins _ _ (k.sending.trans hs) (k.waiting.trans hw)]
  unfold beginMessage replyMessage replyClass
  split <;> rfl

/-- A request that passes its three checks is carried out. -/
theorem serveRequest_carried {r : Request} {q : RequestName} {s : State} (hk : requestOf r.kind = some q)
    (hl : lengthFits q r.payload = true) (ha : acceptedIn q s.title.state = true) :
    serveRequest r s = carryOut q r.payload s := by
  unfold serveRequest
  rw [hk]
  simp [hl, ha]

/-- On a line at rest a request other than RESET that passes its three checks is carried out, and its reply begins. -/
theorem takeRequest_carried {r : Request} {q : RequestName} {s : State} (h : lineAtRest s) (hk : requestOf r.kind = some q)
    (hl : lengthFits q r.payload = true) (ha : acceptedIn q s.title.state = true) (hq : q ≠ .reset) :
    takeRequest r s =
      replying (byteOf (r.kind.toNat + 128)) r.tag (carryOut q r.payload s).2 (carryOut q r.payload s).1 := by
  rw [takeRequest_at_rest r s h, serveRequest_carried hk hl ha]
  unfold replyClass
  rw [hk, if_neg (by simp [hq])]

end Sys2Proof.Machine
end

