-- ==== Sys2Proof/Laws/Serve.lean ====
section
/-! SUPPORT. What serving jobs can do, said once: a decision point changes slot records, the Scheduler, the unit's operation and the walk
counts alone, and a band record only from DAMAGED to PASSED, but for a RETAINED slot that becomes FREE (R23, R87 to R92). -/

namespace Sys2Proof.Machine

/-- What serving may make of one slot's record: its band records stay or go from DAMAGED to PASSED, or the slot becomes FREE from
RETAINED. -/
def ServedRecord (r t : SlotRecord) : Prop :=
  ((∀ (f : Field) (b : Fin 18),
      t.band f b = r.band f b ∨ ∃ y, r.band f b = some y ∧ y.state = .damaged ∧ t.band f b = some { y with state := .passed }) ∧
    (t.state = .retained → r.state = .retained) ∧ (r = SlotRecord.freed → t = SlotRecord.freed)) ∨
  (r.state = .retained ∧ t = SlotRecord.freed)

theorem ServedRecord.refl (r : SlotRecord) : ServedRecord r r := .inl ⟨fun _ _ => .inl rfl, id, id⟩

theorem ServedRecord.trans {r t u : SlotRecord} (h : ServedRecord r t) (k : ServedRecord t u) : ServedRecord r u := by
  rcases h with ⟨h1, h2, h3⟩ | ⟨h1, h2⟩
  · rcases k with ⟨k1, k2, k3⟩ | ⟨k1, k2⟩
    · refine .inl ⟨fun f b => ?_, fun x => h2 (k2 x), fun x => k3 (h3 x)⟩
      rcases h1 f b with e | ⟨y, hy, hd, ht⟩
      · rw [← e]
        exact k1 f b
      · rcases k1 f b with e' | ⟨z, hz, hzd, -⟩
        · exact .inr ⟨y, hy, hd, e'.trans ht⟩
        · rw [ht] at hz
          cases hz
          cases hzd
    · exact .inr ⟨h2 k1, k2⟩
  · rcases k with ⟨-, -, k3⟩ | ⟨k1, -⟩
    · exact .inr ⟨h1, k3 h2⟩
    · rw [h2] at k1
      cases k1

/-- Serving has changed slot records as it may, the Scheduler, the unit's operation and the walk counts alone. -/
structure ServeKept (s t : State) : Prop where
  slots : ∀ j : Fin 32, ServedRecord s.slots[j] t.slots[j]
  counts : t.repair.counts = s.repair.counts
  rest : { t with slots := s.slots, sched := s.sched, repair := s.repair, strategy := s.strategy } = s

theorem ServeKept.of_rest {s t : State} (hs : t.slots = s.slots) (hc : t.repair.counts = s.repair.counts)
    (h : { t with slots := s.slots, sched := s.sched, repair := s.repair, strategy := s.strategy } = s) : ServeKept s t :=
  ⟨fun j => by rw [hs]; exact .refl _, hc, h⟩

theorem ServeKept.refl (s : State) : ServeKept s s := .of_rest rfl rfl rfl

theorem ServeKept.trans {s t u : State} (h : ServeKept s t) (k : ServeKept t u) : ServeKept s u :=
  ⟨fun j => (h.slots j).trans (k.slots j), k.counts.trans h.counts, by rw [← h.rest, ← k.rest]⟩

theorem setSlot_served (i : Fin 32) (r : SlotRecord) (s : State) (h : ServedRecord s.slots[i] r) : ServeKept s (s.setSlot i r) := by
  refine ⟨fun j => ?_, rfl, rfl⟩
  rw [setSlot_slots]
  split
  · next e => subst e; exact h
  · exact .refl _

theorem setJobs_served (jobs : List Job) (s : State) : ServeKept s (setJobs jobs s) := .of_rest rfl rfl rfl

theorem dropRef_served (j : Fin 32) (s : State) : ServeKept s (dropRef j s) := by
  obtain ⟨v, hv⟩ := dropRef_rest s j
  refine ⟨fun k => ?_, by rw [hv], by rw [hv]⟩
  rw [dropRef_slots]
  split
  · next e =>
    subst e
    split
    · next h => exact .inr ⟨h.1, rfl⟩
    · exact .inl ⟨fun _ _ => .inl rfl, id, fun h => by rw [h]; rfl⟩
  · exact .refl _

theorem releaseRefs_served (i : Fin 32) (s : State) : ServeKept s (releaseRefs i s) := by
  unfold releaseRefs
  have h : ServeKept s (s.setSlot i { s.slots[i] with heldP := none, heldN := none }) :=
    setSlot_served i _ s (.inl ⟨fun _ _ => .inl rfl, id, fun h => by rw [h]⟩)
  dsimp only
  split
  · split
    · exact h.trans ((dropRef_served _ _).trans (dropRef_served _ _))
    · exact h.trans (dropRef_served _ _)
  · split
    · exact h.trans (dropRef_served _ _)
    · exact h

theorem slotJobEnded_served (i : Fin 32) (s : State) : ServeKept s (slotJobEnded i s) := by
  unfold slotJobEnded
  split
  · next hr =>
    have h (n : Nat) (t : SlotState) (ht : t = .repairing ∨ t = .ready) :
        ServedRecord s.slots[i] { s.slots[i] with jobsOutstanding := n, state := t } :=
      .inl ⟨fun _ _ => .inl rfl, fun e => by rcases ht with ht | ht <;> (rw [ht] at e; cases e),
        fun e => by rw [e] at hr; cases hr⟩
    dsimp only
    have e : s.setSlot i { s.slots[i] with jobsOutstanding := s.slots[i].jobsOutstanding - 1 } =
        s.setSlot i { s.slots[i] with jobsOutstanding := s.slots[i].jobsOutstanding - 1, state := .repairing } := by
      rw [← hr]
    rw [e]
    have h1 := setSlot_served i _ s (h (s.slots[i].jobsOutstanding - 1) .repairing (.inl rfl))
    split
    · refine (h1.trans (setSlot_served i _ _ ?_)).trans (releaseRefs_served i _)
      exact .inl ⟨fun _ _ => .inl rfl, fun e => by (dsimp only at e; cases e), fun e => by rw [setSlot_slots, if_pos rfl] at e; cases e⟩
    · exact h1
  · exact .refl s

theorem completeJob_served (j : Job) (s : State) : ServeKept s (completeJob j s) := by
  unfold completeJob
  exact (slotJobEnded_served j.slot s).trans (.of_rest rfl rfl rfl)

theorem moveBand_served (i : Fin 32) (f : Field) (b : Fin 18) (s : State) : ServeKept s (moveBand i f b .passed s) := by
  unfold moveBand
  split
  · next x hx =>
    split
    · next hd =>
      refine setSlot_served i _ s (.inl ⟨fun g c => ?_, id, fun e => ?_⟩)
      · by_cases h : g = f ∧ c = b
        · obtain ⟨rfl, rfl⟩ := h
          exact .inr ⟨x, hx, hd, setBand_band ..⟩
        · exact .inl (setBand_band_other _ _ _ _ _ _ h)
      · rw [e] at hx
        cases f <;> simp [SlotRecord.band, PerField.get] at hx
    · exact .refl s
  · exact .refl s

theorem passTurn_served (j : Job) (b : Fin 18) (s : State) : ServeKept s (passTurn j b s).1 := by
  unfold passTurn
  have h := (moveBand_served j.slot j.field b s).trans (setJobs_served ((moveBand j.slot j.field b .passed s).sched.jobs.map
    (fun k => if k.creation = j.creation then
      { k with
        held := false, settled := k.settled + 1,
        cursor := nextDamaged (moveBand j.slot j.field b .passed s) j.slot j.field (b.val + 1) } else k)) _)
  dsimp only
  split
  · exact h
  · exact h.trans (completeJob_served j _)

theorem bandTurn_served (j : Job) (s : State) : ServeKept s (bandTurn j s).1 := by
  have hc (w : WalkResult) : ServeKept s { s with strategy := countWalk w s.strategy } := .of_rest rfl rfl rfl
  unfold bandTurn
  split
  · exact completeJob_served j s
  · dsimp only
    split
    · split
      · unfold takeTurn
        split
        · exact (hc _).trans (setJobs_served _ _)
        · exact (hc _).trans (.of_rest rfl rfl rfl)
      · exact (hc _).trans (passTurn_served j _ _)
    · exact (hc _).trans (passTurn_served j _ _)
    · exact (hc _).trans (passTurn_served j _ _)
    · exact (hc _).trans (setJobs_served _ _)

theorem arbitrate_served (s : State) : ServeKept s (arbitrate s) := by
  unfold arbitrate
  dsimp only
  split
  · exact .of_rest rfl rfl rfl
  · split
    · exact .of_rest rfl rfl rfl
    · exact .of_rest rfl rfl rfl

theorem serveJobs_served (fuel : Nat) (next : TurnNext) (s : State) : ServeKept s (serveJobs fuel next s) := by
  induction fuel generalizing next s with
  | zero => exact .refl s
  | succ fuel ih =>
    cases next with
    | rest => exact .refl s
    | decision => exact (arbitrate_served s).trans (ih _ _)
    | turn =>
      unfold serveJobs
      split
      · exact .refl s
      · split
        · exact .refl s
        · exact (bandTurn_served _ s).trans (ih _ _)

/-- All that a decision point can do, but for what it makes of the Scheduler and the walk counts. -/
theorem decisionPoint_served (s : State) : ServeKept s (decisionPoint s) := by
  unfold decisionPoint
  split
  · exact .of_rest rfl rfl rfl
  · exact serveJobs_served _ _ s

/-- A decision point leaves ingest as it is. -/
@[simp] theorem decisionPoint_ingest (s : State) : (decisionPoint s).ingest = s.ingest := by
  have h := congrArg State.ingest (decisionPoint_served s).rest
  exact h

/-- A decision point leaves every sample as it is. -/
@[simp] theorem decisionPoint_image (s : State) (i : Fin 32) (f : Field) (b : Fin 18) :
    (decisionPoint s).image i f b = s.image i f b := by
  have h := congrArg (fun t : State => t.image i f b) (decisionPoint_served s).rest
  exact h

end Sys2Proof.Machine
end

