-- ==== Sys2Proof/Tests/Slice0.lean ====
section
/-! SUPPORT. The tests: the ill-formed commands that `Instr.WellFormed` refuses, the worked examples of the spec one step at a time, and
one witness for the hypotheses of every statement, with the boundary values of its clauses. -/

namespace Sys2Proof.Tests

open Sys2Proof.Machine

-- One test at a time, so that the checks do not hold their memory together.
set_option Elab.async false

/-! ### Well-formedness -/

theorem test_wf_band_unsorted : Instr.WellFormed (.band 0 0 [(5, 100), (3, 100)]) = false := by decide +kernel

theorem test_wf_band_repeated : Instr.WellFormed (.band 0 0 [(5, 100), (5, 101)]) = false := by decide +kernel

theorem test_wf_band_black : Instr.WellFormed (.band 0 0 [(1, 64)]) = false ∧ Instr.WellFormed (.band 0 0 [(2, 512)]) = false := by
  decide +kernel

theorem test_wf_band_range :
    Instr.WellFormed (.band 0 0 [(23040, 100)]) = false ∧ Instr.WellFormed (.band 0 0 [(23039, 100)]) = true := by
  decide +kernel

theorem test_wf_payload :
    Instr.WellFormed (.configure 0 (List.replicate 251 0)) = false ∧
      Instr.WellFormed (.configure 0 (List.replicate 250 0)) = true := by
  decide +kernel

theorem test_wf_kind :
    Instr.WellFormed (.unassignedRequest 15 0 []) = false ∧ Instr.WellFormed (.unassignedRequest 16 0 []) = true ∧
      Instr.WellFormed (.unassignedRequest 0 0 []) = true ∧ Instr.WellFormed (.unassignedRequest 127 0 []) = true ∧
      Instr.WellFormed (.unassignedRequest 128 0 []) = false := by
  decide +kernel

/-- No row of the table has bits, so no word spells a command. -/
theorem test_decode_none : decodeTableWord 16 0 = none := rfl

/-! ### States the tests start from -/

/-- A command taken; a stop (there is none) leaves the state. -/
def after (c : Instr) (s : State) : State :=
  match exec c s with
  | .next t => t
  | .fault _ => s
  | .refused _ => s

/-- No side signal. -/
def none3 : SideSignals := ⟨false, false, false⟩

/-- A title of capacity 100 from address 1000, first frame 100. -/
def title : TitleDeclaration := ⟨7, 1000, 100, 100⟩

/-- RUNNING, ingest in ACQUIRE and accepting, the next frame 100. -/
def acquiring : State :=
  { State.reset with
    title := { state := .running, declaration := some title }
    ingest := { State.reset.ingest with state := .acquire, accepting := true, next := some 100, last := some 199 } }

/-- RUNNING, ingest LOCKED with no frame under assembly, the next frame 100. -/
def locked : State := { acquiring with ingest := { acquiring.ingest with state := .locked } }

/-- LOCKED, with frame 100 under assembly in slot 3 and a field open. -/
def assembling (f : Field) : State :=
  { locked with
    slots := locked.slots.set 3 { SlotRecord.freed with state := .filling, frame := some 100 }
    ingest :=
      { locked.ingest with
        next := some 101
        frame :=
          some { number := 100, slot := some 3, begunA := true, begunB := f == .b, openField := some f } } }

/-- A CLEAN band and a DAMAGED one. -/
def cleanBand : BandRecord := { count := 0, state := .clean }

def damagedBand : BandRecord := { count := 9, state := .damaged }

/-- Frame 100 in slot 3 with its 36 bands CLEAN. -/
def cleanRecord (state : SlotState) : SlotRecord :=
  { SlotRecord.freed with
    state := state, frame := some 100, bands := ⟨Vector.replicate 18 (some cleanBand), Vector.replicate 18 (some cleanBand)⟩ }

/-- The line at rest, with the reply of a served request in transmission. -/
def replyingState : State := replying 0x8F 1 [18] State.reset

/-- A request in the receive queue. -/
def request : Request := { kind := 0, tag := 9, payload := [] }

/-! ### The spec's worked examples -/

/-- 11.2's check is that of x^16 + x^12 + x^5 + 1 from all ones: the value for the digits 1 to 9 (R181). -/
theorem test_check : checkOf [0x31, 0x32, 0x33, 0x34, 0x35, 0x36, 0x37, 0x38, 0x39] = 0x29B1 := by decide +kernel

/-- Chapter 6: the class 1 blend, the class 2 blend and the roundings of TEMPORAL. -/
theorem test_blend :
    blendSample ⟨24, 24, 16⟩ 500 540 (spatialOf [610, 631]) = 545 ∧ blendSample ⟨12, 12, 40⟩ 200 260 900 = 649 ∧
      blendSample weightsTemporal 700 701 0 = 701 ∧ blendSample weightsTemporal 700 703 0 = 702 ∧
      blendSample weightsTemporal 300 420 0 = 360 := by
  decide +kernel

/-- Chapter 6: reserved codes at the limits. -/
theorem test_blend_limits :
    blendSample weightsSpatial 0 0 (spatialOf [1023]) = 1019 ∧ spatialOf [1023, 1015] = 1017 ∧
      blendSample weightsTemporal (condition 0) (condition 2) 0 = 4 ∧ blendSample ⟨12, 12, 40⟩ 1019 1019 1019 = 1019 := by
  decide +kernel

/-- Chapter 6, "Class boundaries". -/
theorem test_class_boundaries :
    [0, 351, 352, 1247, 1248, 3807, 3808, 64960].map (fun d => (motionMeasure d, motionClass Settings.defaults (motionMeasure d))) =
      [(0, 0), (5, 0), (6, 1), (19, 1), (20, 2), (59, 2), (60, 3), (1015, 3)] := by
  decide +kernel

/-- The rules of 3.8. -/
def exampleRules : Vector (Option Rule) 16 :=
  #v[some ⟨.either, 0, .none, ⟨false, false, true⟩, 6, 9⟩, some ⟨.fieldA, 7, .all, ⟨true, false, false⟩, 0, 4⟩,
    some ⟨.fieldB, 0x3FF00, .none, none3, 2, 6⟩, none, some ⟨.either, 0x1FF, .any, ⟨false, true, false⟩, 4, 2⟩, none, none, none,
    none, none, none, none, none, none, none, none]

/-- 3.8: the four classified fields of frames 2000 to 2002. -/
theorem test_classification :
    let s : State := { State.reset with classifier := { State.reset.classifier with rules := exampleRules } }
    firstMatch s .a [0, 1, 2] ⟨true, false, false⟩ = some 1 ∧ firstMatch s .b [3, 12] ⟨false, true, false⟩ = some 4 ∧
      firstMatch s .b [5] none3 = some 2 ∧ firstMatch s .a (List.finRange 18) none3 = none := by
  decide +kernel

/-- 3.8, under format 30: START names slot 2. -/
theorem test_start_refused :
    let s : State :=
      { State.reset with
        settings := { Settings.defaults with format := .f30 }
        classifier := { State.reset.classifier with rules := exampleRules }
        title := { state := .armed, declaration := some title } }
    (after (.start 1 []) s).link.sending = some { cls := .served, kind := 0x87, tag := 1, payload := [17, 2] } := by
  decide +kernel

/-- Session 3's allocator at its start, and 8.7's: the headroom. -/
theorem test_headroom :
    headroomFrom { lo := 90000, hi := 90039, up := 90034, down := 90039 } 32 256 0 = 3 ∧
      headroomFrom { lo := 70000, hi := 70015, up := 70012, down := 70015 } 10 256 0 = 2 ∧
      headroomFrom { lo := 70000, hi := 70015, up := 70000, down := 70015 } 0 256 0 = 14 := by
  decide +kernel

/-- Session 2, step 4: the forfeit takes the candidate whose tag lies furthest behind the counter. -/
theorem test_forfeit_choice :
    let sent (tag : Nat) : SlotRecord := { SlotRecord.freed with state := .sent, frame := some tag, tag := some tag }
    let s : State :=
      { State.reset with
        slots := ((State.reset.slots.set 0 (sent 402)).set 1 (sent 401)).set 10 (sent 400)
        anchor := some 10
        feed := { State.reset.feed with tagCounter := 412 } }
    forfeitChoice s = some 1 ∧ tagDistance s 1 = 11 := by
  decide +kernel

/-- 9.9, steps 1 and 2: a region that overlaps the title area is refused. -/
theorem test_declare_overlap :
    let s : State := { State.reset with title := { state := .idle, declaration := some ⟨12, 50000, 20000, 3980⟩ } }
    (after (.declareSpare 1 (beBytes 4 69990 ++ beBytes 4 70015)) s).link.sending =
        some { cls := .served, kind := 0x85, tag := 1, payload := [17] } ∧
      (after (.declareSpare 1 (beBytes 4 70000 ++ beBytes 4 70015)) s).title.state = .armed := by
  decide +kernel

/-- 9.9, the timebase: 31 ms after 27 ms is ignored, and 60 ms after 47 ms the part is in FREE RUN. -/
theorem test_timebase :
    let at27 : State :=
      { State.reset with timebase := { State.reset.timebase with last := 27 * 120, boundaryMade := true } }
    let at47 : State :=
      { State.reset with timebase := { State.reset.timebase with last := 47 * 120, boundaryMade := true } }
    (after (.referencePulse (31 * 120) 0) at27).timebase.ignored = 1 ∧
      (after (.enterFreeRun 0) at47).timebase.last = 107 * 120 ∧ (after (.enterFreeRun 0) at47).timebase.mode = .freeRun := by
  decide +kernel

/-- The entries of 4.6. -/
def exampleEntries : Vector StrategyEntry 32 :=
  ((State.reset.strategy.entries.set 4 ⟨.temporal, some 5, true, 6⟩).set 5 ⟨.adaptive, some 7, false, 18⟩).set 7
    ⟨.hold, none, false, 18⟩

/-- 4.6: bands 0 and 1 of frame 2000's field A, before and after frame 2001 completes. -/
theorem test_walk :
    walkFrom exampleEntries 3 ⟨true, false, true⟩ true 8 4 = .defer 4 ∧
      walkFrom exampleEntries 3 ⟨true, true, true⟩ false 8 4 = .taken 4 ∧
      walkFrom exampleEntries 3 ⟨false, true, true⟩ false 8 4 = .taken 5 := by
  decide +kernel

/-! ### Witnesses: the whole part -/

theorem witness_StepTakesFront :
    ({ State.reset with pending := [Instr.pause, .resume] } : State).pending = .pause :: [.resume] ∧ State.reset.pending = [] := by
  decide +kernel

theorem witness_DeviceResets :
    (∃ m, (sending .resetReply 0x8F 1 [0] State.reset).link.sending = some m ∧ m.cls = .resetReply) ∧
      (∃ m, replyingState.link.sending = some m ∧ m.cls ≠ .resetReply) ∧ State.reset.link.sending = none :=
  ⟨⟨_, rfl, rfl⟩, ⟨_, rfl, by decide⟩, rfl⟩

/-- A state that meets every invariant, with a command to take. -/
theorem witness_invariants :
    let s : State := { State.reset with pending := [.pause] }
    memoryCanonical s ∧ linkBounded s ∧ listsBounded s ∧ configurationLegal s ∧ titleSettled s ∧ conditionsTold s ∧
      ∃ t, step s = .next t :=
  ⟨by decide +kernel, by decide +kernel, by decide +kernel, by decide +kernel, by decide +kernel, by decide +kernel, ⟨_, rfl⟩⟩

/-! ### Witnesses: the picture line -/

theorem witness_UnlockedIngestConsumes :
    (titleSettled State.reset ∧ conditionsTold State.reset ∧ State.reset.ingest.state = .stopped) ∧
      let s : State := tellConditions acquiring
      (titleSettled s ∧ conditionsTold s ∧ s.ingest.state = .acquire ∧ s.ingest.discardPending = false) ∧
        let d : State := { s with ingest := { s.ingest with discardPending := true } }
        titleSettled d ∧ conditionsTold d ∧ d.ingest.state = .acquire ∧ d.ingest.discardPending = true := by
  decide +kernel

/-- Frame 100 in slot 3 about to complete, every band CLEAN. -/
def clean : State := { assembling .b with slots := (assembling .b).slots.set 3 (cleanRecord .filling) }

theorem clean_closes :
    clean.slots[(3 : Fin 32)].frame = some 100 ∧ repairIdle clean ∧ cleanFrame clean 3 ∧
      ∀ j : Fin 32, clean.slots[j].state ≠ .repairing := by
  refine ⟨by decide +kernel, by decide +kernel, fun f => ?_, by decide +kernel⟩
  cases f <;> decide +kernel

/-- A DROPPED frame under assembly that has begun both fields. -/
def droppedFrame : State :=
  { locked with
    ingest :=
      { locked.ingest with
        frame := some { number := 100, slot := none, begunA := true, begunB := true, openField := some .b } } }

/-- Frame 100 about to complete with field A band 6 DAMAGED, frame 99 REPAIRING in slot 2, an operation in flight there, and a rule for
band 6 in rule slot 2. -/
def damagedFrame : State :=
  { assembling .b with
    slots :=
      ((assembling .b).slots.set 3 ((cleanRecord .filling).setBand .a 6 damagedBand)).set 2
        { cleanRecord .repairing with frame := some 99, age := some 1 }
    classifier :=
      { (assembling .b).classifier with
        rules := (assembling .b).classifier.rules.set 2 (some ⟨.either, 64, .any, none3, 3, 5⟩) }
    repair :=
      { (assembling .b).repair with
        op :=
          some
            { slot := 2, field := .a, band := 6, kind := .hold, usable := ⟨true, true, true⟩, phase := .blend, m := none,
              motion := none, weights := none, conditioned := false, result := [] } } }

/-- Beginnings in ACQUIRE and in LOCKED, one refused, and the frame a FIELD START cannot join: DROPPED, with an operation in flight, and
clean. -/
theorem witness_FieldStartBeginsFrame :
    let refused : State := { locked with ingest := { locked.ingest with accepting := false } }
    (∀ s ∈ [acquiring, locked], s.ingest.next = some 100 ∧ s.ingest.last = some 199 ∧ s.slots[(0 : Fin 32)].state = .free ∧
      ∀ j : Fin 32, j < 0 → s.slots[j].state ≠ .free) ∧
    (acquiring.ingest.state = .acquire ∧ acquiring.ingest.discardPending = false) ∧
    (locked.ingest.state = .locked ∧ locked.ingest.frame = none ∧ locked.ingest.accepting = true) ∧
    (refused.ingest.next = some 100 ∧ refused.ingest.last = some 199 ∧ refused.ingest.state = .locked ∧
      refused.ingest.frame = none ∧ refused.ingest.accepting = false) ∧
    (∀ s ∈ [droppedFrame, damagedFrame, clean], s.ingest.state = .locked ∧ s.ingest.frame.map (fun a => a.begunB) = some true) ∧
    (droppedFrame.ingest.frame.map (fun a => a.slot) = some none ∧ damagedFrame.ingest.frame.map (fun a => a.slot) = some (some 3) ∧
      clean.ingest.frame.map (fun a => a.slot) = some (some 3)) ∧
    (damagedFrame.slots[(3 : Fin 32)].frame = some 100 ∧ damagedFrame.repair.op.isSome = true) := by
  decide +kernel

/-- R38: a frame begun with field B has field A all MISSING. R39, R44: a FIELD START A closes the frame it cannot join, which becomes
REPAIRING, and begins the next. -/
theorem test_field_start_begins :
    (let t := after (.fieldStart .b none3) locked
     t.slots[(0 : Fin 32)].state = .filling ∧ (t.slots[(0 : Fin 32)]).band .a 17 = some { count := 255, state := .damaged } ∧
       (t.slots[(0 : Fin 32)]).band .b 17 = none) ∧
      let t := after (.fieldStart .a none3) damagedFrame
      t.slots[(3 : Fin 32)].state = .repairing ∧ (t.slots[(0 : Fin 32)].state, t.slots[(0 : Fin 32)].frame) = (.filling, some 101) ∧
        t.ingest.next = some 102 ∧ t.sched.jobs.length = 1 := by
  decide +kernel

/-- Sixteen runs, the newest starting at 1000: gap 66534 stretches it to 65535, gap 66535 is refused (R24). -/
def sixteenRuns : List GapRun := (List.range 15).map (fun k => ⟨10 * k, 1⟩) ++ [⟨1000, 1⟩]

/-- LOCKED with no slot FREE, every one READY. -/
def full (next : Nat) : State :=
  { locked with
    slots := Vector.replicate 32 { SlotRecord.freed with state := .ready }
    ingest := { locked.ingest with next := some next, last := some 70000 } }

/-- Each way without a FREE slot: frame 401's slot forfeited for its tag, a drop under PROTECT DISC, a drop for want of a candidate,
and the drop whose gap is refused. -/
theorem witness_FieldStartDropsFrame :
    let sent (tag : Nat) : SlotRecord := { SlotRecord.freed with state := .sent, frame := some tag, tag := some tag }
    let f : State :=
      { full 100 with
        slots := ((full 100).slots.set 0 (sent 402)).set 1 (sent 401)
        settings := { State.reset.settings with pressure := .protectSource } }
    let r : State := { full 66535 with gaps := sixteenRuns }
    (∀ s ∈ [full 100, f, r], s.ingest.state = .locked ∧ s.ingest.frame = none ∧ s.ingest.accepting = true ∧
      s.ingest.last = some 70000 ∧ (∀ j : Fin 32, s.slots[j].state ≠ .free) ∧ repairIdle s) ∧
    (f.settings.pressure = .protectSource ∧ forfeitCandidate f 1 = true ∧
      ∀ j : Fin 32, j ≠ 1 → forfeitCandidate f j = true → tagDistance f j < tagDistance f 1) ∧
    ((full 100).settings.pressure = .protectDisc ∧ recordGap (full 100).gaps 100 = some [⟨100, 1⟩]) ∧
    (∀ j : Fin 32, forfeitCandidate (full 100) j = false) ∧ recordGap r.gaps 66535 = none := by
  decide +kernel

/-- The frame under assembly between its fields. -/
def between : Assembly := { number := 100, slot := some 3, begunA := true, begunB := false, openField := none }

/-- With field A ended, with it still open, and with the frame DROPPED. -/
theorem witness_FieldStartJoinsFrame :
    let s (a : Assembly) : State := { assembling .a with ingest := { (assembling .a).ingest with frame := some a } }
    let still : Assembly := { between with openField := some .a }
    (∀ a ∈ [between, still, { between with slot := none }],
      (s a).ingest.state = .locked ∧ (s a).ingest.frame = some a ∧ a.begunA = true ∧ a.begunB = false) ∧
    (between.slot = some 3 ∧ between.openField ≠ some .a) ∧ still.slot = some 3 ∧ still.openField = some .a := by
  decide +kernel

theorem witness_TitleFullDrains :
    let s : State := { locked with ingest := { locked.ingest with next := some 200, last := some 199 } }
    s.ingest.state = .locked ∧ s.ingest.frame = none ∧ s.title.state = .running ∧ repairIdle s ∧ s.ingest.next = some 200 ∧
      s.ingest.last = some 199 ∧ 199 < 200 := by
  decide +kernel

theorem witness_BandIsStored :
    ∃ a, (assembling .a).ingest.state = .locked ∧ (assembling .a).ingest.frame = some a ∧ a.openField = some .a ∧
      a.slot = some 3 ∧ (17 : Fin 18).val = (17 : Byte).toNat ∧ (17 : Fin 18).val < bandsPer (assembling .a).settings.format ∧
      ((assembling .a).slots[(3 : Fin 32)]).band .a 17 = none ∧ imageWf [(1, 65), (23039, 1023)] = true :=
  ⟨_, rfl, rfl, rfl, rfl, rfl, by decide +kernel, by decide +kernel, by decide +kernel⟩

/-- Each clause of BandIsIgnored: ACQUIRE, no frame, no open field, a DROPPED frame, an index at B, a band recorded already. -/
theorem witness_BandIsIgnored :
    acquiring.ingest.state = .acquire ∧ (locked.ingest.state = .locked ∧ locked.ingest.frame = none) ∧
      between.openField = none ∧ ({ between with slot := none, openField := some Field.b } : Assembly).slot = none ∧
      bandsPer (assembling .a).settings.format ≤ (18 : Byte).toNat ∧
      ((cleanRecord .filling).band .a 0).isSome = true ∧ (0 : Fin 18).val = (0 : Byte).toNat := by
  decide +kernel

theorem witness_FieldEndClosesFieldA :
    (assembling .a).ingest.state = .locked ∧
      ∃ a, (assembling .a).ingest.frame = some a ∧ a.slot = some 3 ∧ a.openField = some .a :=
  ⟨rfl, _, rfl, rfl, rfl⟩

theorem witness_FieldEndCompletesCleanFrame :
    clean.ingest.state = .locked ∧ (∃ a, clean.ingest.frame = some a ∧ a.slot = some 3 ∧ a.openField = some .b) ∧
      clean.slots[(3 : Fin 32)].frame = some 100 ∧ repairIdle clean ∧ cleanFrame clean 3 ∧
      ∀ j : Fin 32, clean.slots[j].state ≠ .repairing :=
  ⟨rfl, ⟨_, rfl, rfl, rfl⟩, clean_closes⟩

theorem witness_FieldEndCompletesDamagedFrame :
    damagedFrame.ingest.state = .locked ∧ damagedFrame.slots[(3 : Fin 32)].frame = some 100 ∧
      damagedFrame.repair.op.isSome = true ∧
      (∀ (f : Field) (b : Fin 18), b.val < bandsPer damagedFrame.settings.format →
        ((damagedFrame.slots[(3 : Fin 32)]).band f b).isSome = true) ∧
      damagedSet damagedFrame 3 .a = [6] ∧ classifiedAs damagedFrame 3 .a (some 2) ∧ classifiedAs damagedFrame 3 .b none := by
  have noRule : ∀ l : Fin 16, l ≠ 2 → damagedFrame.classifier.rules[l] = none := by decide +kernel
  have theRule : damagedFrame.classifier.rules[(2 : Fin 16)] = some ⟨.either, 64, .any, none3, 3, 5⟩ := by decide +kernel
  have setA : damagedSet damagedFrame 3 .a = [6] := by decide +kernel
  have setB : damagedSet damagedFrame 3 .b = [] := by decide +kernel
  refine ⟨rfl, by decide +kernel, rfl, fun f => by cases f <;> decide +kernel, setA, ⟨?_, ?_⟩, ?_⟩
  · exact ⟨_, theRule, Or.inl rfl, ⟨6, by rw [setA]; simp, by decide⟩, by simp [none3], by simp [none3], by simp [none3]⟩
  · rintro l hl ⟨r, hr, -⟩
    rw [noRule l (by rintro rfl; exact absurd hl (by decide))] at hr
    cases hr
  · rintro l ⟨r, hr, -, h, -⟩
    by_cases hl : l = 2
    · subst hl
      rw [theRule] at hr
      cases hr
      obtain ⟨b, hb, -⟩ := h
      rw [setB] at hb
      cases hb
    · rw [noRule l hl] at hr
      cases hr

/-- R11, R12, R54, R55: the frame is REPAIRING with P held on slot 2, which holds N on it; one job of tier 3, chain 5, at band 6. -/
theorem test_damaged_frame_completes :
    let t := after .fieldEnd damagedFrame
    t.slots[(3 : Fin 32)].state = .repairing ∧ t.slots[(3 : Fin 32)].heldP = some 2 ∧ t.slots[(3 : Fin 32)].refs = 1 ∧
      t.slots[(2 : Fin 32)].heldN = some 3 ∧ t.slots[(2 : Fin 32)].refs = 1 ∧
      t.sched.jobs.map (fun j => (j.slot, j.field, j.tier, j.chain, j.cursor)) = [(3, .a, 3, 5, some 6)] := by
  decide +kernel

/-- The watch count at 3. -/
def at3 (s : State) : State := { s with ingest := { s.ingest with watch := 3 } }

/-- With no frame, accepting and not; with the frame under assembly DROPPED, with an operation in flight, and clean (`clean_closes`). -/
theorem witness_LockIsLost :
    (∀ s ∈ [at3 locked, at3 droppedFrame, at3 damagedFrame, at3 clean],
      s.ingest.state = .locked ∧ 3 ≤ s.ingest.watch ∧ s.ingest.accepting = true) ∧
    (∀ b : Bool, let s : State := { at3 locked with ingest := { (at3 locked).ingest with accepting := b } }
      s.ingest.state = .locked ∧ 3 ≤ s.ingest.watch ∧ s.ingest.frame = none ∧ repairIdle s) ∧
    (at3 droppedFrame).ingest.frame.map (fun a => a.slot) = some none ∧
    (∀ s ∈ [at3 damagedFrame, at3 clean],
      s.ingest.frame.map (fun a => a.slot) = some (some 3) ∧ s.slots[(3 : Fin 32)].frame = some 100) ∧
    (at3 damagedFrame).repair.op.isSome = true ∧ repairIdle (at3 clean) := by
  decide +kernel

/-- R45: a lost lock completes the frame under assembly with its absent bands MISSING, which the entries of reset pass (R60), then
enters ACQUIRE. -/
theorem test_lock_loss_closes :
    let t := after .lockLoss (at3 (assembling .a))
    t.slots[(3 : Fin 32)].state = .ready ∧ (t.slots[(3 : Fin 32)]).band .b 0 = some { count := 255, state := .passed } ∧
      t.ingest.state = .acquire ∧ t.ingest.frame = none ∧ t.ingest.discardPending = true := by
  decide +kernel

theorem witness_GapIsRecorded :
    sixteenRuns.length ≤ 16 ∧ (∀ r ∈ sixteenRuns, r.first + r.length ≤ 66534) ∧
      (recordGap sixteenRuns 66534).isSome = true ∧ recordGap sixteenRuns 66535 = none := by
  decide +kernel

/-! ### Witnesses: the field timebase -/

/-- A boundary was made at time 0. -/
def boundaryAt0 : State := { State.reset with timebase := { State.reset.timebase with boundaryMade := true } }

/-- LOCKED with the watch count at 2 and no frame under assembly: the next boundary is the third. -/
def watching : State := { locked with ingest := { locked.ingest with watch := 2 } }

theorem witness_PulseMakesBoundary :
    (boundaryAt0.timebase.boundaryMade = true ∧ 2 * (1199 - boundaryAt0.timebase.last) < boundaryAt0.timebase.period) ∧
      boundaryAt0.timebase.period ≤ 2 * (1200 - boundaryAt0.timebase.last) ∧ State.reset.timebase.boundaryMade = false ∧
      repairIdle boundaryAt0 ∧ boundaryAt0.ingest.state ≠ .locked ∧
      (watching.timebase.boundaryMade = false ∧ repairIdle watching ∧ watching.ingest.state = .locked ∧
        2 ≤ watching.ingest.watch ∧ watching.ingest.frame = none) ∧
      (repairIdle (assembling .a) ∧ (assembling .a).ingest.state = .locked ∧ ¬(2 ≤ (assembling .a).ingest.watch)) := by
  decide +kernel

/-- R45: at the third boundary with no FIELD START the lock is lost; before it the watch count rises. -/
theorem test_boundary_watch :
    (after (.referencePulse 0 5) watching).ingest.state = .acquire ∧
      (after (.referencePulse 0 5) (assembling .a)).ingest.watch = 1 ∧
      (after (.enterFreeRun 17) watching).ingest.state = .acquire := by
  decide +kernel

theorem witness_GeneratorMakesBoundary :
    (repairIdle State.reset ∧ State.reset.ingest.state ≠ .locked ∧ State.reset.timebase.mode = .synced) ∧
      let s : State := { watching with timebase := { watching.timebase with mode := .freeRun } }
      repairIdle s ∧ s.ingest.state = .locked ∧ 2 ≤ s.ingest.watch ∧ s.ingest.frame = none ∧ s.timebase.mode = .freeRun := by
  decide +kernel

/-- Nothing owed, a notice owed with the line free, one owed behind a reply with none waiting, and one owed with a notice waiting; the
generator's boundaries in SYNCED and in FREE RUN. -/
theorem witness_BoundaryBeginsNotice :
    let owing (s : State) : State := { s with reports := { s.reports with added := 2 } }
    let sent : Message := { cls := .served, kind := 0x8F, tag := 1, payload := [18] }
    let waits : Notice := { count := 0, carried := Conditions.none, truths := Conditions.none, alerts := Alerts.none, events := [] }
    let notice : Message := { cls := .notice waits, kind := 0xC0, tag := 0, payload := noticeBytes waits }
    let busy (waiting : List Message) : State :=
      let s := owing State.reset
      { s with link := { s.link with sending := some sent, waiting := waiting } }
    let running : State :=
      tellConditions { owing State.reset with timebase := { State.reset.timebase with mode := .freeRun } }
    (∀ s ∈ [State.reset, owing State.reset, busy [], busy [sent, notice], running],
      titleSettled s ∧ conditionsTold s ∧ repairIdle s ∧ s.ingest.state ≠ .locked) ∧
    (State.reset.timebase.boundaryMade = false ∧ State.reset.timebase.mode = .synced ∧ running.timebase.mode = .freeRun) ∧
    noticeOwed State.reset.reports = false ∧ noticeOwed (owing State.reset).reports = true ∧ lineAtRest (owing State.reset) ∧
    (isNotice sent = false ∧ isNotice notice = true) := by
  decide +kernel

/-! ### Witnesses: repair -/

/-- The frame 100 in slot 3 is REPAIRING with field A band 6 DAMAGED, and an operation works on it. -/
def repairing (phase : Phase) : State :=
  { State.reset with
    slots := State.reset.slots.set 3 ((cleanRecord .repairing).setBand .a 6 damagedBand)
    repair :=
      { State.reset.repair with
        op :=
          some
            { slot := 3, field := .a, band := 6, kind := .adaptive, usable := ⟨true, true, true⟩, phase := phase, m := none,
              motion := none, weights := none, conditioned := false, result := [] } } }

/-- A job of slot 3's field A, PENDING at tier 2. -/
def job : Job :=
  { slot := 3, field := .a, tier := 2, chain := 0, damaged := 1, creation := 0, state := .pending, cursor := some 6,
    held := false, settled := 0 }

/-- The frame of `repairing` with no operation, its job ACTIVE, `left` in the budget
counter, frame 99 at hand and frame 101 still to come, entry 0 of the strategy given. -/
def turning (entry : StrategyEntry) (left : Nat) (held : Bool) : State :=
  { repairing .blend with
    slots :=
      ((repairing .blend).slots.set 3 { (repairing .blend).slots[(3 : Fin 32)] with jobsOutstanding := 1 }).set 2
        { cleanRecord .sent with frame := some 99 }
    ingest := locked.ingest
    strategy := { (repairing .blend).strategy with entries := (repairing .blend).strategy.entries.set 0 entry }
    sched :=
      { (repairing .blend).sched with
        jobs := [{ job with state := .active, held := held }], creation := 1, counter := left }
    repair := { (repairing .blend).repair with op := none } }

/-- Each clause: a grant, the job already in service, nothing to serve, a decision owed, a job held at a counter of 0, and the band
turns of SPATIAL at 1 and at 0, of a wait for the next frame, and of PASS with and without a further DAMAGED band and with two jobs
outstanding. -/
theorem witness_DecisionGrantsHighest :
    let active : Job := { job with state := .active }
    let spatial : StrategyEntry := ⟨.spatial, none, false, 18⟩
    let waits : StrategyEntry := ⟨.temporal, none, true, 18⟩
    let pass : StrategyEntry := ⟨.pass, none, false, 18⟩
    let s : State := turning pass 24 false
    let more : State := { s with slots := s.slots.set 3 ((s.slots[(3 : Fin 32)]).setBand .a 17 damagedBand) }
    let jobs : List Job := [active, { job with creation := 1, field := .b }]
    let two : State := { s with slots := s.slots.set 3 { s.slots[(3 : Fin 32)] with jobsOutstanding := 2 } }
    (grantCandidate { s with sched := { s.sched with jobs := [job] } } = some job) ∧
    (grantCandidate s = none ∧ s.sched.jobs = [active] ∧ inService active = true) ∧
    (grantCandidate State.reset = none ∧ State.reset.sched.jobs = [] ∧ State.reset.repair.op = none ∧
      activeJob (arbitrate State.reset) = none) ∧
    (repairing .blend).repair.op.isSome = true ∧
    (activeJob (arbitrate (turning spatial 0 true)) = some { active with held := true } ∧ (turning spatial 0 true).sched.counter = 0) ∧
    (activeJob (arbitrate (turning spatial 1 true)) = some { active with held := true } ∧
      (bandTurn { active with held := true } (arbitrate (turning spatial 1 true))).2 = .rest) ∧
    active.cursor = some 6 ∧
    (walk (turning spatial 1 false) active 6 = .taken 0 ∧ repairKind spatial.kind = some .spatial) ∧
    walk (turning waits 24 false) active 6 = .defer 0 ∧
    (walk s active 6 = .taken 0 ∧ s.strategy.entries[(0 : Fin 32)].kind = .pass ∧
      (s.slots[active.slot]).band .a 6 = some damagedBand ∧ nextDamaged s 3 .a 7 = none ∧ s.slots[(3 : Fin 32)].state = .repairing ∧
      s.slots[(3 : Fin 32)].heldP ≠ some 3 ∧ s.slots[(3 : Fin 32)].heldN ≠ some 3 ∧ s.slots[(3 : Fin 32)].jobsOutstanding ≤ 1) ∧
    nextDamaged more 3 .a 7 = some 17 ∧ 1 < two.slots[(3 : Fin 32)].jobsOutstanding ∧
    s.repair.op = none ∧ (jobs.map (fun k => k.creation)).Nodup := by
  decide +kernel

/-- R14, R88, R89, R92: one decision point serves both jobs of the frame: field A's bands 6 and 17 and field B's band 3 are PASSED in two
and one band turns, and the frame is READY. -/
theorem test_decision_serves_on :
    let s : State := turning ⟨.pass, none, false, 18⟩ 24 false
    let r : SlotRecord := ((s.slots[(3 : Fin 32)]).setBand .a 17 damagedBand).setBand .b 3 damagedBand
    let both : State :=
      { s with
        slots := s.slots.set 3 { r with jobsOutstanding := 2 }
        sched := { s.sched with jobs := [job, { job with creation := 1, field := .b, cursor := some 3 }], creation := 2 } }
    let t := decisionPoint both
    t.sched.jobs = [] ∧ t.sched.counter = 24 ∧ t.sched.completed = 2 ∧ t.slots[(3 : Fin 32)].state = .ready ∧
      (∀ x ∈ [(Field.a, (6 : Fin 18)), (.a, 17), (.b, 3)],
        (t.slots[(3 : Fin 32)]).band x.1 x.2 = some { damagedBand with state := .passed }) := by
  decide +kernel

theorem witness_MeasureDoneChoosesWeights :
    ∃ op, (repairing .measure).repair.op = some op ∧ op.phase = .measure := ⟨_, rfl, rfl⟩

/-- The operation's band DAMAGED, its job ACTIVE, with a further DAMAGED band or none, and one job or two outstanding. -/
theorem witness_BandDoneRepairsBand :
    let s (more : Bool) (n : Nat) : State :=
      let r : SlotRecord := (repairing .blend).slots[(3 : Fin 32)]
      { repairing .blend with
        slots :=
          (repairing .blend).slots.set 3
            { (if more then r.setBand .a 17 damagedBand else r) with jobsOutstanding := n, heldP := some 2 }
        sched := { (repairing .blend).sched with jobs := [{ job with state := .active }], creation := 1 } }
    (∀ more : Bool, ∀ n ∈ [1, 2],
      (s more n).repair.op.map (fun op => (op.phase, op.slot, op.field, op.band)) = some (.blend, 3, .a, 6) ∧
      (s more n).slots[(3 : Fin 32)].state = .repairing ∧ ((s more n).slots[(3 : Fin 32)]).band .a 6 = some damagedBand ∧
      activeJob (s more n) = some { job with state := .active } ∧ (s more n).slots[(3 : Fin 32)].heldP ≠ some 3 ∧
      (s more n).slots[(3 : Fin 32)].heldN ≠ some 3 ∧ (s more n).slots[(3 : Fin 32)].jobsOutstanding = n) ∧
    (damagedBand.state = .damaged ∧ job.slot = 3 ∧ job.field = .a) ∧ nextDamaged (s true 1) 3 .a 7 = some 17 ∧
      nextDamaged (s false 1) 3 .a 7 = none := by
  decide +kernel

/-- R91: the Scheduler's part of BAND DONE moves the cursor to band 17. R14, R92: with no further band it completes the job, and the
frame is READY. -/
theorem test_settle_job :
    let op : Operation :=
      { slot := 3, field := .a, band := 6, kind := .hold, usable := ⟨true, true, true⟩, phase := .blend, m := none, motion := none,
        weights := none, conditioned := false, result := [] }
    let s (more : Bool) : State :=
      let r : SlotRecord := { cleanRecord .repairing with jobsOutstanding := 1 }
      { turning ⟨.hold, none, false, 18⟩ 24 false with
        slots := State.reset.slots.set 3 (if more then r.setBand .a 17 damagedBand else r) }
    (settleJob op (s true)).sched.jobs.map (fun j => (j.settled, j.cursor)) = [(1, some 17)] ∧
      (settleJob op (s false)).sched.jobs = [] ∧ (settleJob op (s false)).slots[(3 : Fin 32)].state = .ready := by
  decide +kernel

/-- Weights of class 1, of which every candidate is bounded, and of SPATIAL and HOLD, of which one is and the others read 0. -/
theorem witness_BlendStaysWithin :
    24 + 24 + 16 = 64 ∧ 4 ≤ 4 ∧ 1019 ≤ 1019 ∧ (4 ≤ 4 ∧ 4 ≤ 1019) ∧ (4 ≤ 1019 ∧ 1019 ≤ 1019) ∧
      (weightsSpatial.p + weightsSpatial.n + weightsSpatial.s = 64 ∧ ¬(0 < weightsSpatial.p) ∧ ¬(4 ≤ 0)) ∧
      blendSample weightsSpatial 0 0 500 = 500 ∧ blendSample ⟨64, 0, 0⟩ 500 0 0 = 500 := by decide +kernel

/-- The four clauses of SpatialAtEdges at the first and last lines of the picture. -/
theorem witness_SpatialAtEdges :
    (16 * (0 : Fin 18).val + 0 / 1440 = 0 ∧ 0 < 23040) ∧ 16 * (0 : Fin 18).val + 1440 / 1440 ≠ 0 ∧
      (16 * (17 : Fin 18).val + 23039 / 1440 + 1 = 16 * bandsPer .f25 ∧ 23039 < 23040) ∧
      16 * (17 : Fin 18).val + 20160 / 1440 + 1 ≠ 16 * bandsPer .f25 ∧ (14 : Fin 18).val + 1 = bandsPer .f30 := by
  decide

/-! ### Witnesses: the recorder line -/

/-- A pending ORIGINAL entry of slot 3. -/
def entry : PendingEntry :=
  { tag := 5, kind := .original, address := 1000, frame := some 100, slot := some 3, forfeited := false, copy := none,
    fill := none, cue := none, index := none, age := 0 }

theorem witness_PauseAndResume :
    State.reset.feed.state = .waiting ∧
      ({ State.reset.feed with state := .writing } : Feed).state = .writing ∧ (after .pause State.reset).feed.state = .paused := by
  decide +kernel

/-- A write of frame 100 from slot 3 is in flight. -/
def flight : Flight :=
  { kind := .original, tag := 5, address := 1000, frame := some 100, slot := some 3, cue := none, fill := none, index := none }

/-- RUNNING, WRITING that frame. -/
def writing : State :=
  { locked with
    slots := locked.slots.set 3 { cleanRecord .sent with streaming := true, tag := some 5, kind := some .original }
    feed := { locked.feed with state := .writing, flight := some flight, tagCounter := 6, h := some 101 } }

/-- Each state that answers IDLE SLOT, an entry pending whose age reaches the timeout and does not exceed it. -/
theorem witness_WriteSlotAnsweredIdle :
    let aged (s : State) : State := { s with verify := { s.verify with entries := [{ entry with age := 23 }] } }
    let armed : State := { State.reset with title := { state := .armed, declaration := some title } }
    let closing : State := { State.reset with title := { state := .closing, declaration := some title } }
    (aged writing).settings.verifyTimeout = 24 ∧
    (∀ s ∈ [aged writing, aged State.reset, aged armed, aged locked, aged closing], noneOverdue s ∧ titleSettled s) ∧
    (aged writing).feed.state = .writing ∧
    (∀ s ∈ [aged State.reset, aged armed, aged locked, aged closing], s.feed.state ≠ .writing) ∧
    ((aged State.reset).title.state = .idle ∧ (aged armed).title.state = .armed) ∧
    ((aged locked).title.state = .running ∧ titleCandidate (aged locked) = .none ∧ (aged locked).verify.queue = []) ∧
    (aged closing).title.state = .closing ∧ nextIndexBlock (aged closing) = none := by
  decide +kernel

/-- RUNNING, with H at 100. -/
def ready : State := { locked with feed := { locked.feed with h := some 100 } }

/-- Frame 100 in slot 3, READY or REPAIRING with band 6 DAMAGED, and an entry pending. -/
def toWrite (r : SlotRecord) (age : Nat) (queue : List QueueEntry) : State :=
  { ready with
    slots := ready.slots.set 3 { r with age := some age }
    verify := { ready.verify with queue := queue, entries := [{ entry with tag := 6, slot := some 9, age := 23 }] } }

/-- Frame 100 REPAIRING and forced: band 6 DAMAGED with the anchor's CLEAN, band 7 DAMAGED with the anchor's PASSED, its job ACTIVE. -/
def forced : State :=
  let s := toWrite (((cleanRecord .repairing).setBand .a 6 damagedBand).setBand .a 7 damagedBand) 8 []
  { s with
    slots :=
      s.slots.set 1
        { (cleanRecord .sent).setBand .a 7 { damagedBand with state := .passed } with frame := some 99, refs := 1 }
    anchor := some 1
    sched := { s.sched with jobs := [{ job with state := .active }], creation := 1 }
    repair := (repairing .blend).repair }

/-- The three ways to write frame 100: forced at the commit lag with a relocation waiting, unforced with none, and a forced commit. -/
theorem witness_WriteSlotWritesFrame :
    let rdy := toWrite (cleanRecord .ready)
    (∀ t ∈ [(rdy 8 [⟨9, 90, .bad⟩], 8), (rdy 7 [], 7), (forced, 8)],
      t.1.title.state = .running ∧ t.1.title.declaration = some title ∧ t.1.feed.state ≠ .writing ∧ noneOverdue t.1 ∧
        t.1.feed.h = some 100 ∧ t.1.slots[(3 : Fin 32)].frame = some 100 ∧ t.1.slots[(3 : Fin 32)].age = some t.2 ∧
        (∀ j : Fin 32, t.1.slots[j].frame = some 100 → t.1.slots[j].state ≠ .free → j = 3)) ∧
    ((rdy 8 [⟨9, 90, .bad⟩]).slots[(3 : Fin 32)].state = .ready ∧ (rdy 8 [⟨9, 90, .bad⟩]).settings.commitLag ≤ 8) ∧
    ((rdy 7 []).slots[(3 : Fin 32)].state = .ready ∧ (rdy 7 []).verify.queue = [] ∧ ¬((rdy 7 []).settings.commitLag ≤ 7)) ∧
    forced.slots[(3 : Fin 32)].state = .repairing ∧ forced.slots[(3 : Fin 32)].heldP ≠ some 3 ∧
      forced.slots[(3 : Fin 32)].heldN ≠ some 3 ∧ (∀ j ∈ forced.sched.jobs, j.slot = 3) ∧
      forced.repair.op.map (fun op => op.slot) = some 3 ∧ bandUsable forced 1 .a 6 = true ∧ bandUsable forced 1 .a 7 = false := by
  decide +kernel

/-- R16, R17, R97: the forced commit leaves band 6 HELD and band 7 PASSED, the frame SENT with its cut band tallied. -/
theorem test_forced_commit :
    let t := after .writeSlot forced
    t.slots[(3 : Fin 32)].state = .sent ∧ (t.slots[(3 : Fin 32)]).band .a 6 = some { damagedBand with state := .held } ∧
      (t.slots[(3 : Fin 32)]).band .a 7 = some { damagedBand with state := .passed } ∧ t.sched.jobs = [] ∧
      t.sched.bandsCut = 1 ∧ t.feed.tallies.forcedCommits = 1 ∧ t.verify.entries.map (fun e => e.age) = [24] := by
  decide +kernel

/-- With an anchor and with none. -/
theorem witness_WriteSlotFillsGap :
    let s : State := { ready with gaps := [⟨100, 1⟩] }
    let a : State := { s with slots := s.slots.set 1 { cleanRecord .sent with frame := some 99 }, anchor := some 1 }
    ∀ u ∈ [s, a],
      u.title.state = .running ∧ u.title.declaration = some title ∧ u.feed.state ≠ .writing ∧ noneOverdue u ∧
        u.feed.h = some 100 ∧ (∀ j : Fin 32, u.slots[j].frame ≠ some 100) ∧ u.gaps.any (runCovers 100) = true := by
  decide +kernel

/-- The last block that R156 lets go, 14 of a region of 16, and the first refused; the title candidate unforced and none. -/
theorem witness_WriteSlotRelocates :
    let r (up : Nat) : Region := { lo := 5000, hi := 5015, up := up, down := 5015 }
    let s (up inFlight : Nat) (cause : FailCause) : State :=
      { ready with
        slots :=
          (ready.slots.set 3 { cleanRecord .relocating with frame := some 90 }).set 4 { cleanRecord .ready with age := some 7 }
        spare := { ready.spare with region := some (r up), inFlight := inFlight }
        verify := { ready.verify with queue := [⟨3, 90, cause⟩], entries := [{ entry with age := 23 }] } }
    let bare (cause : FailCause) : State := { s 5014 14 cause with feed := { ready.feed with h := none } }
    (∀ t ∈ [s 5013 13 .bad, bare .bad, bare .marginal],
      t.title.state = .running ∧ t.title.declaration = some title ∧ t.feed.state ≠ .writing ∧ noneOverdue t ∧
        t.slots[(3 : Fin 32)].frame = some 90) ∧
    titleCandidate (s 5013 13 .bad) = .original 4 false ∧ titleCandidate (bare .bad) = .none ∧
    headroomFits (r 5013) 13 1 = true ∧ headroomFits (r 5014) 14 1 = false := by
  decide +kernel

/-- R21, R154: a MARGINAL frame refused retires MARGINAL with SPARE EXHAUSTED and no FRAME LOST. -/
theorem test_relocation_refused :
    let s : State :=
      { locked with
        slots := locked.slots.set 3 { cleanRecord .relocating with frame := some 90, refs := 1 }
        spare := { locked.spare with region := some { lo := 5000, hi := 5015, up := 5014, down := 5015 }, inFlight := 14 }
        verify := { locked.verify with queue := [⟨3, 90, .marginal⟩] } }
    let t := after .writeSlot s
    t.slots[(3 : Fin 32)].state = .retained ∧ t.reports.alerts.spareExhausted = true ∧ t.reports.alerts.frameLost = false ∧
      t.reports.done.map (fun p => (p.frame, p.outcome)) = [(90, .marginal)] ∧ t.recorderOut = some .idleSlot := by
  decide +kernel

/-- An index block, first writing, TO WRITE. -/
def block (n : Nat) : PlanBlock :=
  { mark := { number := n, rewrite := false }, state := .toWrite, tag := none, address := none }

theorem witness_WriteSlotWritesIndex :
    let r : Region := { lo := 5000, hi := 5015, up := 5000, down := 5015 }
    let s : State :=
      { State.reset with
        title := { state := .closing, declaration := some title }
        verify := { State.reset.verify with entries := [{ entry with kind := .index, slot := none, frame := none, age := 23 }] }
        spare := { State.reset.spare with region := some r, plan := some ([{ block 0 with state := .done }] ++ block 1 :: []) } }
    s.title.state = .closing ∧ s.feed.state ≠ .writing ∧ noneOverdue s ∧ s.spare.region = some r ∧
      s.spare.plan = some ([{ block 0 with state := .done }] ++ block 1 :: []) ∧
      (∀ x ∈ [{ block 0 with state := .done }], x.state ≠ .toWrite) ∧ (block 1).state = .toWrite ∧
      (∀ x ∈ [{ block 0 with state := .done }] ++ [], x.mark ≠ (block 1).mark) ∧ (r.up : Int) ≤ r.down := by
  decide +kernel

theorem witness_WriteEndMakesEntry :
    State.reset.feed.flight = none ∧ writing.feed.flight = some flight ∧
      flight.slot = some 3 ∧ writing.slots[(3 : Fin 32)].state = .sent ∧ writing.slots[(3 : Fin 32)].streaming = true := by
  decide +kernel

theorem witness_OutcomeDiscarded :
    ((0 : Byte) ≠ 1 ∧ (0 : Byte) ≠ 2 ∧ (0 : Byte) ≠ 3) ∧
      ((4 : Byte) ≠ 1 ∧ (4 : Byte) ≠ 2 ∧ (4 : Byte) ≠ 3) ∧
      ∀ e ∈ State.reset.verify.entries, e.tag ≠ (5 : BitVec 16).toNat := by
  decide +kernel

/-- Thirty-two reports waiting. -/
def fullList (s : State) : State :=
  { s with reports := { s.reports with done := List.replicate 32 (gapFillReport s 90 1090 none none .good) } }

/-- An ORIGINAL entry and a RELOCATED one with attempts made 0 (GOOD has nothing to report), 1 and 2 (all that are allowed), overdue and
not, and the done list full; a forfeited entry and a GAP FILL; the entry that a WRITE SLOT taken while WRITING times out. -/
theorem witness_OutcomeSettlesFrame :
    let other : PendingEntry := { entry with tag := 6, slot := some 4 }
    let copy : SlotRecord := { cleanRecord .sent with forfeited := true }
    let gone : PendingEntry := { entry with slot := none, copy := some copy }
    let gap : PendingEntry := { entry with kind := .gapFill, slot := none, fill := some .black }
    let s (e : PendingEntry) (attempts : Nat) : State :=
      fullList
        { locked with
          slots := locked.slots.set 3 { cleanRecord .sent with attempts := attempts }
          verify := { locked.verify with entries := [] ++ e :: [other] } }
    (∀ e ∈ [entry, { entry with kind := .relocated, age := 25 }], ∀ k ∈ [0, 1, 2],
      (s e k).title.declaration = some title ∧ (s e k).verify.entries = [] ++ e :: [other] ∧ e.tag = (5 : BitVec 16).toNat ∧
        other.tag ≠ (5 : BitVec 16).toNat ∧ (e.kind = .original ∨ e.kind = .relocated) ∧ e.copy = none ∧ e.slot = some 3 ∧
        e.frame = some 100 ∧ (s e k).slots[(3 : Fin 32)].state = .sent ∧ (s e k).slots[(3 : Fin 32)].frame = some 100 ∧
        (s e k).slots[(3 : Fin 32)].streaming = false ∧
        ((s e k).settings.attempts ≤ (s e k).slots[(3 : Fin 32)].attempts ↔ k = 2) ∧
        reportWorthy { (s e k).slots[(3 : Fin 32)] with outcome := some .good } = (k != 0)) ∧
    ((s entry 0).settings.verifyTimeout < 25 ∧ (s entry 0).reports.done.length = 32) ∧
    (gone.copy = some copy ∧ copy.frame = some 100 ∧ gone.kind = .original) ∧ State.reset.settings.marginal = .accept ∧
    (gap.kind = .gapFill ∧ gap.frame = some 100) ∧
    let w : State := { writing with verify := { writing.verify with entries := [] ++ { entry with age := 24 } :: [other] } }
    other.age + 1 ≤ w.settings.verifyTimeout ∧ w.settings.verifyTimeout < 24 + 1 ∧ w.feed.state = .writing ∧
      w.feed.flight.isSome = true ∧ titleSettled w := by
  decide +kernel

/-- R151, R192: a gap fill found MARGINAL retires, and with 32 reports held its own is missed. -/
theorem test_report_missed :
    let s : State :=
      fullList { locked with verify := { locked.verify with entries := [{ entry with kind := .gapFill, slot := none }] } }
    let t := after (.outcome 5 2) s
    t.reports.done.length = 32 ∧ t.reports.missed = 1 ∧ t.reports.added = 0 ∧ t.reports.alerts.reportsMissed = true ∧
      t.verify.marginal = 1 := by
  decide +kernel

/-- R157: a RELOCATED frame found GOOD joins the table with its attempt, f falling by one. -/
theorem test_relocated_good :
    let s : State :=
      { locked with
        slots := locked.slots.set 3 { cleanRecord .sent with attempts := 1 }
        spare := { locked.spare with inFlight := 1 }
        verify := { locked.verify with entries := [{ entry with kind := .relocated, address := 5000 }] } }
    let t := after (.outcome 5 1) s
    t.spare.table = [{ original := 1000, relocated := 5000, frame := 100, attempt := 1 }] ∧ t.spare.inFlight = 0 ∧
      t.verify.good = 1 ∧ t.slots[(3 : Fin 32)].state = .free := by
  decide +kernel

theorem witness_TimeoutLosesGapFill :
    let g (age : Nat) : PendingEntry := { entry with kind := .gapFill, slot := none, fill := some .black, age := age }
    let old (age : Nat) : PendingEntry := { entry with tag := 4, age := age }
    let s (a b : Nat) (t : State) : State := { t with verify := { t.verify with entries := [old a] ++ g b :: [] } }
    (∀ u ∈ [s 24 25 locked, s 23 24 writing],
      (∀ x ∈ [old 24], x.tag ≠ (g 25).tag) ∧ (g 25).kind = .gapFill ∧ (fullList u).reports.done.length = 32) ∧
    ((old 24).age ≤ locked.settings.verifyTimeout ∧ locked.settings.verifyTimeout < (g 25).age) ∧
    ((old 23).age + 1 ≤ writing.settings.verifyTimeout ∧ writing.settings.verifyTimeout < (g 24).age + 1 ∧
      writing.feed.state = .writing ∧ writing.feed.flight.isSome = true ∧ titleSettled (s 23 24 writing)) := by
  decide +kernel

/-! ### Witnesses: spare space and the title -/

theorem witness_HeadroomAndGrants :
    let r : Region := { lo := 5000, hi := 5015, up := 5013, down := 5015 }
    let s : State := { State.reset with spare := { State.reset.spare with region := some r, inFlight := 13 } }
    s.spare.region = some r ∧ r.lo ≤ r.up ∧ grantAddress s = some 5013 ∧ 1 ≤ headroomFrom r 13 256 0 := by
  decide +kernel

/-- DRAINING with nothing left to do, and with a gap still to be written. -/
def draining : State := { State.reset with title := { state := .draining, declaration := some title } }

/-- DRAINING with a GAP FILL entry left alone, about to exceed the verify timeout. -/
def lastEntry : State :=
  { draining with
    verify := { draining.verify with entries := [{ entry with kind := .gapFill, slot := none, fill := some .black, age := 24 }] } }

/-- The last clause of `TimeoutLosesGapFill`. -/
theorem witness_TimeoutLosesGapFill_drain :
    (∃ e, lastEntry.verify.entries = [] ++ e :: [] ∧ e.kind = .gapFill ∧ lastEntry.settings.verifyTimeout < e.age + 1) ∧
      lastEntry.feed.state = .waiting ∧ lastEntry.title.state = .draining ∧
      lastEntry.ingest.state = .stopped ∧
      (∀ i : Fin 32, lastEntry.slots[i].state ≠ .filling ∧ lastEntry.slots[i].state ≠ .repairing ∧
        lastEntry.slots[i].state ≠ .ready) ∧
      lastEntry.gaps = [] ∧ lastEntry.feed.flight = none ∧ lastEntry.verify.queue = [] ∧ lastEntry.spare.inFlight = 0 := by
  refine ⟨⟨_, rfl, ?_⟩, ?_⟩ <;> decide +kernel

/-- R138, R171: the WRITE SLOT whose timeout completes the drain is answered IDLE SLOT; the next one writes index block 0 at S hi. -/
theorem test_index_from_next_slot :
    let s : State := { lastEntry with spare := { lastEntry.spare with region := some ⟨5000, 5099, 5000, 5099⟩ } }
    let t := after .writeSlot s
    t.title.state = .closing ∧ t.recorderOut = some .idleSlot ∧ t.feed.flight = none ∧
      (after .writeSlot t).feed.flight.map (fun w => (w.kind, w.address)) = some (.index, 5099) := by
  decide +kernel

theorem witness_DrainEntersClosing :
    (draining.title.state = .draining ∧ draining.ingest.state = .stopped ∧
      (∀ i : Fin 32, draining.slots[i].state ≠ .filling ∧ draining.slots[i].state ≠ .repairing ∧
        draining.slots[i].state ≠ .ready) ∧ draining.gaps = [] ∧ draining.feed.flight = none ∧
      draining.verify.entries = [] ∧ draining.verify.queue = [] ∧ draining.spare.inFlight = 0) ∧
      ({ draining with gaps := [⟨100, 1⟩] } : State).gaps ≠ [] := by
  decide +kernel

/-- The close complete; and the outcomes of an INDEX entry: a first writing with one block's room left and with none, and a rewrite. -/
theorem witness_CloseEndsTitle :
    let plan : List PlanBlock := [{ block 0 with state := .done }, { block 1 with state := .abandoned }]
    let s : State :=
      { State.reset with
        title := { state := .closing, declaration := some title }, spare := { State.reset.spare with plan := some plan } }
    let e (rewrite : Bool) : PendingEntry := { entry with kind := .index, index := some { number := 0, rewrite := rewrite } }
    let r : Region := { lo := 5000, hi := 5015, up := 5015, down := 5015 }
    let open_ (states : List PlanState) : List PlanBlock := states.map (fun x => { block 0 with state := x })
    let fits (states : List PlanState) : Prop :=
      (r.up : Int) ≤ r.down - (((open_ states).filter (fun b => b.state == .toWrite)).length : Int)
    (s.title.state = .closing ∧ s.spare.plan = some plan ∧ (∀ b ∈ plan, b.state = .done ∨ b.state = .abandoned) ∧
      s.feed.flight = none ∧ s.reports.events.length < 4 ∧
      ¬({ s.reports with events := List.replicate 4 (closedEvent s) } : ReportUnit).events.length < 4) ∧
    ((e true).tag = (5 : BitVec 16).toNat ∧ (e false).kind = .index ∧ fits [.written] ∧ ¬fits [.written, .toWrite]) := by
  decide +kernel

/-- R172, R196: a close with four title events held loses its own and tallies it. -/
theorem test_event_lost :
    let s : State :=
      { State.reset with
        title := { state := .closing, declaration := some title }
        spare := { State.reset.spare with plan := some [{ block 0 with state := .done }] } }
    let t := after .closeComplete { s with reports := { s.reports with events := List.replicate 4 (closedEvent s) } }
    t.title.state = .idle ∧ t.reports.events.length = 4 ∧ t.link.eventsLost = 1 := by
  decide +kernel

/-! ### Witnesses: the control line -/

theorem witness_FramedMessageIsReceived :
    State.reset.link.receiver = none ∧ (List.replicate 250 (0 : Byte)).length ≤ 250 ∧ (127 : Byte).toNat < 128 ∧
      128 ≤ (128 : Byte).toNat := by
  decide +kernel

theorem witness_ReceiverDiscards :
    State.reset.link.receiver = none ∧ (0xA4 : Byte) ≠ 0xA5 ∧ ((0 : Byte).toNat ≤ 1 ∧ (1 : Byte).toNat ≤ 1) ∧
      (253 ≤ (253 : Byte).toNat ∧ 253 ≤ (255 : Byte).toNat) ∧
      [(0 : Byte), 0] ≠ beBytes 2 (checkOf (coveredBytes 0 1 [])).toNat ∧
      ({ State.reset with link := { State.reset.link with receiver := some [] } } : State).link.receiver = some [] := by
  decide +kernel

/-- The queue at 3 and at 4, the REFUSED FULL replies waiting at 3 and at 4. -/
theorem witness_RequestQueuesOrIsRefused :
    let s (q w : Nat) : State :=
      { replyingState with
        link :=
          { replyingState.link with
            queue := List.replicate q request
            waiting := List.replicate w { cls := .refusedFull, kind := 128, tag := 0, payload := [20] } } }
    (127 : Byte).toNat < 128 ∧ (∃ m, replyingState.link.sending = some m ∧ isReply m = true) ∧ (s 3 0).link.queue.length < 4 ∧
      (4 ≤ (s 4 3).link.queue.length ∧ waitingOf isRefusal (s 4 3) < 4) ∧
      4 ≤ (s 4 4).link.queue.length ∧ 4 ≤ waitingOf isRefusal (s 4 4) :=
  ⟨by decide, ⟨_, rfl, rfl⟩, by decide +kernel, by decide +kernel, by decide +kernel, by decide +kernel⟩

/-- A message waiting behind the one in transmission. -/
def behind (w : Message) : State := { replyingState with link := { replyingState.link with waiting := [w] } }

/-- An empty notice. -/
def notice : Notice := { count := 0, carried := Conditions.none, truths := Conditions.none, alerts := Alerts.none, events := [] }

theorem witness_TransmissionGoesOn :
    (∃ m, replyingState.link.sending = some m ∧ m.cls ≠ .resetReply) ∧
      (replyingState.link.queue = [] ∧ replyingState.link.waiting = []) ∧
      (isNotice { cls := .refusedFull, kind := 128, tag := 0, payload := [20] } = false ∧
        (behind { cls := .refusedFull, kind := 128, tag := 0, payload := [20] }).link.queue = []) ∧
      (noticeMessage notice).cls = .notice notice ∧
      let s : State := { replyingState with link := { replyingState.link with queue := [request] } }
      s.link.waiting = [] ∧ s.link.queue = request :: [] ∧ State.reset.link.sending = none :=
  ⟨⟨_, rfl, by decide⟩, by decide +kernel, by decide +kernel, rfl, by decide +kernel⟩

/-! ### Witnesses: the requests -/

theorem witness_lineAtRest : lineAtRest State.reset ∧ State.reset.title.state = .idle := by decide +kernel

/-- A refused request, an unassigned kind, a length that does not fit, and a state outside R187's table for each group. -/
theorem witness_RefusalsChangeNothing :
    (serveRequest { kind := 12, tag := 0, payload := [64] } State.reset).2 = [17] ∧ requestOf 16 = none ∧ requestOf 0 = none ∧
      (requestOf 1 = some .configure ∧ lengthFits .configure (List.replicate 28 0) = false ∧
        lengthFits .configure (List.replicate 29 0) = true) ∧
      (requestOf 7 = some .start ∧ lengthFits .start [] = true ∧ State.reset.title.state ≠ .armed) ∧
      (requestOf 9 = some .abort ∧ lengthFits .abort [] = true ∧ State.reset.title.state = .idle) ∧
      (requestOf 2 = some .loadRule ∧ lengthFits .loadRule [0] = true ∧ locked.title.state ≠ .idle ∧
        locked.title.state ≠ .armed) := by
  decide +kernel

theorem witness_ConfigureTakesRecord :
    lineAtRest State.reset ∧ State.reset.title.state = .idle ∧
      (1 ≤ Settings.defaults.t1 ∧ Settings.defaults.t1 < Settings.defaults.t2 ∧ Settings.defaults.t2 < Settings.defaults.t3 ∧
        Settings.defaults.t3 ≤ 1015) ∧
      rowLegal Settings.defaults.weights[0] ∧ rowLegal Settings.defaults.weights[1] ∧ rowLegal Settings.defaults.weights[2] ∧
      rowLegal Settings.defaults.weights[3] := by
  decide +kernel

theorem witness_LoadsTakeEffect :
    (lineAtRest State.reset ∧ State.reset.title.state = .idle) ∧
      (1 ≤ State.reset.strategy.entries[(31 : Fin 32)].limit ∧ State.reset.strategy.entries[(31 : Fin 32)].limit ≤ 18) := by
  decide +kernel

/-- Budgets 0 and 65 are clamped, 1 and 64 are not. -/
theorem witness_AdjustTakesItems :
    lineAtRest State.reset ∧ repairIdle State.reset ∧
      (lineAtRest (repairing .blend) ∧ (repairing .blend).repair.op.isSome = true) ∧
      ((0 : Byte).toNat < 1 ∧ 64 < (65 : Byte).toNat) ∧
      (¬((1 : Byte).toNat < 1 ∨ 64 < (1 : Byte).toNat) ∧ ¬((64 : Byte).toNat < 1 ∨ 64 < (64 : Byte).toNat)) := by
  decide +kernel

/-- R85, R87: an accepted ADJUST with no item, taken during a band operation, leaves a decision owed. -/
theorem test_empty_adjust_owed :
    (repairing .blend).sched.owed = false ∧ (after (.adjust 7 [0]) (repairing .blend)).sched.owed = true := by
  decide +kernel

/-- Regions of 15 and 65537 are ill sized, of 16 and 65536 are not; a title area that ends at 4294967295 fits. -/
theorem witness_DeclarationsPair :
    (lineAtRest State.reset ∧ State.reset.title.state = .idle) ∧
      (¬(16 ≤ 5014 - 5000 + 1) ∧ 16 ≤ 5015 - 5000 + 1 ∧ 70535 - 5000 + 1 ≤ 65536 ∧ ¬(70536 - 5000 + 1 ≤ 65536)) ∧
      (4294967295 < 2 ^ 32 ∧ 1 ≤ 1 ∧ 4294967295 + 1 - 1 ≤ 4294967295 ∧ ¬(4294967295 + 2 - 1 ≤ 4294967295)) ∧
      let s : State := { State.reset with title := { state := .armed, declaration := some title } }
      lineAtRest s ∧ s.title.state = .armed := by
  decide +kernel

theorem witness_StartRunsTitle :
    let s : State := { State.reset with title := { state := .armed, declaration := some title } }
    let f : State := { s with settings := { s.settings with format := .f30 }
                              classifier := { s.classifier with rules := exampleRules } }
    (lineAtRest s ∧ s.title.state = .armed ∧ s.title.declaration = some title ∧
      ∀ k : Fin 16, s.classifier.rules[k] = none) ∧
      lineAtRest f ∧ f.title.state = .armed ∧ failingSlot f = some 2 := by
  decide +kernel

theorem witness_StopDrainsTitle :
    let s (g : Ingest) : State := { locked with ingest := g }
    (lineAtRest (s acquiring.ingest) ∧ (s acquiring.ingest).title.state = .running ∧
      (s acquiring.ingest).ingest.state = .acquire) ∧
      (∃ a, (s (assembling .a).ingest).ingest.frame = some a ∧ a.slot = some 3) ∧
      ((s locked.ingest).ingest.state = .locked ∧ (s locked.ingest).ingest.frame = none ∧ repairIdle (s locked.ingest)) :=
  ⟨by decide +kernel, ⟨_, rfl, rfl⟩, by decide +kernel⟩

theorem witness_AbortEndsTitle : lineAtRest writing ∧ writing.title.state = .running ∧ writing.feed.flight = some flight := by
  decide +kernel

theorem witness_CueReadAndAcknowledge :
    (lineAtRest locked ∧ locked.title.state = .running) ∧ State.reset.reports.done = [] ∧
      ((63 : Byte).toNat < 64 ∧ 64 ≤ (64 : Byte).toNat) ∧
      ({ locked with reports := { locked.reports with done := [gapFillReport locked 100 1000 none none .lost] } } :
        State).reports.done = gapFillReport locked 100 1000 none none .lost :: [] := by
  decide +kernel

theorem witness_SectionResetIngestDiscards :
    ∃ a, lineAtRest (assembling .a) ∧ (assembling .a).ingest.state = .locked ∧
      (assembling .a).ingest.frame = some a ∧ a.slot = some 3 ∧ recordGap (assembling .a).gaps a.number = some [⟨100, 1⟩] ∧
      repairIdle (assembling .a) :=
  ⟨_, by decide +kernel, rfl, rfl, rfl, by decide +kernel, by decide +kernel⟩

theorem witness_SectionResetSchedulerPasses :
    lineAtRest (repairing .blend) ∧ (repairing .blend).slots[(3 : Fin 32)].state = .repairing := by
  decide +kernel

/-- The reset leaves the REPAIRING slot READY with its DAMAGED band PASSED. -/
theorem test_section_reset_scheduler :
    let t := after (.sectionResetScheduler 1) (repairing .blend)
    t.slots[(3 : Fin 32)].state = .ready ∧ (t.slots[(3 : Fin 32)]).band .a 6 = some { damagedBand with state := .passed } := by
  decide +kernel

/-- Frame 100 in flight from slot 3; frame 98 pending in slot 5, the anchor, frame 97 forfeited and gap 96; frame 99 waiting for
relocation in slot 4. -/
def recordings : State :=
  let copy : SlotRecord := { cleanRecord .sent with frame := some 97, forfeited := true }
  { writing with
    slots :=
      (writing.slots.set 4 { cleanRecord .relocating with frame := some 99 }).set 5 { cleanRecord .sent with frame := some 98 }
    anchor := some 5
    spare := { writing.spare with inFlight := 1 }
    verify :=
      { writing.verify with
        entries :=
          [{ entry with tag := 2, kind := .relocated, frame := some 98, slot := some 5 },
            { entry with tag := 3, frame := some 97, slot := none, forfeited := true, copy := some copy },
            { entry with tag := 4, kind := .gapFill, frame := some 96, slot := none, fill := some .black }]
        queue := [⟨4, 99, .bad⟩] } }

/-- CLOSING, block 0 pending as a rewrite, block 1 pending and block 2 in flight, with room for one rewrite. -/
def indexing : State :=
  let mark (n : Nat) (rewrite : Bool) : IndexMark := { number := n, rewrite := rewrite }
  let index (n tag : Nat) (rewrite : Bool) : PendingEntry :=
    { entry with tag := tag, kind := .index, frame := none, slot := none, index := some (mark n rewrite) }
  let w : Flight := { flight with kind := .index, frame := none, slot := none, index := some (mark 2 false) }
  { State.reset with
    title := { state := .closing, declaration := some title }
    feed := { State.reset.feed with state := .writing, flight := some w, tagCounter := 6 }
    spare :=
      { State.reset.spare with
        region := some { lo := 5000, hi := 5015, up := 5010, down := 5010 }
        plan :=
          some [{ mark := mark 1 false, state := .written, tag := some 4, address := some 5012 },
            { mark := mark 2 false, state := .written, tag := some 5, address := some 5011 },
            { mark := mark 0 true, state := .written, tag := some 3, address := some 5013 }] }
    verify := { State.reset.verify with entries := [index 0 3 true, index 1 4 false] } }

/-- The recordings of `recordings` meet the premises; so do the INDEX write and entries of `indexing`. -/
theorem witness_SectionResetRecorderSettles :
    (lineAtRest recordings ∧ recordings.feed.flight = some flight ∧ recordings.slots[(3 : Fin 32)].state = .sent ∧
      (∀ q ∈ recordings.verify.queue, recordings.slots[q.slot].state = .relocating ∧
        recordings.slots[q.slot].frame = some q.frame)) ∧
    (([3] ++ recordings.verify.entries.filterMap (fun e : PendingEntry => e.slot)) ++
      recordings.verify.queue.map (fun q : QueueEntry => q.slot)).Nodup ∧
    (recordings.slots[(3 : Fin 32)].frame = flight.frame ∧ recordings.slots[(5 : Fin 32)].state = .sent ∧
      recordings.slots[(5 : Fin 32)].frame = some 98 ∧ recordings.slots[(5 : Fin 32)].streaming = false) ∧
    recordings.reports.done.length + 5 ≤ 32 ∧
    lineAtRest indexing ∧ indexing.feed.flight.map (fun w => (w.kind, w.slot, w.index.isSome)) = some (.index, none, true) ∧
      (∀ e ∈ indexing.verify.entries, e.kind = .index ∧ e.slot = none ∧ e.index.isSome = true) ∧ indexing.verify.queue = [] := by
  decide +kernel

/-- R140, R152, R161: the cancelled block 2 is queued as a rewrite, which leaves no room for block 1's; the rewrite of block 0 fails for
good; no frame retires. -/
theorem test_section_reset_indexing :
    let t := after (.sectionResetRecorder 1) indexing
    t.spare.plan.map (fun plan => plan.map (fun b => (b.mark.number, b.mark.rewrite, b.state))) =
        some [(1, false, .abandoned), (0, true, .abandoned), (2, true, .toWrite)] ∧
      t.spare.indexRewrites = 1 ∧ t.spare.indexFailed = 2 ∧ t.reports.alerts.indexFailed = true ∧ t.reports.done = [] ∧
      t.title.state = .closing ∧ t.verify.entries = [] := by
  decide +kernel

/-- R28, R140, R152: every frame retires in order with its report and tally, the anchor's slot RETAINED and the others FREE. -/
theorem test_section_reset_recorder :
    let t := after (.sectionResetRecorder 1) recordings
    t.slots[(3 : Fin 32)].state = .free ∧ t.slots[(4 : Fin 32)].state = .free ∧ t.slots[(5 : Fin 32)].state = .retained ∧
      t.reports.done.map (fun p => (p.frame, p.outcome)) =
        [(100, .unverified), (98, .unverified), (97, .unverified), (96, .unverified), (99, .lost)] ∧
      t.verify.unverified = 4 ∧ t.verify.lost = 1 ∧ t.reports.alerts.frameLost = true ∧ t.spare.inFlight = 0 ∧
      t.recorderOut = some (.cancel 5) := by
  decide +kernel

theorem witness_QueriesAnswer :
    lineAtRest State.reset ∧ State.reset.link.receiver = none ∧ State.reset.gaps.length ≤ 16 ∧
      ((2 : Byte).toNat < 3 ∧ ¬((3 : Byte).toNat < 3)) ∧ (4 : Byte).toNat < 5 ∧ ¬((5 : Byte).toNat < 5) := by
  decide +kernel

theorem witness_ResetAndUnassignedAnswered :
    lineAtRest State.reset ∧ kindUnassigned 0 = true ∧ kindUnassigned 16 = true ∧ kindUnassigned 127 = true := by
  decide +kernel

end Sys2Proof.Tests
end

