-- ==== Sys2Proof/Proofs/Settled.lean ====
section
/-! What keeps a drain or a close from being left untaken, and what leaves a condition's truth as it was told (R171, R172, R194). -/

namespace Sys2Proof.Machine

/-! ### What the drain and the conditions read of a slot -/

/-- A slot holds a frame not yet written (R30). -/
def holdsUnwritten (r : SlotRecord) : Bool := r.state == .filling || r.state == .repairing || r.state == .ready

/-- Every slot that held an unwritten frame holds one still, and no other does. -/
def UnwrittenKept (s t : State) : Prop := ∀ j : Fin 32, holdsUnwritten t.slots[j] = holdsUnwritten s.slots[j]

theorem UnwrittenKept.of_slots {s t : State} (h : t.slots = s.slots) : UnwrittenKept s t := fun j => by rw [h]

theorem UnwrittenKept.trans {s t u : State} (h : UnwrittenKept s t) (k : UnwrittenKept t u) : UnwrittenKept s u :=
  fun j => (k j).trans (h j)

theorem UnwrittenKept.of_setSlot {s : State} {i : Fin 32} {r : SlotRecord} (h : holdsUnwritten r = holdsUnwritten s.slots[i]) :
    UnwrittenKept s (s.setSlot i r) := by
  intro j
  rw [setSlot_slots]
  split
  · next e => subst e; exact h
  · rfl

theorem windowDone_eq (s : State) : windowDone s = (s.gaps.isEmpty && allSlots.all (fun i => !holdsUnwritten s.slots[i])) := by
  simp [windowDone, holdsUnwritten, bne, Bool.and_assoc]

theorem windowDone_congr {s t : State} (hu : UnwrittenKept s t) (hg : t.gaps = s.gaps) : windowDone t = windowDone s := by
  rw [windowDone_eq, windowDone_eq, hg]
  have : (fun i : Fin 32 => !holdsUnwritten t.slots[i]) = fun i : Fin 32 => !holdsUnwritten s.slots[i] := funext fun i => by rw [hu i]
  rw [this]

/-- The number of slots meeting a test of their state follows the slots' states. -/
theorem countSlots_congr {s t : State} {test : SlotRecord → Bool} (h : ∀ j : Fin 32, test t.slots[j] = test s.slots[j]) :
    countSlots test t = countSlots test s := by
  unfold countSlots
  have : (fun i : Fin 32 => test t.slots[i]) = fun i : Fin 32 => test s.slots[i] := funext h
  rw [this]

/-! ### Serving jobs makes no frame written -/

theorem dropRef_unwritten (j : Fin 32) (s : State) : UnwrittenKept s (dropRef j s) := by
  intro k
  rw [dropRef_slots]
  split
  · next e =>
    subst e
    split
    · next h =>
      unfold holdsUnwritten
      rw [h.1]
      rfl
    · rfl
  · rfl

theorem releaseRefs_unwritten (i : Fin 32) (s : State) : UnwrittenKept s (releaseRefs i s) := by
  have h0 : UnwrittenKept s (s.setSlot i { s.slots[i] with heldP := none, heldN := none }) := .of_setSlot rfl
  unfold releaseRefs
  dsimp only
  split <;> split
  · exact (h0.trans (dropRef_unwritten _ _)).trans (dropRef_unwritten _ _)
  · exact h0.trans (dropRef_unwritten _ _)
  · exact h0.trans (dropRef_unwritten _ _)
  · exact h0

theorem slotJobEnded_unwritten (i : Fin 32) (s : State) : UnwrittenKept s (slotJobEnded i s) := by
  unfold slotJobEnded
  dsimp only
  split
  · next hr =>
    have h0 : UnwrittenKept s (s.setSlot i { s.slots[i] with jobsOutstanding := s.slots[i].jobsOutstanding - 1 }) := .of_setSlot rfl
    split
    · refine (h0.trans (.of_setSlot ?_)).trans (releaseRefs_unwritten i _)
      rw [setSlot_slots_self]
      unfold holdsUnwritten
      rw [hr]
      rfl
    · exact h0
  · exact .of_slots rfl

theorem completeJob_unwritten (j : Job) (s : State) : UnwrittenKept s (completeJob j s) :=
  (slotJobEnded_unwritten j.slot s).trans (UnwrittenKept.of_slots rfl)

theorem moveBand_unwritten (i : Fin 32) (f : Field) (b : Fin 18) (target : BandState) (s : State) :
    UnwrittenKept s (moveBand i f b target s) := by
  unfold moveBand
  split
  · split
    · exact .of_setSlot rfl
    · exact .of_slots rfl
  · exact .of_slots rfl

theorem passTurn_unwritten (j : Job) (b : Fin 18) (s : State) : UnwrittenKept s (passTurn j b s).1 := by
  have h : UnwrittenKept s (advanceJob j b (moveBand j.slot j.field b .passed s)) :=
    (moveBand_unwritten j.slot j.field b .passed s).trans (.of_slots rfl)
  unfold passTurn
  dsimp only
  split
  · exact h
  · exact h.trans (completeJob_unwritten _ _)

theorem bandTurn_unwritten (j : Job) (s : State) : UnwrittenKept s (bandTurn j s).1 := by
  have passed (w : Strategy) (b : Fin 18) : UnwrittenKept s (passTurn j b { s with strategy := w }).1 :=
    passTurn_unwritten j b { s with strategy := w }
  unfold bandTurn
  split
  · exact completeJob_unwritten j s
  · dsimp only
    split
    · split
      · unfold takeTurn
        split <;> exact .of_slots rfl
      · exact passed _ _
    · exact passed _ _
    · exact passed _ _
    · exact .of_slots rfl

theorem arbitrate_slots (s : State) : (arbitrate s).slots = s.slots := by
  unfold arbitrate
  dsimp only
  split
  · rfl
  · split <;> rfl

theorem serveJobs_unwritten (fuel : Nat) (next : TurnNext) (s : State) : UnwrittenKept s (serveJobs fuel next s) := by
  induction fuel generalizing next s with
  | zero => exact .of_slots rfl
  | succ fuel ih =>
    cases next with
    | rest => exact .of_slots rfl
    | decision => exact (UnwrittenKept.of_slots (arbitrate_slots s)).trans (ih _ _)
    | turn =>
      unfold serveJobs
      split
      · exact .of_slots rfl
      · split
        · exact .of_slots rfl
        · exact (bandTurn_unwritten _ s).trans (ih _ _)

theorem decisionPoint_unwritten (s : State) : UnwrittenKept s (decisionPoint s) := by
  unfold decisionPoint
  split
  · exact .of_slots rfl
  · exact serveJobs_unwritten _ _ s

/-! ### Settled titles -/

/-- The drain's and the close's answers follow the records they read. -/
theorem titleSettled_of_same {s t : State} (ht : t.title.state = s.title.state) (hi : t.ingest.state = s.ingest.state)
    (hg : t.gaps = s.gaps) (hu : UnwrittenKept s t) (hf : t.feed.flight = s.feed.flight)
    (hv : t.verify = s.verify) (hp : t.spare = s.spare) (h : titleSettled s) : titleSettled t := by
  have hd : drainDone t = drainDone s := by
    unfold drainDone verifyDone
    rw [hi, windowDone_congr hu hg, hf, hv, hp]
  have hc : closeDone t = closeDone s := by
    unfold closeDone indexInFlight
    rw [hp, hf]
  exact ⟨fun e => hd.trans (h.1 (ht.symm.trans e)), fun e => hc.trans (h.2 (ht.symm.trans e))⟩

theorem titleSettled_of_state {t : State} (hd : t.title.state ≠ .draining) (hc : t.title.state ≠ .closing) : titleSettled t :=
  ⟨fun e => absurd e hd, fun e => absurd e hc⟩

theorem closeDone_enterClosing (s : State) : closeDone (enterClosing s) = false := by
  have hpos : indexBlocks s.spare.table.length ≠ 0 := by
    unfold indexBlocks
    omega
  obtain ⟨n, hn⟩ := Nat.exists_eq_succ_of_ne_zero hpos
  simp [closeDone, enterClosing, drawPlan, hn, List.range_succ_eq_map]

/-- Once settled, no complete drain and no complete close is left untaken. -/
theorem settle_titleSettled (s : State) : titleSettled (settle s) := by
  have told (t : State) (h : titleSettled t) : titleSettled (tellConditions t) :=
    titleSettled_of_same rfl rfl rfl (.of_slots rfl) rfl rfl rfl h
  refine told _ ?_
  unfold checkDrain
  split
  · have hc : checkClose (enterClosing s) = enterClosing s := by
      unfold checkClose
      rw [closeDone_enterClosing]
      simp
    rw [hc]
    exact ⟨fun e => by simp [enterClosing] at e, fun _ => closeDone_enterClosing s⟩
  · next hd =>
    unfold checkClose
    split
    · exact titleSettled_of_state (by simp [closeTitle, endTitle]) (by simp [closeTitle, endTitle])
    · next hc => exact ⟨fun e => by simpa [e] using hd, fun e => by simpa [e] using hc⟩

/-! ### Conditions told -/

theorem conditionsNow_congr {s t : State} (hw : ∀ j : Fin 32, (t.slots[j].state == .free) = (s.slots[j].state == .free))
    (ht : t.title.state = s.title.state) (hp : t.spare = s.spare) (hf : t.feed.state = s.feed.state)
    (hi : t.ingest.state = s.ingest.state) (hm : t.timebase = s.timebase) : conditionsNow t = conditionsNow s := by
  have hc : countSlots (fun r => r.state == .free) t = countSlots (fun r => r.state == .free) s := countSlots_congr hw
  unfold conditionsNow windowLowNow spareLowNow recorderPausedNow ingestUnlockedNow referenceFreeRunNow headroom
  rw [hc, ht, hp, hf, hi, hm]

theorem conditionsTold_of_same {s t : State} (hw : ∀ j : Fin 32, (t.slots[j].state == .free) = (s.slots[j].state == .free))
    (ht : t.title.state = s.title.state) (hp : t.spare = s.spare) (hf : t.feed.state = s.feed.state)
    (hi : t.ingest.state = s.ingest.state) (hm : t.timebase = s.timebase) (hr : t.reports.truths = s.reports.truths)
    (h : conditionsTold s) : conditionsTold t := by
  show t.reports.truths = conditionsNow t
  rw [hr, conditionsNow_congr hw ht hp hf hi hm]
  exact h

theorem tellConditions_told (s : State) : conditionsTold (tellConditions s) := rfl

theorem settle_told (s : State) : conditionsTold (settle s) := rfl

end Sys2Proof.Machine
end

