-- ==== Sys2Proof/Proofs/Line.lean ====
section
/-! The bounds of the control line (R183, R184): the messages waiting and in transmission, counted together. -/

namespace Sys2Proof.Machine

/-! ### The messages of the line -/

/-- The messages in transmission and waiting, oldest first. -/
def lineMessages (k : Link) : List Message := k.sending.toList ++ k.waiting

theorem repliesOut_eq (s : State) : repliesOut s = ((lineMessages s.link).filter isReply).length := by
  unfold repliesOut waitingOf lineMessages
  cases s.link.sending with
  | none => simp
  | some m =>
    cases h : isReply m <;> simp [h]

theorem serverFree_iff (s : State) : serverFree s = true ↔ repliesOut s = 0 := by
  rw [repliesOut_eq]
  unfold serverFree lineMessages
  cases s.link.sending with
  | none => simp
  | some m =>
    cases h : isReply m <;> simp [h]

/-- What is sent next leaves the queue of requests and the report lists' bounds alone, and moves one message at most. -/
theorem beginMessage_link (m : Message) (s : State) :
    (beginMessage m s).link.queue = s.link.queue ∧ (beginMessage m s).link.sending = some m ∧
      (beginMessage m s).link.waiting = s.link.waiting := by
  unfold beginMessage
  dsimp only
  split <;> exact ⟨rfl, rfl, rfl⟩

theorem sendNext_link (s : State) :
    (sendNext s).link.queue = s.link.queue ∧ lineMessages (sendNext s).link = lineMessages s.link ∧
      List.Sublist (sendNext s).link.waiting s.link.waiting ∧
      ((sendNext s).link.sending = none → (sendNext s).link.waiting = []) := by
  unfold sendNext
  split
  · next m rest hs hw =>
    obtain ⟨hq, hb, hr⟩ := beginMessage_link m (setLink (fun k => { k with waiting := rest }) s)
    rw [hq, hb, hr]
    refine ⟨rfl, ?_, ?_, fun h => by cases h⟩
    · unfold lineMessages
      rw [hb, hr, hs, hw]
      rfl
    · rw [hw]
      exact List.sublist_cons_self m rest
  · next h =>
    refine ⟨rfl, rfl, List.Sublist.refl _, fun hs => ?_⟩
    cases hw : s.link.waiting with
    | nil => rfl
    | cons m rest => exact absurd hw (h m rest hs)

/-- A message placed goes behind those of the line. -/
theorem placeMessage_link (m : Message) (s : State) :
    (placeMessage m s).link.queue = s.link.queue ∧ lineMessages (placeMessage m s).link = lineMessages s.link ++ [m] ∧
      List.Sublist (placeMessage m s).link.waiting (s.link.waiting ++ [m]) ∧
      ((placeMessage m s).link.sending = none → (placeMessage m s).link.waiting = []) := by
  obtain ⟨hq, hl, hw, hn⟩ := sendNext_link (setLink (fun k => { k with waiting := k.waiting ++ [m] }) s)
  refine ⟨hq, hl.trans ?_, hw, hn⟩
  simp [lineMessages]

/-! ### What the line's acts change -/

/-- What the control line's own acts may change: the link's record and, as a notice begins, the Report Unit's counts and events of it. -/
structure LineOnly (s t : State) : Prop where
  rest : { t with
    link := s.link
    reports := { t.reports with added := s.reports.added, reported := s.reports.reported, events := s.reports.events } } = s
  added : t.reports.added ≤ s.reports.added
  events : t.reports.events.length ≤ s.reports.events.length

theorem LineOnly.of_link {s t : State} (h : { t with link := s.link } = s) : LineOnly s t := by
  have hr : t.reports = s.reports := by
    have e := congrArg State.reports h
    exact e
  refine ⟨?_, by rw [hr], by rw [hr]⟩
  rw [← hr]
  exact h

theorem LineOnly.refl (s : State) : LineOnly s s := .of_link rfl

theorem LineOnly.trans {s t u : State} (h : LineOnly s t) (k : LineOnly t u) : LineOnly s u :=
  ⟨by rw [← h.rest, ← k.rest], k.added.trans h.added, k.events.trans h.events⟩

theorem setLink_lineOnly (change : Link → Link) (s : State) : LineOnly s (setLink change s) := .of_link rfl

theorem beginMessage_lineOnly (m : Message) (s : State) : LineOnly s (beginMessage m s) := by
  unfold beginMessage
  dsimp only
  split
  · exact ⟨rfl, by simp [beginNotice, setLink], by simp [beginNotice, setLink]⟩
  · exact .of_link rfl
  · exact .of_link rfl
  · exact .of_link rfl

theorem sendNext_lineOnly (s : State) : LineOnly s (sendNext s) := by
  unfold sendNext
  split
  · exact (setLink_lineOnly _ s).trans (beginMessage_lineOnly _ _)
  · exact .refl s

theorem placeMessage_lineOnly (m : Message) (s : State) : LineOnly s (placeMessage m s) :=
  (setLink_lineOnly _ s).trans (sendNext_lineOnly _)

theorem placeNotice_lineOnly (m : Message) (s : State) : LineOnly s (placeNotice m s) := by
  unfold placeNotice
  split
  · exact setLink_lineOnly _ s
  · exact placeMessage_lineOnly m s

theorem composeNotice_lineOnly (s : State) : LineOnly s (composeNotice s) := by
  unfold composeNotice
  split
  · exact placeNotice_lineOnly _ s
  · exact .refl s

/-! ### The line keeps within its bounds -/

theorem linkBounded_of_link {s t : State} (hq : t.link.queue = s.link.queue) (hs : t.link.sending = s.link.sending)
    (hw : t.link.waiting = s.link.waiting) (h : linkBounded s) : linkBounded t := by
  unfold linkBounded repliesOut waitingOf at *
  rw [hq, hs, hw]
  exact h

/-- Placing a message that is no notice keeps the bounds, a reply while none is out, a refusal while fewer than 4 wait. -/
theorem placeMessage_bounded {m : Message} {s : State} (h : linkBounded s) (hr : isReply m = true → repliesOut s = 0)
    (hf : isRefusal m = true → refusalsWaiting s < 4) (hn : isNotice m = true → waitingOf isNotice s = 0) :
    linkBounded (placeMessage m s) := by
  obtain ⟨hqueue, hreplies, hrefusals, hnotices, -⟩ := h
  obtain ⟨hq, hl, hw, hi⟩ := placeMessage_link m s
  have count (test : Message → Bool) : waitingOf test (placeMessage m s) ≤ waitingOf test s + ([m].filter test).length := by
    unfold waitingOf
    rw [← List.length_append, ← List.filter_append]
    exact (hw.filter test).length_le
  have one (test : Message → Bool) : ([m].filter test).length = if test m then 1 else 0 := by
    cases e : test m <;> simp [e]
  refine ⟨by rw [hq]; exact hqueue, ?_, (count isRefusal).trans ?_, (count isNotice).trans ?_, hi⟩
  · rw [repliesOut_eq, hl, List.filter_append, List.length_append, ← repliesOut_eq, one]
    split
    · next e => rw [hr e]
    · exact hreplies
  · rw [one]
    split
    · next e =>
      have := hf e
      unfold refusalsWaiting at this
      unfold waitingOf
      omega
    · exact hrefusals
  · rw [one]
    split
    · next e => rw [hn e]
    · exact hnotices

/-- A notice replaced by a newer one keeps the counts of every class. -/
theorem replaceNotice_count {m : Message} {test : Message → Bool}
    (ht : ∀ w, isNotice w = true → test w = test m) (waiting : List Message) :
    ((replaceNotice m waiting).filter test).length = (waiting.filter test).length := by
  unfold replaceNotice
  induction waiting with
  | nil => rfl
  | cons w rest ih =>
    have hw : test (if isNotice w then m else w) = test w := by
      split
      · next e => exact (ht w e).symm
      · rfl
    rw [List.map_cons, List.filter_cons, List.filter_cons, hw]
    split <;> simp [ih]

theorem isNotice_others {m : Message} (h : isNotice m = true) : isReply m = false ∧ isRefusal m = false := by
  unfold isNotice at h
  unfold isReply isRefusal
  cases hc : m.cls <;> simp_all

theorem placeNotice_bounded {m : Message} {s : State} (hm : isNotice m = true) (h : linkBounded s) :
    linkBounded (placeNotice m s) := by
  obtain ⟨hr, hf⟩ := isNotice_others hm
  unfold placeNotice
  split
  · obtain ⟨hqueue, hreplies, hrefusals, hnotices, hidle⟩ := h
    have replies := replaceNotice_count (test := isReply) (fun w e => by rw [(isNotice_others e).1, hr]) s.link.waiting
    have refusals := replaceNotice_count (test := isRefusal) (fun w e => by rw [(isNotice_others e).2, hf]) s.link.waiting
    have notices := replaceNotice_count (test := isNotice) (fun w e => by rw [e, hm]) s.link.waiting
    unfold linkBounded repliesOut waitingOf at *
    simp only [setLink_link]
    rw [replies, refusals, notices]
    exact ⟨hqueue, hreplies, hrefusals, hnotices, fun e => by rw [hidle e]; rfl⟩
  · next hn =>
    refine placeMessage_bounded h (fun e => by rw [hr] at e; cases e) (fun e => by rw [hf] at e; cases e) (fun _ => ?_)
    unfold waitingOf
    simpa using hn

theorem composeNotice_bounded {s : State} (h : linkBounded s) : linkBounded (composeNotice s) := by
  unfold composeNotice
  split
  · exact placeNotice_bounded rfl h
  · exact h

theorem replyMessage_class (r : Request) (reply : List Byte) :
    isRefusal (replyMessage r reply) = false ∧ isNotice (replyMessage r reply) = false := by
  have h : replyClass r reply = .resetReply ∨ replyClass r reply = .served := by
    unfold replyClass
    split
    · exact .inl rfl
    · exact .inr rfl
  unfold isRefusal isNotice replyMessage
  rcases h with h | h <;> rw [h] <;> exact ⟨rfl, rfl⟩

/-- Serving the oldest request keeps the bounds: its reply is the only one out. -/
theorem serveNext_bounded {s : State} (h : linkBounded s) : linkBounded (serveNext s) := by
  unfold serveNext
  split
  · exact h
  · next r rest hq =>
    split
    · next hfree =>
      let taken : State := setLink (fun k => { k with queue := rest }) s
      have k := serveRequest_link r taken
      have hb : linkBounded taken := by
        obtain ⟨hqueue, hrest⟩ := h
        rw [hq, List.length_cons] at hqueue
        exact ⟨(Nat.le_succ _).trans hqueue, hrest⟩
      have hs : linkBounded (serveRequest r taken).1 := linkBounded_of_link k.queue k.sending k.waiting hb
      obtain ⟨hf, hn⟩ := replyMessage_class r (serveRequest r taken).2
      refine placeMessage_bounded hs (fun _ => ?_) (fun e => by rw [hf] at e; cases e) (fun e => by rw [hn] at e; cases e)
      have free : repliesOut s = 0 := (serverFree_iff s).mp hfree
      unfold repliesOut waitingOf at *
      rw [k.sending, k.waiting]
      exact free
    · exact h

theorem takeRequest_bounded (r : Request) {s : State} (h : linkBounded s) : linkBounded (takeRequest r s) := by
  unfold takeRequest
  split
  · next hlt =>
    refine serveNext_bounded ⟨?_, h.2⟩
    simpa using Nat.succ_le_of_lt hlt
  · unfold refuseFullQueue
    dsimp only
    have hb : linkBounded (setLink (fun k => { k with refusedFull := bump k.refusedFull }) s) := h
    split
    · next hw => exact placeMessage_bounded hb (fun e => by cases e) (fun _ => hw) (fun e => by cases e)
    · exact hb

theorem takeMessage_bounded (kind tag : Byte) (payload : List Byte) {s : State} (h : linkBounded s) :
    linkBounded (takeMessage kind tag payload s) := by
  unfold takeMessage
  split
  · exact takeRequest_bounded _ h
  · exact h

/-- A byte inside a message moves the receiver, discards the message or takes it whole. -/
theorem receiveByte_cases {P : State → Prop} (b : Byte) (s : State)
    (hl : ∀ change : Link → Link,
      (∀ k, (change k).queue = k.queue ∧ (change k).sending = k.sending ∧ (change k).waiting = k.waiting) → P (setLink change s))
    (hm : ∀ (kind tag : Byte) (payload : List Byte), P (takeMessage kind tag payload (setLink hunting s))) :
    P (receiveByte b s) := by
  have same : P s := hl id (fun _ => ⟨rfl, rfl, rfl⟩)
  unfold receiveByte
  split
  · split
    · exact hl _ (fun _ => ⟨rfl, rfl, rfl⟩)
    · exact same
  · unfold gatherByte
    split
    · split
      · exact hl _ (fun _ => ⟨rfl, rfl, rfl⟩)
      · exact hl _ (fun _ => ⟨rfl, rfl, rfl⟩)
    · dsimp only
      split
      · unfold takeWhole
        dsimp only
        split
        · split
          · exact hm _ _ _
          · exact hl _ (fun _ => ⟨rfl, rfl, rfl⟩)
        · exact hl (fun k => { hunting k with checkDiscards := bump k.checkDiscards }) (fun _ => ⟨rfl, rfl, rfl⟩)
      · exact hl _ (fun _ => ⟨rfl, rfl, rfl⟩)

theorem receiveByte_bounded (b : Byte) {s : State} (h : linkBounded s) : linkBounded (receiveByte b s) :=
  receiveByte_cases b s
    (fun _ hc => linkBounded_of_link (hc s.link).1 (hc s.link).2.1 (hc s.link).2.2 h)
    (fun kind tag payload => takeMessage_bounded kind tag payload (linkBounded_of_link rfl rfl rfl h))

/-- The end of a transmission frees the line for the oldest message waiting. -/
theorem nextMessage_bounded {s : State} (h : linkBounded s) : linkBounded (nextMessage s) := by
  refine serveNext_bounded ?_
  obtain ⟨hqueue, hreplies, hrefusals, hnotices, -⟩ := h
  obtain ⟨hq, hl, hw, hi⟩ := sendNext_link (setLink (fun k => { k with sending := none }) s)
  have count (test : Message → Bool) :
      waitingOf test (sendNext (setLink (fun k => { k with sending := none }) s)) ≤ waitingOf test s :=
    (hw.filter test).length_le
  refine ⟨by rw [hq]; exact hqueue, ?_, (count _).trans hrefusals, (count _).trans hnotices, hi⟩
  rw [repliesOut_eq] at hreplies ⊢
  rw [hl]
  refine le_trans (List.Sublist.length_le (List.Sublist.filter _ ?_)) hreplies
  exact List.sublist_append_right _ _

end Sys2Proof.Machine
end

