-- ==== Sys2Proof/Proofs/Invariants.lean ====
section
/-! Every command keeps the invariants: the frame memory's form, the line's and the lists' bounds, the title settled and the conditions
told. -/

namespace Sys2Proof.Machine

/-- The frame memory's form and the bounds of the line and the lists are kept. -/
structure BoundsKept (s t : State) : Prop where
  memory : memoryCanonical s → memoryCanonical t
  line : linkBounded s → linkBounded t
  lists : listsBounded s → listsBounded t

/-- The bounds are kept, and with them a settled title and conditions told. -/
structure InvariantsKept (s t : State) : Prop extends BoundsKept s t where
  title : titleSettled s → titleSettled t
  told : conditionsTold s → conditionsTold t

/-- The invariants but for the line's own bounds are kept. -/
structure OffLineKept (s t : State) : Prop where
  memory : memoryCanonical s → memoryCanonical t
  lists : listsBounded s → listsBounded t
  title : titleSettled s → titleSettled t
  told : conditionsTold s → conditionsTold t

theorem BoundsKept.trans {s t u : State} (h : BoundsKept s t) (k : BoundsKept t u) : BoundsKept s u :=
  ⟨k.memory ∘ h.memory, k.line ∘ h.line, k.lists ∘ h.lists⟩

theorem InvariantsKept.refl (s : State) : InvariantsKept s s := ⟨⟨id, id, id⟩, id, id⟩

theorem InvariantsKept.trans {s t u : State} (h : InvariantsKept s t) (k : InvariantsKept t u) : InvariantsKept s u :=
  ⟨h.toBoundsKept.trans k.toBoundsKept, k.title ∘ h.title, k.told ∘ h.told⟩

theorem OffLineKept.refl (s : State) : OffLineKept s s := ⟨id, id, id, id⟩

theorem OffLineKept.trans {s t u : State} (h : OffLineKept s t) (k : OffLineKept t u) : OffLineKept s u :=
  ⟨k.memory ∘ h.memory, k.lists ∘ h.lists, k.title ∘ h.title, k.told ∘ h.told⟩

theorem InvariantsKept.offLine {s t : State} (h : InvariantsKept s t) : OffLineKept s t := ⟨h.memory, h.lists, h.title, h.told⟩

theorem OffLineKept.with_line {s t : State} (h : OffLineKept s t) (hb : linkBounded s → linkBounded t) : InvariantsKept s t :=
  ⟨⟨h.memory, hb, h.lists⟩, h.title, h.told⟩

theorem Kept.bounds {s t : State} (h : Kept s t) : BoundsKept s t :=
  ⟨h.memory, linkBounded_of_link h.queue h.sending h.waiting, h.lists⟩

/-- An event that ends with settling leaves nothing untaken and nothing untold. -/
theorem BoundsKept.settled {s u : State} (h : BoundsKept s u) : InvariantsKept s (settle u) :=
  ⟨h.trans (settle_kept u).bounds, fun _ => settle_titleSettled u, fun _ => settle_told u⟩

theorem Kept.settled {s u : State} (h : Kept s u) : InvariantsKept s (settle u) := h.bounds.settled

/-- An event that ends with telling the conditions tells them. -/
theorem Kept.tell {s u : State} (h : Kept s u) (ht : titleSettled s → titleSettled u) : InvariantsKept s (tellConditions u) :=
  ⟨(h.trans (tellConditions_kept u)).bounds,
    fun k => titleSettled_of_same rfl rfl rfl (.of_slots rfl) rfl rfl rfl (ht k), fun _ => tellConditions_told u⟩

/-- Neither the drain nor a condition reads what the line's own acts change. -/
theorem LineOnly.offLine {s t : State} (h : LineOnly s t) : OffLineKept s t := by
  have same {α : Type} (g : State → α) (e : ∀ (u : State) (k : Link) (r : ReportUnit), g { u with link := k, reports := r } = g u) :
      g t = g s := by
    rw [← e t s.link { t.reports with added := s.reports.added, reported := s.reports.reported, events := s.reports.events }, h.rest]
  have reports {α : Type} (g : ReportUnit → α)
      (e : ∀ (r : ReportUnit) (n : Nat) (c : Conditions) (l : List TitleEvent),
        g { r with added := n, reported := c, events := l } = g r) : g t.reports = g s.reports := by
    have := congrArg (fun u : State => g u.reports) h.rest
    exact (e t.reports _ _ _).symm.trans this
  have slots := same State.slots fun _ _ _ => rfl
  have spare := same State.spare fun _ _ _ => rfl
  have title := same (fun u => u.title.state) fun _ _ _ => rfl
  have ingest := same (fun u => u.ingest.state) fun _ _ _ => rfl
  refine ⟨?_, ?_, ?_, ?_⟩
  · have buffers := same State.buffers fun _ _ _ => rfl
    intro k
    unfold memoryCanonical at *
    rw [buffers]
    exact k
  · have gaps := same State.gaps fun _ _ _ => rfl
    have done := reports ReportUnit.done fun _ _ _ _ => rfl
    have missed := reports ReportUnit.missed fun _ _ _ _ => rfl
    rintro ⟨k1, k2, k3, k4, k5⟩
    exact ⟨by rw [done]; exact k1, by rw [missed]; exact k2, h.added.trans k3, h.events.trans k4, by rw [gaps]; exact k5⟩
  · exact titleSettled_of_same title ingest (same State.gaps fun _ _ _ => rfl) (.of_slots slots)
      (same (fun u => u.feed.flight) fun _ _ _ => rfl) (same State.verify fun _ _ _ => rfl) spare
  · exact conditionsTold_of_same (fun j => by rw [slots]) title spare (same (fun u => u.feed.state) fun _ _ _ => rfl) ingest
      (same State.timebase fun _ _ _ => rfl) (reports ReportUnit.truths fun _ _ _ _ => rfl)

/-! ### Requests -/

/-- Neither the drain nor a condition reads what a request in IDLE or ARMED changes, but for the slots, the recorder, ingest's state and
the timebase, which it leaves. -/
theorem InvariantsKept.of_unopened {s t : State} (hs : s.title.state = .idle ∨ s.title.state = .armed)
    (ht : t.title.state = .idle ∨ t.title.state = .armed) (hm : t.buffers = s.buffers) (hl : t.link = s.link)
    (hr : t.reports = s.reports) (hg : t.gaps = s.gaps) (hw : t.slots = s.slots) (hf : t.feed = s.feed)
    (hb : t.timebase = s.timebase) : InvariantsKept s t := by
  have unopened (u : State) (h : u.title.state = .idle ∨ u.title.state = .armed) :
      spareLowNow u = false ∧ ingestUnlockedNow u = false := by
    unfold spareLowNow ingestUnlockedNow
    rcases h with h | h <;> rw [h] <;> exact ⟨rfl, rfl⟩
  refine ⟨⟨fun k => ?_, linkBounded_of_link (by rw [hl]) (by rw [hl]) (by rw [hl]), fun k => ?_⟩, fun _ => ?_, fun k => ?_⟩
  · unfold memoryCanonical at *
    rw [hm]
    exact k
  · unfold listsBounded at *
    rw [hr, hg]
    exact k
  · exact titleSettled_of_state (by rcases ht with h | h <;> simp [h]) (by rcases ht with h | h <;> simp [h])
  · have hc : conditionsNow t = conditionsNow s := by
      have hn : windowLowNow t = windowLowNow s := by
        unfold windowLowNow
        rw [countSlots_congr (s := s) (fun j => by rw [hw])]
      unfold conditionsNow recorderPausedNow referenceFreeRunNow
      rw [hn, (unopened t ht).1, (unopened t ht).2, (unopened s hs).1, (unopened s hs).2, hf, hb]
    show t.reports.truths = conditionsNow t
    rw [hr, hc]
    exact k

/-- An update of the classifier, the strategies, the Scheduler, the settings or the pending cue is read by no invariant. -/
theorem InvariantsKept.of_settings (s : State) (c : Settings) (h : Scheduler) (k : Classifier) (t : Strategy) (m : Option Byte) :
    InvariantsKept s
      { s with settings := c, sched := h, classifier := k, strategy := t, feed := { s.feed with pendingCue := m } } :=
  ⟨⟨id, id, id⟩, titleSettled_of_same rfl rfl rfl (.of_slots rfl) rfl rfl rfl,
    conditionsTold_of_same (fun _ => rfl) rfl rfl rfl rfl rfl rfl⟩

/-- A report read or alerts acknowledged leave the truths told and shorten the lists. -/
theorem InvariantsKept.of_reports (s : State) (r : ReportUnit) (ht : r.truths = s.reports.truths)
    (hd : r.done.length ≤ s.reports.done.length) (hm : r.missed ≤ s.reports.missed) (ha : r.added = s.reports.added)
    (he : r.events = s.reports.events) : InvariantsKept s { s with reports := r } :=
  ⟨⟨id, id, fun ⟨k1, k2, k3, k4, k5⟩ => ⟨hd.trans k1, hm.trans k2, by rw [ha]; exact k3, by rw [he]; exact k4, k5⟩⟩,
    titleSettled_of_same rfl rfl rfl (.of_slots rfl) rfl rfl rfl,
    conditionsTold_of_same (fun _ => rfl) rfl rfl rfl rfl rfl ht⟩

/-- Serving that makes no frame written leaves the title settled. -/
theorem ServeKept.titleSettled {s t : State} (h : ServeKept s t) (hu : UnwrittenKept s t) (hs : titleSettled s) : titleSettled t := by
  have same {α : Type} (g : State → α)
      (e : ∀ u v c r w, g { u with slots := v, sched := c, repair := r, strategy := w } = g u) : g t = g s := by
    have := congrArg g h.rest
    exact (e _ _ _ _ _).symm.trans this
  exact titleSettled_of_same (same (fun u => u.title.state) fun _ _ _ _ _ => rfl)
    (same (fun u => u.ingest.state) fun _ _ _ _ _ => rfl) (same State.gaps fun _ _ _ _ _ => rfl) hu
    (same (fun u => u.feed.flight) fun _ _ _ _ _ => rfl) (same State.verify fun _ _ _ _ _ => rfl)
    (same State.spare fun _ _ _ _ _ => rfl) hs

theorem decisionPoint_titleSettled {s : State} (h : titleSettled s) : titleSettled (decisionPoint s) :=
  (decisionPoint_served s).titleSettled (decisionPoint_unwritten s) h

theorem startTitle_invariants (d : TitleDeclaration) (s : State) : InvariantsKept s (startTitle d s) :=
  ⟨⟨id, id, id⟩, fun _ => titleSettled_of_state (by simp [startTitle, tellConditions]) (by simp [startTitle, tellConditions]),
    fun _ => tellConditions_told _⟩

theorem abortTitle_invariants (s : State) : InvariantsKept s (abortTitle s) :=
  ⟨(abortTitle_kept s).bounds,
    fun _ => titleSettled_of_state (by simp [abortTitle, tellConditions, enterIdle]) (by simp [abortTitle, tellConditions, enterIdle]),
    fun _ => tellConditions_told _⟩

theorem pairSpare_invariants {s : State} (lo hi : Nat) (h : s.title.state = .idle ∨ s.title.state = .armed) :
    InvariantsKept s (pairSpare (takeRegion lo hi s)) := by
  have e : (takeRegion lo hi s).title = s.title := rfl
  unfold pairSpare
  rw [e]
  rcases h with h | h <;> rw [h]
  · refine .of_unopened (.inl h) ?_ rfl rfl rfl rfl rfl rfl rfl
    dsimp only
    unfold armedIf
    split
    · exact .inr rfl
    · exact .inl rfl
  · exact .of_unopened (.inr h) (.inl rfl) rfl rfl rfl rfl rfl rfl rfl

theorem pairTitle_invariants {s : State} (d : TitleDeclaration) (h : s.title.state = .idle ∨ s.title.state = .armed) :
    InvariantsKept s (pairTitle (takeDeclaration d s)) := by
  have e : (takeDeclaration d s).title.state = s.title.state := rfl
  unfold pairTitle
  rw [e]
  rcases h with h | h <;> rw [h]
  · refine .of_unopened (.inl h) ?_ rfl rfl rfl rfl rfl rfl rfl
    dsimp only
    unfold armedIf
    split
    · exact .inr rfl
    · exact .inl rfl
  · exact .of_unopened (.inr h) (.inl rfl) rfl rfl rfl rfl rfl rfl rfl

/-- A request carried out in a title state that accepts it keeps the invariants. -/
theorem carryOut_invariants (q : RequestName) (payload : List Byte) (s : State) (ha : acceptedIn q s.title.state = true) :
    InvariantsKept s (carryOut q payload s).1 := by
  have same : InvariantsKept s s := .refl s
  cases q with
  | configure =>
    unfold carryOut carryConfigure
    dsimp only
    split
    · exact same
    · exact .of_settings s _ _ _ _ _
  | loadRule =>
    unfold carryOut carryLoadRule
    dsimp only
    split
    · exact same
    · exact .of_settings s _ _ _ _ _
  | loadEntry =>
    unfold carryOut carryLoadEntry
    dsimp only
    split
    · exact same
    · exact .of_settings s _ _ _ _ _
  | adjust =>
    unfold carryOut carryAdjust
    dsimp only
    split
    · exact same
    · exact (InvariantsKept.of_settings s _ _ _ _ s.feed.pendingCue).trans
        ((decisionPoint_kept _).tell decisionPoint_titleSettled)
  | declareSpare =>
    unfold carryOut carryDeclareSpare
    dsimp only
    split
    · exact pairSpare_invariants _ _ (by simpa [acceptedIn] using ha)
    · exact same
  | openTitle =>
    unfold carryOut carryOpenTitle
    dsimp only
    split
    · exact pairTitle_invariants _ (by simpa [acceptedIn] using ha)
    · exact same
  | start =>
    unfold carryOut carryStart
    dsimp only
    split
    · exact same
    · split
      · exact startTitle_invariants _ s
      · exact same
  | stop => exact (enterDraining_kept s).settled
  | abort => exact abortTitle_invariants s
  | cue =>
    unfold carryOut carryCue
    dsimp only
    split
    · exact same
    · exact .of_settings s _ _ _ _ _
  | readReport =>
    unfold carryOut carryReadReport
    dsimp only
    split
    · exact same
    · next hd => exact .of_reports s _ rfl (by simp [hd]) le_rfl rfl rfl
  | ackAlerts =>
    unfold carryOut carryAckAlerts
    dsimp only
    split
    · refine .of_reports s _ rfl le_rfl ?_ rfl rfl
      split
      · exact Nat.zero_le _
      · exact le_rfl
    · exact same
  | sectionReset =>
    unfold carryOut carrySectionReset
    dsimp only
    split
    · exact same
    · next x _ =>
      cases x with
      | ingest => exact (resetIngest_kept s).settled
      | scheduler => exact (resetScheduler_kept s).settled
      | recorder => exact (resetRecorder_kept s).settled
  | query =>
    unfold carryOut carryQuery
    dsimp only
    split
    · exact same
    · split <;> exact same
  | reset => exact same

theorem serveRequest_invariants (r : Request) (s : State) : InvariantsKept s (serveRequest r s).1 := by
  unfold serveRequest
  split
  · exact .refl s
  · split
    · exact .refl s
    · split
      · exact .refl s
      · next ha => exact carryOut_invariants _ _ s (by simpa using ha)

/-! ### The line's commands -/

theorem serveNext_offLine (s : State) : OffLineKept s (serveNext s) := by
  unfold serveNext
  split
  · exact .refl s
  · split
    · exact ((setLink_lineOnly _ s).offLine.trans (serveRequest_invariants _ _).offLine).trans (placeMessage_lineOnly _ _).offLine
    · exact .refl s

theorem takeRequest_offLine (r : Request) (s : State) : OffLineKept s (takeRequest r s) := by
  unfold takeRequest
  split
  · exact (setLink_lineOnly _ s).offLine.trans (serveNext_offLine _)
  · unfold refuseFullQueue
    dsimp only
    split
    · exact ((setLink_lineOnly _ s).trans (placeMessage_lineOnly _ _)).offLine
    · exact (setLink_lineOnly _ s).offLine

theorem takeRequest_invariants (r : Request) (s : State) : InvariantsKept s (takeRequest r s) :=
  (takeRequest_offLine r s).with_line (takeRequest_bounded r)

theorem takeMessage_invariants (kind tag : Byte) (payload : List Byte) (s : State) :
    InvariantsKept s (takeMessage kind tag payload s) := by
  refine OffLineKept.with_line ?_ (takeMessage_bounded kind tag payload)
  unfold takeMessage
  split
  · exact takeRequest_offLine _ s
  · exact (setLink_lineOnly _ s).offLine

theorem receiveByte_invariants (b : Byte) (s : State) : InvariantsKept s (receiveByte b s) :=
  OffLineKept.with_line
    (receiveByte_cases b s (fun change _ => (setLink_lineOnly change s).offLine)
      (fun kind tag payload => (setLink_lineOnly hunting s).offLine.trans (takeMessage_invariants kind tag payload _).offLine))
    (receiveByte_bounded b)

theorem receiveBytes_invariants (bytes : List Byte) (s : State) : InvariantsKept s (receiveBytes bytes s) := by
  unfold receiveBytes
  induction bytes generalizing s with
  | nil => exact .refl s
  | cons b rest ih => exact (receiveByte_invariants b s).trans (ih _)

theorem gapExpires_invariants (s : State) : InvariantsKept s (gapExpires s) := by
  unfold gapExpires
  split
  · exact .refl s
  · exact (setLink_lineOnly _ s).offLine.with_line (linkBounded_of_link rfl rfl rfl)

/-- The reset values satisfy the invariants, whatever canonical samples the frame memory keeps. -/
theorem reset_lists : listsBounded State.reset := by simp [listsBounded, State.reset]

theorem reset_line : linkBounded State.reset := by simp [linkBounded, repliesOut, waitingOf, State.reset]

theorem reset_titleSettled : titleSettled State.reset := titleSettled_of_state (by simp [State.reset]) (by simp [State.reset])

theorem reset_told : conditionsTold State.reset := by decide +kernel

theorem reset_invariants {s t : State} (ht : { t with buffers := State.reset.buffers, recorderOut := none, pending := [] } = State.reset)
    (hm : memoryCanonical s → memoryCanonical t) : InvariantsKept s t := by
  have same {α : Type} (g : State → α) (e : ∀ u b m p, g { u with buffers := b, recorderOut := m, pending := p } = g u) :
      g t = g State.reset := (e t _ _ _).symm.trans (congrArg g ht)
  refine ⟨⟨hm, fun _ => ?_, fun _ => ?_⟩, fun _ => ?_, fun _ => ?_⟩
  · exact (same linkBounded fun _ _ _ _ => rfl).mpr reset_line
  · exact (same listsBounded fun _ _ _ _ => rfl).mpr reset_lists
  · exact (same titleSettled fun _ _ _ _ => rfl).mpr reset_titleSettled
  · exact (same conditionsTold fun _ _ _ _ => rfl).mpr reset_told

theorem takeReset_invariants (s : State) : InvariantsKept s (takeReset s) := reset_invariants rfl id

theorem takePower_invariants (s : State) : InvariantsKept s (takePower s) := reset_invariants rfl fun _ => reset_memory_wf

theorem endTransmission_invariants (s : State) : InvariantsKept s (endTransmission s) := by
  have next : InvariantsKept s (nextMessage s) :=
    (((setLink_lineOnly _ s).trans (sendNext_lineOnly _)).offLine.trans (serveNext_offLine _)).with_line nextMessage_bounded
  unfold endTransmission
  split
  · exact .refl s
  · split
    · exact takeReset_invariants s
    · exact next
    · exact next
    · exact next

theorem resetArrives_invariants (s : State) : InvariantsKept s (resetArrives s) := by
  unfold resetArrives
  split
  · exact .refl s
  · split
    · exact takeReset_invariants s
    · exact .refl s

/-! ### Field boundaries -/

theorem takeBoundary_bounds (block : BoundaryBlock) (s : State) : BoundsKept s (takeBoundary block s) := by
  cases block with
  | window => exact (ageSlots_kept s).bounds
  | scheduler => exact (reloadBudget_kept s).bounds
  | ingest => exact ((watchBoundary_kept s).trans (settle_kept _)).bounds
  | report =>
    have h := (composeNotice_lineOnly (tellConditions s)).offLine
    exact (tellConditions_kept s).bounds.trans ⟨h.memory, composeNotice_bounded, h.lists⟩

theorem fieldBoundary_invariants (order : BoundaryOrder) (s : State) : InvariantsKept s (fieldBoundary order s) := by
  refine BoundsKept.settled ?_
  induction blockOrder order generalizing s with
  | nil => exact ⟨id, id, id⟩
  | cons block rest ih => exact (takeBoundary_bounds block s).trans (ih _)

theorem markBoundary_bounds (mode : TimebaseMode) (time : Nat) (s : State) : BoundsKept s (markBoundary mode time s) :=
  ⟨id, id, id⟩

/-- A boundary marked and taken leaves all told, whatever the mark changes. -/
theorem boundary_invariants (mode : TimebaseMode) (time : Nat) (order : BoundaryOrder) (s : State) :
    InvariantsKept s (fieldBoundary order (markBoundary mode time s)) :=
  ⟨(markBoundary_bounds mode time s).trans (fieldBoundary_invariants order _).toBoundsKept, fun _ => settle_titleSettled _,
    fun _ => settle_told _⟩

theorem takePulse_invariants (time : Nat) (order : BoundaryOrder) (s : State) : InvariantsKept s (takePulse time order s) := by
  unfold takePulse
  split
  · exact boundary_invariants _ _ order s
  · exact ⟨⟨id, id, id⟩, id, id⟩

theorem freeRunEntry_invariants (order : BoundaryOrder) (s : State) : InvariantsKept s (freeRunEntry order s) := by
  unfold freeRunEntry
  split
  · exact boundary_invariants _ _ order s
  · exact .refl s

theorem generatorTick_invariants (order : BoundaryOrder) (s : State) : InvariantsKept s (generatorTick order s) := by
  unfold generatorTick
  split
  · exact .refl s
  · exact boundary_invariants _ _ order s

/-! ### Bands, the recorder and the unit -/

theorem recordBand_states (i : Fin 32) (f : Field) (b : Fin 18) (count : Byte) (samples : BandImage) (s : State) (j : Fin 32) :
    (recordBand i f b count samples s).slots[j].state = s.slots[j].state := by
  show ((s.setBand i f b _).slots[j]).state = _
  unfold State.setBand
  rw [setSlot_slots]
  split
  · next e => subst e; rfl
  · rfl

theorem recordBand_invariants (i : Fin 32) (f : Field) (b : Fin 18) (count : Byte) (samples : BandImage) (s : State) :
    InvariantsKept s (recordBand i f b count samples s) := by
  have states := recordBand_states i f b count samples s
  refine ⟨(recordBand_kept i f b count samples s).bounds, ?_, ?_⟩
  · refine titleSettled_of_same rfl rfl rfl (fun j => ?_) rfl rfl rfl
    unfold holdsUnwritten
    rw [states]
  · exact conditionsTold_of_same (fun j => by rw [states]) rfl rfl rfl rfl rfl rfl

theorem takeBand_invariants (index count : Byte) (samples : BandImage) (s : State) :
    InvariantsKept s (takeBand index count samples s) := by
  have ignored : InvariantsKept s (ignoreBand s) := ⟨⟨id, id, id⟩, id, id⟩
  have same : InvariantsKept s s := .refl s
  unfold takeBand lockedBand storeBand
  split
  · exact same
  · exact ignored
  · split
    · exact ignored
    · split
      · exact ignored
      · split
        · exact same
        · split
          · split
            · split
              · exact recordBand_invariants ..
              · exact ignored
            · exact ignored
          · exact ignored

/-- PAUSE and RESUME change the recorder's state and its pause mark, and tell the recorder's condition. -/
theorem tellRecorder_invariants (s : State) (f : Feed) (hf : f.flight = s.feed.flight) :
    InvariantsKept s (tellRecorder { s with feed := f }) := by
  refine ⟨⟨id, id, id⟩, titleSettled_of_same rfl rfl rfl (.of_slots rfl) hf rfl rfl, fun h => ?_⟩
  let u : State := { s with feed := f }
  have ht : (tellRecorder u).reports.truths = { s.reports.truths with recorderPaused := recorderPausedNow u } := rfl
  have hn : conditionsNow (tellRecorder u) = { conditionsNow s with recorderPaused := recorderPausedNow u } := rfl
  exact ht.trans (by rw [hn, h])

theorem pause_invariants (s : State) : InvariantsKept s (tellRecorder (pauseFeed s)) := by
  unfold pauseFeed
  split
  · exact tellRecorder_invariants s _ rfl
  · exact tellRecorder_invariants s _ rfl
  · exact tellRecorder_invariants s s.feed rfl

theorem resume_invariants (s : State) : InvariantsKept s (tellRecorder (resumeFeed s)) := by
  unfold resumeFeed
  split
  · exact tellRecorder_invariants s s.feed rfl
  · exact tellRecorder_invariants s _ rfl
  · exact tellRecorder_invariants s _ rfl

theorem measureDone_invariants (s : State) : InvariantsKept s (measureDone s) := by
  unfold measureDone
  split
  · split
    · exact ⟨⟨id, id, id⟩, id, id⟩
    · exact .refl s
  · exact .refl s

theorem handBand_titleSettled (op : Operation) {s : State} (h : titleSettled s) : titleSettled (handBand op s) := by
  unfold handBand moveBandWith
  split
  · refine titleSettled_of_same ?_ ?_ ?_ (moveBand_unwritten op.slot op.field op.band (.repaired (treatmentOf op)) s) ?_ ?_ ?_ h
    all_goals
      dsimp only [State.setImage]
      unfold moveBand
      split
      · split <;> rfl
      · rfl
  · exact h

theorem settleJob_titleSettled (op : Operation) {s : State} (h : titleSettled s) : titleSettled (settleJob op s) := by
  unfold settleJob
  split
  · exact h
  · next j _ =>
    have ha : titleSettled (advanceJob j op.band s) :=
      (setJobs_served _ s).titleSettled (.of_slots rfl) h
    dsimp only
    split
    · exact ha
    · exact (completeJob_served j _).titleSettled (completeJob_unwritten j _) ha

theorem bandDone_invariants (s : State) : InvariantsKept s (tellConditions (bandDone s)) := by
  refine (bandDone_kept s).tell fun h => ?_
  unfold bandDone
  split
  · next op _ =>
    split
    · exact (serveJobs_served _ _ _).titleSettled (serveJobs_unwritten _ _ _)
        (settleJob_titleSettled op (handBand_titleSettled (blended s op) h))
    · exact h
  · exact h

/-! ### Every command -/

theorem execWriteEnd_invariants {s t : State} (h : execWriteEnd s = .next t) : InvariantsKept s t := by
  unfold execWriteEnd at h
  split at h <;> injection h with h <;> subst h
  · next w _ => exact (endWrite_kept w s).settled
  · exact .refl s

/-- A drain or a close left to take is taken where it is due; the row standing alone then finds nothing (R171, R172). -/
theorem drain_invariants (s : State) : InvariantsKept s (tellConditions (checkDrain s)) := by
  refine (checkDrain_kept s).tell fun h => ?_
  have e : checkDrain s = s := if_neg fun c => by simp [h.1 c.1] at c
  rw [e]
  exact h

theorem close_invariants (s : State) : InvariantsKept s (tellConditions (checkClose s)) := by
  refine (checkClose_kept s).tell fun h => ?_
  have e : checkClose s = s := if_neg fun c => by simp [h.2 c.1] at c
  rw [e]
  exact h

/-- Every command keeps every invariant. -/
theorem exec_invariants (c : Instr) (s t : State) (h : exec c s = .next t) : InvariantsKept s t := by
  cases c
  case writeEnd => exact execWriteEnd_invariants h
  all_goals
    injection h with h
    subst h
  case powerOn => exact takePower_invariants s
  case fieldStart parity signals => exact (takeFieldStart_kept parity signals s).settled
  case band index count samples => exact takeBand_invariants index count samples s
  case fieldEnd => exact (takeFieldEnd_kept s).settled
  case referencePulse time order => exact takePulse_invariants time order s
  case enterFreeRun order => exact freeRunEntry_invariants order s
  case generatedBoundary order => exact generatorTick_invariants order s
  case lockLoss => exact (checkLock_kept s).settled
  case writeSlot => exact (((tallyFeed_kept _ s).trans (ageAndTimeOut_kept _)).trans (answerSlot_kept _)).settled
  case verifyTimeout => exact (timeOutOldest_kept s).settled
  case pause => exact pause_invariants s
  case resume => exact resume_invariants s
  case outcome tag result => exact (takeOutcome_kept _ result s).settled
  case measureDone => exact measureDone_invariants s
  case bandDone => exact bandDone_invariants s
  case drainComplete => exact drain_invariants s
  case closeComplete => exact close_invariants s
  case receivedMessage bytes => exact receiveBytes_invariants bytes s
  case gapDiscard => exact gapExpires_invariants s
  case transmissionEnd => exact endTransmission_invariants s
  case resetTakesEffect => exact resetArrives_invariants s
  case unassignedRequest kind tag payload => exact takeMessage_invariants kind tag payload s
  all_goals exact takeRequest_invariants _ s

/-- A step keeps every invariant: the queue of commands is read by none. -/
theorem step_invariants {s t : State} (h : step s = .next t) : InvariantsKept s t := by
  unfold step at h
  split at h
  · injection h with h
    subst h
    exact .refl s
  · next c rest _ =>
    have taken : InvariantsKept s { s with pending := rest } := ⟨⟨id, id, id⟩, id, id⟩
    exact taken.trans (exec_invariants c _ t h)

/-- Settles O5: a step keeps the frame memory's form with the other invariants. -/
theorem memoryStaysCanonical : Obligations.MemoryStaysCanonical := fun _ _ hm h => (step_invariants h).memory hm

/-- Settles O6: a step keeps every invariant. -/
theorem queuesStayBounded : Obligations.QueuesStayBounded := by
  intro s t h
  have k := step_invariants h
  exact ⟨k.line, k.lists, k.title, k.told⟩

theorem reset_configuration : configurationLegal State.reset := by
  refine ⟨by simp [settingsLegal, rowLegal, State.reset], by simp [State.reset], fun e => ?_⟩
  simp [State.reset]

/-- Settles O8: each invariant holds of the reset values. -/
theorem invariantsAtReset : Obligations.InvariantsAtReset :=
  ⟨reset_memory_wf, reset_line, reset_lists, reset_configuration, reset_titleSettled, reset_told⟩

/-- Settles O3: each block's reset values are read off the reset state. -/
theorem resetValues : Obligations.ResetValues := by
  refine ⟨⟨rfl, rfl, rfl, rfl, rfl⟩, ⟨fun i => ?_, rfl, rfl⟩, ⟨rfl, rfl, rfl⟩, ⟨fun k => ?_, fun e => ?_⟩,
    ⟨rfl, rfl, rfl, rfl, rfl, rfl, rfl⟩, ⟨rfl, rfl, rfl, rfl, rfl⟩, ⟨rfl, rfl, rfl, rfl, rfl⟩, ⟨rfl, rfl, rfl, rfl, rfl, rfl⟩,
    rfl, rfl, rfl, rfl⟩
  · simp [State.reset]
  · simp [State.reset]
  · simp [State.reset]

/-- Settles O4: power-on and the end of a RESET's reply give the reset values; without such a reply nothing changes. -/
theorem deviceResets : Obligations.DeviceResets := by
  intro s
  refine ⟨rfl, fun m hs hm => ?_, fun hn => ?_⟩
  · have he : resetCancel s = s.feed.flight.map (fun w => .cancel w.tag) := by
      unfold resetCancel
      cases s.feed.flight <;> rfl
    have ht : takeReset s =
        { State.reset with
          buffers := s.buffers, pending := s.pending, recorderOut := s.feed.flight.map (fun w => .cancel w.tag) } := by
      unfold takeReset
      rw [he]
    constructor
    · show Host.Outcome.next (resetArrives s) = _
      unfold resetArrives
      rw [hs]
      dsimp only
      rw [if_pos hm, ht]
    · show Host.Outcome.next (endTransmission s) = _
      unfold endTransmission
      rw [hs]
      dsimp only
      rw [hm]
      dsimp only
      rw [ht]
  · show Host.Outcome.next (resetArrives s) = _
    unfold resetArrives
    split
    · rfl
    · next m hs => rw [if_neg (hn m hs)]

end Sys2Proof.Machine
end

