-- ==== Sys2Proof/Proofs/PictureLine.lean ====
section
/-! The picture line's statements: gaps, bands, the fields' ends, and the frames they begin and complete (chapters 1 to 3). -/

namespace Sys2Proof.Machine

/-! ### The gap list (R24) -/

theorem runCovers_iff (k : Nat) (r : GapRun) : runCovers k r = true ↔ r.first ≤ k ∧ k < r.first + r.length := by
  simp [runCovers]

/-- A list whose newest run gives way to one that covers as much and the gap besides. -/
theorem any_covers_of_stretched {before : List GapRun} {newest longer : GapRun} {g k : Nat}
    (hg : runCovers g longer = true) (hl : ∀ k, runCovers k newest = true → runCovers k longer = true) :
    (before ++ [longer]).any (runCovers g) = true ∧
      ((before ++ [newest]).any (runCovers k) = true → (before ++ [longer]).any (runCovers k) = true) := by
  refine ⟨by simp [hg], fun h => ?_⟩
  simp only [List.any_append, List.any_cons, List.any_nil, Bool.or_false, Bool.or_eq_true] at h ⊢
  exact h.imp id (hl k)

/-- Settles O19, by the four cases of R24. -/
theorem gapIsRecorded : Obligations.GapIsRecorded := by
  intro runs g hl habove
  have covers_new : runCovers g { first := g, length := 1 } = true := by simp [runCovers]
  rcases List.eq_nil_or_concat runs with rfl | ⟨before, newest, rfl⟩
  · refine ⟨fun runs' h => ?_, fun h => by simp [recordGap] at h⟩
    have e : runs' = [{ first := g, length := 1 }] := by simpa [recordGap] using h.symm
    subst e
    exact ⟨by simp, by simp [covers_new], fun k hk => by simp at hk⟩
  · simp only [List.concat_eq_append] at *
    have hn : newest.first + newest.length ≤ g := habove newest (by simp)
    refine ⟨fun runs' h => ⟨recordGap_length h hl, ?_⟩, fun h => ?_⟩
    · simp only [recordGap, List.getLast?_append, List.getLast?_singleton, Option.some_or, List.dropLast_concat] at h
      have stretched (n : Nat) (hn' : newest.length ≤ n) (hg : g < newest.first + n) :=
        fun k => any_covers_of_stretched (before := before) (newest := newest) (longer := { newest with length := n }) (g := g) (k := k)
          ((runCovers_iff _ _).mpr ⟨by dsimp only; omega, hg⟩)
          (fun k hk => (runCovers_iff _ _).mpr (by have := (runCovers_iff _ _).mp hk; dsimp only; omega))
      split at h
      · next hc =>
        injection h with h
        subst h
        have c := stretched (newest.length + 1) (by omega) (by omega)
        exact ⟨(c g).1, fun k => (c k).2⟩
      · split at h
        · injection h with h
          subst h
          refine ⟨by simp [covers_new], fun k hk => ?_⟩
          rw [List.any_append, hk]
          rfl
        · split at h
          · injection h with h
            subst h
            have c := stretched (g - newest.first + 1) (by omega) (by omega)
            exact ⟨(c g).1, fun k => (c k).2⟩
          · cases h
    · simp only [recordGap, List.getLast?_append, List.getLast?_singleton, Option.some_or] at h
      split at h
      · cases h
      · split at h
        · cases h
        · split at h
          · cases h
          · refine ⟨by omega, fun r hr => ?_⟩
            have e : newest = r := by simpa using hr
            subst e
            omega

/-! ### Bands and fields (R2, R41 to R43) -/

/-- A band recorded: its record and its samples are the delivered ones, and no other band changes. -/
theorem recordBand_spec (i : Fin 32) (f : Field) (b : Fin 18) (count : Byte) (samples : BandImage) (s : State) :
    let t := recordBand i f b count samples s
    ((t.slots[i]).band f b = some { count := count, state := recordedState s.settings.threshold count } ∧
      t.image i f b = if count = 255 then blackImage else canonicalImage samples) ∧
    (∀ (j : Fin 32) (g : Field) (c : Fin 18), ¬(j = i ∧ g = f ∧ c = b) →
      t.image j g c = s.image j g c ∧ (t.slots[j]).band g c = (s.slots[j]).band g c) ∧
    (∀ j : Fin 32, { t.slots[j] with bands := s.slots[j].bands } = s.slots[j]) ∧
    { t with slots := s.slots, buffers := s.buffers } = s := by
  intro t
  have slots (j : Fin 32) : t.slots[j] =
      if i = j then s.slots[i].setBand f b { count := count, state := recordedState s.settings.threshold count } else s.slots[j] :=
    setSlot_slots s i j _
  have image (j : Fin 32) (g : Field) (c : Fin 18) : t.image j g c =
      if i = j ∧ f = g ∧ b = c then (if count = 255 then blackImage else canonicalImage samples) else s.image j g c :=
    setImage_image _ i j f g b c _
  refine ⟨⟨?_, ?_⟩, fun j g c hn => ⟨?_, ?_⟩, fun j => ?_, rfl⟩
  · rw [slots, if_pos rfl, setBand_band]
  · rw [image, if_pos ⟨rfl, rfl, rfl⟩]
  · rw [image, if_neg (fun h => hn ⟨h.1.symm, h.2.1.symm, h.2.2.symm⟩)]
  · rw [slots]
    split
    · next e =>
      subst e
      exact setBand_band_other _ _ _ _ _ _ fun h => hn ⟨rfl, h⟩
    · rfl
  · rw [slots]
    split
    · next e => subst e; rfl
    · rfl

/-- Settles O14: the band is stored, and `recordBand_spec` says what that changes. -/
theorem bandIsStored : Obligations.BandIsStored := by
  intro s index count samples a f i b hstate hframe hopen hslot hindex hb hband hw
  have hlt : index.toNat < 18 := hindex ▸ b.isLt
  have e : takeBand index count samples s = recordBand i f b count samples s := by
    have hb' : (⟨index.toNat, hlt⟩ : Fin 18) = b := Fin.ext hindex.symm
    unfold takeBand lockedBand storeBand
    simp only [hstate, hframe, hopen, hslot]
    rw [dif_pos hlt, if_pos (hindex ▸ hb), hb', hband]
  obtain ⟨⟨hrecord, himage⟩, hother, hrest, hstate'⟩ := recordBand_spec i f b count samples s
  refine ⟨recordBand i f b count samples s, congrArg Host.Outcome.next e, hrecord, fun p hp => ?_, hother, hrest, hstate'⟩
  rw [himage]
  split
  · rfl
  · exact sampleAt_canonicalImage p hw

/-- Settles O16: the field's end marks its bands MISSING and leaves no field open. -/
theorem fieldEndClosesFieldA : Obligations.FieldEndClosesFieldA := by
  intro s a i hstate hframe hslot hopen
  have e : takeFieldEnd s = setFrame (some { a with openField := none }) (markFieldMissing i .a s) := by
    unfold takeFieldEnd endFieldA
    simp only [hstate, hframe, hopen, hslot]
  obtain ⟨hmarked, hother, hrest, hstate'⟩ := markFieldMissing_spec i .a s
  have hingest : (markFieldMissing i .a s).ingest = s.ingest := by
    have := congrArg State.ingest hstate'
    exact this
  refine ⟨_, congrArg (fun u => Host.Outcome.next (settle u)) e, ?_, fun b hb hn => ?_, fun j g c hn => ?_, hrest,
    congrArg (fun u : State => { u with ingest := s.ingest }) hstate'⟩
  · unfold setFrame
    rw [hingest]
  · exact hmarked .a b ⟨rfl, by simp, hb, hn⟩
  · refine (hother j g c ?_).symm
    rintro ⟨rfl, hg, hc, hn'⟩
    obtain rfl : g = .a := by simpa using hg
    exact hn ⟨rfl, rfl, hc, hn'⟩

end Sys2Proof.Machine
end

