-- ==== Sys2Proof/Proofs/FrameStart.lean ====
section
/-! A FIELD START that begins a frame: the slot it takes, or the gap it leaves (R7 to R9, R35 to R38, R46). -/

namespace Sys2Proof.Machine

/-! ### Slot requests (R7, R8, R9) -/

theorem titleIsFull_eq_false {s : State} {n last : Nat} (hn : s.ingest.next = some n) (hl : s.ingest.last = some last)
    (h : n ≤ last) : titleIsFull s = false := by
  unfold titleIsFull
  rw [hn, hl]
  simpa using h

theorem allocate_free {s : State} {i : Fin 32} (n : Nat) (p : Field) (signals : SideSignals) (h : lowestFree s = some i) :
    allocate n p signals s = (s.setSlot i (allocatedRecord n p signals), .slot i) := by
  unfold allocate
  rw [h]

theorem allocate_forfeits {s : State} {i : Fin 32} (n : Nat) (p : Field) (signals : SideSignals) (hf : lowestFree s = none)
    (hp : s.settings.pressure = .protectSource) (hc : forfeitChoice s = some i) :
    allocate n p signals s = ((forfeitSlot i s).setSlot i (allocatedRecord n p signals), .slot i) := by
  unfold allocate
  rw [hf, hp]
  dsimp only
  rw [hc]

theorem dropFrame_recorded {s : State} {n : Nat} {runs : List GapRun} (h : recordGap s.gaps n = some runs) :
    dropFrame n s = (postSourceGap { s with gaps := runs }, .dropped) := by
  unfold dropFrame
  rw [h]

theorem dropFrame_refused {s : State} {n : Nat} (h : recordGap s.gaps n = none) :
    dropFrame n s = (postSourceGap s, .gapRefused) := by
  unfold dropFrame
  rw [h]

theorem allocate_drops {s : State} (n : Nat) (p : Field) (signals : SideSignals) (hf : lowestFree s = none)
    (hc : s.settings.pressure = .protectDisc ∨ forfeitChoice s = none) : allocate n p signals s = dropFrame n s := by
  unfold allocate
  rw [hf]
  dsimp only
  split
  · rfl
  · next hp =>
    rcases hc with hc | hc
    · rw [hp] at hc
      cases hc
    · rw [hc]

/-- The choice stays with the candidate whose tag was assigned earliest once it has reached it. -/
theorem earlierTag_keeps {s : State} {i : Fin 32} {l : List (Fin 32)}
    (h : ∀ j ∈ l, j ≠ i → tagDistance s j < tagDistance s i) : l.foldl (earlierTag s) (some i) = some i := by
  induction l with
  | nil => rfl
  | cons k rest ih =>
    have hk : earlierTag s (some i) k = some i := by
      unfold earlierTag
      dsimp only
      split
      · next hlt =>
        by_contra hne
        have hk := h k (by simp) (fun e => hne (by rw [e]))
        omega
      · rfl
    rw [List.foldl_cons, hk]
    exact ih fun j hj => h j (List.mem_cons_of_mem k hj)

/-- The choice reaches the candidate whose tag was assigned earliest from any start before it. -/
theorem earlierTag_reaches {s : State} {i : Fin 32} {l : List (Fin 32)} {best : Option (Fin 32)}
    (hb : ∀ j, best = some j → j ≠ i → tagDistance s j < tagDistance s i) (hi : i ∈ l)
    (h : ∀ j ∈ l, j ≠ i → tagDistance s j < tagDistance s i) : l.foldl (earlierTag s) best = some i := by
  induction l generalizing best with
  | nil => cases hi
  | cons k rest ih =>
    have hrest : ∀ j ∈ rest, j ≠ i → tagDistance s j < tagDistance s i := fun j hj => h j (List.mem_cons_of_mem k hj)
    rw [List.foldl_cons]
    by_cases hk : k = i
    · subst hk
      have reached : earlierTag s best k = some k := by
        unfold earlierTag
        cases best with
        | none => rfl
        | some j =>
          dsimp only
          split
          · rfl
          · by_cases hj : j = k
            · rw [hj]
            · have := hb j rfl hj
              omega
      rw [reached]
      exact earlierTag_keeps hrest
    · refine ih (fun j hj hne => ?_) ((List.mem_cons.mp hi).resolve_left fun e => hk e.symm) hrest
      unfold earlierTag at hj
      split at hj
      · injection hj with hj
        subst hj
        exact h k (by simp) hk
      · next j' =>
        split at hj <;> injection hj with hj <;> subst hj
        · exact h k (by simp) hk
        · exact hb j' rfl hne

theorem forfeitCandidate_iff (s : State) (i : Fin 32) :
    forfeitCandidate s i = true ↔
      s.slots[i].state = .sent ∧ s.slots[i].streaming = false ∧ s.slots[i].refs = 0 ∧ s.anchor ≠ some i := by
  unfold forfeitCandidate
  generalize s.slots[i] = r
  simp [and_assoc]

theorem forfeitChoice_eq_some {s : State} {i : Fin 32} (hi : forfeitCandidate s i = true)
    (h : ∀ j, j ≠ i → forfeitCandidate s j = true → tagDistance s j < tagDistance s i) : forfeitChoice s = some i := by
  unfold forfeitChoice
  refine earlierTag_reaches (fun _ e => by cases e) ?_ fun j hj hne => h j hne (List.mem_filter.mp hj).2
  exact List.mem_filter.mpr ⟨List.mem_finRange i, hi⟩

theorem forfeitChoice_eq_none {s : State} (h : ∀ i, forfeitCandidate s i = false) : forfeitChoice s = none := by
  unfold forfeitChoice
  rw [List.filter_eq_nil_iff.mpr fun i _ => by simp [h i]]
  rfl

/-! ### A frame begun (R36, R38) -/

/-- Ingest's record once a slot request has been answered. -/
def withAnswer (n : Nat) (p : Field) (answer : Allocation) (t : State) : State :=
  { t with ingest := begunIngest n p answer t.ingest }

theorem beginFrame_slot {s t : State} {n : Nat} {i : Fin 32} {p : Field} {signals : SideSignals} (hn : s.ingest.next = some n)
    (h : allocate n p signals s = (t, .slot i)) :
    beginFrame p signals s =
      if p = .b then markFieldMissing i .a (withAnswer n p (.slot i) t) else withAnswer n p (.slot i) t := by
  unfold beginFrame
  simp only [hn, Option.getD_some, h]
  rfl

theorem beginFrame_dropped {s t : State} {n : Nat} {p : Field} {signals : SideSignals} (hn : s.ingest.next = some n)
    (h : allocate n p signals s = (t, .dropped)) : beginFrame p signals s = decisionPoint (withAnswer n p .dropped t) := by
  unfold beginFrame
  simp only [hn, Option.getD_some, h]
  rfl

theorem beginFrame_refused {s t : State} {n : Nat} {p : Field} {signals : SideSignals} (hn : s.ingest.next = some n)
    (h : allocate n p signals s = (t, .gapRefused)) : beginFrame p signals s = withAnswer n p .gapRefused t := by
  unfold beginFrame
  simp only [hn, Option.getD_some, h]
  rfl

/-- The watch count starts again at every FIELD START in LOCKED (R39, R40). -/
def rewatched (s : State) : State := { s with ingest := { s.ingest with watch := 0 } }

theorem closeFrame_none {s : State} (h : s.ingest.frame = none) : closeFrame s = s := by
  unfold closeFrame
  rw [h]

/-- In LOCKED a FIELD START that does not join the frame under assembly closes it and starts a frame (R39, R40). -/
theorem lockedFieldStart_closes {s : State} {p : Field} (signals : SideSignals)
    (h : p = .a ∨ ∀ a, s.ingest.frame = some a → joinable a = false) :
    lockedFieldStart p signals s = frameStart p signals (closeFrame (rewatched s)) := by
  cases p with
  | a => rfl
  | b =>
    have hb : ∀ a, s.ingest.frame = some a → joinable a = false := h.resolve_left (by decide)
    show (match s.ingest.frame with
      | some a => if joinable a then joinFrame a signals (rewatched s) else frameStart .b signals (closeFrame (rewatched s))
      | none => frameStart .b signals (rewatched s)) = _
    split
    · next a hf => rw [hb a hf, if_neg (by decide)]
    · next hf => rw [closeFrame_none (s := rewatched s) hf]

/-- In LOCKED with no frame under assembly a FIELD START starts a frame. -/
theorem lockedFieldStart_free {s : State} (p : Field) (signals : SideSignals) (h : s.ingest.frame = none) :
    lockedFieldStart p signals s = frameStart p signals (rewatched s) := by
  rw [lockedFieldStart_closes signals (.inr fun a e => by rw [h] at e; cases e), closeFrame_none (s := rewatched s) h]

theorem takeFieldStart_locked {s : State} (p : Field) (signals : SideSignals) (h : s.ingest.state = .locked) :
    takeFieldStart p signals s = lockedFieldStart p signals s := by
  unfold takeFieldStart
  rw [h]

/-- A FIELD START in LOCKED that begins a frame at once. -/
theorem takeFieldStart_begins {s : State} {n last : Nat} (p : Field) (signals : SideSignals) (hs : s.ingest.state = .locked)
    (hf : s.ingest.frame = none) (ha : s.ingest.accepting = true) (hn : s.ingest.next = some n) (hl : s.ingest.last = some last)
    (hle : n ≤ last) :
    takeFieldStart p signals s = beginFrame p signals (rewatched s) := by
  have full : titleIsFull (rewatched s) = false := titleIsFull_eq_false hn hl hle
  rw [takeFieldStart_locked p signals hs, lockedFieldStart_free p signals hf]
  unfold frameStart
  rw [full, if_neg (by simp), if_pos (show (rewatched s).ingest.accepting = true from ha)]

/-- Settles O11: with no FREE slot the pressure policy's answer is the forfeit of the earliest tag, or the drop. -/
theorem fieldStartDropsFrame : Obligations.FieldStartDropsFrame := by
  intro s signals n last hs hf ha hn hl hle hfull
  have begins := takeFieldStart_begins .a signals hs hf ha hn hl hle
  have hn0 : (rewatched s).ingest.next = some n := hn
  have nofree : lowestFree (rewatched s) = none := lowestFree_eq_none hfull
  refine ⟨fun i hp hc hbest => ?_, fun hc => ?_⟩
  · have choice : forfeitChoice (rewatched s) = some i :=
      forfeitChoice_eq_some ((forfeitCandidate_iff _ i).mpr hc) fun j hne hj => hbest j hne ((forfeitCandidate_iff _ j).mp hj)
    have forfeited := allocate_forfeits n .a signals nofree hp choice
    have e := begins.trans (beginFrame_slot hn0 forfeited)
    rw [if_neg (by decide)] at e
    exact congrArg (fun u => Host.Outcome.next (settle u)) e
  · have hc' : s.settings.pressure = .protectDisc ∨ forfeitChoice (rewatched s) = none := by
      refine hc.imp id fun h => forfeitChoice_eq_none fun i => ?_
      rw [← Bool.not_eq_true]
      exact fun e => h i ((forfeitCandidate_iff _ i).mp e)
    have drops := allocate_drops n .a signals nofree hc'
    refine ⟨fun runs hr => ⟨?_, fun hi => decisionPoint_idle _ hi⟩, fun hr => ?_⟩
    · have e := begins.trans (beginFrame_dropped hn0 (drops.trans (dropFrame_recorded (s := rewatched s) hr)))
      exact congrArg (fun u => Host.Outcome.next (settle u)) e
    · have e := begins.trans (beginFrame_refused hn0 (drops.trans (dropFrame_refused (s := rewatched s) hr)))
      exact congrArg (fun u => Host.Outcome.next (settle u)) e

end Sys2Proof.Machine
end

