-- ==== Sys2Proof/Proofs/Completion.lean ====
section
/-! The completion of a frame: its classification, its jobs, its references, and the closing of a frame under assembly (R11, R12, R39 to
R44, R51 to R58, R79). -/

namespace Sys2Proof.Machine

/-! ### Classification (R51 to R54) -/

theorem damagedSet_congr {s t : State} {i : Fin 32} (f : Field) (hb : t.slots[i].bands = s.slots[i].bands)
    (hs : t.settings = s.settings) : damagedSet t i f = damagedSet s i f := by
  have h : (bandDamaged t i f : Fin 18 → Bool) = bandDamaged s i f := by
    funext b
    unfold bandDamaged SlotRecord.band
    rw [hb]
  unfold damagedSet bandsOf
  rw [hs, h]

/-- A rule slot's match is what the spec asks of the rule it holds (R53). -/
theorem ruleMatches_iff (s : State) (i : Fin 32) (f : Field) (r : Rule) :
    ruleMatches r f (damagedSet s i f) ((s.slots[i].signals.get f).getD noSignals) = true ↔ ruleApplies s i f r := by
  have selected : selects r.selector f = true ↔
      (r.selector = .either ∨ (r.selector = .fieldA ∧ f = .a) ∨ (r.selector = .fieldB ∧ f = .b)) := by
    cases r.selector <;> cases f <;> simp [selects]
  have signalled (required present : SideSignals) : signalsHold required present = true ↔
      (required.headFault = true → present.headFault = true) ∧ (required.trackingLow = true → present.trackingLow = true) ∧
        (required.noSignal = true → present.noSignal = true) := by
    simp [signalsHold, and_assoc, Classical.or_iff_not_imp_left]
  have tested (damaged : List (Fin 18)) : testHolds r damaged = true ↔
      (match r.test with
       | .any => ∃ b ∈ damaged, r.mask.getLsbD b.val = true
       | .all => ∀ b : Fin 18, r.mask.getLsbD b.val = true → b ∈ damaged
       | .none => ∀ b ∈ damaged, r.mask.getLsbD b.val = false) := by
    unfold testHolds inMask
    cases r.test with
    | any => simp [and_comm]
    | all => simp [Classical.or_iff_not_imp_left]
    | none =>
      simp only [List.all_eq_true, List.mem_finRange, true_implies, Bool.or_eq_true, Bool.not_eq_true', List.contains_eq_mem,
        decide_eq_false_iff_not]
      exact ⟨fun h b hb => (h b).resolve_right fun hn => hn hb, fun h b => by
        by_cases hb : b ∈ damaged
        · exact .inl (h b hb)
        · exact .inr hb⟩
  unfold ruleMatches ruleApplies
  rw [Bool.and_eq_true, Bool.and_eq_true, selected, tested, signalled]
  tauto

theorem slotMatches_iff (s : State) (i : Fin 32) (f : Field) (k : Fin 16) :
    slotMatches s f (damagedSet s i f) ((s.slots[i].signals.get f).getD noSignals) k = true ↔
      ∃ r, s.classifier.rules[k] = some r ∧ ruleApplies s i f r := by
  unfold slotMatches
  split
  · next r hr =>
    rw [ruleMatches_iff]
    exact ⟨fun h => ⟨r, hr, h⟩, fun ⟨r', e, h⟩ => by rw [hr] at e; cases e; exact h⟩
  · next hr => simp [hr]

/-- The lowest rule slot that applies is the one found (R54). -/
theorem firstMatch_of_classified {s : State} {i : Fin 32} {f : Field} {k : Option (Fin 16)} (h : classifiedAs s i f k) :
    firstMatch s f (damagedSet s i f) ((s.slots[i].signals.get f).getD noSignals) = k := by
  unfold firstMatch
  cases k with
  | none =>
    rw [List.find?_eq_none]
    intro l _ hl
    exact h l ((slotMatches_iff s i f l).mp hl)
  | some j =>
    obtain ⟨hj, hl⟩ := h
    rw [List.find?_eq_some_iff_append]
    refine ⟨(slotMatches_iff s i f j).mpr hj, (List.finRange 16).take j, (List.finRange 16).drop (j + 1), ?_, fun a ha => ?_⟩
    · conv_lhs => rw [← List.take_append_drop j.val (List.finRange 16)]
      congr 1
      rw [List.drop_eq_getElem_cons (by simp)]
      simp
    · obtain ⟨l, hlt, rfl⟩ := List.mem_take_iff_getElem.mp ha
      simp only [List.length_finRange, lt_inf_iff] at hlt
      rw [Bool.not_eq_true', ← Bool.not_eq_true]
      refine fun hc => hl _ ?_ ((slotMatches_iff s i f _).mp hc)
      rw [Fin.lt_def]
      simpa using hlt.1

theorem classOutcome_eq (s : State) (k : Option (Fin 16)) : classOutcome s k = classified s k := by
  unfold classOutcome classified
  cases k with
  | none => rfl
  | some j =>
    dsimp only [Option.bind_some]
    cases s.classifier.rules[j] <;> rfl

theorem ruleApplies_congr {s t : State} {i : Fin 32} (f : Field) (r : Rule) (hb : t.slots[i].bands = s.slots[i].bands)
    (hg : t.slots[i].signals = s.slots[i].signals) (hs : t.settings = s.settings) :
    ruleApplies t i f r = ruleApplies s i f r := by
  unfold ruleApplies
  rw [damagedSet_congr f hb hs, hg]

theorem classifiedAs_congr {s t : State} {i : Fin 32} {f : Field} {k : Option (Fin 16)}
    (hb : t.slots[i].bands = s.slots[i].bands) (hg : t.slots[i].signals = s.slots[i].signals) (hs : t.settings = s.settings)
    (hr : t.classifier.rules = s.classifier.rules) (h : classifiedAs s i f k) : classifiedAs t i f k := by
  have e (r : Rule) : ruleApplies t i f r = ruleApplies s i f r := ruleApplies_congr f r hb hg hs
  unfold classifiedAs at *
  simp only [hr, e]
  exact h

theorem fieldJob_congr {s t : State} {i : Fin 32} (f : Field) (k : Option (Fin 16)) (c : Nat)
    (hb : t.slots[i].bands = s.slots[i].bands) (hs : t.settings = s.settings) (hr : t.classifier.rules = s.classifier.rules) :
    fieldJob t i f k c = fieldJob s i f k c := by
  have hc : classified t k = classified s k := by
    unfold classified
    rw [hr]
  unfold fieldJob
  rw [damagedSet_congr f hb hs, hc]

/-! ### A field handed over (R55, R58, R79) -/

/-- A creation number after one job, as `createJob` takes it. -/
def nextCreation (c : Nat) : Nat := (c + 1) % 4294967296

/-- The state once a field has been classified by a rule slot and its job, if any, queued while a band operation is in flight. -/
def handedOver (i : Fin 32) (f : Field) (k : Option (Fin 16)) (s : State) : State :=
  let jobs := fieldJob s i f k s.sched.creation
  { s with
    classifier := if damagedSet s i f = [] then s.classifier else countMatch k s.classifier
    sched :=
      { s.sched with
        jobs := s.sched.jobs ++ jobs
        creation := nextCreation^[jobs.length] s.sched.creation
        created := bump^[jobs.length] s.sched.created
        owed := s.sched.owed || !jobs.isEmpty } }

theorem nextDamaged_zero (s : State) (i : Fin 32) (f : Field) : nextDamaged s i f 0 = (damagedSet s i f).head? := by
  unfold nextDamaged damagedSet
  rw [List.head?_filter]
  simp

theorem decisionPoint_busy {s : State} (h : s.repair.op.isSome = true) :
    decisionPoint s = { s with sched := { s.sched with owed := true } } := by
  unfold decisionPoint
  cases ho : s.repair.op with
  | none => simp [ho] at h
  | some op => rfl

theorem classifyField_busy {s : State} {i : Fin 32} {f : Field} {k : Option (Fin 16)} (ho : s.repair.op.isSome = true)
    (h : classifiedAs s i f k) : classifyField i f s = handedOver i f k s := by
  unfold classifyField handedOver
  dsimp only
  by_cases hd : damagedSet s i f = []
  · simp [hd, fieldJob]
  · rw [if_neg (by simpa using hd), firstMatch_of_classified h]
    unfold createJob
    rw [decisionPoint_busy (by exact ho), if_neg hd, classOutcome_eq]
    simp [fieldJob, hd, newJob, nextCreation, ← nextDamaged_zero]
    rfl

/-! ### References at completion (R11, R12) -/

/-- The slot holding the frame before frame `n`, if any. -/
def previousSlot (s : State) (n : Nat) : Option (Fin 32) := if n = 0 then none else slotOf s (n - 1)

/-- A slot waits for the frame after its own: it is REPAIRING. -/
def slotWaits (s : State) (j : Fin 32) : Bool := s.slots[j].state == .repairing

theorem slotOf_holds {s : State} {m : Nat} {j : Fin 32} (h : slotOf s m = some j) : s.slots[j].frame = some m := by
  have := List.find?_some h
  simp only [Bool.and_eq_true, beq_iff_eq] at this
  exact this.2

theorem previousSlot_ne {s : State} {i j : Fin 32} {n : Nat} (hn : s.slots[i].frame = some n) (h : previousSlot s n = some j) :
    j ≠ i := by
  rintro rfl
  unfold previousSlot at h
  split at h
  · cases h
  · have := slotOf_holds h
    rw [hn] at this
    injection this
    omega

/-- The slot of the frame before is found alike where every other slot holds its frame as before. -/
theorem previousSlot_congr {s t : State} {i : Fin 32} {n : Nat} (hs : s.slots[i].frame = some n) (ht : t.slots[i].frame = some n)
    (h : ∀ j : Fin 32, j ≠ i → t.slots[j].state = s.slots[j].state ∧ t.slots[j].frame = s.slots[j].frame) :
    previousSlot t n = previousSlot s n := by
  unfold previousSlot
  split
  · rfl
  · unfold slotOf
    congr 1
    funext j
    by_cases hj : j = i
    · subst hj
      have hne : (some n == some (n - 1)) = false := by
        simp only [Option.some_beq_some, beq_eq_false_iff_ne]
        omega
      rw [hs, ht, hne, Bool.and_false, Bool.and_false]
    · rw [(h j hj).1, (h j hj).2]

theorem takeP_spec {s : State} {i : Fin 32} {n : Nat} (hn : s.slots[i].frame = some n) :
    ∃ V : Vector SlotRecord 32, takeP i n s = { s with slots := V } ∧
      V[i] = { s.slots[i] with heldP := if (previousSlot s n).isSome then previousSlot s n else s.slots[i].heldP } ∧
      ∀ j : Fin 32, j ≠ i →
        V[j] = if previousSlot s n = some j then { s.slots[j] with refs := s.slots[j].refs + 1 } else s.slots[j] := by
  have e : takeP i n s =
      match previousSlot s n with
      | some j => addRef j (s.setSlot i { s.slots[i] with heldP := some j })
      | none => s := by
    unfold takeP previousSlot
    split <;> rfl
  rw [e]
  cases hp : previousSlot s n with
  | none => exact ⟨s.slots, rfl, rfl, fun _ _ => rfl⟩
  | some p =>
    have hpi := previousSlot_ne hn hp
    refine ⟨(addRef p (s.setSlot i { s.slots[i] with heldP := some p })).slots, rfl, ?_, fun j hj => ?_⟩
    · unfold addRef
      rw [setSlot_slots, if_neg hpi, setSlot_slots_self]
      rfl
    · unfold addRef
      rw [setSlot_slots, setSlot_slots_other _ _ _ _ hpi.symm]
      by_cases h : p = j
      · subst h
        rw [if_pos rfl, if_pos rfl]
      · rw [if_neg h, if_neg (fun e => h (Option.some.inj e)), setSlot_slots_other _ _ _ _ (Ne.symm hj)]

theorem takeN_spec {s : State} {i : Fin 32} {n : Nat} (hn : s.slots[i].frame = some n) :
    ∃ V : Vector SlotRecord 32, takeN i n s = { s with slots := V } ∧
      V[i] = { s.slots[i] with refs := s.slots[i].refs + (if (previousSlot s n).any (slotWaits s) then 1 else 0) } ∧
      ∀ j : Fin 32, j ≠ i →
        V[j] =
          if previousSlot s n = some j then { s.slots[j] with heldN := if slotWaits s j then some i else s.slots[j].heldN }
          else s.slots[j] := by
  have e : takeN i n s =
      match previousSlot s n with
      | some j =>
        if s.slots[j].state = .repairing then addRef i (s.setSlot j { s.slots[j] with heldN := some i }) else s
      | none => s := by
    unfold takeN previousSlot
    split <;> rfl
  rw [e]
  cases hp : previousSlot s n with
  | none => exact ⟨s.slots, rfl, rfl, fun _ _ => rfl⟩
  | some p =>
    have hpi := previousSlot_ne hn hp
    dsimp only
    split
    · next hr =>
      have hw : slotWaits s p = true := by simpa [slotWaits] using hr
      refine ⟨(addRef i (s.setSlot p { s.slots[p] with heldN := some i })).slots, rfl, ?_, fun j hj => ?_⟩
      · unfold addRef
        rw [setSlot_slots_self, setSlot_slots_other _ _ _ _ hpi, Option.any_some, hw]
        rfl
      · unfold addRef
        rw [setSlot_slots_other _ _ _ _ (Ne.symm hj), setSlot_slots]
        by_cases h : p = j
        · subst h
          rw [if_pos rfl, if_pos rfl, hw]
          rfl
        · rw [if_neg h, if_neg (fun e => h (Option.some.inj e))]
    · next hr =>
      have hw : slotWaits s p = false := by simpa [slotWaits] using hr
      refine ⟨s.slots, rfl, ?_, fun j _ => ?_⟩
      · rw [Option.any_some, hw]
        rfl
      · by_cases h : p = j
        · subst h
          rw [if_pos rfl, hw]
          rfl
        · rw [if_neg (fun e => h (Option.some.inj e))]

end Sys2Proof.Machine
end

