-- ==== Sys2Proof/Proofs/FrameClosed.lean ====
section
/-! A frame completed or closed: the damaged frame whose jobs wait for the operation in flight, and the clean one (R11, R39, R40, R44). -/

namespace Sys2Proof.Machine

/-! ### Jobs and counts of a completed frame -/

/-- The jobs a completed frame brings, field A's first (R11, R79). -/
def frameJobs (s : State) (i : Fin 32) (kA kB : Option (Fin 16)) : List Job :=
  let jobsA := fieldJob s i .a kA s.sched.creation
  jobsA ++ fieldJob s i .b kB (nextCreation^[jobsA.length] s.sched.creation)

/-- The match counts once both fields have been classified (R58). -/
def frameCounts (s : State) (i : Fin 32) (kA kB : Option (Fin 16)) : Classifier :=
  let counted (f : Field) (k : Option (Fin 16)) (c : Classifier) : Classifier :=
    if damagedSet s i f = [] then c else countMatch k c
  counted .b kB (counted .a kA s.classifier)

/-- The Scheduler once it holds the jobs of a completed frame (R79). -/
def frameSched (s : State) (i : Fin 32) (kA kB : Option (Fin 16)) : Scheduler :=
  let jobs := frameJobs s i kA kB
  { s.sched with
    jobs := s.sched.jobs ++ jobs
    creation := nextCreation^[jobs.length] s.sched.creation
    created := bump^[jobs.length] s.sched.created
    owed := s.sched.owed || !jobs.isEmpty }

theorem fieldJob_length (s : State) (i : Fin 32) (f : Field) (k : Option (Fin 16)) (c : Nat) :
    (fieldJob s i f k c).length = if damagedSet s i f = [] then 0 else 1 := by
  unfold fieldJob
  split <;> rfl

theorem damagedFields_eq (s : State) (i : Fin 32) (kA kB : Option (Fin 16)) :
    damagedFields s i = (frameJobs s i kA kB).length := by
  unfold frameJobs damagedFields
  dsimp only
  rw [List.length_append, fieldJob_length, fieldJob_length]
  simp

theorem countMatch_rules (k : Option (Fin 16)) (c : Classifier) : (countMatch k c).rules = c.rules := by
  cases k <;> rfl

theorem handedOver_rules (i : Fin 32) (f : Field) (k : Option (Fin 16)) (s : State) :
    (handedOver i f k s).classifier.rules = s.classifier.rules := by
  unfold handedOver
  dsimp only
  split
  · rfl
  · exact countMatch_rules k _

/-- Both fields handed over, one after the other. -/
theorem handedOver_both (i : Fin 32) (kA kB : Option (Fin 16)) (s : State) :
    handedOver i .b kB (handedOver i .a kA s) =
      { s with classifier := frameCounts s i kA kB, sched := frameSched s i kA kB } := by
  have hd : damagedSet (handedOver i .a kA s) i .b = damagedSet s i .b := damagedSet_congr (s := s) .b rfl rfl
  have hj (c : Nat) : fieldJob (handedOver i .a kA s) i .b kB c = fieldJob s i .b kB c :=
    fieldJob_congr (s := s) .b kB c rfl rfl (handedOver_rules i .a kA s)
  have iter (g : Nat → Nat) (a b x : Nat) : g^[b] (g^[a] x) = g^[a + b] x := by
    rw [Nat.add_comm, Function.iterate_add_apply]
  have empty (a b : List Job) : (a ++ b).isEmpty = (a.isEmpty && b.isEmpty) := by cases a <;> rfl
  rw [handedOver]
  rw [hd, hj]
  unfold handedOver frameCounts frameSched frameJobs
  simp only [List.append_assoc, iter, List.length_append, empty, Bool.not_and, Bool.or_assoc]

theorem frameJobs_congr {s t : State} {i : Fin 32} (kA kB : Option (Fin 16)) (hb : t.slots[i].bands = s.slots[i].bands)
    (hs : t.settings = s.settings) (hr : t.classifier.rules = s.classifier.rules) (hc : t.sched.creation = s.sched.creation) :
    frameJobs t i kA kB = frameJobs s i kA kB := by
  unfold frameJobs
  simp only [fieldJob_congr _ _ _ hb hs hr, hc]

theorem frameSched_congr {s t : State} {i : Fin 32} (kA kB : Option (Fin 16)) (hb : t.slots[i].bands = s.slots[i].bands)
    (hs : t.settings = s.settings) (hr : t.classifier.rules = s.classifier.rules) (hc : t.sched = s.sched) :
    frameSched t i kA kB = frameSched s i kA kB := by
  unfold frameSched
  rw [frameJobs_congr kA kB hb hs hr (by rw [hc]), hc]

theorem frameCounts_congr {s t : State} {i : Fin 32} (kA kB : Option (Fin 16)) (hb : t.slots[i].bands = s.slots[i].bands)
    (hs : t.settings = s.settings) (hr : t.classifier = s.classifier) : frameCounts t i kA kB = frameCounts s i kA kB := by
  unfold frameCounts
  simp only [damagedSet_congr _ hb hs, hr]

/-! ### Repairs begun (R11, R12) -/

/-- What is left of the start of a repair once the slot is REPAIRING and its P reference is taken (R11). -/
def fieldsHandedOver (i : Fin 32) (jobs : Nat) (t : State) : State :=
  classifyField i .b (classifyField i .a (t.setSlot i { t.slots[i] with jobsOutstanding := jobs }))

theorem startRepair_eq (i : Fin 32) (n : Nat) (s : State) :
    startRepair i n s =
      fieldsHandedOver i (damagedFields s i) (takeP i n (s.setSlot i { s.slots[i] with state := .repairing })) := by
  unfold startRepair fieldsHandedOver
  rfl

/-- A damaged frame's repair begun while a band operation is in flight: its slot is REPAIRING with a P reference taken and its jobs
queued. -/
theorem startRepair_busy {s : State} {i : Fin 32} {n : Nat} {kA kB : Option (Fin 16)} (hn : s.slots[i].frame = some n)
    (ho : s.repair.op.isSome = true) (hA : classifiedAs s i .a kA) (hB : classifiedAs s i .b kB) :
    ∃ V : Vector SlotRecord 32,
      startRepair i n s = { s with slots := V, classifier := frameCounts s i kA kB, sched := frameSched s i kA kB } ∧
      V[i] =
        { s.slots[i] with
          state := .repairing
          heldP := if (previousSlot s n).isSome then previousSlot s n else s.slots[i].heldP
          jobsOutstanding := (frameJobs s i kA kB).length } ∧
      ∀ j : Fin 32, j ≠ i →
        V[j] = if previousSlot s n = some j then { s.slots[j] with refs := s.slots[j].refs + 1 } else s.slots[j] := by
  let a : State := s.setSlot i { s.slots[i] with state := .repairing }
  have ai : a.slots[i] = { s.slots[i] with state := .repairing } := setSlot_slots_self ..
  have aj (j : Fin 32) (hj : j ≠ i) : a.slots[j] = s.slots[j] := setSlot_slots_other _ _ _ _ hj.symm
  have an : a.slots[i].frame = some n := by rw [ai]; exact hn
  have ap : previousSlot a n = previousSlot s n := previousSlot_congr hn an fun j hj => by rw [aj j hj]; exact ⟨rfl, rfl⟩
  obtain ⟨V, hV, hVi, hVj⟩ := takeP_spec an
  rw [ap, ai] at hVi
  let v : State := { s with slots := V }
  let c : State := v.setSlot i { v.slots[i] with jobsOutstanding := (frameJobs s i kA kB).length }
  have ci : c.slots[i] = { V[i] with jobsOutstanding := (frameJobs s i kA kB).length } := setSlot_slots_self v ..
  have cb : c.slots[i].bands = s.slots[i].bands := by rw [ci, hVi]
  have cg : c.slots[i].signals = s.slots[i].signals := by rw [ci, hVi]
  have started : startRepair i n s = classifyField i .b (classifyField i .a c) := by
    have hv : takeP i n a = v := hV
    rw [startRepair_eq]
    show fieldsHandedOver i _ (takeP i n a) = _
    rw [hv, damagedFields_eq s i kA kB]
    rfl
  have first := classifyField_busy (s := c) ho (classifiedAs_congr cb cg rfl rfl hA)
  have second := classifyField_busy (s := handedOver i .a kA c) (f := .b) (k := kB) ho
    (classifiedAs_congr cb cg rfl (handedOver_rules ..) hB)
  refine ⟨c.slots, ?_, by rw [ci, hVi], fun j hj => ?_⟩
  · rw [started, first, second, handedOver_both, frameSched_congr (s := s) kA kB cb rfl rfl rfl,
      frameCounts_congr (s := s) kA kB cb rfl rfl]
    rfl
  · have hc : c.slots[j] = V[j] := setSlot_slots_other v i j _ hj.symm
    rw [hc, hVj j hj, ap, aj j hj]

/-- A frame completed while a band operation is in flight, up to the N reference of the frame before: READY without damage, its repair
begun with damage. -/
theorem completion_begun {s : State} {i : Fin 32} {n : Nat} {kA kB : Option (Fin 16)} (hn : s.slots[i].frame = some n)
    (ho : s.repair.op.isSome = true) (hA : classifiedAs s i .a kA) (hB : classifiedAs s i .b kB) :
    let jobs := frameJobs s i kA kB
    let previous := previousSlot s n
    ∃ V : Vector SlotRecord 32,
      windowComplete i s =
        decisionPoint
          (takeN i n { s with slots := V, classifier := frameCounts s i kA kB, sched := frameSched s i kA kB }) ∧
      V[i] =
        { s.slots[i] with
          state := if !jobs.isEmpty then .repairing else .ready
          age := some 0
          heldP := if !jobs.isEmpty && previous.isSome then previous else s.slots[i].heldP
          jobsOutstanding := if !jobs.isEmpty then jobs.length else s.slots[i].jobsOutstanding } ∧
      ∀ j : Fin 32, j ≠ i →
        V[j] =
          if previous = some j then { s.slots[j] with refs := s.slots[j].refs + (if !jobs.isEmpty then 1 else 0) }
          else s.slots[j] := by
  intro jobs previous
  let a : State := s.setSlot i { s.slots[i] with age := some 0 }
  have ai : a.slots[i] = { s.slots[i] with age := some 0 } := setSlot_slots_self ..
  have aj (j : Fin 32) (hj : j ≠ i) : a.slots[j] = s.slots[j] := setSlot_slots_other _ _ _ _ hj.symm
  have an : a.slots[i].frame = some n := by rw [ai]; exact hn
  have ab : a.slots[i].bands = s.slots[i].bands := by rw [ai]
  have ag : a.slots[i].signals = s.slots[i].signals := by rw [ai]
  have ap : previousSlot a n = previous := previousSlot_congr hn an fun j hj => by rw [aj j hj]; exact ⟨rfl, rfl⟩
  have ajobs : frameJobs a i kA kB = jobs := frameJobs_congr kA kB ab rfl rfl rfl
  have hd : damagedFields a i = jobs.length := by rw [damagedFields_eq a i kA kB, ajobs]
  have completes : windowComplete i s = decisionPoint (takeN i n
      (if jobs.length = 0 then a.setSlot i { a.slots[i] with state := .ready } else startRepair i n a)) := by
    rw [← hd]
    unfold windowComplete
    rw [hn]
    rfl
  by_cases he : jobs.length = 0
  · have hnil : jobs = [] := List.length_eq_zero_iff.mp he
    refine ⟨(a.setSlot i { a.slots[i] with state := .ready }).slots, ?_, ?_, fun j hj => ?_⟩
    · have none : damagedSet s i .a = [] ∧ damagedSet s i .b = [] := by
        have h := he
        simp only [jobs, frameJobs, List.length_append, fieldJob_length] at h
        constructor
        · by_contra c
          rw [if_neg c] at h
          omega
        · by_contra c
          rw [if_neg c] at h
          omega
      have counts : frameCounts s i kA kB = s.classifier := by
        unfold frameCounts
        simp [none.1, none.2]
      have sched : frameSched s i kA kB = s.sched := by
        unfold frameSched
        rw [show frameJobs s i kA kB = [] from hnil]
        simp
      rw [completes, if_pos he, counts, sched]
      rfl
    · rw [setSlot_slots_self, ai, hnil]
      rfl
    · rw [setSlot_slots_other _ _ _ _ hj.symm, aj j hj, hnil]
      split <;> rfl
  · have hne : jobs.isEmpty = false := by
      cases h : jobs with
      | nil => simp [h] at he
      | cons _ _ => rfl
    obtain ⟨V, hV, hVi, hVj⟩ := startRepair_busy (s := a) an ho (classifiedAs_congr ab ag rfl rfl hA)
      (classifiedAs_congr ab ag rfl rfl hB)
    refine ⟨V, ?_, ?_, fun j hj => ?_⟩
    · rw [completes, if_neg he, hV, frameCounts_congr (s := s) kA kB ab rfl rfl, frameSched_congr (s := s) kA kB ab rfl rfl rfl]
      rfl
    · rw [hVi, ai, ajobs, ap, hne]
      rfl
    · rw [hVj j hj, ap, aj j hj, hne]
      rfl

/-- A frame completed while a band operation is in flight (R11, R44). -/
theorem windowComplete_busy {s : State} {i : Fin 32} {n : Nat} {kA kB : Option (Fin 16)} (hn : s.slots[i].frame = some n)
    (ho : s.repair.op.isSome = true) (hA : classifiedAs s i .a kA) (hB : classifiedAs s i .b kB) :
    frameCompleted s i n kA kB (windowComplete i s) := by
  obtain ⟨V, hcompletes, hVi, hVj⟩ := completion_begun hn ho hA hB
  let b : State := { s with slots := V, classifier := frameCounts s i kA kB, sched := frameSched s i kA kB }
  have bi : b.slots[i] = V[i] := rfl
  have bn : b.slots[i].frame = some n := by rw [bi, hVi]; exact hn
  have same (j : Fin 32) (hj : j ≠ i) : b.slots[j].state = s.slots[j].state ∧ b.slots[j].frame = s.slots[j].frame := by
    show V[j].state = _ ∧ V[j].frame = _
    rw [hVj j hj]
    split <;> exact ⟨rfl, rfl⟩
  have bp : previousSlot b n = previousSlot s n := previousSlot_congr hn bn same
  have bw (j : Fin 32) (hj : j ≠ i) : slotWaits b j = slotWaits s j := by
    unfold slotWaits
    rw [(same j hj).1]
  have bany : (previousSlot b n).any (slotWaits b) = (previousSlot s n).any (slotWaits s) := by
    rw [bp]
    cases hp : previousSlot s n with
    | none => rfl
    | some p => exact bw p (previousSlot_ne hn hp)
  obtain ⟨W, hW, hWi, hWj⟩ := takeN_spec bn
  have reached : windowComplete i s = { b with slots := W, sched := { frameSched s i kA kB with owed := true } } := by
    rw [hcompletes]
    show decisionPoint (takeN i n b) = _
    rw [hW]
    exact decisionPoint_busy ho
  rw [reached]
  refine ⟨?_, fun j hj => ?_, rfl, rfl, rfl⟩
  · show W[i] = _
    rw [hWi, bany, bi, hVi]
    rfl
  · show W[j] = _
    rw [hWj j hj, bp, bw j hj, show b.slots[j] = V[j] from rfl, hVj j hj]
    by_cases hp : previousSlot s n = some j
    · rw [if_pos hp, if_pos hp]
      exact (if_pos (c := previousSlot s n = some j) hp).symm
    · rw [if_neg hp, if_neg hp]
      exact (if_neg (c := previousSlot s n = some j) hp).symm

/-! ### A clean frame (R11, R44) -/

theorem foldl_markMissing_recorded {s : State} {i : Fin 32} {f : Field} {l : List (Fin 18)}
    (h : ∀ b ∈ l, (s.slots[i]).band f b ≠ none) : l.foldl (fun t b => markMissing i f b t) s = s := by
  induction l with
  | nil => rfl
  | cons b rest ih =>
    have e : markMissing i f b s = s := by
      unfold markMissing
      split
      · rfl
      · next hb => exact absurd hb (h b (by simp))
    rw [List.foldl_cons, e]
    exact ih fun c hc => h c (List.mem_cons_of_mem b hc)

theorem mem_bandsOf {s : State} {b : Fin 18} : b ∈ bandsOf s ↔ b.val < bandsPer s.settings.format := by
  simp [bandsOf]

theorem markFieldMissing_clean {s : State} {i : Fin 32} (f : Field) (h : cleanFrame s i) : markFieldMissing i f s = s := by
  refine foldl_markMissing_recorded fun b hb hn => ?_
  have := h f b (mem_bandsOf.mp hb)
  rw [hn] at this
  cases this

theorem damagedSet_clean {s : State} {i : Fin 32} (f : Field) (h : cleanFrame s i) : damagedSet s i f = [] := by
  unfold damagedSet
  rw [List.filter_eq_nil_iff]
  intro b hb
  have hc := h f b (mem_bandsOf.mp hb)
  unfold bandDamaged
  cases hx : (s.slots[i]).band f b with
  | none => simp
  | some x =>
    rw [hx] at hc
    have : x.state = .clean := by simpa using hc
    simp [this]

/-- A clean frame completed, nothing being repaired, is READY with age 0. -/
theorem windowComplete_clean {s : State} {i : Fin 32} {n : Nat} (hn : s.slots[i].frame = some n) (hi : repairIdle s)
    (hc : cleanFrame s i) (hr : ∀ j : Fin 32, s.slots[j].state ≠ .repairing) :
    windowComplete i s = decided { s with slots := s.slots.set i { s.slots[i] with state := .ready, age := some 0 } } := by
  let a : State := s.setSlot i { s.slots[i] with age := some 0 }
  let b : State := { s with slots := s.slots.set i { s.slots[i] with state := .ready, age := some 0 } }
  have ai : a.slots[i] = { s.slots[i] with age := some 0 } := setSlot_slots_self ..
  have ad (f : Field) : damagedSet a i f = [] := by
    exact (damagedSet_congr (s := s) (t := a) f (by rw [ai]) rfl).trans (damagedSet_clean f hc)
  have hd : damagedFields a i = 0 := by
    unfold damagedFields
    simp [ad]
  have hb : a.setSlot i { a.slots[i] with state := .ready } = b := by
    rw [ai]
    show { s with slots := (s.slots.set i _).set i _ } = b
    rw [Vector.set_set]
  have bs (j : Fin 32) : b.slots[j].state ≠ .repairing := by
    have e : b.slots[j] = if i = j then { s.slots[i] with state := .ready, age := some 0 } else s.slots[j] := setSlot_slots s i j _
    rw [e]
    split
    · exact fun h => by cases h
    · exact hr j
  have hN : takeN i n b = b := by
    unfold takeN
    split
    · rfl
    · split
      · next j _ => rw [if_neg (bs j)]
      · rfl
  have completes : windowComplete i s = decisionPoint (takeN i n
      (if damagedFields a i = 0 then a.setSlot i { a.slots[i] with state := .ready } else startRepair i n a)) := by
    unfold windowComplete
    rw [hn]
    rfl
  rw [completes, if_pos hd, hb, hN]
  exact decisionPoint_idle b hi

/-! ### A frame closed (R39, R40, R42, R44) -/

/-- A frame completed under a record of ingest's: the bands not yet recorded are MISSING and no frame is under assembly. -/
theorem completeFrame_ingest (i : Fin 32) (s : State) (g : Ingest) :
    completeFrame i { s with ingest := g } =
      windowComplete i
        { markFieldMissing i .b (markFieldMissing i .a s) with ingest := { g with frame := none } } := by
  have marked : markFieldMissing i .b (markFieldMissing i .a { s with ingest := g }) =
      { markFieldMissing i .b (markFieldMissing i .a s) with ingest := g } := by
    rw [markFieldMissing_ingest i .a s g, markFieldMissing_ingest i .b (markFieldMissing i .a s) g]
  unfold completeFrame
  rw [marked]
  rfl

theorem completeFrame_clean {s : State} {i : Fin 32} {n : Nat} (g : Ingest) (hn : s.slots[i].frame = some n) (hi : repairIdle s)
    (hc : cleanFrame s i) (hr : ∀ j : Fin 32, s.slots[j].state ≠ .repairing) :
    completeFrame i { s with ingest := g } =
      decided
        { s with
          slots := s.slots.set i { s.slots[i] with state := .ready, age := some 0 }, ingest := { g with frame := none } } := by
  rw [completeFrame_ingest, markFieldMissing_clean .a hc, markFieldMissing_clean .b hc]
  exact windowComplete_clean (s := { s with ingest := { g with frame := none } }) hn hi hc hr

/-- A frame closed while a band operation is in flight, under the watch count given. -/
theorem frameClosed_of_completed {s : State} {i : Fin 32} {n watch : Nat} {reached : State → Prop}
    (hn : s.slots[i].frame = some n) (ho : s.repair.op.isSome = true)
    (h : ∀ u, u = completeFrame i { s with ingest := { s.ingest with watch := watch } } →
      u.ingest = { s.ingest with frame := none, watch := watch } → u.repair = s.repair → u.sched.owed = true → reached u) :
    frameClosed s i n watch reached := by
  let m : State := markFieldMissing i .b (markFieldMissing i .a s)
  have hm : markedMissing i [.a, .b] s m := markFrameMissing_spec i s
  refine ⟨m, hm, fun kA kB hA hB => ?_⟩
  let closed : State := { m with ingest := { s.ingest with frame := none, watch := watch } }
  obtain ⟨-, -, hslots, hrest⟩ := hm
  have frame : closed.slots[i].frame = some n := by
    have e : m.slots[i].frame = s.slots[i].frame := by
      have := congrArg SlotRecord.frame (hslots i)
      exact this
    exact e.trans hn
  have repair : m.repair = s.repair := by
    have := congrArg State.repair hrest
    exact this
  have op : closed.repair.op.isSome = true := by
    show m.repair.op.isSome = true
    rw [repair]
    exact ho
  have completed := windowComplete_busy frame op hA hB
  refine ⟨windowComplete i closed, completed, h _ ?_ ?_ ?_ ?_⟩
  · rw [completeFrame_ingest]
  · obtain ⟨-, -, -, -, e⟩ := completed
    have := congrArg State.ingest e
    exact this
  · obtain ⟨-, -, -, -, e⟩ := completed
    have e' : (windowComplete i closed).repair = m.repair := by
      have := congrArg State.repair e
      exact this
    exact e'.trans repair
  · obtain ⟨-, -, e, -, -⟩ := completed
    rw [e]

theorem closeFrame_slot {s : State} {a : Assembly} {i : Fin 32} (hf : s.ingest.frame = some a) (ha : a.slot = some i) :
    closeFrame s = completeFrame i s := by
  unfold closeFrame
  rw [hf]
  dsimp only
  rw [ha]

theorem closeFrame_dropped {s : State} {a : Assembly} (hf : s.ingest.frame = some a) (ha : a.slot = none) :
    closeFrame s = setFrame none s := by
  unfold closeFrame
  rw [hf]
  dsimp only
  rw [ha]

theorem rewatched_of_watched {s : State} (h : s.ingest.watch = 0) : rewatched s = s := by
  unfold rewatched
  rw [← h]

/-- A FIELD START with no frame under assembly reads nothing of the watch count. -/
theorem takeFieldStart_rewatched {s : State} (p : Field) (signals : SideSignals) (hs : s.ingest.state = .locked)
    (hf : s.ingest.frame = none) : takeFieldStart p signals (rewatched s) = takeFieldStart p signals s := by
  rw [takeFieldStart_locked p signals hs, lockedFieldStart_free p signals hf, takeFieldStart_locked (s := rewatched s) p signals hs,
    lockedFieldStart_free (s := rewatched s) p signals hf, rewatched_of_watched (s := rewatched s) rfl]

/-- Where a frame has been closed, a FIELD START is what it is with none under assembly. -/
theorem takeFieldStart_closed {s u : State} {p : Field} (signals : SideSignals) (hs : s.ingest.state = .locked)
    (hj : p = .a ∨ ∀ a, s.ingest.frame = some a → joinable a = false) (hu : closeFrame (rewatched s) = u)
    (hg : u.ingest = { s.ingest with frame := none, watch := 0 }) :
    takeFieldStart p signals s = takeFieldStart p signals u := by
  have us : u.ingest.state = .locked := by rw [hg]; exact hs
  have uf : u.ingest.frame = none := by rw [hg]
  have uw : u.ingest.watch = 0 := by rw [hg]
  rw [takeFieldStart_locked p signals hs, lockedFieldStart_closes signals hj, hu, takeFieldStart_locked p signals us,
    lockedFieldStart_free p signals uf, rewatched_of_watched uw]

/-! ### The statements -/

/-- A FIELD START that a title not accepting new frames consumes (R46). -/
theorem takeFieldStart_consumed {s : State} {n last : Nat} (p : Field) (signals : SideSignals) (hs : s.ingest.state = .locked)
    (hf : s.ingest.frame = none) (ha : s.ingest.accepting = false) (hn : s.ingest.next = some n) (hl : s.ingest.last = some last)
    (hle : n ≤ last) :
    takeFieldStart p signals s =
      decisionPoint
        { s with
          ingest :=
            { s.ingest with state := .stopped, watch := 0, fieldsDiscarded := bump s.ingest.fieldsDiscarded } } := by
  have full : titleIsFull (rewatched s) = false := titleIsFull_eq_false hn hl hle
  have state : (discardField (rewatched s)).ingest.state = .locked := hs
  rw [takeFieldStart_locked p signals hs, lockedFieldStart_free p signals hf]
  unfold frameStart
  rw [full, if_neg (by simp), if_neg (by show ¬s.ingest.accepting = true; simp [ha])]
  unfold ensureStopped
  rw [if_neg (by rw [state]; decide)]
  unfold enterStopped
  dsimp only
  rw [if_pos state]
  rfl

/-- A FIELD START that begins a frame in the lowest FREE slot. -/
theorem acquireFieldStart_begins {s : State} {n last : Nat} (signals : SideSignals) (hs : s.ingest.state = .acquire)
    (hd : s.ingest.discardPending = false) (hn : s.ingest.next = some n) (hl : s.ingest.last = some last) (hle : n ≤ last) :
    takeFieldStart .a signals s =
      beginFrame .a signals { s with ingest := { s.ingest with state := .locked, watch := 0 } } := by
  unfold takeFieldStart acquireFieldStart
  rw [hs]
  dsimp only
  rw [hd, if_neg (by decide), titleIsFull_eq_false hn hl hle, if_neg (by decide)]

/-- Settles O10: the slot request's answer, the consumed field, and the frame closed first. -/
theorem fieldStartBeginsFrame : Obligations.FieldStartBeginsFrame := by
  intro s signals
  refine ⟨fun n last i hn hl hle hfree hlow => ?_, fun n last p hn hl hle hs hf ha => ?_, fun p a hs hf hp => ?_⟩
  · intro begun
    have lowest : lowestFree s = some i := lowestFree_eq_some hfree hlow
    refine ⟨fun hs hd => ?_, fun hs hf ha => ?_⟩
    · have e := (acquireFieldStart_begins signals hs hd hn hl hle).trans
        (beginFrame_slot (s := { s with ingest := { s.ingest with state := .locked, watch := 0 } }) hn
          (allocate_free n .a signals lowest))
      rw [if_neg (by decide)] at e
      exact congrArg (fun u => Host.Outcome.next (settle u)) e
    · have begins (p : Field) := (takeFieldStart_begins p signals hs hf ha hn hl hle).trans
        (beginFrame_slot (s := rewatched s) hn (allocate_free n p signals lowest))
      have allocated (p : Field) : withAnswer n p (.slot i) ((rewatched s).setSlot i (allocatedRecord n p signals)) = begun p := by
        have hs' : begunIngest n p (.slot i) (rewatched s).ingest = (begun p).ingest := by
          simp only [begunIngest, rewatched, begun, begunAssembly, ← hs]
          cases p <;> rfl
        unfold withAnswer
        show { (rewatched s).setSlot i (allocatedRecord n p signals) with
          ingest := begunIngest n p (.slot i) (rewatched s).ingest } = _
        rw [hs']
        cases p <;> rfl
      refine ⟨?_, markFieldMissing i .a (begun .b), ?_, markFieldMissing_spec i .a _⟩
      · have e := begins .a
        rw [if_neg (by decide), allocated] at e
        exact congrArg (fun u => Host.Outcome.next (settle u)) e
      · have e := begins .b
        rw [if_pos rfl, allocated] at e
        exact congrArg (fun u => Host.Outcome.next (settle u)) e
  · exact congrArg (fun u => Host.Outcome.next (settle u)) (takeFieldStart_consumed p signals hs hf ha hn hl hle)
  · have hj : p = .a ∨ ∀ b, s.ingest.frame = some b → joinable b = false := by
      refine hp.imp id fun h b hb => ?_
      rw [hf] at hb
      cases hb
      unfold joinable
      rcases h with h | h <;> simp [h]
    have closes {u : State} (hu : closeFrame (rewatched s) = u) (hg : u.ingest = { s.ingest with frame := none, watch := 0 }) :
        exec (.fieldStart p signals) s = exec (.fieldStart p signals) u :=
      congrArg (fun u => Host.Outcome.next (settle u)) (takeFieldStart_closed signals hs hj hu hg)
    refine ⟨fun ha => ?_, fun i n ha hn => ⟨fun ho => ?_, fun hi hc hr => ?_⟩⟩
    · have set_aside : closeFrame (rewatched s) = rewatched { s with ingest := { s.ingest with frame := none } } :=
        closeFrame_dropped (s := rewatched s) hf ha
      exact (closes set_aside rfl).trans
        (congrArg (fun u => Host.Outcome.next (settle u)) (takeFieldStart_rewatched p signals hs rfl))
    · exact frameClosed_of_completed hn ho fun u hu hg _ _ => closes ((closeFrame_slot (s := rewatched s) hf ha).trans hu.symm) hg
    · exact closes ((closeFrame_slot (s := rewatched s) hf ha).trans (completeFrame_clean _ hn hi hc hr)) rfl

/-- Settles O17: the frame completes, and ingest stops with it where new frames are no longer accepted. -/
theorem fieldEndCompletesCleanFrame : Obligations.FieldEndCompletesCleanFrame := by
  intro s a i n hs hf ha hopen hn ended
  have ends : takeFieldEnd s = stopIfDrained (completeFrame i s) := by
    unfold takeFieldEnd endFieldB
    simp only [hs, hf, hopen, ha]
  have accepting {u : State} (hu : u.ingest = { s.ingest with frame := none }) (h : s.ingest.accepting = true) :
      stopIfDrained u = { u with ingest := ended } := by
    have e : u.ingest = ended := by
      rw [hu]
      simp only [ended, h, ← hs, if_true]
    unfold stopIfDrained
    rw [if_pos (by rw [hu]; exact h), ← e]
  have stopping {u : State} (hu : u.ingest = { s.ingest with frame := none }) (h : s.ingest.accepting = false) :
      stopIfDrained u = decisionPoint { u with ingest := ended } := by
    have locked : u.ingest.state = .locked := by rw [hu]; exact hs
    have e : { u.ingest with state := .stopped } = ended := by
      rw [hu]
      simp [ended, h]
    unfold stopIfDrained
    rw [if_neg (by rw [hu]; simp [h])]
    unfold ensureStopped
    rw [if_neg (by rw [locked]; decide)]
    unfold enterStopped
    dsimp only
    rw [if_pos locked, ← e]
  refine ⟨fun hi hc hr => ?_, fun ho => ?_⟩
  · refine congrArg (fun u => Host.Outcome.next (settle u)) (ends.trans ?_)
    rw [show completeFrame i s = _ from completeFrame_clean s.ingest hn hi hc hr]
    rcases Bool.eq_false_or_eq_true s.ingest.accepting with h | h
    · exact accepting rfl h
    · exact (stopping rfl h).trans (decisionPoint_idle _ hi)
  · refine frameClosed_of_completed hn ho fun u hu hg hrep howed => ?_
    refine congrArg (fun u => Host.Outcome.next (settle u)) (ends.trans ?_)
    rw [show completeFrame i s = u from hu.symm]
    rcases Bool.eq_false_or_eq_true s.ingest.accepting with h | h
    · exact accepting hg h
    · rw [stopping hg h, decisionPoint_busy (by show u.repair.op.isSome = true; rw [hrep]; exact ho)]
      dsimp only
      rw [← howed]

end Sys2Proof.Machine
end

