-- ==== Sys2Proof/Proofs/SectionResets.lean ====
section
/-! SECTION RESET INGEST and SECTION RESET SCHEDULER: the frame under assembly discarded, the jobs removed and their bands passed (R15,
R24, R26, R47, R99, R100, R189). -/

namespace Sys2Proof.Machine

/-- On a line at rest a SECTION RESET resets its section and is answered OK. -/
theorem sectionReset_answers {s : State} {tag code : Byte} {x : Section} (h : lineAtRest s) (hx : sectionOf (byteAt [code] 0) = some x) :
    takeRequest { kind := 13, tag := tag, payload := [code] } s = replying 0x8D tag [0] (resetSection x s) := by
  rw [takeRequest_carried (q := .sectionReset) h rfl rfl rfl (by decide)]
  unfold carryOut carrySectionReset
  dsimp only
  rw [hx]
  rfl

theorem decisionPoint_idle_twice {s : State} (h : repairIdle s) : decisionPoint (decisionPoint s) = decided s := by
  rw [decisionPoint_idle s h]
  exact decisionPoint_idle (decided s) h

/-- The frame under assembly discarded, its number a gap, with nothing to repair (R47). -/
theorem resetIngest_discards {s : State} {a : Assembly} {i : Fin 32} {runs : List GapRun} (hs : s.ingest.state = .locked)
    (hf : s.ingest.frame = some a) (ha : a.slot = some i) (hg : recordGap s.gaps a.number = some runs) (hi : repairIdle s) :
    resetIngest s =
      decided
        { s with
          slots := s.slots.set i SlotRecord.freed
          gaps := runs
          ingest :=
            { s.ingest with
              state := if s.title.state = .running then .acquire else .stopped
              discardPending := if s.title.state = .running then true else s.ingest.discardPending
              frame := none
              watch := 0 } } := by
  have discarded : discardAssembly s = (freeSlot i { s with gaps := runs }, true) := by
    unfold discardAssembly discardFilling
    simp only [hf, ha, hg]
  let t : State := { freeSlot i { s with gaps := runs } with ingest := { s.ingest with frame := none, watch := 0 } }
  have moved : resetIngestState t =
      { s with
        slots := s.slots.set i SlotRecord.freed
        gaps := runs
        ingest :=
          { s.ingest with
            state := if s.title.state = .running then .acquire else .stopped
            discardPending := if s.title.state = .running then true else s.ingest.discardPending
            frame := none
            watch := 0 } } := by
    unfold resetIngestState
    by_cases h : s.title.state = .running
    · rw [if_pos (show t.title.state = .running from h)]
      simp only [h, if_true]
      rfl
    · rw [if_neg (show ¬t.title.state = .running from h)]
      simp only [h, if_false]
      rfl
  have e : resetIngest s = decisionPoint (decisionPoint (resetIngestState t)) := by
    unfold resetIngest
    rw [discarded]
    dsimp only
    rw [if_pos rfl, if_pos hs]
    rfl
  rw [e, moved]
  exact decisionPoint_idle_twice hi

/-- Settles O56: the discard is answered OK on a line at rest. -/
theorem sectionResetIngestDiscards : Obligations.SectionResetIngestDiscards := by
  intro s tag a i runs hrest hs hf ha hg hi
  refine congrArg Host.Outcome.next ((sectionReset_answers (x := .ingest) hrest rfl).trans ?_)
  exact congrArg (fun u => replying 0x8D tag [0] (settle u)) (resetIngest_discards hs hf ha hg hi)

/-! ### References released aside (R12, R23) -/

/-- A record is as it was but for references released on it, or its RETAINED slot has become FREE. -/
def ReferencesAside (r t : SlotRecord) : Prop :=
  ({ t with refs := r.refs } = r ∧ t.refs ≤ r.refs) ∨ (r.state = .retained ∧ t = SlotRecord.freed)

theorem ReferencesAside.refl (r : SlotRecord) : ReferencesAside r r := .inl ⟨rfl, le_rfl⟩

theorem ReferencesAside.trans {r t u : SlotRecord} (h : ReferencesAside r t) (k : ReferencesAside t u) : ReferencesAside r u := by
  rcases h with ⟨h1, h2⟩ | ⟨h1, rfl⟩
  · rcases k with ⟨k1, k2⟩ | ⟨k1, k2⟩
    · exact .inl ⟨by rw [← h1, ← k1], k2.trans h2⟩
    · refine .inr ⟨?_, k2⟩
      rw [← h1]
      exact k1
  · refine .inr ⟨h1, ?_⟩
    rcases k with ⟨k1, k2⟩ | ⟨k1, _⟩
    · have hz : u.refs = 0 := Nat.le_zero.mp k2
      refine Eq.trans ?_ k1
      show u = { u with refs := 0 }
      rw [← hz]
    · cases k1

/-- A record that is not RETAINED changes in its reference count alone. -/
theorem ReferencesAside.same {r t : SlotRecord} (h : ReferencesAside r t) (hr : r.state ≠ .retained) :
    { t with refs := r.refs } = r := by
  rcases h with ⟨h1, _⟩ | ⟨h1, _⟩
  · exact h1
  · exact absurd h1 hr

theorem dropRef_aside (j k : Fin 32) (s : State) : ReferencesAside s.slots[k] (dropRef j s).slots[k] := by
  rw [dropRef_slots]
  split
  · next e =>
    subst e
    split
    · next h => exact .inr ⟨h.1, rfl⟩
    · exact .inl ⟨rfl, Nat.sub_le _ _⟩
  · exact .refl _

/-- The reference a slot holds, if any, dropped (R12). -/
def dropHeld (held : Option (Fin 32)) (s : State) : State :=
  match held with
  | some j => dropRef j s
  | none => s

theorem dropHeld_aside (held : Option (Fin 32)) (k : Fin 32) (s : State) :
    ReferencesAside s.slots[k] (dropHeld held s).slots[k] := by
  cases held with
  | none => exact .refl _
  | some j => exact dropRef_aside j k s

theorem dropHeld_rest (held : Option (Fin 32)) (s : State) : ∃ V, dropHeld held s = { s with slots := V } := by
  cases held with
  | none => exact ⟨s.slots, rfl⟩
  | some j => exact dropRef_rest s j

theorem releaseRefs_eq (i : Fin 32) (s : State) :
    releaseRefs i s =
      dropHeld s.slots[i].heldN
        (dropHeld s.slots[i].heldP (s.setSlot i { s.slots[i] with heldP := none, heldN := none })) := by
  unfold releaseRefs dropHeld
  rfl

/-- A slot's references released: the slot holds none, every record is otherwise as it was, and nothing else changes. -/
theorem releaseRefs_aside (i : Fin 32) (s : State) :
    (∀ k : Fin 32,
      ReferencesAside (s.setSlot i { s.slots[i] with heldP := none, heldN := none }).slots[k] (releaseRefs i s).slots[k]) ∧
      ∃ V, releaseRefs i s = { s with slots := V } := by
  rw [releaseRefs_eq]
  refine ⟨fun k => (dropHeld_aside _ k _).trans (dropHeld_aside _ k _), ?_⟩
  obtain ⟨V, hV⟩ := dropHeld_rest s.slots[i].heldP (s.setSlot i { s.slots[i] with heldP := none, heldN := none })
  obtain ⟨W, hW⟩ := dropHeld_rest s.slots[i].heldN { s with slots := V }
  exact ⟨W, by rw [hV]; exact hW⟩

/-! ### DAMAGED bands passed (R26) -/

/-- A DAMAGED band passed; another as it is. -/
def passBand (x : BandRecord) : BandRecord := if x.state = .damaged then { x with state := .passed } else x

theorem passBand_passBand (x : BandRecord) : passBand (passBand x) = passBand x := by
  unfold passBand
  by_cases h : x.state = .damaged <;> simp [h]

theorem moveBand_passes (i : Fin 32) (f : Field) (b : Fin 18) (s : State) :
    ∃ r : SlotRecord, moveBand i f b .passed s = s.setSlot i r ∧ { r with bands := s.slots[i].bands } = s.slots[i] ∧
      ∀ g c, r.band g c = if g = f ∧ c = b then ((s.slots[i]).band g c).map passBand else (s.slots[i]).band g c := by
  have unchanged : s = s.setSlot i s.slots[i] := by
    unfold State.setSlot
    rw [show s.slots.set i s.slots[i] = s.slots from Vector.set_getElem_self i.isLt]
  unfold moveBand
  split
  · next x hx =>
    split
    · next hd =>
      refine ⟨_, rfl, rfl, fun g c => ?_⟩
      split
      · next e =>
        obtain ⟨rfl, rfl⟩ := e
        rw [setBand_band, hx]
        simp [passBand, hd]
      · next e => exact setBand_band_other _ _ _ _ _ _ e
    · next hd =>
      refine ⟨s.slots[i], unchanged, rfl, fun g c => ?_⟩
      split
      · next e =>
        obtain ⟨rfl, rfl⟩ := e
        rw [hx]
        simp [passBand, hd]
      · rfl
  · next hx =>
    refine ⟨s.slots[i], unchanged, rfl, fun g c => ?_⟩
    split
    · next e =>
      obtain ⟨rfl, rfl⟩ := e
      rw [hx]
      rfl
    · rfl

/-- A run of bands of a field passed. -/
theorem foldl_passes (i : Fin 32) (f : Field) (l : List (Fin 18)) (s : State) :
    ∃ r : SlotRecord,
      l.foldl (fun t b => moveBand i f b .passed t) s = s.setSlot i r ∧ { r with bands := s.slots[i].bands } = s.slots[i] ∧
        ∀ g c, r.band g c = if g = f ∧ c ∈ l then ((s.slots[i]).band g c).map passBand else (s.slots[i]).band g c := by
  induction l generalizing s with
  | nil =>
    refine ⟨s.slots[i], ?_, rfl, fun g c => by simp⟩
    unfold State.setSlot
    rw [show s.slots.set i s.slots[i] = s.slots from Vector.set_getElem_self i.isLt]
    rfl
  | cons b rest ih =>
    obtain ⟨r, hr, hsame, hband⟩ := moveBand_passes i f b s
    obtain ⟨q, hq, hqsame, hqband⟩ := ih (s.setSlot i r)
    rw [setSlot_slots_self] at hqsame hqband
    refine ⟨q, ?_, by rw [← hsame, ← hqsame], fun g c => ?_⟩
    · rw [List.foldl_cons, hr, hq]
      unfold State.setSlot
      dsimp only
      rw [Vector.set_set]
    · rw [hqband, hband]
      by_cases hg : g = f
      · by_cases hc : c = b
        · subst hg hc
          by_cases hm : c ∈ rest
          · simp only [hm, and_self, if_true, List.mem_cons, or_true, Option.map_map]
            congr 1
            funext x
            exact passBand_passBand x
          · simp [hm]
        · simp [hg, hc]
      · simp [hg]

/-! ### SECTION RESET SCHEDULER (R26, R100) -/

/-- A REPAIRING slot's record once its section is reset: READY, its DAMAGED bands PASSED, no job outstanding and no reference held. -/
def SlotPassed (bands : Nat) (r u : SlotRecord) : Prop :=
  u.state = .ready ∧ u.jobsOutstanding = 0 ∧ u.age = r.age ∧ u.frame = r.frame ∧ u.heldP = none ∧ u.heldN = none ∧
    ∀ (f : Field) (b : Fin 18), b.val < bands → u.band f b = (r.band f b).map passBand

theorem SlotPassed.after {bands : Nat} {r u v : SlotRecord} (h : SlotPassed bands r u) (k : ReferencesAside u v) :
    SlotPassed bands r v := by
  have e := k.same (by rw [h.1]; decide)
  unfold SlotPassed at *
  rw [← e] at h
  exact h

theorem SlotPassed.before {bands : Nat} {q r u : SlotRecord} (h : SlotPassed bands r u) (k : ReferencesAside q r)
    (hq : q.state = .repairing) : SlotPassed bands q u := by
  have e := k.same (by rw [hq]; decide)
  rw [← e]
  exact h

/-- A REPAIRING slot passed. -/
theorem passSlot_spec (i : Fin 32) (s : State) :
    (s.slots[i].state = .repairing → SlotPassed (bandsPer s.settings.format) s.slots[i] (passSlot i s).slots[i]) ∧
      (s.slots[i].state ≠ .repairing → passSlot i s = s) ∧
      (∀ k : Fin 32, k ≠ i → ReferencesAside s.slots[k] (passSlot i s).slots[k]) ∧
      ∃ V, passSlot i s = { s with slots := V } := by
  unfold passSlot
  by_cases h : s.slots[i].state = .repairing
  · rw [if_pos h]
    obtain ⟨a, ha, hasame, haband⟩ := foldl_passes i .a (bandsOf s) s
    obtain ⟨b, hb, hbsame, hbband⟩ := foldl_passes i .b (bandsOf s) (s.setSlot i a)
    rw [setSlot_slots_self] at hbsame hbband
    have passed : forBands (fun f b t => moveBand i f b .passed t) s = s.setSlot i b := by
      unfold forBands
      dsimp only
      rw [ha]
      show (bandsOf s).foldl _ (s.setSlot i a) = _
      rw [hb]
      unfold State.setSlot
      dsimp only
      rw [Vector.set_set]
    let r : SlotRecord := { b with jobsOutstanding := 0, state := .ready }
    have ready : (s.setSlot i b).setSlot i { (s.setSlot i b).slots[i] with jobsOutstanding := 0, state := .ready } = s.setSlot i r := by
      rw [setSlot_slots_self]
      unfold State.setSlot
      dsimp only
      rw [Vector.set_set]
    dsimp only
    rw [passed, ready]
    obtain ⟨aside, V, hV⟩ := releaseRefs_aside i (s.setSlot i r)
    refine ⟨fun _ => ?_, fun hn => absurd h hn, fun k hk => ?_, V, hV⟩
    · have ri := aside i
      rw [setSlot_slots_self, setSlot_slots_self] at ri
      refine SlotPassed.after ⟨rfl, rfl, ?_, ?_, rfl, rfl, fun f c hc => ?_⟩ ri
      · show b.age = _
        rw [← hasame, ← hbsame]
      · show b.frame = _
        rw [← hasame, ← hbsame]
      · have hm : c ∈ bandsOf s := mem_bandsOf.mpr hc
        show b.band f c = _
        rw [hbband, haband]
        cases f <;> simp [hm]
    · have rk := aside k
      rw [setSlot_slots_other _ _ _ _ (Ne.symm hk), setSlot_slots_other _ _ _ _ (Ne.symm hk)] at rk
      exact rk
  · rw [if_neg h]
    exact ⟨fun e => absurd e h, fun _ => rfl, fun _ _ => .refl _, s.slots, rfl⟩

/-- A run of slots passed, each once. -/
theorem foldl_passSlot {l : List (Fin 32)} (hl : l.Nodup) (s : State) :
    let u := l.foldl (fun t i => passSlot i t) s
    (∀ k : Fin 32, k ∈ l → s.slots[k].state = .repairing → SlotPassed (bandsPer s.settings.format) s.slots[k] u.slots[k]) ∧
      (∀ k : Fin 32, (k ∈ l → s.slots[k].state ≠ .repairing) → ReferencesAside s.slots[k] u.slots[k]) ∧
      ∃ V, u = { s with slots := V } := by
  induction l generalizing s with
  | nil =>
    intro u
    exact ⟨fun _ h => by (cases h), fun _ _ => .refl _, s.slots, rfl⟩
  | cons i rest ih =>
    obtain ⟨hi, hrest⟩ := List.nodup_cons.mp hl
    obtain ⟨p1, p2, p3, V, pV⟩ := passSlot_spec i s
    obtain ⟨q1, q2, W, qW⟩ := ih hrest (passSlot i s)
    have format : bandsPer (passSlot i s).settings.format = bandsPer s.settings.format := by rw [pV]
    intro u
    refine ⟨fun k hk hr => ?_, fun k hk => ?_, W, ?_⟩
    · by_cases e : k = i
      · subst e
        exact (p1 hr).after (q2 k fun hm => absurd hm hi)
      · have hm : k ∈ rest := (List.mem_cons.mp hk).resolve_left e
        have aside := p3 k e
        have state : (passSlot i s).slots[k].state = .repairing := by
          have := congrArg SlotRecord.state (aside.same (by rw [hr]; decide))
          exact this.trans hr
        have := q1 k hm state
        rw [format] at this
        exact this.before aside hr
    · by_cases e : k = i
      · subst e
        have same := p2 (hk (by simp))
        have := q2 k fun hm => absurd hm hi
        rw [same] at this
        have e : u = rest.foldl (fun t i => passSlot i t) s := by
          show rest.foldl (fun t i => passSlot i t) (passSlot k s) = _
          rw [same]
        rw [e]
        exact this
      · refine (p3 k e).trans (q2 k fun hm hr => ?_)
        have aside := p3 k e
        rcases aside with ⟨e1, _⟩ | ⟨_, e2⟩
        · exact hk (List.mem_cons_of_mem i hm) (by rw [← e1]; exact hr)
        · rw [e2] at hr
          cases hr
    · exact qW.trans (by rw [pV])

/-- The jobs removed (R99, R100). -/
theorem removeJobs_spec (s : State) :
    removeJobs s =
      { s with
        repair := { s.repair with op := none }
        sched :=
          { s.sched with
            jobs := [], owed := false, removed := addTally s.sched.removed s.sched.jobs.length
            bandsCut := if s.repair.op.isSome then bump s.sched.bandsCut else s.sched.bandsCut } } := by
  unfold removeJobs cutOperation
  cases h : s.repair.op with
  | none =>
    have e : s.repair = { s.repair with op := none } := by rw [← h]
    simp only [Option.isSome_none, Bool.false_eq_true, if_false]
    rw [← e]
  | some op => rfl

/-- Settles O57: the jobs removed, then every REPAIRING slot passed. -/
theorem sectionResetSchedulerPasses : Obligations.SectionResetSchedulerPasses := by
  intro s tag hrest
  obtain ⟨passed, aside, V, hV⟩ := foldl_passSlot (List.nodup_finRange 32) (removeJobs s)
  have hu : forSlots passSlot (removeJobs s) = { removeJobs s with slots := V } := hV
  have slots : (resetScheduler s).slots = (forSlots passSlot (removeJobs s)).slots := by
    unfold resetScheduler
    generalize forSlots passSlot (removeJobs s) = x
    rfl
  have removed : (removeJobs s).slots = s.slots ∧ (removeJobs s).settings = s.settings := by
    rw [removeJobs_spec]
    exact ⟨rfl, rfl⟩
  rw [removed.1, removed.2] at passed
  rw [removed.1] at aside
  refine ⟨resetScheduler s, congrArg Host.Outcome.next (sectionReset_answers (x := .scheduler) hrest rfl), ?_, ?_, fun i hi => ?_,
    fun i hi => ?_, ?_⟩
  · unfold resetScheduler
    dsimp only
    rw [hu, removeJobs_spec]
    rfl
  · unfold resetScheduler
    dsimp only
    rw [hu, removeJobs_spec]
  · rw [slots]
    exact passed i (List.mem_finRange i) hi
  · rw [slots]
    exact (aside i fun _ => hi).imp (fun h => h.1) id
  · unfold resetScheduler
    dsimp only
    rw [hu, removeJobs_spec]

end Sys2Proof.Machine
end

