-- ==== Sys2Proof/Proofs/Abort.lean ====
section
/-! ABORT: the write cancelled, the window, the Scheduler, ingest and verification ended, and the title IDLE (R29, R48, R99, R137, R139,
R163, R173). -/

namespace Sys2Proof.Machine

/-- What the cancellation of a write in flight leaves on the recorder line (R137). -/
def cancelledOut (s : State) : Option RecorderMessage :=
  match s.feed.flight with
  | some w => some (.cancel w.tag)
  | none => s.recorderOut

/-- The slots once a write in flight is cancelled: the slot it was drawn from streams no longer (R18, R137). -/
def cancelledSlots (s : State) : Vector SlotRecord 32 :=
  match s.feed.flight.bind (fun w => w.slot) with
  | some i => s.slots.set i { s.slots[i] with streaming := false }
  | none => s.slots

/-- The Feed's record once a write in flight is cancelled (R137, R142). -/
def cancelledFeed (f : Feed) : Feed :=
  { f with
    flight := none
    tallies := if f.flight.isSome then { f.tallies with cancels := bump f.tallies.cancels } else f.tallies }

/-- A write in flight cancelled. -/
theorem cancelWrite_spec (s : State) :
    cancelWrite s =
      { s with slots := cancelledSlots s, feed := cancelledFeed s.feed, recorderOut := cancelledOut s } := by
  unfold cancelWrite cancelledSlots cancelledFeed cancelledOut
  cases hf : s.feed.flight with
  | none =>
    have e : s.feed = { s.feed with flight := none } := by rw [← hf]
    simp only [Option.bind_none, Option.isSome_none, Bool.false_eq_true, if_false]
    rw [← e]
  | some w =>
    simp only [Option.bind_some, Option.isSome_some, if_true]
    cases w.slot <;> rfl

theorem decisionPoint_of_unowed {s : State} (hi : repairIdle s) (ho : s.sched.owed = false) : decisionPoint s = s := by
  rw [decisionPoint_idle s hi]
  unfold decided
  rw [← ho]

/-- With no job, no operation and no decision owed, ingest's part of an Abort is its record alone (R48). -/
theorem abortIngest_idle {s : State} (hi : repairIdle s) (ho : s.sched.owed = false) :
    abortIngest s =
      { s with
        ingest :=
          { s.ingest with
            state := .stopped, accepting := false, frame := none, watch := 0, discardPending := false, next := none,
            last := none } } := by
  unfold abortIngest
  dsimp only
  split
  · exact decisionPoint_of_unowed hi ho
  · rfl

/-- The Feed's record once an Abort has cancelled its write (R139). -/
def abortedFeed (f : Feed) : Feed :=
  { f with
    h := none
    pendingCue := none
    flight := none
    state := if f.state = .writing then (if f.pausePending then .paused else .waiting) else f.state
    pausePending := if f.state = .writing then false else f.pausePending
    tallies := if f.flight.isSome then { f.tallies with cancels := bump f.tallies.cancels } else f.tallies }

theorem abortFeed_spec (s : State) : abortFeed (cancelWrite s) =
    { s with slots := cancelledSlots s, feed := abortedFeed s.feed, recorderOut := cancelledOut s } := by
  rw [cancelWrite_spec]
  unfold abortFeed abortedFeed cancelledFeed leaveWriting
  dsimp only
  split <;> rfl

/-- The steps of an Abort together. -/
theorem abortTitle_spec (s : State) :
    abortTitle s =
      tellConditions
        { s with
          title := { state := .idle, declaration := none }
          slots := Vector.replicate 32 SlotRecord.freed
          anchor := none
          gaps := []
          sched :=
            { s.sched with
              jobs := [], owed := false, removed := addTally s.sched.removed s.sched.jobs.length
              bandsCut := if s.repair.op.isSome then bump s.sched.bandsCut else s.sched.bandsCut }
          repair := { s.repair with op := none }
          verify := { s.verify with entries := [], queue := [] }
          spare := { s.spare with region := none, plan := none, inFlight := 0 }
          ingest :=
            { s.ingest with
              state := .stopped, accepting := false, frame := none, watch := 0, discardPending := false, next := none,
              last := none }
          feed := abortedFeed s.feed
          recorderOut := cancelledOut s } := by
  unfold abortTitle
  rw [abortFeed_spec, removeJobs_spec]
  exact congrArg (fun u => tellConditions (enterIdle (clearDeclarations u))) (abortIngest_idle ⟨rfl, rfl⟩ rfl)

theorem unwritten_eq : unwritten = fun r => r.state == .filling || r.state == .repairing || r.state == .ready ||
    (r.state == .sent && r.streaming && r.kind == some .original) := by
  funext r
  unfold unwritten
  cases r.state <;> simp

theorem writtenUnverified_eq : writtenUnverified = fun r => r.state == .relocating ||
    (r.state == .sent && (!r.streaming || r.kind == some .relocated)) := by
  funext r
  unfold writtenUnverified
  cases r.state <;> simp

theorem countSlots_free_all {s : State} (h : s.slots = Vector.replicate 32 SlotRecord.freed) :
    countSlots (fun r => r.state == .free) s = 32 := by
  have all : allSlots.filter (fun i => s.slots[i].state == .free) = allSlots := by
    rw [List.filter_eq_self]
    intro i _
    rw [h]
    simp
  unfold countSlots
  rw [all]
  rfl

theorem windowLow_of_free {s : State} (h : s.slots = Vector.replicate 32 SlotRecord.freed) :
    (conditionsNow s).windowLow = false := by
  show windowLowNow s = false
  unfold windowLowNow
  rw [countSlots_free_all h]
  rfl

/-- Settles O54: the Abort's steps, its counts taken before them. -/
theorem abortEndsTitle : Obligations.AbortEndsTitle := by
  intro s tag hrest hstate unwrittenCount unverifiedCount
  have accepted : acceptedIn .abort s.title.state = true := by
    rcases hstate with h | h | h <;> rw [h] <;> rfl
  have answers : exec (.abort tag []) s = .next (replying 0x89 tag [0, byteOf unwrittenCount, byteOf unverifiedCount] (abortTitle s)) := by
    show Host.Outcome.next (takeRequest { kind := 9, tag := tag, payload := [] } s) = _
    rw [takeRequest_carried (q := .abort) hrest rfl rfl accepted (by decide)]
    unfold carryOut carryAbort abortCounts
    rw [unwritten_eq, writtenUnverified_eq]
    rfl
  have spec := abortTitle_spec s
  refine ⟨abortTitle s, answers, ?_, fun i => ?_, ?_, ?_, ?_, ?_, ?_, ?_, ?_, ?_, fun w hw => ?_, fun hn => ?_, ?_, ?_, ?_⟩
  all_goals rw [spec]
  · rfl
  · simp [tellConditions]
  · rfl
  · rfl
  · rfl
  · rfl
  · rfl
  · rfl
  · rfl
  · rfl
  · show cancelledOut s = _
    unfold cancelledOut
    rw [hw]
  · show cancelledOut s = _
    unfold cancelledOut
    rw [hn]
  · rfl
  · rw [tellConditions_truths]
    exact ⟨windowLow_of_free rfl, rfl, rfl⟩
  · rfl

end Sys2Proof.Machine
end

