-- ==== Sys2Proof/Proofs/Boundary.lean ====
section
/-! A field boundary: whatever the order of its four receivers, it comes to what they change, settled (R13, R45, R93, R177, R178). Beside
the Report Unit and the link, each receiver's act is a function of the rest of the state, and these functions commute. -/

namespace Sys2Proof.Machine

/-! ### Settling, beside the Report Unit and the link -/

/-- A state under a given Report Unit and link. -/
def under (r : ReportUnit) (k : Link) (s : State) : State := { s with reports := r, link := k }

/-- The title's own moves beside the title event a close posts (R171, R172). -/
def moveTitle (s : State) : State :=
  if s.title.state = .draining ∧ drainDone s then enterClosing s
  else if s.title.state = .closing ∧ closeDone s then endTitle (clearDeclarations s)
  else s

/-- Every slot as the close leaves it (R30). -/
def closedRecord (r : SlotRecord) : SlotRecord := if r.state = .retained then SlotRecord.freed else r

theorem foldl_closeSlots {l : List (Fin 32)} (s : State) :
    let u := l.foldl (fun t i => if t.slots[i].state = .retained then freeSlot i t else t) s
    (∀ k : Fin 32, u.slots[k] = if k ∈ l then closedRecord s.slots[k] else s.slots[k]) ∧ u = { s with slots := u.slots } := by
  induction l generalizing s with
  | nil => exact ⟨fun k => by simp, rfl⟩
  | cons i rest ih =>
    intro u
    let t : State := if s.slots[i].state = .retained then freeSlot i s else s
    have ht (k : Fin 32) : t.slots[k] = if k = i then closedRecord s.slots[k] else s.slots[k] := by
      by_cases h : s.slots[i].state = .retained
      · have e : t = freeSlot i s := if_pos h
        rw [e]
        unfold freeSlot
        rw [setSlot_slots]
        by_cases hk : i = k
        · subst hk
          rw [if_pos rfl, if_pos rfl]
          exact (if_pos h).symm
        · rw [if_neg hk, if_neg (Ne.symm hk)]
      · have e : t = s := if_neg h
        rw [e]
        split
        · next hk =>
          subst hk
          exact (if_neg h).symm
        · rfl
    have hrest : t = { s with slots := t.slots } := by
      by_cases h : s.slots[i].state = .retained
      · have e : t = freeSlot i s := if_pos h
        rw [e]
        rfl
      · have e : t = s := if_neg h
        rw [e]
    have twice (r : SlotRecord) : closedRecord (closedRecord r) = closedRecord r := by
      unfold closedRecord
      by_cases h : r.state = .retained <;> simp [h]
    obtain ⟨h1, h2⟩ := ih t
    refine ⟨fun k => ?_, ?_⟩
    · refine (h1 k).trans ?_
      rw [ht k]
      by_cases hk : k = i <;> by_cases hm : k ∈ rest <;> simp [hk, hm, twice]
    · exact h2.trans (congrArg (fun v : State => { v with slots := u.slots }) hrest)

theorem windowClose_spec (s : State) :
    windowClose s = { s with slots := s.slots.map closedRecord, anchor := none, gaps := [] } := by
  let t : State := { s with anchor := none, gaps := [] }
  obtain ⟨hs, hr⟩ := foldl_closeSlots (l := allSlots) t
  have slots : (windowClose s).slots = s.slots.map closedRecord := by
    refine Vector.ext fun k hk => ?_
    rw [Vector.getElem_map]
    exact (hs ⟨k, hk⟩).trans (if_pos (List.mem_finRange _))
  have rest : windowClose s = { t with slots := (windowClose s).slots } := hr
  rw [rest, slots]

/-- The title's own moves, the slots' states and the records they read given. -/
theorem endTitle_spec (s : State) :
    endTitle (clearDeclarations s) =
      { s with
        slots := s.slots.map closedRecord
        anchor := none
        gaps := []
        title := { state := .idle, declaration := none }
        spare := { s.spare with region := none, plan := none }
        ingest := { s.ingest with next := none, last := none }
        feed := { s.feed with h := none } } := by
  unfold endTitle
  rw [windowClose_spec]
  rfl

/-- Settling makes the title's own moves; the rest of what it does is the Report Unit's and the link's. -/
theorem settle_under (r : ReportUnit) (k : Link) (s : State) : under r k (settle s) = under r k (moveTitle s) := by
  unfold settle checkDrain moveTitle
  by_cases hd : s.title.state = .draining ∧ drainDone s
  · rw [if_pos hd, if_pos hd]
    unfold checkClose
    rw [if_neg (by rw [closeDone_enterClosing]; simp)]
    rfl
  · rw [if_neg hd, if_neg hd]
    unfold checkClose
    by_cases hc : s.title.state = .closing ∧ closeDone s
    · rw [if_pos hc, if_pos hc]
      unfold closeTitle
      rw [endTitle_spec, endTitle_spec]
      unfold postTitleEvent
      split <;> rfl
    · rw [if_neg hc, if_neg hc]
      rfl

theorem moveTitle_under (r : ReportUnit) (k : Link) (s : State) : under r k (moveTitle s) = moveTitle (under r k s) := by
  have hd : drainDone (under r k s) = drainDone s := rfl
  have hc : closeDone (under r k s) = closeDone s := rfl
  unfold moveTitle
  rw [hd, hc]
  show under r k (if s.title.state = .draining ∧ drainDone s = true then _ else _) =
    if s.title.state = .draining ∧ drainDone s = true then _ else
      if s.title.state = .closing ∧ closeDone s = true then _ else _
  split
  · rfl
  · split
    · rw [endTitle_spec, endTitle_spec]
      rfl
    · rfl

theorem moveTitle_moveTitle (s : State) : moveTitle (moveTitle s) = moveTitle s := by
  have closing {t : State} (ht : t.title.state = .closing) (hn : closeDone t = false) : moveTitle t = t := by
    unfold moveTitle
    rw [if_neg (by simp [ht]), if_neg (by simp [hn])]
  have idle {t : State} (ht : t.title.state = .idle) : moveTitle t = t := by
    unfold moveTitle
    rw [if_neg (by simp [ht]), if_neg (by simp [ht])]
  by_cases hd : s.title.state = .draining ∧ drainDone s
  · have e : moveTitle s = enterClosing s := if_pos hd
    rw [e]
    exact closing rfl (closeDone_enterClosing s)
  · by_cases hc : s.title.state = .closing ∧ closeDone s
    · have e : moveTitle s = endTitle (clearDeclarations s) := by
        unfold moveTitle
        rw [if_neg hd, if_pos hc]
      rw [e]
      exact idle rfl
    · have e : moveTitle s = s := by
        unfold moveTitle
        rw [if_neg hd, if_neg hc]
      rw [e, e]

/-! ### The four receivers -/

/-- The Scheduler's record at a boundary, with nothing to serve (R93). -/
def reloaded (c : Scheduler) : Scheduler := { c with counter := c.bandBudget, started := 0, owed := false }

/-- Ingest's part of a boundary where no frame is under assembly if the lock is lost: its record, and the decision the loss brings
(R33, R45). -/
def boundaryWatched (s : State) : State :=
  { s with
    ingest := watched s.ingest
    sched := { s.sched with owed := s.sched.owed && !(s.ingest.state == .locked && decide (3 ≤ s.ingest.watch + 1)) } }

/-- What each receiver makes of the rest of the state. -/
def receives : BoundaryBlock → State → State
  | .window, s => ageSlots s
  | .scheduler, s => { s with sched := reloaded s.sched }
  | .ingest, s => moveTitle (boundaryWatched s)
  | .report, s => s

theorem agedRecord_state (r : SlotRecord) : (agedRecord r).state = r.state := by
  unfold agedRecord
  split <;> rfl

theorem ageSlots_slots (s : State) (j : Fin 32) : (ageSlots s).slots[j] = agedRecord s.slots[j] := by
  show (s.slots.map agedRecord)[j.val] = _
  rw [Vector.getElem_map]
  rfl

theorem closedRecord_agedRecord (r : SlotRecord) : closedRecord (agedRecord r) = agedRecord (closedRecord r) := by
  unfold closedRecord
  rw [agedRecord_state]
  split
  · rfl
  · rfl

/-- Ageing makes no difference to the title's own moves. -/
theorem moveTitle_ageSlots (s : State) : moveTitle (ageSlots s) = ageSlots (moveTitle s) := by
  have hu : UnwrittenKept s (ageSlots s) := fun j => by
    unfold holdsUnwritten
    rw [ageSlots_slots, agedRecord_state]
  have hd : drainDone (ageSlots s) = drainDone s := by
    unfold drainDone
    rw [windowDone_congr hu rfl]
    rfl
  have hc : closeDone (ageSlots s) = closeDone s := rfl
  unfold moveTitle
  rw [hd, hc]
  show (if s.title.state = .draining ∧ drainDone s = true then _ else
      if s.title.state = .closing ∧ closeDone s = true then _ else _) = _
  split
  · rfl
  · split
    · rw [endTitle_spec, endTitle_spec]
      have slots : (ageSlots s).slots.map closedRecord = (s.slots.map closedRecord).map agedRecord := by
        show (s.slots.map agedRecord).map closedRecord = _
        rw [Vector.map_map, Vector.map_map]
        congr 1
        funext r
        exact closedRecord_agedRecord r
      rw [slots]
      rfl
    · rfl

theorem moveTitle_sched (s : State) (c : Scheduler) : moveTitle { s with sched := c } = { moveTitle s with sched := c } := by
  have hd : drainDone { s with sched := c } = drainDone s := rfl
  have hc : closeDone { s with sched := c } = closeDone s := rfl
  unfold moveTitle
  rw [hd, hc]
  show (if s.title.state = .draining ∧ drainDone s = true then _ else
      if s.title.state = .closing ∧ closeDone s = true then _ else _) = _
  split
  · rfl
  · split
    · rw [endTitle_spec, endTitle_spec]
    · rfl

theorem moveTitle_keeps_sched (s : State) : (moveTitle s).sched = s.sched := by
  have h := congrArg State.sched (moveTitle_sched s s.sched)
  exact h

/-- The receivers' acts commute. -/
theorem receives_comm (x y : BoundaryBlock) (s : State) : receives y (receives x s) = receives x (receives y s) := by
  have window_ingest : moveTitle (boundaryWatched (ageSlots s)) = ageSlots (moveTitle (boundaryWatched s)) :=
    moveTitle_ageSlots (boundaryWatched s)
  have scheduler_ingest : moveTitle (boundaryWatched { s with sched := reloaded s.sched }) =
      { moveTitle (boundaryWatched s) with sched := reloaded (moveTitle (boundaryWatched s)).sched } := by
    rw [moveTitle_keeps_sched]
    refine Eq.trans ?_ (moveTitle_sched (boundaryWatched s) (reloaded s.sched))
    rfl
  match x, y with
  | .window, .ingest => exact window_ingest
  | .ingest, .window => exact window_ingest.symm
  | .scheduler, .ingest => exact scheduler_ingest
  | .ingest, .scheduler => exact scheduler_ingest.symm
  | .window, .window | .scheduler, .scheduler | .ingest, .ingest | .window, .scheduler | .scheduler, .window => rfl
  | .report, _ => rfl
  | _, .report => rfl

/-! ### A boundary taken -/

theorem blockOrder_perm : ∀ order : BoundaryOrder, (blockOrder order).Perm boundaryBlocks := by decide

/-- The lock is lost at the boundary only with no frame under assembly (R45). -/
abbrev losesNoFrame (s : State) : Prop := s.ingest.state = .locked → 2 ≤ s.ingest.watch → s.ingest.frame = none

theorem watchBoundary_watched {s : State} (hi : repairIdle s) (hf : losesNoFrame s) : watchBoundary s = boundaryWatched s := by
  have keeps (o : Bool) (h : o = s.sched.owed) (g : Ingest) :
      { s with ingest := g } = { s with ingest := g, sched := { s.sched with owed := o } } := by rw [h]
  unfold watchBoundary boundaryWatched watched
  by_cases hl : s.ingest.state = .locked
  · rw [if_pos hl, if_pos hl]
    unfold checkLock
    dsimp only
    by_cases hw : 3 ≤ s.ingest.watch + 1
    · have lost : closeFrame { s with ingest := { s.ingest with watch := s.ingest.watch + 1 } } =
          { s with ingest := { s.ingest with watch := s.ingest.watch + 1 } } := closeFrame_none (hf hl (by omega))
      rw [if_pos ⟨hl, hw⟩, if_neg (by omega)]
      unfold loseLock
      rw [lost]
      dsimp only
      have owed : (s.sched.owed && !(s.ingest.state == .locked && decide (3 ≤ s.ingest.watch + 1))) = false := by
        simp [hl, hw]
      rw [owed]
      split
      · exact decisionPoint_idle _ hi
      · exact decisionPoint_idle _ hi
    · rw [if_neg (fun h => hw h.2), if_pos (by omega)]
      exact keeps _ (by simp [hw]) _
  · rw [if_neg hl, if_neg hl]
    exact keeps _ (by simp [hl]) _

/-- A receiver's act is what `receives` says, beside the Report Unit and the link. -/
theorem takeBoundary_under (r : ReportUnit) (k : Link) {s : State} (block : BoundaryBlock) (hi : repairIdle s)
    (hf : block = .ingest → losesNoFrame s) : under r k (takeBoundary block s) = receives block (under r k s) := by
  cases block with
  | window => rfl
  | scheduler =>
    let loaded : State := { s with sched := { s.sched with counter := s.sched.bandBudget, started := 0 } }
    exact congrArg (under r k) (decisionPoint_idle loaded hi)
  | ingest =>
    show under r k (settle (watchBoundary s)) = moveTitle (boundaryWatched (under r k s))
    rw [watchBoundary_watched hi (hf rfl), settle_under, moveTitle_under]
    rfl
  | report =>
    have h := congrArg (under r k) (composeNotice_lineOnly (tellConditions s)).rest
    exact h

theorem moveTitle_repair (s : State) : (moveTitle s).repair = s.repair := by
  unfold moveTitle
  split
  · rfl
  · split
    · rw [endTitle_spec]
    · rfl

theorem receives_idle {s : State} (block : BoundaryBlock) (hi : repairIdle s) : repairIdle (receives block s) := by
  cases block with
  | window => exact hi
  | scheduler => exact hi
  | ingest =>
    show (moveTitle _).sched.jobs = [] ∧ (moveTitle _).repair.op = none
    rw [moveTitle_keeps_sched, moveTitle_repair]
    exact hi
  | report => exact hi

theorem receives_ingest {s : State} {block : BoundaryBlock} (h : block ≠ .ingest) : (receives block s).ingest = s.ingest := by
  cases block with
  | window | scheduler | report => rfl
  | ingest => exact absurd rfl h

/-- The receivers' acts one after the other, each at most once. -/
theorem foldl_takeBoundary (r : ReportUnit) (k : Link) {l : List BoundaryBlock} (hl : l.Nodup) {s : State} (hi : repairIdle s)
    (hf : .ingest ∈ l → losesNoFrame s) :
    under r k (l.foldl (fun t block => takeBoundary block t) s) = l.foldl (fun t block => receives block t) (under r k s) := by
  induction l generalizing s with
  | nil => rfl
  | cons block rest ih =>
    obtain ⟨hb, hrest⟩ := List.nodup_cons.mp hl
    have e := takeBoundary_under r k block hi fun h => hf (by simp [h])
    have idle : repairIdle (takeBoundary block s) := by
      have := receives_idle block (s := under r k s) hi
      rw [← e] at this
      exact this
    rw [List.foldl_cons, List.foldl_cons, ih hrest idle fun hm => ?_, e]
    have ingest : (takeBoundary block s).ingest = s.ingest := by
      have h := congrArg State.ingest e
      have other : block ≠ .ingest := fun c => hb (by rw [c]; exact hm)
      rw [receives_ingest other] at h
      exact h
    unfold losesNoFrame
    rw [ingest]
    exact hf (List.mem_cons_of_mem block hm)

/-- What a boundary makes of the state beside the Report Unit and the link, unsettled (R13, R45, R93). -/
def boundaryTaken (s : State) : State :=
  { s with slots := s.slots.map agedRecord, sched := reloaded s.sched, ingest := watched s.ingest }

/-- A field boundary in any order of its receivers. -/
theorem fieldBoundary_under (r : ReportUnit) (k : Link) (order : BoundaryOrder) {s : State} (hi : repairIdle s)
    (hf : losesNoFrame s) : under r k (fieldBoundary order s) = under r k (settle (boundaryTaken s)) := by
  have perm := blockOrder_perm order
  have nodup : (blockOrder order).Nodup := perm.nodup_iff.mpr (by decide)
  have taken := foldl_takeBoundary r k nodup hi fun _ => hf
  have ordered : (blockOrder order).foldl (fun t block => receives block t) (under r k s) =
      moveTitle (under r k (boundaryTaken s)) := by
    rw [perm.foldl_eq' (fun x _ y _ z => receives_comm x y z)]
    rfl
  unfold fieldBoundary
  rw [settle_under, moveTitle_under, taken, ordered, moveTitle_moveTitle, settle_under, moveTitle_under]

theorem fieldBoundary_told (order : BoundaryOrder) (s : State) : conditionsTold (fieldBoundary order s) := settle_told _

/-- A boundary marked and taken, as the statements have it. -/
theorem boundary_made (mode : TimebaseMode) (time : Nat) (order : BoundaryOrder) {s : State} (hi : repairIdle s)
    (hf : losesNoFrame s) :
    let u : State :=
      { s with
        timebase :=
          { mode := mode, last := time, boundaryMade := true, period := nominalPeriod s.settings.format,
            ignored := s.timebase.ignored }
        slots := s.slots.map agedRecord
        sched := { s.sched with counter := s.sched.bandBudget, started := 0, owed := false }
        ingest := watched s.ingest }
    under s.reports s.link (fieldBoundary order (markBoundary mode time s)) = under s.reports s.link (settle u) := by
  intro u
  rw [fieldBoundary_under s.reports s.link order (s := markBoundary mode time s) hi hf, settle_under, settle_under, moveTitle_under,
    moveTitle_under]
  rfl

/-- Settles O20: a pulse too early is tallied; any other makes a boundary. -/
theorem pulseMakesBoundary : Obligations.PulseMakesBoundary := by
  intro s time order
  refine ⟨fun hm ht => ?_, fun ha hi hf => ?_⟩
  · have early : pulseAccepted s.timebase time = false := by
      unfold pulseAccepted
      simp only [hm, Bool.not_true, Bool.false_or, decide_eq_false_iff_not]
      omega
    show Host.Outcome.next (takePulse time order s) = _
    unfold takePulse
    rw [early]
    rfl
  · have accepted : pulseAccepted s.timebase time = true := by
      unfold pulseAccepted
      rcases ha with h | h <;> simp [h]
    refine ⟨fieldBoundary order (markBoundary .synced time s), ?_, fieldBoundary_told _ _, boundary_made .synced time order hi hf⟩
    show Host.Outcome.next (takePulse time order s) = _
    unfold takePulse
    rw [accepted]
    rfl

theorem moveTitle_timebase (s : State) : (moveTitle s).timebase = s.timebase := by
  unfold moveTitle
  split
  · rfl
  · split
    · rw [endTitle_spec]
    · rfl

/-- A boundary made in FREE RUN tells REFERENCE FREE RUN (R178). -/
theorem freeRun_told (time : Nat) (order : BoundaryOrder) {s : State} (hi : repairIdle s) (hf : losesNoFrame s) :
    (fieldBoundary order (markBoundary .freeRun time s)).reports.truths.referenceFreeRun = true := by
  have made := boundary_made .freeRun time order hi hf
  dsimp only at made
  rw [settle_under, moveTitle_under] at made
  have mode := congrArg State.timebase made
  rw [moveTitle_timebase] at mode
  rw [fieldBoundary_told order (markBoundary .freeRun time s)]
  show referenceFreeRunNow _ = true
  unfold referenceFreeRunNow
  have e : (fieldBoundary order (markBoundary .freeRun time s)).timebase.mode = .freeRun := congrArg Timebase.mode mode
  rw [e]
  rfl

/-- Settles O21: the entry to FREE RUN and the generator's boundary, each by the timebase's mode. -/
theorem generatorMakesBoundary : Obligations.GeneratorMakesBoundary := by
  intro s order hi hf made
  have makes (time : Nat) : made time (fieldBoundary order (markBoundary .freeRun time s)) :=
    ⟨fieldBoundary_told _ _, freeRun_told time order hi hf, boundary_made .freeRun time order hi hf⟩
  refine ⟨fun hm => ⟨_, ?_, makes _⟩, fun hm => ⟨_, ?_, makes _⟩⟩
  · show Host.Outcome.next (freeRunEntry order s) = _
    unfold freeRunEntry
    rw [hm]
  · show Host.Outcome.next (generatorTick order s) = _
    unfold generatorTick
    rw [hm]

end Sys2Proof.Machine
end

