-- ==== Sys2Proof/Proofs/WriteEnd.lean ====
section
/-! WRITE END and the WRITE SLOTs that write a frame as it stands, fill a gap or turn to the relocation queue (R18, R22, R124 to R136,
R154, R156). -/

namespace Sys2Proof.Machine

/-! ### WRITE END (R18, R22, R136) -/

/-- The anchor moved: the previous one becomes FREE where it is RETAINED with no references. -/
theorem moveAnchor_spec (i : Fin 32) (s : State) :
    ∃ V : Vector SlotRecord 32, moveAnchor i s = { s with slots := V, anchor := some i } ∧
      ∀ j : Fin 32, V[j] =
        if s.anchor = some j ∧ i ≠ j ∧ s.slots[j].state = .retained ∧ s.slots[j].refs = 0 then SlotRecord.freed
        else s.slots[j] := by
  unfold moveAnchor
  cases ha : s.anchor with
  | none => exact ⟨s.slots, rfl, fun j => by simp⟩
  | some a =>
    dsimp only
    unfold freeIfDone
    by_cases h : s.slots[a].state = .retained ∧ s.slots[a].refs = 0 ∧ some i ≠ some a
    · refine ⟨(s.slots.set a SlotRecord.freed), ?_, fun j => ?_⟩
      · rw [if_pos (by exact h)]
        rfl
      · refine (setSlot_slots s a j _).trans ?_
        by_cases hj : a = j
        · subst hj
          rw [if_pos rfl, if_pos ⟨rfl, fun e => h.2.2 (by rw [e]), h.1, h.2.1⟩]
        · rw [if_neg hj, if_neg fun e => hj (Option.some.inj e.1)]
    · refine ⟨s.slots, ?_, fun j => ?_⟩
      · rw [if_neg (by exact h)]
      · rw [if_neg]
        rintro ⟨e, h1, h2, h3⟩
        obtain rfl := Option.some.inj e
        exact h ⟨h2, h3, fun c => h1 (Option.some.inj c)⟩

/-- The window's part of the WRITE END of a streaming slot. -/
theorem windowWriteEnd_streaming {i : Fin 32} {kind : WriteKind} {s : State} (hs : s.slots[i].streaming = true) :
    ∃ V : Vector SlotRecord 32,
      windowWriteEnd i kind s = { s with slots := V, anchor := if kind = .original then some i else s.anchor } ∧
      V[i] = { s.slots[i] with streaming := false } ∧
      ∀ j : Fin 32, j ≠ i → V[j] =
        if kind = .original ∧ s.anchor = some j ∧ s.slots[j].state = .retained ∧ s.slots[j].refs = 0 then SlotRecord.freed
        else s.slots[j] := by
  unfold windowWriteEnd
  rw [if_pos hs]
  dsimp only
  by_cases hk : kind = .original
  · rw [if_pos hk, if_pos hk]
    obtain ⟨V, hV, hVj⟩ := moveAnchor_spec i (s.setSlot i { s.slots[i] with streaming := false })
    refine ⟨V, hV, ?_, fun j hj => ?_⟩
    · rw [hVj i, if_neg (fun h => h.2.1 rfl), setSlot_slots_self]
    · rw [hVj j, setSlot_slots_other _ _ _ _ hj.symm]
      simp only [setSlot_anchor, hk, true_and, ne_eq, hj.symm, not_false_eq_true]
  · rw [if_neg hk, if_neg hk]
    exact ⟨_, rfl, setSlot_slots_self .., fun j hj =>
      (setSlot_slots_other s i j _ hj.symm).trans (if_neg fun h => hk h.1).symm⟩

theorem windowWriteEnd_refused {i : Fin 32} {kind : WriteKind} {s : State} (hs : s.slots[i].streaming = false) :
    windowWriteEnd i kind s = s := by
  unfold windowWriteEnd
  rw [if_neg (by rw [hs]; decide)]

/-- What WRITE END makes of the slots and the anchor. -/
theorem slotWriteEnd_spec (w : Flight) (s : State) :
    ∃ (V : Vector SlotRecord 32) (a : Option (Fin 32)), slotWriteEnd w s = { s with slots := V, anchor := a } ∧
      (∀ i : Fin 32, w.slot = some i → V[i] = { s.slots[i] with streaming := false }) ∧
      (∀ j : Fin 32, w.slot ≠ some j → V[j] =
        if w.kind = .original ∧ (∃ i, w.slot = some i ∧ s.slots[i].streaming = true) ∧ s.anchor = some j ∧
            s.slots[j].state = .retained ∧ s.slots[j].refs = 0 then SlotRecord.freed
        else s.slots[j]) ∧
      (∀ i : Fin 32, w.slot = some i → s.slots[i].streaming = true → a = if w.kind = .original then some i else s.anchor) ∧
      (w.slot = none → a = s.anchor ∧ V = s.slots) := by
  unfold slotWriteEnd
  cases hw : w.slot with
  | none =>
    exact ⟨s.slots, s.anchor, rfl, (fun i h => by cases h), (fun j _ => by simp), (fun i h => by cases h), fun _ => ⟨rfl, rfl⟩⟩
  | some i =>
    dsimp only
    have only {j : Fin 32} (h : some i = some j) : j = i := (Option.some.inj h).symm
    rcases Bool.eq_false_or_eq_true s.slots[i].streaming with hs | hs
    · obtain ⟨V, hV, hVi, hVj⟩ := windowWriteEnd_streaming (kind := w.kind) hs
      refine ⟨V, _, hV, fun j h => ?_, fun j h => ?_, fun j h _ => ?_, fun h => by cases h⟩
      · rw [only h]
        exact hVi
      · have streams : ∃ k, some i = some k ∧ s.slots[k].streaming = true := ⟨i, rfl, hs⟩
        rw [hVj j fun e => h (by rw [e])]
        simp only [streams, true_and]
      · rw [only h]
    · rw [windowWriteEnd_refused hs]
      refine ⟨s.slots, s.anchor, rfl, fun j h => ?_, fun j h => ?_, fun j h hj => ?_, fun h => by cases h⟩
      · rw [only h, ← hs]
      · rw [if_neg]
        rintro ⟨-, ⟨k, hk, hks⟩, -⟩
        rw [only hk, hs] at hks
        cases hks
      · rw [only h, hs] at hj
        cases hj

/-- Settles O36: with a write in flight its entry, its slot and the anchor follow; without one nothing changes. -/
theorem writeEndMakesEntry : Obligations.WriteEndMakesEntry := by
  intro s
  have ends : exec .writeEnd s = match s.feed.flight with
      | some w => .next (settle (endWrite w s))
      | none => .next s := rfl
  refine ⟨fun hn => by rw [ends, hn], fun w hw => ?_⟩
  obtain ⟨V, a, hV, hVi, hVj, ha, hn⟩ := slotWriteEnd_spec w (addEntry w s)
  have ended : endWrite w s =
      { addEntry w s with slots := V, anchor := a, feed := leaveWriting { s.feed with flight := none } } := by
    unfold endWrite
    dsimp only
    rw [hV]
    rfl
  refine ⟨endWrite w s, by rw [ends, hw], ?_⟩
  rw [ended]
  exact ⟨rfl, rfl, fun i h _ => hVi i h, hVj, ha, hn, rfl⟩

/-! ### The title choice (R123, R124, R127) -/

/-- The state a title choice is made in: the recorder WAITING (R123). -/
def awaiting (s : State) : State := { s with feed := { s.feed with state := .waiting } }

/-- A WRITE SLOT that a title answers: with no entry overdue and no write in flight it is the title choice. -/
theorem writeSlot_chooses {s : State} (ho : noneOverdue s) (hf : s.feed.state ≠ .writing)
    (ht : s.title.state = .running ∨ s.title.state = .draining) :
    exec .writeSlot s = .next (settle (titleChoice (awaiting (slotTaken s)))) := by
  rw [writeSlot_answers s ho]
  have e : answerSlot (slotTaken s) = titleChoice (awaiting (slotTaken s)) := by
    have hs : (slotTaken s).feed.state ≠ .writing := hf
    have chosen : (match (awaiting (slotTaken s)).title.state with
        | .idle => sendIdle (awaiting (slotTaken s))
        | .armed => sendIdle (awaiting (slotTaken s))
        | .running => titleChoice (awaiting (slotTaken s))
        | .draining => titleChoice (awaiting (slotTaken s))
        | .closing => indexChoice (awaiting (slotTaken s))) = titleChoice (awaiting (slotTaken s)) := by
      have ht' : (awaiting (slotTaken s)).title.state = .running ∨ (awaiting (slotTaken s)).title.state = .draining := ht
      rcases ht' with h | h <;> rw [h]
    unfold answerSlot
    split
    · next h => exact absurd h hs
    · exact chosen
    · exact chosen
  rw [e]

/-- With no GAP FILL and no forced write to make, the title choice turns to the relocation queue. -/
theorem titleChoice_relocates {s : State} (hg : titleCandidate s ≠ .gapFill) (hf : ∀ i, titleCandidate s ≠ .original i true) :
    ∃ writable, titleChoice s = relocateOr writable s ∧ (titleCandidate s = .none → writable = none) ∧
      ∀ h i, s.feed.h = some h → titleCandidate s = .original i false → writable = some (h, i) := by
  unfold titleChoice
  split
  · next h _ hc => exact absurd hc hg
  · next h i _ hc => exact absurd hc (hf i)
  · next h i hh hc =>
    refine ⟨some (h, i), rfl, fun e => absurd (e.symm.trans hc) (by simp), fun h' i' e e' => ?_⟩
    cases hh.symm.trans e
    cases hc.symm.trans e'
    rfl
  · next _ _ hno => exact ⟨none, rfl, fun _ => rfl, fun h i e e' => absurd e' (hno h i e)⟩

/-- A start leaves a write in flight, so that settling only tells the conditions. -/
theorem runs_of_flight {c : Instr} {s t : State} (runs : exec c s = .next (settle t))
    (ht : t.title.state = .running ∨ t.title.state = .draining) (hf : t.feed.flight.isSome = true) :
    exec c s = .next (tellConditions t) :=
  runs.trans (congrArg Host.Outcome.next (settle_of_flight t ht hf))

/-- Settles O33: H is a gap, so that the slot starts its GAP FILL. -/
theorem writeSlotFillsGap : Obligations.WriteSlotFillsGap := by
  intro s d h ht hd hf ho hh hnone hgap tag address count shown black
  let u : State := awaiting (slotTaken s)
  have answer : windowAnswer u h = .gap := by
    have none : slotOf u h = none := slotOf_eq_none hnone
    unfold windowAnswer
    rw [none]
    exact if_pos hgap
  have candidate : titleCandidate u = .gapFill := by
    unfold titleCandidate
    rw [show u.feed.h = some h from hh]
    dsimp only
    rw [answer]
  have chosen : titleChoice u = startGapFill h u := by
    unfold titleChoice
    rw [show u.feed.h = some h from hh, candidate]
  have runs := (writeSlot_chooses ho hf ht).trans
    (congrArg (fun v => Host.Outcome.next (settle v)) (chosen.trans (startGapFill_spec h u d hd)))
  refine ⟨_, fillBands s, fillSource s, runs_of_flight runs ht rfl, rfl, rfl, rfl, rfl, ?_, fun a ha => ?_, fun ha => ?_, rfl⟩
  · have title : titleNumber u = d.number := by
      unfold titleNumber
      rw [show u.title.declaration = some d from hd]
    have header : gapFillHeader u h u.feed.pendingCue (fillSource u) =
        { title := d.number, frame := h, kind := .gapFill, attempt := 0, cue := s.feed.pendingCue, fill := some (fillSource s),
          signals := ⟨noSignals, noSignals⟩, bandsPerField := count, treatments := ⟨shown, shown⟩ } := by
      unfold gapFillHeader
      rw [title]
      rfl
    exact congrArg (fun x => some (RecorderMessage.write tag address (.frameBlock x (fillBands u)))) header
  · have source : fillSource s = .anchor (s.slots[a].frame.getD 0) := by
      unfold fillSource
      rw [ha]
    have bands : fillBands s = slotBands s a := by
      unfold fillBands
      rw [ha]
    refine ⟨source, bands, fun f => ?_⟩
    have get : (fillBands s).get f = (bandsOf s).map (s.image a f) := by
      rw [bands]
      cases f <;> rfl
    rw [get]
    exact bandsOf_map s _
  · have source : fillSource s = .black := by
      unfold fillSource
      rw [ha]
    have blacks : (bandsOf s).map (fun _ => blackImage) = black := by
      rw [List.map_const', (show (bandsOf s).length = count from (List.length_map _).symm.trans (bandsOf_map s fun _ => blackImage).1)]
    have bands : fillBands s = ⟨black, black⟩ := by
      unfold fillBands
      rw [ha, ← blacks]
    exact ⟨source, bands⟩

/-! ### The relocation queue (R20, R21, R134, R154) -/

theorem grantAddress_eq {s : State} {r : Region} (hr : s.spare.region = some r) :
    grantAddress s = if headroomFits r (s.spare.table.length + s.spare.inFlight) 1 then some r.up else none := by
  unfold grantAddress
  rw [hr]
  rfl

theorem relocateOr_granted {s : State} {q : QueueEntry} {rest : List QueueEntry} {address : Nat}
    (writable : Option (Nat × Fin 32)) (hq : s.verify.queue = q :: rest) (hg : grantAddress s = some address) :
    relocateOr writable s = startRelocation q address s := by
  have granted : relocate s.verify.queue.length s = (startRelocation q address s, true) := by
    rw [hq, List.length_cons]
    unfold relocate
    rw [hq]
    dsimp only
    rw [hg]
  unfold relocateOr
  rw [granted]
  rfl

/-- The only frame of the queue refused, with no title frame to write instead. -/
theorem relocateOr_refused {s : State} {q : QueueEntry} (hq : s.verify.queue = [q]) (hg : grantAddress s = none) :
    relocateOr none s =
      sendIdle (tallyFeed (fun t => { t with refused := bump t.refused }) (refuseRelocation q s)) := by
  have refused : relocate s.verify.queue.length s =
      (tallyFeed (fun t => { t with refused := bump t.refused }) (refuseRelocation q s), false) := by
    rw [hq, List.length_singleton]
    show relocate (0 + 1) s = _
    unfold relocate
    rw [hq]
    dsimp only
    rw [hg]
    rfl
  unfold relocateOr
  rw [refused]
  rfl

/-- SPARE EXHAUSTED stands apart from what a report leaves. -/
theorem reportAdded_spareExhausted (p : Report) (r : ReportUnit) :
    { reportAdded p r with alerts := { (reportAdded p r).alerts with spareExhausted := true } } =
      reportAdded p { r with alerts := { r.alerts with spareExhausted := true } } := by
  unfold reportAdded
  split <;> rfl

/-- Adding a report tells no condition. -/
theorem reportAdded_truths (p : Report) (r : ReportUnit) :
    reportAdded p { r with truths := (reportAdded p r).truths } = reportAdded p r := by
  have kept : (reportAdded p r).truths = r.truths := by
    unfold reportAdded
    split <;> rfl
  rw [kept]

/-- A header shows a slot through its side signals and its bands alone. -/
theorem headerShows_congr {s t : State} {i : Fin 32} {header : FrameHeader} (hset : t.settings = s.settings)
    (hsig : t.slots[i].signals = s.slots[i].signals) (hbands : t.slots[i].bands = s.slots[i].bands)
    (shows : headerShows t i header) : headerShows s i header := by
  obtain ⟨hcount, hsignals, htreatments⟩ := shows
  rw [hset] at hcount htreatments
  rw [hsig] at hsignals
  refine ⟨hcount, hsignals, fun f => ⟨(htreatments f).1, fun b x hb hx => (htreatments f).2 b x hb ?_⟩⟩
  show (t.slots[i].bands.get f)[b] = some x
  rw [hbands]
  exact hx

/-- A relocation write started: its slot SENT again, the block and the tag taken, the frame off the queue and the WRITE sent, whose
header shows the slot (R129, R132, R134, R156). -/
theorem startRelocation_spec {q : QueueEntry} {address : Nat} {s : State} (hframe : s.slots[q.slot].frame = some q.frame) :
    ∃ header : FrameHeader,
      startRelocation q address s =
        { s with
          slots := s.slots.set q.slot (relocatedRecord s.slots[q.slot] s.feed.tagCounter address)
          spare :=
            { s.spare with
              region := s.spare.region.map (fun r => { r with up := r.up + 1 })
              inFlight := s.spare.inFlight + 1
              grants := bump s.spare.grants }
          verify := { s.verify with queue := s.verify.queue.tail }
          feed :=
            { s.feed with
              state := .writing
              tagCounter := (s.feed.tagCounter + 1) % 65536
              flight :=
                some
                  { kind := .relocated, tag := s.feed.tagCounter, address := address, frame := some q.frame, slot := some q.slot,
                    cue := none, fill := none, index := none }
              tallies := { s.feed.tallies with relocations := bump s.feed.tallies.relocations } }
          recorderOut := some (.write s.feed.tagCounter address (.frameBlock header (slotBands s q.slot))) } ∧
      (header.title = titleNumber s ∧ header.frame = q.frame ∧ header.kind = .relocated ∧
        header.attempt = s.slots[q.slot].attempts + 1 ∧ header.cue = none ∧ header.fill = none) ∧
      headerShows s q.slot header := by
  generalize hv : (dropHead (tallyFeed (fun t => { t with relocations := bump t.relocations })
    (takeTag (takeGrant s)))).setSlot q.slot (relocatedRecord s.slots[q.slot] s.feed.tagCounter address) = v
  have record : v.slots[q.slot] = relocatedRecord s.slots[q.slot] s.feed.tagCounter address := by
    rw [← hv]
    exact setSlot_slots_self ..
  have settings : v.settings = s.settings := by rw [← hv]; rfl
  have title : titleNumber v = titleNumber s := by rw [← hv]; rfl
  have bands : slotBands v q.slot = slotBands s q.slot := by rw [← hv]; rfl
  refine ⟨frameHeader v q.slot .relocated v.slots[q.slot].attempts none, ?_, ⟨title, ?_, rfl, ?_, rfl, rfl⟩, ?_⟩
  · rw [← bands, ← hv]
    rfl
  · show v.slots[q.slot].frame.getD 0 = _
    rw [record]
    exact congrArg (Option.getD · 0) hframe
  · show v.slots[q.slot].attempts = _
    rw [record]
    rfl
  · exact headerShows_congr settings (by rw [record]; rfl) (by rw [record]; rfl)
      (frameHeader_shows v q.slot .relocated _ none)

theorem reportWorthy_of_failed {r : SlotRecord} (h : r.outcome = some .marginal ∨ r.outcome = some .lost) : reportWorthy r = true := by
  unfold reportWorthy
  rcases h with h | h <;> simp [h]

/-- A relocation refused: the frame leaves the queue and retires, its report is built and SPARE EXHAUSTED posted (R154). -/
theorem refuseRelocation_spec (q : QueueEntry) (s : State) :
    refuseRelocation q s =
      { s with
        slots := s.slots.set q.slot (retiredRecord s q.slot (failedOutcome q.cause))
        spare := { s.spare with refusals := bump s.spare.refusals }
        verify := tallyRetirement (failedOutcome q.cause) { s.verify with queue := s.verify.queue.tail }
        reports :=
          reportAdded (reportOf s { s.slots[q.slot] with outcome := some (failedOutcome q.cause) })
            { s.reports with
              alerts :=
                { s.reports.alerts with
                  spareExhausted := true
                  frameLost := s.reports.alerts.frameLost || decide (failedOutcome q.cause = .lost) } } } := by
  unfold refuseRelocation
  rw [retireFrame_spec]
  have failed : failedOutcome q.cause = .marginal ∨ failedOutcome q.cause = .lost := by
    cases q.cause <;> simp [failedOutcome]
  have worthy : reportWorthy { s.slots[q.slot] with outcome := some (failedOutcome q.cause) } = true :=
    reportWorthy_of_failed (failed.imp (congrArg some) (congrArg some))
  rw [if_pos (by exact worthy)]
  exact congrArg (fun r => { s with
    slots := s.slots.set q.slot (retiredRecord s q.slot (failedOutcome q.cause))
    spare := { s.spare with refusals := bump s.spare.refusals }
    verify := tallyRetirement (failedOutcome q.cause) { s.verify with queue := s.verify.queue.tail }
    reports := r }) (reportAdded_spareExhausted _ _)

theorem failedOutcome_eq (c : FailCause) : failedOutcome c = if c = .marginal then .marginal else .lost := by
  cases c <;> rfl

/-- Settles O34: with no forced title candidate the slot turns to the head of the relocation queue, granted or refused. -/
theorem writeSlotRelocates : Obligations.WriteSlotRelocates := by
  intro s d r q rest ht hd hf ho hg hforced hq hr hframe tag
  obtain ⟨writable, chosen, hnone, -⟩ := titleChoice_relocates (s := awaiting (slotTaken s)) hg hforced
  have runs := (writeSlot_chooses ho hf ht).trans (congrArg (fun v => Host.Outcome.next (settle v)) chosen)
  have grant : grantAddress (awaiting (slotTaken s)) = _ := grantAddress_eq hr
  have title : titleNumber (awaiting (slotTaken s)) = d.number := by
    unfold titleNumber
    rw [show (awaiting (slotTaken s)).title.declaration = some d from hd]
  refine ⟨fun fits => ?_, fun unfit hrest hcandidate => ?_⟩
  · obtain ⟨header, started, ⟨htitle, hrest⟩, shows⟩ :=
      startRelocation_spec (q := q) (address := r.up) (s := awaiting (slotTaken s)) hframe
    rw [if_pos (by exact fits)] at grant
    have runs' := runs.trans (congrArg (fun v => Host.Outcome.next (settle v))
      ((relocateOr_granted (s := awaiting (slotTaken s)) writable hq grant).trans started))
    refine ⟨_, header, runs_of_flight runs' ht rfl, rfl, ?_, ?_, rfl, rfl, ⟨htitle.trans title, hrest⟩, shows, rfl⟩
    · have up := congrArg (Option.map fun x : Region => { x with up := x.up + 1 }) hr
      exact congrArg (fun x => { s.spare with region := x, inFlight := s.spare.inFlight + 1, grants := bump s.spare.grants }) up
    · exact congrArg (fun l => { agedEntries s.verify with queue := l }) (congrArg List.tail hq)
  · intro o
    subst hrest
    rw [if_neg (by exact fun h => absurd (unfit.symm.trans h) (by decide))] at grant
    obtain rfl : writable = none := hnone hcandidate
    have ho : o = failedOutcome q.cause := (failedOutcome_eq q.cause).symm
    rw [ho]
    have refused := (relocateOr_refused (s := awaiting (slotTaken s)) hq grant).trans
      (congrArg (fun v => sendIdle (tallyFeed (fun t => { t with refused := bump t.refused }) v))
        (refuseRelocation_spec q (awaiting (slotTaken s))))
    refine ⟨_, reportOf (awaiting (slotTaken s)) { s.slots[q.slot] with outcome := some (failedOutcome q.cause) },
      runs.trans (congrArg (fun v => Host.Outcome.next (settle v)) refused), rfl, rfl, ?_, rfl, rfl, ?_,
      ⟨title, ?_, rfl, rfl, rfl⟩, rfl⟩
    · exact congrArg (fun l => tallyRetirement _ { agedEntries s.verify with queue := l }) (congrArg List.tail hq)
    · exact (reportAdded_truths _ _).symm
    · exact congrArg (Option.getD · 0) hframe

end Sys2Proof.Machine
end

