-- ==== Sys2Proof/Proofs/OriginalWrite.lean ====
section
/-! The ORIGINAL write of frame H, forced commit included (R16, R17, R97, R125 to R133). -/

namespace Sys2Proof.Machine

/-! ### DAMAGED bands settled from the anchor (R17) -/

/-- The record a band is settled with: HELD where the anchor's band is usable, PASSED where not; another band as it is. -/
def settledRecord (s : State) (i : Fin 32) (f : Field) (b : Fin 18) : Option BandRecord :=
  if bandDamaged s i f b then
    ((s.slots[i]).band f b).map fun x => { x with state := if (anchorFor s f b).isSome then .held else .passed }
  else (s.slots[i]).band f b

/-- The samples a band is settled with: the anchor's for a HELD band, its own otherwise. -/
def settledImage (s : State) (i : Fin 32) (f : Field) (b : Fin 18) : BandImage :=
  if bandDamaged s i f b then
    match anchorFor s f b with
    | some a => s.image a f b
    | none => s.image i f b
  else s.image i f b

/-- A run of bands of slot `i` is settled; nothing else has changed. -/
structure SettledAt (i : Fin 32) (p : List (Field × Fin 18)) (s u : State) : Prop where
  settled : ∀ f b, (f, b) ∈ p → (u.slots[i]).band f b = settledRecord s i f b ∧ u.image i f b = settledImage s i f b
  kept : ∀ (j : Fin 32) (f : Field) (b : Fin 18), ¬(j = i ∧ (f, b) ∈ p) →
    (u.slots[j]).band f b = (s.slots[j]).band f b ∧ u.image j f b = s.image j f b
  record : { u.slots[i] with bands := s.slots[i].bands } = s.slots[i]
  others : ∀ j : Fin 32, j ≠ i → u.slots[j] = s.slots[j]
  rest : ∃ V M, u = { s with slots := V, buffers := M }

theorem bandDamaged_iff {s : State} {i : Fin 32} {f : Field} {b : Fin 18} :
    bandDamaged s i f b = true ↔ ∃ x, (s.slots[i]).band f b = some x ∧ x.state = .damaged := by
  unfold bandDamaged
  cases (s.slots[i]).band f b <;> simp

/-- A band that is not DAMAGED is settled as it is. -/
theorem settledAt_undamaged {s : State} {i : Fin 32} {f : Field} {b : Fin 18} (h : bandDamaged s i f b = false) :
    SettledAt i [(f, b)] s s where
  settled g c hm := by
    obtain ⟨rfl, rfl⟩ := Prod.mk.inj (List.mem_singleton.mp hm)
    simp [settledRecord, settledImage, h]
  kept _ _ _ _ := ⟨rfl, rfl⟩
  record := rfl
  others _ _ := rfl
  rest := ⟨s.slots, s.buffers, rfl⟩

/-- A DAMAGED band settled, whatever is done with its samples. -/
theorem settledAt_damaged {s u : State} {i : Fin 32} {f : Field} {b : Fin 18} {x : BandRecord} {M : Vector FrameBuffer 32}
    (hx : (s.slots[i]).band f b = some x) (hd : x.state = .damaged)
    (hu : u = { s.setBand i f b { x with state := if (anchorFor s f b).isSome then .held else .passed } with buffers := M })
    (himg : ∀ j g c, u.image j g c = if i = j ∧ f = g ∧ b = c then settledImage s i f b else s.image j g c) :
    SettledAt i [(f, b)] s u := by
  have damaged : bandDamaged s i f b = true := bandDamaged_iff.mpr ⟨x, hx, hd⟩
  have slots : u.slots = (s.setBand i f b { x with state := if (anchorFor s f b).isSome then .held else .passed }).slots := by rw [hu]
  have self : u.slots[i] = (s.slots[i]).setBand f b { x with state := if (anchorFor s f b).isSome then .held else .passed } := by
    rw [slots]
    exact setSlot_slots_self ..
  have other (j : Fin 32) (h : j ≠ i) : u.slots[j] = s.slots[j] := by
    rw [slots]
    exact setSlot_slots_other _ _ _ _ (Ne.symm h)
  refine ⟨fun g c hm => ?_, fun j g c hn => ⟨?_, ?_⟩, ?_, other, u.slots, M, ?_⟩
  · obtain ⟨rfl, rfl⟩ := Prod.mk.inj (List.mem_singleton.mp hm)
    refine ⟨?_, (himg i g c).trans (if_pos ⟨rfl, rfl, rfl⟩)⟩
    rw [self, setBand_band]
    unfold settledRecord
    rw [if_pos damaged, hx]
    rfl
  · by_cases h : j = i
    · subst h
      rw [self]
      exact setBand_band_other _ _ _ _ _ _ fun e => hn ⟨rfl, by simp [e.1, e.2]⟩
    · rw [other j h]
  · refine (himg j g c).trans (if_neg ?_)
    rintro ⟨rfl, rfl, rfl⟩
    exact hn ⟨rfl, by simp⟩
  · rw [self]
    rfl
  · rw [hu]
    rfl

theorem settleBand_settles (i : Fin 32) (f : Field) (b : Fin 18) (s : State) : SettledAt i [(f, b)] s (settleBand i f b s) := by
  rcases Bool.eq_false_or_eq_true (bandDamaged s i f b) with h | h
  · obtain ⟨x, hx, hd⟩ := bandDamaged_iff.mp h
    have moved (t : BandState) : moveBand i f b t s = s.setBand i f b { x with state := t } := by
      unfold moveBand
      rw [hx]
      exact if_pos hd
    unfold settleBand
    cases ha : anchorFor s f b with
    | none =>
      dsimp only
      refine settledAt_damaged (M := s.buffers) hx hd ?_ fun j g c => ?_
      · rw [moved, ha]
        rfl
      · rw [moved]
        unfold settledImage
        rw [if_pos h, ha]
        split
        · next e =>
          obtain ⟨rfl, rfl, rfl⟩ := e
          rfl
        · rfl
    | some a =>
      dsimp only
      unfold moveBandWith
      rw [if_pos h, moved]
      refine settledAt_damaged (M := (s.setImage i f b (s.image a f b)).buffers) hx hd ?_ fun j g c => ?_
      · rw [ha]
        rfl
      · unfold settledImage
        rw [if_pos h, ha]
        exact setImage_image ..
  · have same : settleBand i f b s = s := by
      have unmoved (t : BandState) : moveBand i f b t s = s := by
        unfold moveBand
        split
        · next x hx => exact if_neg fun hd => absurd (bandDamaged_iff.mpr ⟨x, hx, hd⟩) (by rw [h]; decide)
        · rfl
      unfold settleBand
      split
      · unfold moveBandWith
        rw [h]
        rfl
      · exact unmoved _
    rw [same]
    exact settledAt_undamaged h

/-- Bands settled one after the other. -/
theorem SettledAt.cons {i : Fin 32} {p : Field × Fin 18} {l : List (Field × Fin 18)} {s u v : State} (hp : p ∉ l)
    (h : SettledAt i [p] s u) (k : SettledAt i l u v) : SettledAt i (p :: l) s v := by
  obtain ⟨V, M, hu⟩ := h.rest
  obtain ⟨W, N, hv⟩ := k.rest
  have anchor : u.anchor = s.anchor := by rw [hu]
  have same (j : Fin 32) (f : Field) (b : Fin 18) (hm : (f, b) ∈ l) :
      (u.slots[j]).band f b = (s.slots[j]).band f b ∧ u.image j f b = s.image j f b :=
    h.kept j f b fun e => hp ((List.mem_singleton.mp e.2) ▸ hm)
  have found (f : Field) (b : Fin 18) (hm : (f, b) ∈ l) : anchorFor u f b = anchorFor s f b := by
    unfold anchorFor bandUsable
    rw [anchor]
    cases s.anchor with
    | none => rfl
    | some a =>
      dsimp only
      rw [(same a f b hm).1]
  have both (f : Field) (b : Fin 18) (hm : (f, b) ∈ l) :
      settledRecord u i f b = settledRecord s i f b ∧ settledImage u i f b = settledImage s i f b := by
    have damaged : bandDamaged u i f b = bandDamaged s i f b := by
      unfold bandDamaged
      rw [(same i f b hm).1]
    unfold settledRecord settledImage
    rw [damaged, found f b hm, (same i f b hm).1, (same i f b hm).2]
    refine ⟨rfl, ?_⟩
    cases anchorFor s f b with
    | none => rfl
    | some a =>
      dsimp only
      rw [(same a f b hm).2]
  refine ⟨fun f b hm => ?_, fun j f b hn => ?_, ?_, fun j hj => (k.others j hj).trans (h.others j hj), W, N, by rw [hv, hu]⟩
  · rcases List.mem_cons.mp hm with e | hm
    · have away := k.kept i f b fun c => hp (e ▸ c.2)
      have here := h.settled f b (List.mem_singleton.mpr e)
      exact ⟨away.1.trans here.1, away.2.trans here.2⟩
    · have here := k.settled f b hm
      exact ⟨here.1.trans (both f b hm).1, here.2.trans (both f b hm).2⟩
  · have first := h.kept j f b fun e => hn ⟨e.1, List.mem_cons.mpr (.inl (List.mem_singleton.mp e.2))⟩
    have later := k.kept j f b fun e => hn ⟨e.1, List.mem_cons_of_mem _ e.2⟩
    exact ⟨later.1.trans first.1, later.2.trans first.2⟩
  · rw [← h.record, ← k.record]

theorem foldl_settles (i : Fin 32) {l : List (Field × Fin 18)} (hl : l.Nodup) (s : State) :
    SettledAt i l s (l.foldl (fun t p => settleBand i p.1 p.2 t) s) := by
  induction l generalizing s with
  | nil => exact ⟨fun _ _ h => (by cases h), fun _ _ _ _ => ⟨rfl, rfl⟩, rfl, fun _ _ => rfl, s.slots, s.buffers, rfl⟩
  | cons p rest ih =>
    obtain ⟨hp, hrest⟩ := List.nodup_cons.mp hl
    exact (settleBand_settles i p.1 p.2 s).cons hp (ih hrest _)

/-- Every band of both fields, field A's first. -/
def allBands (s : State) : List (Field × Fin 18) := (bandsOf s).map (Prod.mk .a) ++ (bandsOf s).map (Prod.mk .b)

theorem mem_allBands {s : State} {f : Field} {b : Fin 18} : (f, b) ∈ allBands s ↔ b.val < bandsPer s.settings.format := by
  unfold allBands
  cases f <;> simp [mem_bandsOf]

theorem allBands_nodup (s : State) : (allBands s).Nodup := by
  have bands : (bandsOf s).Nodup := (List.nodup_finRange 18).filter _
  unfold allBands
  refine List.nodup_append.mpr ⟨bands.map (Prod.mk_right_injective _), bands.map (Prod.mk_right_injective _), ?_⟩
  simp

theorem forBands_eq_foldl (op : Field → Fin 18 → State → State) (s : State) :
    forBands op s = (allBands s).foldl (fun t p => op p.1 p.2 t) s := by
  unfold forBands allBands
  rw [List.foldl_append, List.foldl_map, List.foldl_map]

theorem forBands_settles (i : Fin 32) (s : State) : SettledAt i (allBands s) s (forBands (settleBand i) s) := by
  rw [forBands_eq_foldl]
  exact foldl_settles i (allBands_nodup s) s

/-! ### The forced commit (R16, R97) -/

/-- The jobs and the operation of one frame, no other frame having any, abandoned. -/
theorem abandonJobs_all {s : State} {i : Fin 32} (hj : ∀ j ∈ s.sched.jobs, j.slot = i) (ho : ∀ op, s.repair.op = some op → op.slot = i) :
    abandonJobs i s =
      { s with
        sched :=
          { s.sched with
            jobs := [], abandoned := addTally s.sched.abandoned s.sched.jobs.length
            bandsCut := if s.repair.op.isSome then bump s.sched.bandsCut else s.sched.bandsCut }
        repair := { s.repair with op := none } } := by
  have all : s.sched.jobs.filter (fun j => j.slot == i) = s.sched.jobs := List.filter_eq_self.mpr fun j h => by simp [hj j h]
  have none' : s.sched.jobs.filter (fun j => j.slot != i) = [] := List.filter_eq_nil_iff.mpr fun j h => by simp [hj j h]
  have cut : (if operationOn i s then cutOperation s else s) =
      { s with
        sched := { s.sched with bandsCut := if s.repair.op.isSome then bump s.sched.bandsCut else s.sched.bandsCut }
        repair := { s.repair with op := none } } := by
    unfold operationOn cutOperation
    cases h : s.repair.op with
    | none =>
      have e : s.repair = { s.repair with op := none } := by rw [← h]
      simp only [Bool.false_eq_true, if_false, Option.isSome_none]
      rw [← e]
    | some op => simp only [ho op h, beq_self_eq_true, if_true, Option.isSome_some]
  unfold abandonJobs
  rw [cut]
  dsimp only
  rw [all, none']

/-- What a forced commit makes of slot `i`, whose frame alone has jobs. -/
structure Committed (i : Fin 32) (s u : State) : Prop where
  record : { u.slots[i] with bands := s.slots[i].bands } =
    { s.slots[i] with jobsOutstanding := 0, heldP := none, heldN := none }
  settled : ∀ (f : Field) (b : Fin 18), b.val < bandsPer s.settings.format →
    (u.slots[i]).band f b = settledRecord s i f b ∧ u.image i f b = settledImage s i f b
  beyond : ∀ (f : Field) (b : Fin 18), ¬b.val < bandsPer s.settings.format →
    (u.slots[i]).band f b = (s.slots[i]).band f b ∧ u.image i f b = s.image i f b
  others : ∀ j : Fin 32, j ≠ i → u.slots[j] = releasedRecord s i j ∧ ∀ (f : Field) (b : Fin 18), u.image j f b = s.image j f b
  rest : ∃ V M, u =
    { s with
      slots := V, buffers := M
      sched :=
        { s.sched with
          jobs := [], owed := false, abandoned := addTally s.sched.abandoned s.sched.jobs.length
          bandsCut := if s.repair.op.isSome then bump s.sched.bandsCut else s.sched.bandsCut }
      repair := { s.repair with op := none } }

theorem releasedRecord_congr {s t : State} {i j : Fin 32} (hp : t.slots[i].heldP = s.slots[i].heldP)
    (hn : t.slots[i].heldN = s.slots[i].heldN) (hj : t.slots[j] = s.slots[j]) (ha : t.anchor = s.anchor) :
    releasedRecord t i j = releasedRecord s i j := by
  unfold releasedRecord
  rw [hp, hn, hj, ha]

/-- A state whose frames have no job outstanding in slot `i` settles the same bands. -/
theorem settled_setSlot {s t : State} {i : Fin 32} {n : Nat} (hs : t.slots = s.slots.set i { s.slots[i] with jobsOutstanding := n })
    (ha : t.anchor = s.anchor) (hb : t.buffers = s.buffers) (f : Field) (b : Fin 18) :
    settledRecord t i f b = settledRecord s i f b ∧ settledImage t i f b = settledImage s i f b := by
  have bands (j : Fin 32) : t.slots[j].bands = s.slots[j].bands := by
    rw [hs]
    have e := setSlot_slots s i j { s.slots[i] with jobsOutstanding := n }
    refine (congrArg SlotRecord.bands e).trans ?_
    split
    · next h => rw [h]
    · rfl
  have band (j : Fin 32) : (t.slots[j]).band f b = (s.slots[j]).band f b := by
    unfold SlotRecord.band
    rw [bands j]
  have image (j : Fin 32) : t.image j f b = s.image j f b := by
    unfold State.image
    rw [hb]
  have anchor : anchorFor t f b = anchorFor s f b := by
    unfold anchorFor bandUsable
    rw [ha]
    simp only [band]
  unfold settledRecord settledImage bandDamaged
  simp only [band, image, anchor, and_self]

theorem forceCommit_spec {s : State} {i : Fin 32} (hj : ∀ j ∈ s.sched.jobs, j.slot = i) (ho : ∀ op, s.repair.op = some op → op.slot = i)
    (hp : s.slots[i].heldP ≠ some i) (hn : s.slots[i].heldN ≠ some i) : Committed i s (forceCommit i s) := by
  unfold forceCommit
  rw [abandonJobs_all hj ho]
  dsimp only
  generalize hz : State.setSlot _ i _ = z
  have slots : z.slots = s.slots.set i { s.slots[i] with jobsOutstanding := 0 } := by rw [← hz]; rfl
  have self : z.slots[i] = { s.slots[i] with jobsOutstanding := 0 } := by
    rw [slots]
    exact setSlot_slots_self s i _
  have other (j : Fin 32) (h : j ≠ i) : z.slots[j] = s.slots[j] := by
    rw [slots]
    exact setSlot_slots_other s i j _ (Ne.symm h)
  have anchor : z.anchor = s.anchor := by rw [← hz]; rfl
  have buffers : z.buffers = s.buffers := by rw [← hz]; rfl
  have settings : z.settings = s.settings := by rw [← hz]; rfl
  have image (j : Fin 32) (f : Field) (b : Fin 18) : z.image j f b = s.image j f b := by
    unfold State.image
    rw [buffers]
  have settles := forBands_settles i z
  obtain ⟨V, M, hw⟩ := settles.rest
  generalize forBands (settleBand i) z = w at settles hw
  have record : { w.slots[i] with bands := s.slots[i].bands } = { s.slots[i] with jobsOutstanding := 0 } := by
    have e := settles.record
    rw [self] at e
    exact e
  have heldP : w.slots[i].heldP = s.slots[i].heldP := by
    have e := congrArg SlotRecord.heldP record
    exact e
  have heldN : w.slots[i].heldN = s.slots[i].heldN := by
    have e := congrArg SlotRecord.heldN record
    exact e
  have wanchor : w.anchor = s.anchor := by rw [hw]; exact anchor
  obtain ⟨W, hr, hri, hrj⟩ := releaseRefs_spec w i (by rw [heldP]; exact hp) (by rw [heldN]; exact hn)
  have idle : repairIdle (releaseRefs i w) := by
    rw [hr, hw, ← hz]
    exact ⟨rfl, rfl⟩
  rw [decisionPoint_idle _ idle, hr]
  have here (f : Field) (b : Fin 18) :
      (SlotRecord.band W[i] f b = (w.slots[i]).band f b) ∧ (decided { w with slots := W }).image i f b = w.image i f b := by
    rw [hri]
    exact ⟨rfl, rfl⟩
  refine ⟨?_, fun f b hb => ?_, fun f b hb => ?_, fun j h => ⟨?_, fun f b => ?_⟩, W, M, ?_⟩
  · show { W[i] with bands := s.slots[i].bands } = _
    rw [hri]
    exact congrArg (fun r : SlotRecord => { r with heldP := none, heldN := none }) record
  · have e := settles.settled f b (mem_allBands.mpr (by rw [settings]; exact hb))
    have same := settled_setSlot slots anchor buffers f b
    exact ⟨(here f b).1.trans (e.1.trans same.1), (here f b).2.trans (e.2.trans same.2)⟩
  · have e := settles.kept i f b fun c => hb (by rw [← settings]; exact mem_allBands.mp c.2)
    rw [self, image] at e
    exact ⟨(here f b).1.trans e.1, (here f b).2.trans e.2⟩
  · refine (hrj j h).trans (releasedRecord_congr heldP heldN ?_ wanchor)
    exact (settles.others j h).trans (other j h)
  · exact ((settles.kept j f b fun c => h c.1).2).trans (image j f b)
  · rw [hw, ← hz]
    rfl

/-! ### The start of an ORIGINAL write (R16, R128 to R133) -/

/-- An ORIGINAL write started on the state `v` its forced commit, if any, has left: the slot SENT and streaming, H passed, the cue
taken and the WRITE sent, whose header shows the slot. -/
theorem startOriginal_spec {h : Nat} {i : Fin 32} {forced : Bool} {s v : State}
    (hv : (if s.slots[i].state == .repairing then
        forceCommit i (tallyFeed (tallyOriginal forced (s.slots[i].state == .repairing)) (takeTag s))
      else tallyFeed (tallyOriginal forced (s.slots[i].state == .repairing)) (takeTag s)) = v) (hframe : v.slots[i].frame = some h) :
    ∃ header : FrameHeader,
      startOriginal h i forced s =
        { v with
          slots := v.slots.set i (sentRecord v.slots[i] s.feed.tagCounter (titleAddress s h) v.feed.pendingCue)
          gaps := consumeGap v.gaps h
          feed :=
            { v.feed with
              state := .writing, h := nextH h, pendingCue := none
              flight :=
                some
                  { kind := .original, tag := s.feed.tagCounter, address := titleAddress s h, frame := some h, slot := some i,
                    cue := v.feed.pendingCue, fill := none, index := none } }
          recorderOut := some (.write s.feed.tagCounter (titleAddress s h) (.frameBlock header (slotBands v i))) } ∧
      (header.title = titleNumber v ∧ header.frame = h ∧ header.kind = .original ∧ header.attempt = 0 ∧
        header.cue = v.feed.pendingCue ∧ header.fill = none) ∧
      headerShows (v.setSlot i (sentRecord v.slots[i] s.feed.tagCounter (titleAddress s h) v.feed.pendingCue)) i header := by
  generalize hw : v.setSlot i (sentRecord v.slots[i] s.feed.tagCounter (titleAddress s h) v.feed.pendingCue) = w
  have record : w.slots[i] = sentRecord v.slots[i] s.feed.tagCounter (titleAddress s h) v.feed.pendingCue := by
    rw [← hw]
    exact setSlot_slots_self ..
  refine ⟨frameHeader (passH h (clearCue w)) i .original 0 v.feed.pendingCue, ?_, ⟨?_, ?_, rfl, rfl, rfl, rfl⟩, ?_⟩
  · rw [← hw]
    unfold startOriginal
    dsimp only
    rw [hv]
    rfl
  · rw [← hw]
    rfl
  · show w.slots[i].frame.getD 0 = h
    rw [record]
    exact congrArg (Option.getD · 0) hframe
  · exact frameHeader_shows (passH h (clearCue w)) i .original 0 _

/-! ### The WRITE SLOT that writes frame H (R125, R127) -/

theorem titleCandidate_present {s : State} {h : Nat} {i : Fin 32} (hh : s.feed.h = some h) (hi : slotOf s h = some i) :
    titleCandidate s = slotCandidate s i := by
  unfold titleCandidate windowAnswer
  rw [hh]
  dsimp only
  rw [hi]

theorem lagReached_eq {s : State} {i : Fin 32} {age : Nat} (ha : s.slots[i].age = some age) :
    lagReached s i = decide (s.settings.commitLag ≤ age) := by
  unfold lagReached
  rw [ha]

/-- A forced candidate is written before the relocation queue is looked at, any other once that queue is empty. -/
theorem titleChoice_original {s : State} {h : Nat} {i : Fin 32} {forced : Bool} (hh : s.feed.h = some h)
    (hc : titleCandidate s = .original i forced) (hq : forced = true ∨ s.verify.queue = []) :
    titleChoice s = startOriginal h i forced s := by
  unfold titleChoice
  rw [hh, hc]
  cases forced with
  | true => rfl
  | false =>
    have empty : s.verify.queue = [] := hq.resolve_left (by decide)
    show relocateOr (some (h, i)) s = _
    unfold relocateOr
    rw [empty]
    rfl

/-- What the start of an ORIGINAL write leaves of the Feed, the gap list, the pending entries, the recorder line and the reports. -/
structure OriginalStarted (s : State) (d : TitleDeclaration) (h age : Nat) (i : Fin 32) (commits : Nat) (t : State) : Prop where
  feed : t.feed =
    { s.feed with
      state := .writing
      h := if h = 4294967295 then none else some (h + 1)
      tagCounter := (s.feed.tagCounter + 1) % 65536
      pendingCue := none
      flight :=
        some
          { kind := .original, tag := s.feed.tagCounter, address := d.start + (h - d.first), frame := some h, slot := some i,
            cue := s.feed.pendingCue, fill := none, index := none }
      tallies :=
        { s.feed.tallies with
          slotsTaken := bump s.feed.tallies.slotsTaken
          original := bump s.feed.tallies.original
          forcedOriginal :=
            if s.settings.commitLag ≤ age then bump s.feed.tallies.forcedOriginal else s.feed.tallies.forcedOriginal
          forcedCommits := commits } }
  gaps : t.gaps = consumeGap s.gaps h
  verify : t.verify = agedEntries s.verify
  line : ∃ header : FrameHeader,
    t.recorderOut = some (.write s.feed.tagCounter (d.start + (h - d.first)) (.frameBlock header (slotBands t i))) ∧
    (header.title = d.number ∧ header.frame = h ∧ header.kind = .original ∧ header.attempt = 0 ∧
      header.cue = s.feed.pendingCue ∧ header.fill = none) ∧
    headerShows t i header
  reports : t.reports = { s.reports with truths := conditionsNow t }

/-- The state in which an ORIGINAL write takes its tag (R128, R133, R142). -/
def tagged (forced commit : Bool) (s : State) : State :=
  tallyFeed (tallyOriginal forced commit) (takeTag (awaiting (slotTaken s)))

theorem tagged_eq (forced commit : Bool) (s : State) :
    tagged forced commit s = { s with verify := agedEntries s.verify, feed := (tagged forced commit s).feed } := rfl

theorem tagged_feed (p : Prop) [Decidable p] (commit : Bool) (s : State) :
    (tagged (decide p) commit s).feed =
      { s.feed with
        state := .waiting
        tagCounter := (s.feed.tagCounter + 1) % 65536
        tallies :=
          { s.feed.tallies with
            slotsTaken := bump s.feed.tallies.slotsTaken
            original := bump s.feed.tallies.original
            forcedOriginal := if p then bump s.feed.tallies.forcedOriginal else s.feed.tallies.forcedOriginal
            forcedCommits := if commit then bump s.feed.tallies.forcedCommits else s.feed.tallies.forcedCommits } } := by
  unfold tagged tallyFeed tallyOriginal
  simp only [decide_eq_true_eq]
  rfl

/-- The WRITE SLOT of a candidate that is written, `v` being what its forced commit, if any, leaves. -/
theorem writeSlot_original {s v : State} {d : TitleDeclaration} {h age : Nat} {i : Fin 32}
    (ht : s.title.state = .running ∨ s.title.state = .draining) (hd : s.title.declaration = some d) (hf : s.feed.state ≠ .writing)
    (ho : noneOverdue s) (hh : s.feed.h = some h) (hframe : v.slots[i].frame = some h)
    (hc : titleCandidate s = .original i (decide (s.settings.commitLag ≤ age)))
    (hq : s.settings.commitLag ≤ age ∨ s.verify.queue = [])
    (hv : (if s.slots[i].state == .repairing then
        forceCommit i (tagged (decide (s.settings.commitLag ≤ age)) (s.slots[i].state == .repairing) s)
      else tagged (decide (s.settings.commitLag ≤ age)) (s.slots[i].state == .repairing) s) = v)
    (hrest : ∃ V M x y, v =
      { s with
        slots := V, buffers := M, sched := x, repair := y, verify := agedEntries s.verify
        feed := (tagged (decide (s.settings.commitLag ≤ age)) (s.slots[i].state == .repairing) s).feed }) :
    ∃ t, exec .writeSlot s = .next t ∧
      OriginalStarted s d h age i
        (if s.slots[i].state == .repairing then bump s.feed.tallies.forcedCommits else s.feed.tallies.forcedCommits) t ∧
      t.slots = v.slots.set i (sentRecord v.slots[i] s.feed.tagCounter (d.start + (h - d.first)) s.feed.pendingCue) ∧
      t.buffers = v.buffers ∧ t.sched = v.sched ∧ t.repair = v.repair ∧
      { t with
        slots := s.slots, buffers := s.buffers, sched := s.sched, repair := s.repair, feed := s.feed, gaps := s.gaps,
        verify := s.verify, recorderOut := s.recorderOut, reports := s.reports } = s := by
  obtain ⟨header, started, ⟨htitle, hnumber, hkind, hattempt, hcue, hfill⟩, shows⟩ :=
    startOriginal_spec (forced := decide (s.settings.commitLag ≤ age)) (s := awaiting (slotTaken s)) hv hframe
  have chosen := titleChoice_original (s := awaiting (slotTaken s)) hh hc (hq.imp decide_eq_true id)
  have address : titleAddress (awaiting (slotTaken s)) h = d.start + (h - d.first) := by
    unfold titleAddress
    rw [show (awaiting (slotTaken s)).title.declaration = some d from hd]
  rw [address] at started shows
  have runs := (writeSlot_chooses ho hf ht).trans (congrArg (fun x => Host.Outcome.next (settle x)) (chosen.trans started))
  obtain ⟨V, M, x, y, hV⟩ := hrest
  clear hv chosen started
  have feed := tagged_feed (s.settings.commitLag ≤ age) (s.slots[i].state == .repairing) s
  have vfeed : v.feed = (tagged (decide (s.settings.commitLag ≤ age)) (s.slots[i].state == .repairing) s).feed := by rw [hV]
  have vcue : v.feed.pendingCue = s.feed.pendingCue := by rw [vfeed, feed]
  rw [vcue] at runs hcue shows
  have number : titleNumber v = d.number := by
    unfold titleNumber
    rw [show v.title = s.title by rw [hV], hd]
  rw [number] at htitle
  refine ⟨_, runs_of_flight runs ?_ rfl, ⟨?_, ?_, ?_, ⟨header, rfl, ⟨htitle, hnumber, hkind, hattempt, hcue, hfill⟩, ?_⟩, ?_⟩, rfl, rfl,
    rfl, rfl, ?_⟩
  · show v.title.state = _ ∨ v.title.state = _
    rw [hV]
    exact ht
  · exact congrArg (fun x : Feed =>
      { x with
        state := .writing, h := nextH h, pendingCue := none
        flight :=
          some
            { kind := .original, tag := s.feed.tagCounter, address := d.start + (h - d.first), frame := some h, slot := some i,
              cue := s.feed.pendingCue, fill := none, index := none } }) (vfeed.trans feed)
  · show consumeGap v.gaps h = _
    rw [hV]
  · show v.verify = _
    rw [hV]
  · exact shows
  · rw [hV]
    rfl
  · rw [hV]
    rfl

theorem anchorFor_some {s : State} {a : Fin 32} {f : Field} {b : Fin 18} (ha : s.anchor = some a) (hu : bandUsable s a f b = true) :
    anchorFor s f b = some a := by
  unfold anchorFor
  rw [ha]
  exact if_pos hu

theorem anchorFor_none {s : State} {f : Field} {b : Fin 18} (h : ∀ a : Fin 32, s.anchor = some a → bandUsable s a f b = false) :
    anchorFor s f b = none := by
  unfold anchorFor
  split
  · next a ha => rw [h a ha, if_neg (by decide)]
  · rfl

/-- What a forced commit leaves of the bands of its slot, by whether they were DAMAGED and the anchor's band is usable (R17). -/
theorem Committed.bands {s u : State} {i : Fin 32} (k : Committed i s u) (f : Field) (b : Fin 18) :
    (¬(b.val < bandsPer s.settings.format ∧ bandDamaged s i f b = true) →
      (u.slots[i]).band f b = (s.slots[i]).band f b ∧ u.image i f b = s.image i f b) ∧
    (b.val < bandsPer s.settings.format ∧ bandDamaged s i f b = true →
      (∀ a : Fin 32, s.anchor = some a → bandUsable s a f b = true →
        (u.slots[i]).band f b = ((s.slots[i]).band f b).map (fun x => { x with state := .held }) ∧ u.image i f b = s.image a f b) ∧
      ((∀ a : Fin 32, s.anchor = some a → bandUsable s a f b = false) →
        (u.slots[i]).band f b = ((s.slots[i]).band f b).map (fun x => { x with state := .passed }) ∧
          u.image i f b = s.image i f b)) := by
  refine ⟨fun hn => ?_, fun ⟨hb, hd⟩ => ?_⟩
  · by_cases hb : b.val < bandsPer s.settings.format
    · have e := k.settled f b hb
      unfold settledRecord settledImage at e
      rw [if_neg fun hd => hn ⟨hb, hd⟩, if_neg fun hd => hn ⟨hb, hd⟩] at e
      exact e
    · exact k.beyond f b hb
  · have e := k.settled f b hb
    unfold settledRecord settledImage at e
    rw [if_pos hd, if_pos hd] at e
    refine ⟨fun a ha hu => ?_, fun hu => ?_⟩
    · rw [anchorFor_some ha hu] at e
      exact e
    · rw [anchorFor_none hu] at e
      exact e

theorem Committed.frame {s u : State} {i : Fin 32} (k : Committed i s u) : u.slots[i].frame = s.slots[i].frame := by
  have e := congrArg SlotRecord.frame k.record
  exact e

/-- Settles O32: the slot that holds H is the candidate, and its start is that of its record as it stands or once committed. -/
theorem writeSlotWritesFrame : Obligations.WriteSlotWritesFrame := by
  intro s d h age i ht hd hf ho hh hframe hage hunique tag address sent started
  have candidate (hs : s.slots[i].state ≠ .free) : titleCandidate s = slotCandidate s i :=
    titleCandidate_present hh (slotOf_eq_some hframe hs hunique)
  refine ⟨fun hr hq => ?_, fun hr hlag hp hn hjobs hop => ?_⟩
  · have commit : (s.slots[i].state == .repairing) = false := by rw [hr]; rfl
    have hc : titleCandidate s = .original i (decide (s.settings.commitLag ≤ age)) := by
      rw [candidate (by rw [hr]; decide)]
      unfold slotCandidate
      rw [hr, lagReached_eq hage]
    have hv := tagged_eq (decide (s.settings.commitLag ≤ age)) (s.slots[i].state == .repairing) s
    generalize hw : tagged (decide (s.settings.commitLag ≤ age)) (s.slots[i].state == .repairing) s = v at hv
    obtain ⟨t, runs, ⟨feed, gaps, verify, line, reports⟩, slots, buffers, sched, repair, rest⟩ :=
      writeSlot_original (v := v) ht hd hf ho hh (by rw [hv]; exact hframe) hc hq (by rw [hw, commit]; rfl)
        ⟨s.slots, s.buffers, s.sched, s.repair, by rw [hw]; exact hv⟩
    rw [commit] at feed
    rw [hv] at slots buffers sched repair
    refine ⟨t, runs, ⟨feed, gaps, verify, line, reports⟩, slots, ?_⟩
    rw [buffers, sched, repair]
    exact rest
  · have commit : (s.slots[i].state == .repairing) = true := by rw [hr]; rfl
    have hc : titleCandidate s = .original i (decide (s.settings.commitLag ≤ age)) := by
      rw [candidate (by rw [hr]; decide)]
      unfold slotCandidate
      rw [hr, lagReached_eq hage, decide_eq_true hlag]
      rfl
    have hF := tagged_eq (decide (s.settings.commitLag ≤ age)) (s.slots[i].state == .repairing) s
    generalize hG : (tagged (decide (s.settings.commitLag ≤ age)) (s.slots[i].state == .repairing) s).feed = F at hF
    have committed := forceCommit_spec (s := { s with verify := agedEntries s.verify, feed := F }) (i := i) hjobs hop hp hn
    generalize hvv : forceCommit i { s with verify := agedEntries s.verify, feed := F } = v at committed
    obtain ⟨V, M, hv⟩ := committed.rest
    have bands := committed.bands
    have vframe : v.slots[i].frame = some h := committed.frame.trans hframe
    obtain ⟨t, runs, ⟨feed, gaps, verify, line, reports⟩, slots, buffers, sched, repair, rest⟩ :=
      writeSlot_original ht hd hf ho hh vframe hc (.inl hlag) (by rw [hF, hvv, commit]; rfl) ⟨V, M, _, _, by rw [hG]; exact hv⟩
    have self : t.slots[i] = sent v.slots[i] := by
      rw [slots]
      exact setSlot_slots_self v i _
    have image (j : Fin 32) (f : Field) (b : Fin 18) : t.image j f b = v.image j f b := by
      unfold State.image
      rw [buffers]
    rw [commit] at feed
    intro damaged
    have iff (f : Field) (b : Fin 18) :
        damaged f b ↔ b.val < bandsPer s.settings.format ∧ bandDamaged s i f b = true := and_congr_right fun _ => bandDamaged_iff.symm
    refine ⟨t, runs, ⟨feed, gaps, verify, line, reports⟩, ?_, fun f b => ?_, fun j hj => ⟨?_, fun f b => ?_⟩, ?_, ?_, rest⟩
    · rw [self]
      exact congrArg sent committed.record
    · rw [self, image, iff]
      exact bands f b
    · rw [slots]
      exact (setSlot_slots_other v i j _ (Ne.symm hj)).trans (committed.others j hj).1
    · rw [image]
      exact (committed.others j hj).2 f b
    · rw [sched, hv]
    · rw [repair, hv]

end Sys2Proof.Machine
end

