-- ==== Sys2Proof/Proofs/Outcomes.lean ====
section
/-! What resolves an entry: an OUTCOME, its timeout, and the timeouts of a WRITE SLOT (R19 to R21, R124, R146 to R151, R157). -/

namespace Sys2Proof.Machine

/-! ### The entry resolved (R146, R147) -/

/-- Of a list whose tags name one entry, giving up that tag gives up that entry. -/
theorem filter_tag {tag : Nat} {e : PendingEntry} {before after : List PendingEntry} (he : e.tag = tag)
    (hu : ∀ x ∈ before ++ after, x.tag ≠ tag) : (before ++ e :: after).filter (fun x => x.tag != tag) = before ++ after := by
  have kept (l : List PendingEntry) (h : ∀ x ∈ l, x.tag ≠ tag) : l.filter (fun x => x.tag != tag) = l :=
    List.filter_eq_self.mpr fun x hx => by simpa using h x hx
  rw [List.filter_append, List.filter_cons_of_neg (by simp [he]), kept before fun x hx => hu x (List.mem_append_left _ hx),
    kept after fun x hx => hu x (List.mem_append_right _ hx)]

/-- An entry with others before it that fail a test is the first to meet it. -/
theorem find?_middle {test : PendingEntry → Bool} {e : PendingEntry} {before after : List PendingEntry}
    (hb : ∀ x ∈ before, test x = false) (he : test e = true) : (before ++ e :: after).find? test = some e := by
  rw [List.find?_append, List.find?_eq_none.mpr fun x hx => by simp [hb x hx], List.find?_cons_of_pos he]
  rfl

/-- An OUTCOME resolves the entry of its tag with its verdict (R147). -/
theorem outcome_resolves {s : State} {tag : BitVec 16} {result : Byte} {x : Verdict} {e : PendingEntry}
    {before after : List PendingEntry} (hs : s.verify.entries = before ++ e :: after) (he : e.tag = tag.toNat)
    (hu : ∀ y ∈ before ++ after, y.tag ≠ tag.toNat) (hx : verdictOf result = some x) :
    exec (.outcome tag result) s =
      .next (settle (resolveEntry e x { s with verify := { s.verify with entries := before ++ after } })) := by
  have removed : removeEntry tag.toNat s = { s with verify := { s.verify with entries := before ++ after } } := by
    unfold removeEntry
    rw [hs, filter_tag he hu]
  have taken : takeOutcome tag.toNat result s = resolveEntry e x (removeEntry tag.toNat s) := by
    unfold takeOutcome
    rw [hx, hs, find?_middle (fun y hy => decide_eq_false (hu y (List.mem_append_left _ hy))) (decide_eq_true he)]
  exact congrArg (fun u => Host.Outcome.next (settle u)) (taken.trans (by rw [removed]))

/-- The oldest overdue entry times out (R146). -/
theorem timeOutOldest_resolves {s : State} {e : PendingEntry} {before after : List PendingEntry}
    (hs : s.verify.entries = before ++ e :: after) (hu : ∀ y ∈ before ++ after, y.tag ≠ e.tag)
    (hb : ∀ y ∈ before, y.age ≤ s.settings.verifyTimeout) (ha : s.settings.verifyTimeout < e.age) :
    timeOutOldest s =
      resolveEntry e .timeout
        { s with verify := { s.verify with entries := before ++ after, timeouts := bump s.verify.timeouts } } := by
  have found : overdueEntry s = some e := by
    unfold overdueEntry
    rw [hs]
    exact find?_middle (fun y hy => decide_eq_false (Nat.not_lt.mpr (hb y hy))) (decide_eq_true ha)
  unfold timeOutOldest timeOutEntry removeEntry
  rw [found]
  dsimp only
  rw [hs, filter_tag rfl hu]

/-! ### What a resolution can change (R148 to R151) -/

theorem settleInFlight_spec (kind : WriteKind) (s : State) :
    settleInFlight kind s =
      { s with
        spare := { s.spare with inFlight := if kind = .relocated then s.spare.inFlight - 1 else s.spare.inFlight } } := by
  unfold settleInFlight
  split <;> rfl

/-- The Report Unit once a retirement is posted: FRAME LOST for outcome LOST. -/
def lossPosted (o : FrameOutcome) (r : ReportUnit) : ReportUnit :=
  { r with alerts := { r.alerts with frameLost := r.alerts.frameLost || decide (o = .lost) } }

/-- The Report Unit once a frame retires from a record copy: the copy's report is built where it has something to tell. -/
def retirementTold (s : State) (copy : SlotRecord) (o : FrameOutcome) : ReportUnit :=
  if reportWorthy copy then reportAdded (reportOf s copy) (lossPosted o s.reports) else lossPosted o s.reports

theorem retireFrame_eq (i : Fin 32) (o : FrameOutcome) (s : State) :
    retireFrame i o s =
      { s with
        slots := s.slots.set i (retiredRecord s i o)
        verify := tallyRetirement o s.verify
        reports := retirementTold s { s.slots[i] with outcome := some o } o } := retireFrame_spec i o s

theorem retireCopy_eq (copy : SlotRecord) (o : FrameOutcome) (s : State) :
    retireCopy copy o s =
      { s with
        verify := tallyRetirement o s.verify
        reports := retirementTold s { copy with outcome := some o } o } := by
  unfold retireCopy
  rw [postRetirement_spec, handOver_spec]
  rfl

theorem retireGapFill_eq (frame address : Nat) (fill : Option FillSource) (cue : Option Byte) (o : FrameOutcome) (s : State) :
    retireGapFill frame address fill cue o s =
      { s with
        verify := tallyRetirement o s.verify
        reports := reportAdded (gapFillReport s frame address fill cue o) (lossPosted o s.reports) } := by
  unfold retireGapFill
  dsimp only
  rw [postRetirement_spec, addReport_spec]
  rfl

theorem tallyRetirement_entries (o : FrameOutcome) (v : Verify) : (tallyRetirement o v).entries = v.entries := by
  cases o <;> rfl

/-- An operation that changes the slots, the Tracker beside its entries, the relocation table and its count, and the reports alone,
and does so whatever the Feed is. -/
def Resolving (op : State → State) (s : State) : Prop :=
  ∃ V W n T R, W.entries = s.verify.entries ∧ ∀ F, op { s with feed := F } =
    { s with feed := F, slots := V, verify := W, spare := { s.spare with inFlight := n, table := T }, reports := R }

theorem Resolving.refl (s : State) : Resolving id s :=
  ⟨s.slots, s.verify, s.spare.inFlight, s.spare.table, s.reports, rfl, fun _ => rfl⟩

/-- One such operation after another is one. -/
theorem Resolving.comp {op next : State → State} {s : State} (h : Resolving op s) (k : ∀ t, Resolving next t) :
    Resolving (fun t => next (op t)) s := by
  obtain ⟨V, W, n, T, R, hW, h⟩ := h
  obtain ⟨V', W', n', T', R', hW', k⟩ :=
    k { s with slots := V, verify := W, spare := { s.spare with inFlight := n, table := T }, reports := R }
  exact ⟨V', W', n', T', R', hW'.trans hW, fun F => (congrArg next (h F)).trans (k F)⟩

theorem settleInFlight_resolving (kind : WriteKind) (s : State) : Resolving (settleInFlight kind) s :=
  ⟨s.slots, s.verify, if kind = .relocated then s.spare.inFlight - 1 else s.spare.inFlight, s.spare.table, s.reports, rfl,
    fun F => settleInFlight_spec kind { s with feed := F }⟩

theorem addRelocation_resolving (frame address attempts : Nat) (s : State) : Resolving (addRelocation frame address attempts) s :=
  ⟨s.slots, s.verify, s.spare.inFlight,
    placeRelocation { original := titleAddress s frame, relocated := address, frame := frame, attempt := attempts } s.spare.table,
    s.reports, rfl, fun _ => rfl⟩

theorem addIfRelocated_resolving (kind : WriteKind) (frame address attempts : Nat) (s : State) :
    Resolving (addIfRelocated kind frame address attempts) s := by
  unfold addIfRelocated
  by_cases h : kind = .relocated
  · simp only [if_pos h]
    exact addRelocation_resolving frame address attempts s
  · simp only [if_neg h]
    exact .refl s

theorem retireFrame_resolving (i : Fin 32) (o : FrameOutcome) (s : State) : Resolving (retireFrame i o) s :=
  ⟨s.slots.set i (retiredRecord s i o), tallyRetirement o s.verify, s.spare.inFlight, s.spare.table,
    retirementTold s { s.slots[i] with outcome := some o } o, tallyRetirement_entries o s.verify,
    fun F => retireFrame_eq i o { s with feed := F }⟩

theorem retireCopy_resolving (copy : SlotRecord) (o : FrameOutcome) (s : State) : Resolving (retireCopy copy o) s :=
  ⟨s.slots, tallyRetirement o s.verify, s.spare.inFlight, s.spare.table, retirementTold s { copy with outcome := some o } o,
    tallyRetirement_entries o s.verify, fun F => retireCopy_eq copy o { s with feed := F }⟩

theorem retireGapFill_resolving (frame address : Nat) (fill : Option FillSource) (cue : Option Byte) (o : FrameOutcome) (s : State) :
    Resolving (retireGapFill frame address fill cue o) s :=
  ⟨s.slots, tallyRetirement o s.verify, s.spare.inFlight, s.spare.table,
    reportAdded (gapFillReport s frame address fill cue o) (lossPosted o s.reports), tallyRetirement_entries o s.verify,
    fun F => retireGapFill_eq frame address fill cue o { s with feed := F }⟩

theorem queueRelocation_resolving (i : Fin 32) (cause : FailCause) (s : State) : Resolving (queueRelocation i cause) s :=
  ⟨s.slots.set i { s.slots[i] with state := .relocating },
    { s.verify with
      queue := s.verify.queue ++ [{ slot := i, frame := s.slots[i].frame.getD 0, cause := cause }]
      queued := bump s.verify.queued },
    s.spare.inFlight, s.spare.table, s.reports, rfl, fun _ => rfl⟩

theorem Resolving.congr {op next : State → State} {s : State} (h : Resolving op s)
    (e : ∀ F, next { s with feed := F } = op { s with feed := F }) : Resolving next s := by
  obtain ⟨V, W, n, T, R, hW, h⟩ := h
  exact ⟨V, W, n, T, R, hW, fun F => (e F).trans (h F)⟩

theorem resolveSlot_resolving (e : PendingEntry) (i : Fin 32) (r : Effective) (s : State) : Resolving (resolveSlot e i r) s := by
  have added (o : FrameOutcome) := (addIfRelocated_resolving e.kind (e.frame.getD 0) e.address s.slots[i].attempts s).comp
    (retireFrame_resolving i o)
  by_cases hf : slotFits e i s = true
  · have fits (F : Feed) : slotFits e i { s with feed := F } = true := hf
    cases r with
    | pass o => exact (added o).congr fun F => if_pos (fits F)
    | fail cause =>
      by_cases ha : s.slots[i].attempts < s.settings.attempts
      · exact (queueRelocation_resolving i cause s).congr fun F => (if_pos (fits F)).trans (if_pos ha)
      · by_cases hc : cause = .marginal
        · exact (added .marginal).congr fun F => (if_pos (fits F)).trans ((if_neg ha).trans (if_pos hc))
        · exact (retireFrame_resolving i .lost s).congr fun F => (if_pos (fits F)).trans ((if_neg ha).trans (if_neg hc))
  · exact (Resolving.refl s).congr fun F => if_neg hf

theorem resolveForfeited_resolving (e : PendingEntry) (copy : SlotRecord) (r : Effective) (s : State) :
    Resolving (resolveForfeited e copy r) s := by
  have added (o : FrameOutcome) := (addIfRelocated_resolving e.kind (copy.frame.getD 0) e.address copy.attempts s).comp
    (retireCopy_resolving copy o)
  cases r with
  | pass o => exact added o
  | fail cause =>
    by_cases hc : cause = .marginal
    · exact (added .marginal).congr fun F => if_pos hc
    · exact (retireCopy_resolving copy .lost s).congr fun F => if_neg hc

theorem resolveFrame_resolving (e : PendingEntry) (r : Effective) (s : State) : Resolving (resolveFrame e r) s := by
  unfold resolveFrame
  cases e.copy with
  | some copy => exact resolveForfeited_resolving e copy r s
  | none =>
    cases e.slot with
    | some i => exact resolveSlot_resolving e i r s
    | none => exact .refl s

/-- The resolution of an entry, but an INDEX one, leaves the plan and everything else of the title, whatever the Feed is. -/
theorem resolveEntry_resolving {e : PendingEntry} (hk : e.kind ≠ .index) (x : Verdict) (s : State) : Resolving (resolveEntry e x) s := by
  have settled := settleInFlight_resolving e.kind s
  have fill (r : Effective) (t : State) : Resolving (resolveGapFill e r) t := retireGapFill_resolving _ _ _ _ _ t
  unfold resolveEntry
  cases h : e.kind with
  | index => exact absurd h hk
  | gapFill => exact ((h ▸ settled).comp (fill (effective s.settings.marginal x))).congr fun _ => rfl
  | original => exact ((h ▸ settled).comp (resolveFrame_resolving e (effective s.settings.marginal x))).congr fun _ => rfl
  | relocated => exact ((h ▸ settled).comp (resolveFrame_resolving e (effective s.settings.marginal x))).congr fun _ => rfl

/-! ### How a frame retires by its verdict (R19, R149, R150, R157) -/

/-- The outcome a frame retires with by an effective result. -/
def finalOutcome : Effective → FrameOutcome
  | .pass o => o
  | .fail cause => failedOutcome cause

/-- A frame's recording that stands joins the relocation table when it is a RELOCATED one; one that fails for good does not. -/
def standing (e : PendingEntry) (frame attempts : Nat) (o : FrameOutcome) (s : State) : State :=
  if o = .lost then s else addIfRelocated e.kind frame e.address attempts s

theorem effective_ne_lost {p : MarginalPolicy} {x : Verdict} {o : FrameOutcome} (h : effective p x = .pass o) : o ≠ .lost := by
  cases x <;> cases p <;> cases h <;> decide

/-- A frame settled by its slot retires, but where attempts are left to a failure. -/
theorem resolveSlot_retires {e : PendingEntry} {i : Fin 32} {r : Effective} {s : State} (hf : slotFits e i s = true)
    (hp : ∀ o, r = .pass o → o ≠ .lost) (hr : (∃ o, r = .pass o) ∨ s.settings.attempts ≤ s.slots[i].attempts) :
    resolveSlot e i r s =
      retireFrame i (finalOutcome r) (standing e (e.frame.getD 0) s.slots[i].attempts (finalOutcome r) s) := by
  unfold resolveSlot standing
  rw [if_pos hf]
  cases r with
  | pass o => exact congrArg (retireFrame i o) (if_neg (hp o rfl)).symm
  | fail cause =>
    have spent : ¬s.slots[i].attempts < s.settings.attempts := Nat.not_lt.mpr (hr.resolve_left (by simp))
    dsimp only
    rw [if_neg spent]
    cases cause <;> rfl

theorem resolveForfeited_retires {e : PendingEntry} {copy : SlotRecord} {r : Effective} {s : State}
    (hp : ∀ o, r = .pass o → o ≠ .lost) :
    resolveForfeited e copy r s =
      retireCopy copy (finalOutcome r) (standing e (copy.frame.getD 0) copy.attempts (finalOutcome r) s) := by
  unfold resolveForfeited standing
  cases r with
  | pass o => exact congrArg (retireCopy copy o) (if_neg (hp o rfl)).symm
  | fail cause => cases cause <;> rfl

/-- The Spare Manager once an entry has left the list, its recording standing or not. -/
def spareStanding (e : PendingEntry) (d : TitleDeclaration) (n attempts : Nat) (o : FrameOutcome) (x : Spare) : Spare :=
  { x with
    inFlight := if e.kind = .relocated then x.inFlight - 1 else x.inFlight
    table :=
      if e.kind = .relocated ∧ o ≠ .lost then
        placeRelocation { original := d.start + (n - d.first), relocated := e.address, frame := n, attempt := attempts } x.table
      else x.table }

theorem standing_settled {e : PendingEntry} {d : TitleDeclaration} {n attempts : Nat} {o : FrameOutcome} {s : State}
    (hd : s.title.declaration = some d) :
    standing e n attempts o (settleInFlight e.kind s) = { s with spare := spareStanding e d n attempts o s.spare } := by
  have address : titleAddress s n = d.start + (n - d.first) := by
    unfold titleAddress
    rw [hd]
  unfold standing spareStanding addIfRelocated
  rw [settleInFlight_spec]
  by_cases ho : o = .lost
  · rw [if_pos ho]
    simp only [ho, ne_eq, not_true_eq_false, and_false, if_false]
  · rw [if_neg ho]
    by_cases hk : e.kind = .relocated
    · rw [if_pos hk]
      simp only [hk, ho, ne_eq, not_false_eq_true, and_self, if_true]
      rw [← address]
      rfl
    · simp only [hk, false_and, if_false]

/-- What a frame's retirement by entry `e` leaves of the Tracker, the Spare Manager and the Report Unit, `v` being the Tracker the entry
has left and `r` the record handed over. -/
def Retires (s : State) (d : TitleDeclaration) (e : PendingEntry) (n : Nat) (v : Verify) (r : SlotRecord) (o : FrameOutcome)
    (u : State) : Prop :=
  let settledFlight : Spare := { s.spare with inFlight := if e.kind = .relocated then s.spare.inFlight - 1 else s.spare.inFlight }
  u.verify = tallyRetirement o v ∧
  (e.kind = .relocated ∧ o ≠ .lost →
    ∃ table, u.spare = { settledFlight with table := table } ∧
      tableTakes { original := d.start + (n - d.first), relocated := e.address, frame := n, attempt := r.attempts } s.spare.table
        table) ∧
  (¬(e.kind = .relocated ∧ o ≠ .lost) → u.spare = settledFlight) ∧
  (reportWorthy r = false → u.reports = lossPosted o s.reports) ∧
  (reportWorthy r = true →
    ∃ p : Report, u.reports = reportAdded p (lossPosted o s.reports) ∧
      p.title = d.number ∧ p.frame = n ∧ p.outcome = o ∧ p.relocations = r.attempts ∧ p.cue = r.cue ∧
        p.address = r.address.getD 0 ∧ p.forfeited = r.forfeited)

theorem retires_of {s u w : State} {d : TitleDeclaration} {e : PendingEntry} {n : Nat} {v : Verify} {r : SlotRecord} {o : FrameOutcome}
    (hv : u.verify = tallyRetirement o v) (hs : u.spare = spareStanding e d n r.attempts o s.spare)
    (hr : u.reports = retirementTold w r o) (hw : w.reports = s.reports) (ht : w.title = s.title)
    (hd : s.title.declaration = some d) (hn : r.frame = some n) (ho : r.outcome = some o) : Retires s d e n v r o u := by
  have title : titleNumber w = d.number := by
    unfold titleNumber
    rw [ht, hd]
  unfold retirementTold at hr
  rw [hw] at hr
  refine ⟨hv, fun h => ⟨_, ?_, placeRelocation_spec _ s.spare.table⟩, fun h => ?_, fun h => ?_, fun h => ⟨reportOf w r, ?_, title, ?_, ?_,
    rfl, rfl, rfl, rfl⟩⟩
  · rw [hs]
    unfold spareStanding
    rw [if_pos h]
  · rw [hs]
    unfold spareStanding
    rw [if_neg h]
  · rw [hr, h]
    rfl
  · rw [hr, h]
    rfl
  · exact congrArg (Option.getD · 0) hn
  · exact congrArg (Option.getD · .unverified) ho

/-- The entry of a frame still in its slot is resolved through the window. -/
theorem resolveEntry_slot {e : PendingEntry} {i : Fin 32} (hk : e.kind = .original ∨ e.kind = .relocated) (hcopy : e.copy = none)
    (hslot : e.slot = some i) (x : Verdict) (t : State) :
    resolveEntry e x t = resolveSlot e i (effective t.settings.marginal x) (settleInFlight e.kind t) := by
  unfold resolveEntry resolveFrame
  rcases hk with h | h <;> rw [h, hcopy, hslot]

theorem resolveEntry_copy {e : PendingEntry} {copy : SlotRecord} (hk : e.kind = .original ∨ e.kind = .relocated)
    (hcopy : e.copy = some copy) (x : Verdict) (t : State) :
    resolveEntry e x t = resolveForfeited e copy (effective t.settings.marginal x) (settleInFlight e.kind t) := by
  unfold resolveEntry resolveFrame
  rcases hk with h | h <;> rw [h, hcopy]

/-- An entry's slot takes its settlement once the slot is SENT with the entry's frame and no longer streams (R19). -/
theorem slotFits_settled {e : PendingEntry} {i : Fin 32} {n : Nat} {s : State} (hframe : e.frame = some n)
    (hsent : s.slots[i].state = .sent) (hn : s.slots[i].frame = some n) (hstream : s.slots[i].streaming = false) :
    slotFits e i (settleInFlight e.kind s) = true := by
  rw [settleInFlight_spec]
  unfold slotFits
  dsimp only
  rw [hsent, hn, hstream, hframe]
  simp

/-- A frame still in its slot retired by its verdict. -/
theorem slot_retires {s : State} {d : TitleDeclaration} {e : PendingEntry} {n : Nat} {v : Verify} {i : Fin 32} {x : Verdict}
    (hk : e.kind = .original ∨ e.kind = .relocated) (hd : s.title.declaration = some d) (hcopy : e.copy = none)
    (hslot : e.slot = some i) (hframe : e.frame = some n) (hsent : s.slots[i].state = .sent) (hn : s.slots[i].frame = some n)
    (hstream : s.slots[i].streaming = false)
    (hr : (∃ o, effective s.settings.marginal x = .pass o) ∨ s.settings.attempts ≤ s.slots[i].attempts) :
    let o := finalOutcome (effective s.settings.marginal x)
    let u := resolveEntry e x { s with verify := v }
    u.slots = s.slots.set i (retiredRecord s i o) ∧ Retires s d e n v { s.slots[i] with outcome := some o } o u ∧
      { u with slots := s.slots, verify := s.verify, spare := s.spare, reports := s.reports } = s := by
  intro o u
  let t : State := { s with verify := v }
  have retired := resolveSlot_retires (r := effective s.settings.marginal x) (slotFits_settled (s := t) hframe hsent hn hstream)
    (fun _ => effective_ne_lost) (by rw [settleInFlight_spec]; exact hr)
  have attempts : (settleInFlight e.kind t).slots[i].attempts = s.slots[i].attempts := by rw [settleInFlight_spec]
  rw [attempts, hframe] at retired
  have stands := standing_settled (e := e) (n := n) (attempts := s.slots[i].attempts) (o := o) (s := t) hd
  have final : u = _ := (resolveEntry_slot hk hcopy hslot x t).trans
    (retired.trans ((congrArg (retireFrame i o) stands).trans (retireFrame_eq i o _)))
  rw [final]
  exact ⟨rfl, retires_of rfl rfl rfl rfl rfl hd hn rfl, rfl⟩

/-- A forfeited frame retired by its verdict, no slot changing. -/
theorem copy_retires {s : State} {d : TitleDeclaration} {e : PendingEntry} {n : Nat} {v : Verify} {copy : SlotRecord} {x : Verdict}
    (hk : e.kind = .original ∨ e.kind = .relocated) (hd : s.title.declaration = some d) (hcopy : e.copy = some copy)
    (hn : copy.frame = some n) :
    let o := finalOutcome (effective s.settings.marginal x)
    let u := resolveEntry e x { s with verify := v }
    Retires s d e n v { copy with outcome := some o } o u ∧ { u with verify := s.verify, spare := s.spare, reports := s.reports } = s := by
  intro o u
  let t : State := { s with verify := v }
  have retired := resolveForfeited_retires (e := e) (copy := copy) (r := effective s.settings.marginal x)
    (s := settleInFlight e.kind t) (fun _ => effective_ne_lost)
  rw [hn] at retired
  have stands := standing_settled (e := e) (n := n) (attempts := copy.attempts) (o := o) (s := t) hd
  have final : u = _ := (resolveEntry_copy hk hcopy x t).trans
    (retired.trans ((congrArg (retireCopy copy o) stands).trans (retireCopy_eq copy o _)))
  rw [final]
  exact ⟨retires_of rfl rfl rfl rfl rfl hd hn rfl, rfl⟩

/-- A failure with attempts left: the slot is RELOCATING and the frame joins the relocation queue, nothing retiring (R20). -/
theorem slot_relocates {s : State} {e : PendingEntry} {n : Nat} {v : Verify} {i : Fin 32} {x : Verdict} {cause : FailCause}
    (hk : e.kind = .original ∨ e.kind = .relocated) (hcopy : e.copy = none)
    (hslot : e.slot = some i) (hframe : e.frame = some n) (hsent : s.slots[i].state = .sent) (hn : s.slots[i].frame = some n)
    (hstream : s.slots[i].streaming = false) (hr : effective s.settings.marginal x = .fail cause)
    (ha : ¬s.settings.attempts ≤ s.slots[i].attempts) :
    resolveEntry e x { s with verify := v } =
      { s with
        slots := s.slots.set i { s.slots[i] with state := .relocating }
        spare := { s.spare with inFlight := if e.kind = .relocated then s.spare.inFlight - 1 else s.spare.inFlight }
        verify := { v with queue := v.queue ++ [{ slot := i, frame := n, cause := cause }], queued := bump v.queued } } := by
  let t : State := { s with verify := v }
  have fits := slotFits_settled (s := t) hframe hsent hn hstream
  have entry := resolveEntry_slot hk hcopy hslot x t
  have r : effective t.settings.marginal x = .fail cause := hr
  rw [r] at entry
  have queued : resolveSlot e i (.fail cause) (settleInFlight e.kind t) = queueRelocation i cause (settleInFlight e.kind t) := by
    unfold resolveSlot
    rw [if_pos fits]
    dsimp only
    rw [if_pos]
    rw [settleInFlight_spec]
    exact Nat.lt_of_not_le ha
  rw [settleInFlight_spec] at queued
  rw [settleInFlight_spec, queued] at entry
  refine entry.trans ?_
  unfold queueRelocation
  dsimp only
  rw [show t.slots[i].frame = some n from hn]
  rfl

/-- A gap fill retired by its verdict. -/
theorem resolveEntry_gapFill {e : PendingEntry} {n : Nat} (hk : e.kind = .gapFill) (hframe : e.frame = some n) (x : Verdict) (t : State) :
    resolveEntry e x t =
      { t with
        verify := tallyRetirement (finalOutcome (effective t.settings.marginal x)) t.verify
        reports :=
          reportAdded (gapFillReport t n e.address e.fill e.cue (finalOutcome (effective t.settings.marginal x)))
            (lossPosted (finalOutcome (effective t.settings.marginal x)) t.reports) } := by
  have filled (r : Effective) : resolveGapFill e r t = retireGapFill n e.address e.fill e.cue (finalOutcome r) t := by
    unfold resolveGapFill
    rw [hframe]
    cases r <;> rfl
  have entry : resolveEntry e x t = resolveGapFill e (effective t.settings.marginal x) t := by
    unfold resolveEntry
    rw [hk]
    rfl
  rw [entry, filled, retireGapFill_eq]

/-! ### The timeouts of a WRITE SLOT (R124, R146) -/

theorem timeOutAll_none {s : State} (h : overdueEntry s = none) (n : Nat) : timeOutAll n s = s := by
  have one : timeOutOldest s = s := by
    unfold timeOutOldest
    rw [h]
  induction n with
  | zero => rfl
  | succ n ih =>
    unfold timeOutAll
    rw [one, ih]

/-- A write in flight keeps a drain open, and what a close waits for is the plan and that write. -/
theorem titleSettled_of_flight {s t : State} (ht : t.title = s.title) (hp : t.spare.plan = s.spare.plan)
    (hf : t.feed.flight = s.feed.flight) (hs : s.feed.flight.isSome = true) (h : titleSettled s) : titleSettled t := by
  have closes : closeDone t = closeDone s := by
    unfold closeDone indexInFlight
    rw [hp, hf]
  refine ⟨fun _ => ?_, fun e => closes.trans (h.2 (by rw [← ht]; exact e))⟩
  unfold drainDone
  rw [hf, Option.isNone_eq_false_iff.mpr hs]
  simp

/-- A WRITE SLOT taken while WRITING is overlapping and answered IDLE SLOT (R124). -/
theorem answerSlot_writing {s : State} (h : s.feed.state = .writing) :
    answerSlot s = sendIdle (tallyFeed (fun t => { t with overlapping := bump t.overlapping }) s) := by
  unfold answerSlot
  rw [h]

/-- The one entry that ageing makes overdue times out, whatever the Feed is. -/
theorem ageAndTimeOut_one {s : State} {e : PendingEntry} {before after : List PendingEntry} (F : Feed)
    (hs : s.verify.entries = before ++ e :: after) (hu : ∀ y ∈ before ++ after, y.tag ≠ e.tag) (hk : e.kind ≠ .index)
    (hb : ∀ y ∈ before ++ after, y.age + 1 ≤ s.settings.verifyTimeout) (ha : s.settings.verifyTimeout < e.age + 1) :
    ∃ V W n T R,
      timeOutOldest { s with verify := agedEntries s.verify } =
        { s with slots := V, verify := W, spare := { s.spare with inFlight := n, table := T }, reports := R } ∧
      ageAndTimeOut { s with feed := F } =
        { s with feed := F, slots := V, verify := W, spare := { s.spare with inFlight := n, table := T }, reports := R } := by
  let older (x : PendingEntry) : PendingEntry := { x with age := x.age + 1 }
  have aged : (agedEntries s.verify).entries = before.map older ++ older e :: after.map older := by
    show s.verify.entries.map older = _
    rw [hs, List.map_append, List.map_cons]
  have tags : ∀ y ∈ before.map older ++ after.map older, y.tag ≠ (older e).tag := by
    rw [← List.map_append]
    intro y hy
    obtain ⟨x, hx, rfl⟩ := List.mem_map.mp hy
    exact hu x hx
  have ages : ∀ y ∈ before.map older ++ after.map older, y.age ≤ s.settings.verifyTimeout := by
    rw [← List.map_append]
    intro y hy
    obtain ⟨x, hx, rfl⟩ := List.mem_map.mp hy
    exact hb x hx
  let w : State :=
    { s with
      verify :=
        { agedEntries s.verify with entries := before.map older ++ after.map older, timeouts := bump s.verify.timeouts } }
  obtain ⟨V, W, n, T, R, hW, resolved⟩ := resolveEntry_resolving (e := older e) hk .timeout w
  have oldest (G : Feed) : timeOutOldest { s with verify := agedEntries s.verify, feed := G } =
      { s with feed := G, slots := V, verify := W, spare := { s.spare with inFlight := n, table := T }, reports := R } :=
    (timeOutOldest_resolves (s := { s with verify := agedEntries s.verify, feed := G }) aged tags
      (fun y hy => ages y (List.mem_append_left _ hy)) ha).trans (resolved G)
  refine ⟨V, W, n, T, R, oldest s.feed, ?_⟩
  have length : s.verify.entries.length = (before.length + after.length) + 1 := by
    rw [hs, List.length_append, List.length_cons]
    omega
  have none' : overdueEntry { s with
      feed := F, slots := V, verify := W, spare := { s.spare with inFlight := n, table := T }, reports := R } = none := by
    show W.entries.find? _ = none
    rw [hW]
    exact List.find?_eq_none.mpr fun y hy => by simpa using ages y hy
  show timeOutAll s.verify.entries.length { s with verify := agedEntries s.verify, feed := F } = _
  rw [length]
  unfold timeOutAll
  rw [oldest F]
  exact timeOutAll_none none' _

/-- The Feed once a WRITE SLOT taken while WRITING is answered (R124, R142). -/
def overlapped (F : Feed) : Feed :=
  { F with
    tallies :=
      { F.tallies with
        slotsTaken := bump F.tallies.slotsTaken, idleSlots := bump F.tallies.idleSlots
        overlapping := bump F.tallies.overlapping } }

/-- Settles O38: the entry of the OUTCOME or the timeout is resolved, and what it resolves to is read off its verdict. -/
theorem outcomeSettlesFrame : Obligations.OutcomeSettlesFrame := by
  intro s tag d e before after n hd hs he hu hk left told outcome timeout
  have byOutcome {c : Instr} {v : Verify} {result : Byte} (x : Verdict) (h : outcome c v result) (hx : verdictOf result = some x) :
      exec c s = .next (settle (resolveEntry e x { s with verify := v })) := by
    obtain ⟨rfl, rfl⟩ := h
    exact outcome_resolves hs he hu hx
  have byTimeout {c : Instr} {v : Verify} (h : timeout c v) :
      exec c s = .next (settle (resolveEntry e .timeout { s with verify := v })) := by
    obtain ⟨rfl, rfl, hb, ha⟩ := h
    exact congrArg (fun u => Host.Outcome.next (settle u)) (timeOutOldest_resolves hs (by rw [he]; exact hu) hb ha)
  refine ⟨fun hkind => ?_, fun hkind hframe result o ho => ?_, fun hb ha hw hf ht => ?_⟩
  · intro settledFlight retires
    refine ⟨fun i hcopy hslot hframe hsent hn hstream => ?_, fun copy hcopy hn c v o hc => ?_⟩
    · intro spent
      refine ⟨fun c v o hc => ?_, fun c v cause hc ha => ?_⟩
      · have verdict : ∃ x, exec c s = .next (settle (resolveEntry e x { s with verify := v })) ∧
            finalOutcome (effective s.settings.marginal x) = o ∧ ((∃ p, effective s.settings.marginal x = .pass p) ∨ spent) := by
          rcases hc with ⟨h, rfl⟩ | ⟨h, rfl, hm⟩ | ⟨h, rfl, hm⟩ | ⟨h, rfl, hm⟩
          · exact ⟨.good, byOutcome .good h rfl, rfl, .inl ⟨_, rfl⟩⟩
          · refine ⟨.marginal, byOutcome .marginal h rfl, ?_, ?_⟩
            · cases s.settings.marginal <;> rfl
            · exact hm.imp_left fun h => ⟨.marginal, by rw [h]; rfl⟩
          · exact ⟨.bad, byOutcome .bad h rfl, rfl, .inr hm⟩
          · exact ⟨.timeout, byTimeout h, rfl, .inr hm⟩
        obtain ⟨x, runs, rfl, hr⟩ := verdict
        exact ⟨_, runs, slot_retires hkind hd hcopy hslot hframe hsent hn hstream hr⟩
      · have verdict : ∃ x, exec c s = .next (settle (resolveEntry e x { s with verify := v })) ∧
            effective s.settings.marginal x = .fail cause ∧ v.queue = s.verify.queue ∧ v.queued = s.verify.queued := by
          rcases hc with ⟨h, rfl, hm⟩ | ⟨h, rfl⟩ | ⟨h, rfl⟩
          · exact ⟨.marginal, byOutcome .marginal h rfl, by rw [hm]; rfl, by rw [h.2], by rw [h.2]⟩
          · exact ⟨.bad, byOutcome .bad h rfl, rfl, by rw [h.2], by rw [h.2]⟩
          · exact ⟨.timeout, byTimeout h, rfl, by rw [h.2.1], by rw [h.2.1]⟩
        obtain ⟨x, runs, hr, hq, hqd⟩ := verdict
        rw [runs, slot_relocates hkind hcopy hslot hframe hsent hn hstream hr ha, hq, hqd]
    · have verdict : ∃ x, exec c s = .next (settle (resolveEntry e x { s with verify := v })) ∧
          finalOutcome (effective s.settings.marginal x) = o := by
        rcases hc with ⟨h, rfl⟩ | ⟨h, rfl⟩ | ⟨h, rfl⟩ | ⟨h, rfl⟩
        · exact ⟨.good, byOutcome .good h rfl, rfl⟩
        · exact ⟨.marginal, byOutcome .marginal h rfl, by cases s.settings.marginal <;> rfl⟩
        · exact ⟨.bad, byOutcome .bad h rfl, rfl⟩
        · exact ⟨.timeout, byTimeout h, rfl⟩
      obtain ⟨x, runs, rfl⟩ := verdict
      exact ⟨_, runs, copy_retires hkind hd hcopy hn⟩
  · have verdict : ∃ x, exec (.outcome tag result) s = .next (settle (resolveEntry e x { s with verify := left })) ∧
        finalOutcome (effective s.settings.marginal x) = o := by
      rcases ho with ⟨rfl, rfl⟩ | ⟨rfl, rfl⟩ | ⟨rfl, rfl⟩
      · exact ⟨.good, byOutcome .good ⟨rfl, rfl⟩ rfl, rfl⟩
      · exact ⟨.marginal, byOutcome .marginal ⟨rfl, rfl⟩ rfl, by cases s.settings.marginal <;> rfl⟩
      · exact ⟨.bad, byOutcome .bad ⟨rfl, rfl⟩ rfl, rfl⟩
    obtain ⟨x, runs, rfl⟩ := verdict
    have title : titleNumber s = d.number := by
      unfold titleNumber
      rw [hd]
    refine ⟨gapFillReport { s with verify := left } n e.address e.fill e.cue (finalOutcome (effective s.settings.marginal x)),
      ⟨title, rfl, rfl, rfl, rfl, rfl, rfl⟩, ?_⟩
    rw [runs, resolveEntry_gapFill hkind hframe]
    rfl
  · obtain ⟨V, W, m, T, R, oldest, aged⟩ := ageAndTimeOut_one
      { s.feed with tallies := { s.feed.tallies with slotsTaken := bump s.feed.tallies.slotsTaken } } hs (by rw [he]; exact hu) hk hb ha
    have settled (F : Feed) (x : Option RecorderMessage) (hF : F.flight = s.feed.flight) :
        titleSettled { s with
          feed := F, recorderOut := x, slots := V, verify := W, spare := { s.spare with inFlight := m, table := T }, reports := R } :=
      titleSettled_of_flight (s := s) rfl rfl hF hf ht
    refine ⟨_, congrArg (fun u => Host.Outcome.next (settle u)) oldest, ?_⟩
    have runs : exec .writeSlot s = _ := congrArg (fun u => Host.Outcome.next (settle (answerSlot u))) aged
    rw [runs, answerSlot_writing (by exact hw)]
    refine congrArg Host.Outcome.next ((settle_of_settled _ (settled (overlapped s.feed) (some .idleSlot) rfl)).trans ?_)
    rw [settle_of_settled _ (settled s.feed s.recorderOut rfl)]
    have told : conditionsNow { s with
          feed := overlapped s.feed, recorderOut := some .idleSlot, slots := V, verify := W, spare := { s.spare with inFlight := m, table := T }, reports := R } =
        conditionsNow { s with slots := V, verify := W, spare := { s.spare with inFlight := m, table := T }, reports := R } :=
      conditionsNow_congr (fun _ => rfl) rfl rfl rfl rfl rfl
    unfold tellConditions
    rw [← told]
    rfl

end Sys2Proof.Machine
end

