-- ==== Sys2Proof/Proofs/Close.lean ====
section
/-! The outcomes of INDEX writes and the close of a title (R30, R148, R161, R162, R172). -/

namespace Sys2Proof.Machine

/-! ### The index plan (R161) -/

theorem changePlan_eq {s : State} {plan : List PlanBlock} (hp : s.spare.plan = some plan) (mark : IndexMark)
    (change : PlanBlock → PlanBlock) :
    changePlan mark change s =
      { s with spare := { s.spare with plan := some (plan.map fun b => if b.mark = mark then change b else b) } } := by
  unfold changePlan
  rw [hp]
  rfl

theorem rewriteFits_eq {s : State} {r : Region} {plan : List PlanBlock} (hr : s.spare.region = some r) (hp : s.spare.plan = some plan) :
    rewriteFits s = decide ((r.up : Int) ≤ r.down - ((plan.filter (fun b => b.state == .toWrite)).length : Int)) := by
  unfold rewriteFits
  rw [hr, hp]
  rfl

/-- A failed first writing that fits is queued once more, as a rewrite. -/
theorem failIndex_rewrites {s : State} {mark : IndexMark} {plan : List PlanBlock} (hp : s.spare.plan = some plan)
    (hm : mark.rewrite = false) (hf : rewriteFits s = true) :
    failIndex mark s =
      { s with
        spare :=
          { s.spare with
            plan :=
              some
                (plan.filter (fun b => b.mark != mark) ++
                  [{ mark := { number := mark.number, rewrite := true }, state := .toWrite, tag := none, address := none }])
            indexRewrites := bump s.spare.indexRewrites } } := by
  unfold failIndex
  rw [if_pos (by rw [hm, hf]; rfl)]
  unfold queueRewrite
  rw [hp]
  rfl

/-- A failed rewrite, or a first writing that no longer fits, is ABANDONED. -/
theorem failIndex_abandons {s : State} {mark : IndexMark} {plan : List PlanBlock} (hp : s.spare.plan = some plan)
    (h : mark.rewrite = true ∨ rewriteFits s = false) :
    failIndex mark s =
      { s with
        spare :=
          { s.spare with
            plan := some (plan.map fun b => if b.mark = mark then { b with state := .abandoned } else b)
            indexFailed := bump s.spare.indexFailed }
        reports := { s.reports with alerts := { s.reports.alerts with indexFailed := true } } } := by
  unfold failIndex
  rw [if_neg (by rcases h with h | h <;> rw [h] <;> simp)]
  unfold abandonBlock
  rw [changePlan_eq hp]
  rfl

/-- An INDEX entry is resolved by its block. -/
theorem resolveEntry_index {e : PendingEntry} {m : IndexMark} (hk : e.kind = .index) (hm : e.index = some m) (x : Verdict) (t : State) :
    resolveEntry e x t =
      match effective t.settings.marginal x with
      | .pass _ => passIndex m t
      | .fail _ => failIndex m t := by
  unfold resolveEntry resolveIndex
  rw [hk, hm]
  rfl

theorem resolveEntry_indexPasses {e : PendingEntry} {m : IndexMark} {x : Verdict} {t : State} {o : FrameOutcome} (hk : e.kind = .index)
    (hm : e.index = some m) (hx : effective t.settings.marginal x = .pass o) : resolveEntry e x t = passIndex m t := by
  rw [resolveEntry_index hk hm, hx]

theorem resolveEntry_indexFails {e : PendingEntry} {m : IndexMark} {x : Verdict} {t : State} {c : FailCause} (hk : e.kind = .index)
    (hm : e.index = some m) (hx : effective t.settings.marginal x = .fail c) : resolveEntry e x t = failIndex m t := by
  rw [resolveEntry_index hk hm, hx]

/-! ### The close (R30, R162, R172) -/

theorem closeDone_of_plan {s : State} {plan : List PlanBlock} (hp : s.spare.plan = some plan)
    (hd : ∀ b ∈ plan, b.state = .done ∨ b.state = .abandoned) (hw : ∀ w, s.feed.flight = some w → w.kind ≠ .index) :
    closeDone s = true := by
  have written : plan.all (fun b => b.state == .done || b.state == .abandoned) = true :=
    List.all_eq_true.mpr fun b hb => by rcases hd b hb with h | h <;> rw [h] <;> rfl
  have idle : indexInFlight s = false := by
    unfold indexInFlight
    cases h : s.feed.flight with
    | none => rfl
    | some w => simpa using hw w h
  unfold closeDone
  rw [hp]
  dsimp only
  rw [written, idle]
  rfl

/-- What the close leaves, beside the title event it posts. -/
theorem closeTitle_spec (s : State) :
    closeTitle s =
      { s with
        slots := s.slots.map closedRecord
        anchor := none
        gaps := []
        title := { state := .idle, declaration := none }
        spare := { s.spare with region := none, plan := none }
        ingest := { s.ingest with next := none, last := none }
        feed := { s.feed with h := none }
        reports := (postTitleEvent (closedEvent s) s).reports
        link := (postTitleEvent (closedEvent s) s).link } := by
  unfold closeTitle
  rw [endTitle_spec]
  unfold postTitleEvent
  split <;> rfl

/-- Settles O42: an INDEX OUTCOME changes its block, and a close complete in CLOSING is taken by whatever settles. -/
theorem closeEndsTitle : Obligations.CloseEndsTitle := by
  intro s plan hp
  refine ⟨fun tag r e m before after hr hs he hu hk hm => ?_, fun ht hd hw => ?_⟩
  · intro left marked fits
    let t : State := { s with verify := left }
    have runs {result : Byte} {x : Verdict} (hx : verdictOf result = some x) :
        exec (.outcome tag result) s = .next (settle (resolveEntry e x t)) := outcome_resolves hs he hu hx
    have rewrites : rewriteFits t = decide fits := rewriteFits_eq hr hp
    refine ⟨fun result h => ?_, fun result h => ?_⟩
    · have passes : ∃ x o, verdictOf result = some x ∧ effective s.settings.marginal x = .pass o := by
        rcases h with rfl | ⟨rfl, hp⟩
        · exact ⟨.good, .good, rfl, rfl⟩
        · exact ⟨.marginal, .marginal, rfl, by rw [hp]; rfl⟩
      obtain ⟨x, o, hx, ho⟩ := passes
      rw [runs hx, resolveEntry_indexPasses hk hm (t := t) ho]
      exact congrArg (fun u => Host.Outcome.next (settle u)) (changePlan_eq (s := t) hp m _)
    · have fails : ∃ x c, verdictOf result = some x ∧ effective s.settings.marginal x = .fail c := by
        rcases h with rfl | ⟨rfl, hp⟩
        · exact ⟨.bad, .bad, rfl, rfl⟩
        · exact ⟨.marginal, .marginal, rfl, by rw [hp]; rfl⟩
      obtain ⟨x, c, hx, hc⟩ := fails
      rw [runs hx, resolveEntry_indexFails hk hm (t := t) hc]
      refine ⟨fun hfirst hfit => ?_, fun hn => ?_⟩
      · exact congrArg (fun u => Host.Outcome.next (settle u))
          (failIndex_rewrites (s := t) hp hfirst (rewrites.trans (decide_eq_true hfit)))
      · exact congrArg (fun u => Host.Outcome.next (settle u))
          (failIndex_abandons (s := t) hp (hn.imp id fun h => rewrites.trans (decide_eq_false h)))
  · have done := closeDone_of_plan hp hd hw
    have closes : checkClose s = closeTitle s := by
      unfold checkClose
      exact if_pos ⟨ht, done⟩
    have drains : checkDrain s = s := by
      unfold checkDrain
      exact if_neg fun h => by rw [ht] at h; cases h.1
    have runs : exec .closeComplete s = .next (tellConditions (closeTitle s)) :=
      congrArg (fun u => Host.Outcome.next (tellConditions u)) closes
    have settles : settle s = tellConditions (closeTitle s) := by
      unfold settle
      rw [drains, closes]
    have spec := closeTitle_spec s
    refine ⟨tellConditions (closeTitle s), closedEvent s, runs, settles, ?_⟩
    rw [spec]
    refine ⟨rfl, rfl, rfl, rfl, fun i => ?_, rfl, rfl, ⟨fun room => ?_, fun full => ?_⟩, fun d h => ?_,
      ⟨rfl, rfl, rfl, rfl, rfl, rfl, rfl, rfl, rfl, rfl⟩, rfl⟩
    · exact Vector.getElem_map closedRecord i.isLt
    · have posted : postTitleEvent (closedEvent s) s = _ := if_pos room
      rw [posted]
      exact ⟨rfl, rfl⟩
    · have posted : postTitleEvent (closedEvent s) s = _ := if_neg full
      rw [posted]
      exact ⟨rfl, rfl⟩
    · show titleNumber s = d.number
      unfold titleNumber
      rw [h]

end Sys2Proof.Machine
end

