-- ==== Sys2Proof/Proofs/RecorderReset.lean ====
section
/-! SECTION RESET RECORDER: the write in flight cancelled and every open recording settled (R28, R137, R140, R152, R161, R164). -/

namespace Sys2Proof.Machine

/-! ### What the reset can touch, whatever the recordings are (R28, R140, R152) -/

/-- From `c` to `t` slots of a set alone have changed, and of the Tracker and the Spare Manager nothing but tallies, counts and the plan,
the entries being `E` and the relocation queue `Q`. -/
structure TouchesOpen (c : State) (may : Fin 32 → Prop) (E : List PendingEntry) (Q : List QueueEntry) (t : State) : Prop where
  kept : ∀ i : Fin 32, ¬may i → t.slots[i] = c.slots[i]
  entries : t.verify.entries = E
  queue : t.verify.queue = Q
  table : t.spare.table = c.spare.table
  region : t.spare.region = c.spare.region
  rest : { t with slots := c.slots, verify := c.verify, spare := c.spare, reports := c.reports } = c

theorem tallyRetirement_queue (o : FrameOutcome) (v : Verify) : (tallyRetirement o v).queue = v.queue := by
  cases o <;> rfl

namespace TouchesOpen

variable {c t : State} {may : Fin 32 → Prop} {E : List PendingEntry} {Q : List QueueEntry}

theorem retireFrame (h : TouchesOpen c may E Q t) {i : Fin 32} (hi : may i) (o : FrameOutcome) :
    TouchesOpen c may E Q (retireFrame i o t) := by
  rw [retireFrame_eq]
  exact ⟨fun j hj => (setSlot_slots_other t i j _ fun e => hj (e ▸ hi)).trans (h.kept j hj),
    (tallyRetirement_entries o _).trans h.entries, (tallyRetirement_queue o _).trans h.queue, h.table, h.region, h.rest⟩

theorem retireCopy (h : TouchesOpen c may E Q t) (copy : SlotRecord) (o : FrameOutcome) :
    TouchesOpen c may E Q (retireCopy copy o t) := by
  rw [retireCopy_eq]
  exact ⟨h.kept, (tallyRetirement_entries o _).trans h.entries, (tallyRetirement_queue o _).trans h.queue, h.table, h.region, h.rest⟩

theorem retireGapFill (h : TouchesOpen c may E Q t) (frame address : Nat) (fill : Option FillSource) (cue : Option Byte)
    (o : FrameOutcome) : TouchesOpen c may E Q (retireGapFill frame address fill cue o t) := by
  rw [retireGapFill_eq]
  exact ⟨h.kept, (tallyRetirement_entries o _).trans h.entries, (tallyRetirement_queue o _).trans h.queue, h.table, h.region, h.rest⟩

theorem failIndex (h : TouchesOpen c may E Q t) (m : IndexMark) : TouchesOpen c may E Q (failIndex m t) := by
  unfold Machine.failIndex
  split
  · exact ⟨h.kept, h.entries, h.queue, h.table, h.region, h.rest⟩
  · exact ⟨h.kept, h.entries, h.queue, h.table, h.region, h.rest⟩

theorem settleInFlight (h : TouchesOpen c may E Q t) (k : WriteKind) : TouchesOpen c may E Q (settleInFlight k t) := by
  rw [settleInFlight_spec]
  exact ⟨h.kept, h.entries, h.queue, h.table, h.region, h.rest⟩

/-- The frame or block of the write cancelled settled. -/
theorem cancelled (h : TouchesOpen c may E Q t) {w : Flight} (hw : ∀ i, w.slot = some i → may i) :
    TouchesOpen c may E Q (settleCancelled w t) := by
  have framed : TouchesOpen c may E Q (match w.slot with | some i => Machine.retireFrame i .unverified t | none => t) := by
    cases hs : w.slot with
    | none => exact h
    | some i => exact h.retireFrame (hw i hs) .unverified
  unfold settleCancelled
  cases w.kind with
  | original => exact framed
  | relocated => exact framed
  | gapFill => exact h.retireGapFill _ _ _ _ _
  | index =>
    dsimp only
    cases w.index with
    | none => exact h
    | some m => exact h.failIndex m

/-- An entry settles a slot only that is SENT, which no settling so far has touched. -/
theorem resolveUnverified (h : TouchesOpen c may E Q t) (hm : ∀ i : Fin 32, c.slots[i].state = .sent → may i) (e : PendingEntry) :
    TouchesOpen c may E Q (resolveUnverified e t) := by
  have settled := h.settleInFlight e.kind
  have framed : TouchesOpen c may E Q
      (match e.copy with
        | some copy => Machine.retireCopy copy .unverified (Machine.settleInFlight e.kind t)
        | none =>
          match e.slot with
          | some i =>
            if slotFits e i (Machine.settleInFlight e.kind t) then
              Machine.retireFrame i .unverified (Machine.settleInFlight e.kind t)
            else Machine.settleInFlight e.kind t
          | none => Machine.settleInFlight e.kind t) := by
    generalize Machine.settleInFlight e.kind t = z at settled
    cases e.copy with
    | some copy => exact settled.retireCopy copy _
    | none =>
      cases e.slot with
      | none => exact settled
      | some i =>
        dsimp only
        split
        · next hf =>
          refine settled.retireFrame ?_ _
          by_contra hn
          unfold slotFits at hf
          simp only [Bool.and_eq_true, beq_iff_eq] at hf
          exact hn (hm i (by rw [← settled.kept i hn]; exact hf.1.1))
        · exact settled
  unfold Machine.resolveUnverified
  cases hk : e.kind with
  | original => rw [hk] at framed; exact framed
  | relocated => rw [hk] at framed; exact framed
  | gapFill => rw [hk] at settled; exact settled.retireGapFill _ _ _ _ _
  | index =>
    rw [hk] at settled
    dsimp only
    cases e.index with
    | none => exact settled
    | some m => exact settled.failIndex m

theorem resolveAll (h : TouchesOpen c may E Q t) (hm : ∀ i : Fin 32, c.slots[i].state = .sent → may i) :
    TouchesOpen c may [] Q (resolveAllUnverified t) := by
  have start : TouchesOpen c may [] Q { t with verify := { t.verify with entries := [] } } :=
    ⟨h.kept, rfl, h.queue, h.table, h.region, h.rest⟩
  unfold resolveAllUnverified
  generalize { t with verify := { t.verify with entries := [] } } = z at start
  induction t.verify.entries generalizing z with
  | nil => exact start
  | cons e rest ih => exact ih _ (start.resolveUnverified hm e)

theorem loseQueue (h : TouchesOpen c may E Q t) (hq : ∀ q ∈ Q, may q.slot) : TouchesOpen c may E [] (loseQueue t) := by
  have start : TouchesOpen c may E [] { t with verify := { t.verify with queue := [] } } :=
    ⟨h.kept, h.entries, rfl, h.table, h.region, h.rest⟩
  unfold Machine.loseQueue
  rw [h.queue]
  generalize { t with verify := { t.verify with queue := [] } } = z at start
  clear h
  induction Q generalizing z with
  | nil => exact start
  | cons q rest ih =>
    exact ih (fun x hx => hq x (List.mem_cons_of_mem _ hx)) _ (start.retireFrame (hq q (List.mem_cons_self ..)) .lost)

end TouchesOpen

/-! ### Failed index blocks (R161) -/

/-- A failed block changes the plan, its counts and INDEX FAILED, by the plan alone. -/
theorem failIndex_beside {t x : State} {n : Nat} (m : IndexMark) (h : t.spare = { x.spare with inFlight := n }) :
    ∃ b, failIndex m t =
        { t with
          spare := { (failIndex m x).spare with inFlight := n }
          reports := { t.reports with alerts := { t.reports.alerts with indexFailed := t.reports.alerts.indexFailed || b } } } ∧
      (failIndex m x).reports =
        { x.reports with alerts := { x.reports.alerts with indexFailed := x.reports.alerts.indexFailed || b } } := by
  have fits : rewriteFits t = rewriteFits x := by
    unfold rewriteFits
    rw [h]
  unfold failIndex
  rw [fits]
  by_cases hf : (!m.rewrite && rewriteFits x) = true
  · rw [if_pos hf, if_pos hf]
    refine ⟨false, ?_, ?_⟩
    · unfold queueRewrite
      rw [h, Bool.or_false]
    · rw [Bool.or_false]
      rfl
  · rw [if_neg hf, if_neg hf]
    refine ⟨true, ?_, ?_⟩
    · unfold abandonBlock changePlan
      dsimp only
      rw [h, Bool.or_true]
      rfl
    · rw [Bool.or_true]
      rfl

/-- Blocks failed one after the other. -/
def failAll (failed : List IndexMark) (s : State) : State := failed.foldl (fun t m => failIndex m t) s

theorem failAll_append (failed : List IndexMark) (m : IndexMark) (s : State) :
    failAll (failed ++ [m]) s = failIndex m (failAll failed s) := by
  unfold failAll
  rw [List.foldl_append]
  rfl

theorem failAll_reports (failed : List IndexMark) (s : State) :
    ∃ b, (failAll failed s).reports = { s.reports with alerts := { s.reports.alerts with indexFailed := b } } := by
  induction failed using List.reverseRecOn with
  | nil => exact ⟨s.reports.alerts.indexFailed, rfl⟩
  | append_singleton rest m ih =>
    obtain ⟨b, hb⟩ := ih
    obtain ⟨b', -, h'⟩ := failIndex_beside (t := failAll rest s) (x := failAll rest s) (n := (failAll rest s).spare.inFlight) m rfl
    refine ⟨b || b', ?_⟩
    rw [failAll_append, h', hb]

/-! ### The reports of the retirements (R190, R192) -/

/-- The alerts INDEX FAILED and FRAME LOST given. -/
def flagged (failed lost : Bool) (r : ReportUnit) : ReportUnit :=
  { r with alerts := { r.alerts with indexFailed := failed, frameLost := lost } }

/-- Reports built one after the other. -/
def reportsAdded (built : List Report) (r : ReportUnit) : ReportUnit := built.foldl (fun r p => reportAdded p r) r

theorem reportAdded_flagged (p : Report) (x y : Bool) (r : ReportUnit) :
    reportAdded p (flagged x y r) = flagged x y (reportAdded p r) := by
  have room : (flagged x y r).done.length = r.done.length := rfl
  unfold reportAdded
  rw [room]
  split <;> rfl

theorem reportsAdded_flagged (built : List Report) (x y : Bool) (r : ReportUnit) :
    reportsAdded built (flagged x y r) = flagged x y (reportsAdded built r) := by
  unfold reportsAdded
  induction built generalizing r with
  | nil => rfl
  | cons p rest ih =>
    rw [List.foldl_cons, reportAdded_flagged, ih]
    rfl

theorem reportsAdded_append (built : List Report) (p : Report) (r : ReportUnit) :
    reportsAdded (built ++ [p]) r = reportAdded p (reportsAdded built r) := by
  unfold reportsAdded
  rw [List.foldl_append]
  rfl

/-- Reports there is room for are all placed. -/
theorem reportsAdded_room {built : List Report} {r : ReportUnit} (h : r.done.length + built.length ≤ 32) :
    (reportsAdded built r).done = r.done ++ built ∧ (reportsAdded built r).added = bumpByte^[built.length] r.added ∧
      (reportsAdded built r).missed = r.missed := by
  induction built generalizing r with
  | nil => exact ⟨(List.append_nil _).symm, rfl, rfl⟩
  | cons p rest ih =>
    rw [List.length_cons] at h
    have placed : reportAdded p r = withReport p r := if_pos (by omega)
    have room : (withReport p r).done.length + rest.length ≤ 32 := by
      show (r.done ++ [p]).length + rest.length ≤ 32
      rw [List.length_append, List.length_singleton]
      omega
    obtain ⟨hd, ha, hm⟩ := ih room
    have e : reportsAdded (p :: rest) r = reportsAdded rest (withReport p r) := congrArg (reportsAdded rest) placed
    rw [e]
    refine ⟨hd.trans ?_, ha, hm⟩
    show (r.done ++ [p]) ++ rest = r.done ++ p :: rest
    rw [List.append_assoc]
    rfl

/-! ### The retirements tallied (R164) -/

def tallyAll (retired : List (Nat × FrameOutcome)) (v : Verify) : Verify := retired.foldl (fun v p => tallyRetirement p.2 v) v

theorem tallyAll_append (retired more : List (Nat × FrameOutcome)) (v : Verify) :
    tallyAll (retired ++ more) v = tallyAll more (tallyAll retired v) := List.foldl_append ..

theorem tallyAll_unverified (l : List Nat) (v : Verify) :
    tallyAll (l.map fun n => (n, .unverified)) v = { v with unverified := bump^[l.length] v.unverified } := by
  induction l generalizing v with
  | nil => rfl
  | cons n rest ih => exact ih { v with unverified := bump v.unverified }

theorem tallyAll_lost (l : List Nat) (v : Verify) :
    tallyAll (l.map fun n => (n, .lost)) v = { v with lost := bump^[l.length] v.lost } := by
  induction l generalizing v with
  | nil => rfl
  | cons n rest ih => exact ih { v with lost := bump v.lost }

theorem tallyRetirement_beside (o : FrameOutcome) (E : List PendingEntry) (Q : List QueueEntry) (v : Verify) :
    tallyRetirement o { v with entries := E, queue := Q } = { tallyRetirement o v with entries := E, queue := Q } := by
  cases o <;> rfl

/-! ### What the settled recordings come to (R28, R140, R152) -/

/-- The slots once the frames of some have retired UNVERIFIED and those of others LOST. -/
structure SlotsSettled (c : State) (held queued : List (Fin 32)) (V : Vector SlotRecord 32) : Prop where
  unverified : ∀ i ∈ held, V[i] = retiredRecord c i .unverified
  lost : ∀ i ∈ queued, V[i] = retiredRecord c i .lost
  same : ∀ i : Fin 32, i ∉ held → i ∉ queued → V[i] = c.slots[i]

theorem SlotsSettled.hold {c t : State} {held queued : List (Fin 32)} (h : SlotsSettled c held queued t.slots) {i : Fin 32}
    (hq : i ∉ queued) :
    SlotsSettled c (held ++ [i]) queued (t.slots.set i (retiredRecord c i .unverified)) := by
  have self := setSlot_slots_self t i (retiredRecord c i .unverified)
  have other (j : Fin 32) (hj : j ≠ i) := setSlot_slots_other t i j (retiredRecord c i .unverified) (Ne.symm hj)
  refine ⟨fun j hj => ?_, fun j hj => ?_, fun j hj hjq => ?_⟩
  · by_cases e : j = i
    · rw [e]
      exact self
    · exact (other j e).trans (h.unverified j ((List.mem_append.mp hj).resolve_right fun c => e (List.mem_singleton.mp c)))
  · exact (other j fun e => hq (e ▸ hj)).trans (h.lost j hj)
  · exact (other j fun e => hj (by simp [e])).trans (h.same j (fun c => hj (List.mem_append_left _ c)) hjq)

theorem SlotsSettled.lose {c t : State} {held queued : List (Fin 32)} (h : SlotsSettled c held queued t.slots) {i : Fin 32}
    (hi : i ∉ held) :
    SlotsSettled c held (queued ++ [i]) (t.slots.set i (retiredRecord c i .lost)) := by
  have self := setSlot_slots_self t i (retiredRecord c i .lost)
  have other (j : Fin 32) (hj : j ≠ i) := setSlot_slots_other t i j (retiredRecord c i .lost) (Ne.symm hj)
  refine ⟨fun j hj => ?_, fun j hj => ?_, fun j hj hjq => ?_⟩
  · exact (other j fun e => hi (e ▸ hj)).trans (h.unverified j hj)
  · by_cases e : j = i
    · rw [e]
      exact self
    · exact (other j e).trans (h.lost j ((List.mem_append.mp hj).resolve_right fun c => e (List.mem_singleton.mp c)))
  · exact (other j fun e => hjq (by simp [e])).trans (h.same j hj fun c => hjq (List.mem_append_left _ c))

/-- What the recordings settled so far come to, from `s` with its write cancelled, `c`: the slots they held, the retirements in their
order, and the index blocks taken as failed. -/
structure RecordingsSettled (s c : State) (E : List PendingEntry) (Q : List QueueEntry) (held queued : List (Fin 32))
    (retired : List (Nat × FrameOutcome)) (failed : List IndexMark) (t : State) : Prop where
  slots : SlotsSettled c held queued t.slots
  verify : t.verify = { tallyAll retired s.verify with entries := E, queue := Q }
  spare : ∃ n, t.spare = { (failAll failed s).spare with inFlight := n }
  reports : ∃ built : List Report, built.map (fun p => (p.frame, p.outcome)) = retired ∧
    t.reports =
      flagged (failAll failed s).reports.alerts.indexFailed
        (s.reports.alerts.frameLost || retired.any fun p => decide (p.2 = .lost)) (reportsAdded built s.reports)
  anchor : t.anchor = c.anchor

/-- What a recording cut off adds to the retirements: every frame of its own, a gap fill among them. -/
def retiredBy (kind : WriteKind) (frame : Option Nat) : List (Nat × FrameOutcome) :=
  if kind = .index then [] else [(frame.getD 0, .unverified)]

/-- What a recording cut off adds to the failed index blocks. -/
def failedBy (kind : WriteKind) (index : Option IndexMark) : List IndexMark := if kind = .index then index.toList else []

/-- A pending entry as every run makes it: of a gap fill, of an index block, of a forfeited frame, or of one still in its slot. -/
def EntryOpen (s : State) (e : PendingEntry) : Prop :=
  (e.kind = .gapFill ∧ e.slot = none) ∨ (e.kind = .index ∧ e.slot = none ∧ e.index.isSome = true) ∨
    ((e.kind = .original ∨ e.kind = .relocated) ∧
      ((e.slot = none ∧ ∃ copy, e.copy = some copy ∧ copy.frame = e.frame) ∨
        (e.copy = none ∧ ∃ i, e.slot = some i ∧ s.slots[i].state = .sent ∧ s.slots[i].frame = e.frame ∧
          s.slots[i].streaming = false)))

theorem reportWorthy_open {r : SlotRecord} (h : r.outcome = some .unverified ∨ r.outcome = some .lost) : reportWorthy r = true := by
  unfold reportWorthy
  rcases h with h | h <;> simp [h]

namespace RecordingsSettled

variable {s c t : State} {E : List PendingEntry} {Q : List QueueEntry} {held queued : List (Fin 32)}
  {retired : List (Nat × FrameOutcome)} {failed : List IndexMark}

/-- A frame retired with its report. -/
theorem retire (h : RecordingsSettled s c E Q held queued retired failed t) {held' queued' : List (Fin 32)} {o : FrameOutcome}
    {p : Report} {u : State} (hp : p.outcome = o) (hu : SlotsSettled c held' queued' u.slots)
    (hv : u.verify = tallyRetirement o t.verify) (hs : u.spare = t.spare) (hr : u.reports = reportAdded p (lossPosted o t.reports))
    (ha : u.anchor = t.anchor) : RecordingsSettled s c E Q held' queued' (retired ++ [(p.frame, o)]) failed u := by
  obtain ⟨built, hb, hreports⟩ := h.reports
  refine ⟨hu, ?_, by rw [hs]; exact h.spare, ⟨built ++ [p], ?_, ?_⟩, ha.trans h.anchor⟩
  · rw [hv, h.verify, tallyRetirement_beside, tallyAll_append]
    rfl
  · rw [List.map_append, hb, ← hp]
    rfl
  · rw [hr, hreports, reportsAdded_append, ← reportAdded_flagged, List.any_append]
    refine congrArg (reportAdded p) ?_
    unfold lossPosted flagged
    simp [Bool.or_assoc]

theorem failIndex (h : RecordingsSettled s c E Q held queued retired failed t) (m : IndexMark) :
    RecordingsSettled s c E Q held queued retired (failed ++ [m]) (failIndex m t) := by
  obtain ⟨n, hn⟩ := h.spare
  obtain ⟨built, hb, hreports⟩ := h.reports
  obtain ⟨b, e, hx⟩ := failIndex_beside m hn
  rw [e]
  refine ⟨h.slots, h.verify, ⟨n, by rw [failAll_append]⟩, ⟨built, hb, ?_⟩, h.anchor⟩
  rw [failAll_append, hx]
  dsimp only
  rw [hreports]
  rfl

theorem settleInFlight (h : RecordingsSettled s c E Q held queued retired failed t) (k : WriteKind) :
    RecordingsSettled s c E Q held queued retired failed (settleInFlight k t) := by
  obtain ⟨n, hn⟩ := h.spare
  rw [settleInFlight_spec]
  refine ⟨h.slots, h.verify, ⟨if k = .relocated then n - 1 else n, ?_⟩, h.reports, h.anchor⟩
  dsimp only
  rw [hn]

/-- The frame of a slot no settling has touched retired. -/
theorem retireFrame (h : RecordingsSettled s c E Q held queued retired failed t) {held' queued' : List (Fin 32)} {i : Fin 32}
    {o : FrameOutcome} {n : Nat} (ho : o = .unverified ∨ o = .lost) (hi : i ∉ held) (hq : i ∉ queued) (hn : c.slots[i].frame.getD 0 = n)
    (hu : SlotsSettled c held' queued' (t.slots.set i (retiredRecord c i o))) :
    RecordingsSettled s c E Q held' queued' (retired ++ [(n, o)]) failed (retireFrame i o t) := by
  have record : t.slots[i] = c.slots[i] := h.slots.same i hi hq
  have retires : retiredRecord t i o = retiredRecord c i o := by
    unfold retiredRecord
    rw [record, h.anchor]
  have worthy : reportWorthy { t.slots[i] with outcome := some o } = true := reportWorthy_open (ho.imp (congrArg some) (congrArg some))
  have e := retireFrame_eq i o t
  rw [retires] at e
  unfold retirementTold at e
  rw [if_pos worthy] at e
  rw [e, ← hn, ← record]
  exact h.retire (p := reportOf t { t.slots[i] with outcome := some o }) rfl hu rfl rfl rfl rfl

theorem retireCopy (h : RecordingsSettled s c E Q held queued retired failed t) {copy : SlotRecord} :
    RecordingsSettled s c E Q held queued (retired ++ [(copy.frame.getD 0, .unverified)]) failed (retireCopy copy .unverified t) := by
  have worthy : reportWorthy { copy with outcome := some .unverified } = true := reportWorthy_open (.inl rfl)
  have e := retireCopy_eq copy .unverified t
  unfold retirementTold at e
  rw [if_pos worthy] at e
  rw [e]
  exact h.retire (p := reportOf t { copy with outcome := some .unverified }) rfl h.slots rfl rfl rfl rfl

theorem retireGapFill (h : RecordingsSettled s c E Q held queued retired failed t) (frame address : Nat) (fill : Option FillSource)
    (cue : Option Byte) :
    RecordingsSettled s c E Q held queued (retired ++ [(frame, .unverified)]) failed
      (retireGapFill frame address fill cue .unverified t) := by
  rw [retireGapFill_eq]
  exact h.retire (p := gapFillReport t frame address fill cue .unverified) rfl h.slots rfl rfl rfl rfl

/-- The write cancelled settled as the recording it is. -/
theorem cancelled (h : RecordingsSettled s c E Q held [] retired failed t) {w : Flight} (hi : ∀ i ∈ w.slot, i ∉ held)
    (hw : (w.kind = .gapFill ∧ w.slot = none) ∨ (w.kind = .index ∧ w.slot = none ∧ w.index.isSome = true) ∨
      ((w.kind = .original ∨ w.kind = .relocated) ∧ ∃ i, w.slot = some i ∧ c.slots[i].frame = w.frame)) :
    RecordingsSettled s c E Q (held ++ w.slot.toList) [] (retired ++ retiredBy w.kind w.frame) (failed ++ failedBy w.kind w.index)
      (settleCancelled w t) := by
  unfold settleCancelled
  rcases hw with ⟨hk, hs⟩ | ⟨hk, hs, hm⟩ | ⟨hk, i, hs, hf⟩
  · rw [hk, hs]
    simpa [retiredBy, failedBy] using h.retireGapFill (w.frame.getD 0) w.address w.fill w.cue
  · obtain ⟨m, hm⟩ := Option.isSome_iff_exists.mp hm
    rw [hk, hs, hm]
    simpa [retiredBy, failedBy] using h.failIndex m
  · have retires := h.retireFrame (.inl rfl) (hi i hs) List.not_mem_nil (congrArg (Option.getD · 0) hf)
      (h.slots.hold List.not_mem_nil)
    rcases hk with hk | hk <;> rw [hk, hs] <;> simpa [retiredBy, failedBy] using retires

/-- A pending entry settled as the recording it is. -/
theorem entry (h : RecordingsSettled s c E Q held [] retired failed t) {e : PendingEntry} (hi : ∀ i ∈ e.slot, i ∉ held)
    (he : EntryOpen c e) :
    RecordingsSettled s c E Q (held ++ e.slot.toList) [] (retired ++ retiredBy e.kind e.frame) (failed ++ failedBy e.kind e.index)
      (resolveUnverified e t) := by
  have settled := h.settleInFlight e.kind
  unfold resolveUnverified
  generalize Machine.settleInFlight e.kind t = z at settled
  rcases he with ⟨hk, hs⟩ | ⟨hk, hs, hm⟩ | ⟨hk, ⟨hs, copy, hc, hf⟩ | ⟨hc, i, hs, hsent, hf, hstream⟩⟩
  · rw [hk, hs]
    simpa [retiredBy, failedBy] using settled.retireGapFill (e.frame.getD 0) e.address e.fill e.cue
  · obtain ⟨m, hm⟩ := Option.isSome_iff_exists.mp hm
    rw [hk, hs, hm]
    simpa [retiredBy, failedBy] using settled.failIndex m
  · have retires := settled.retireCopy (copy := copy)
    rw [hf] at retires
    rcases hk with hk | hk <;> rw [hk, hs, hc] <;> simpa [retiredBy, failedBy] using retires
  · have record : z.slots[i] = c.slots[i] := settled.slots.same i (hi i hs) List.not_mem_nil
    have fits : slotFits e i z = true := by
      unfold slotFits
      rw [record, hsent, hf, hstream]
      simp
    have retires := settled.retireFrame (.inl rfl) (hi i hs) List.not_mem_nil (congrArg (Option.getD · 0) hf)
      (settled.slots.hold List.not_mem_nil)
    rcases hk with hk | hk <;> rw [hk, hs, hc] <;> simp only [fits, if_true] <;> simpa [retiredBy, failedBy] using retires

/-- Every pending entry settled, oldest first. -/
theorem entries (h : RecordingsSettled s c E Q held [] retired failed t)
    (hn : (held ++ t.verify.entries.filterMap (fun e => e.slot)).Nodup) (he : ∀ e ∈ t.verify.entries, EntryOpen c e) :
    RecordingsSettled s c [] Q (held ++ t.verify.entries.filterMap (fun e => e.slot)) []
      (retired ++ t.verify.entries.flatMap (fun e => retiredBy e.kind e.frame))
      (failed ++ t.verify.entries.flatMap (fun e => failedBy e.kind e.index)) (resolveAllUnverified t) := by
  have start : RecordingsSettled s c [] Q held [] retired failed { t with verify := { t.verify with entries := [] } } := by
    refine ⟨h.slots, ?_, h.spare, h.reports, h.anchor⟩
    dsimp only
    rw [h.verify]
  unfold resolveAllUnverified
  generalize { t with verify := { t.verify with entries := [] } } = z at start
  revert hn he
  clear h
  induction t.verify.entries generalizing z held retired failed with
  | nil =>
    intro _ _
    simpa using start
  | cons e rest ih =>
    intro hn he
    have slots : held ++ (e :: rest).filterMap (fun e => e.slot) = (held ++ e.slot.toList) ++ rest.filterMap (fun e => e.slot) := by
      cases hs : e.slot <;> simp [hs]
    rw [slots] at hn ⊢
    have away : ∀ i ∈ e.slot, i ∉ held := fun i hi hm =>
      (List.nodup_append.mp (List.nodup_append.mp hn).1).2.2 i hm i (Option.mem_toList.mpr hi) rfl
    have next := ih (z := Machine.resolveUnverified e z) (start.entry away (he e (List.mem_cons_self ..))) hn
      fun x hx => he x (List.mem_cons_of_mem _ hx)
    rw [List.flatMap_cons, List.flatMap_cons, ← List.append_assoc, ← List.append_assoc]
    exact next

/-- Every frame of the relocation queue lost, in queue order. -/
theorem queue (h : RecordingsSettled s c E Q held [] retired failed t) (hn : (held ++ Q.map (fun q => q.slot)).Nodup)
    (hq : ∀ q ∈ Q, c.slots[q.slot].frame = some q.frame) :
    RecordingsSettled s c E [] held (Q.map fun q => q.slot) (retired ++ Q.map fun q => (q.frame, .lost)) failed (loseQueue t) := by
  have start : RecordingsSettled s c E [] held [] retired failed { t with verify := { t.verify with queue := [] } } := by
    refine ⟨h.slots, ?_, h.spare, h.reports, h.anchor⟩
    dsimp only
    rw [h.verify]
  have Q' : t.verify.queue = Q := by rw [h.verify]
  unfold loseQueue
  rw [Q']
  generalize { t with verify := { t.verify with queue := [] } } = z at start
  have all (l : List QueueEntry) (queued : List (Fin 32)) (retired : List (Nat × FrameOutcome)) (z : State)
      (start : RecordingsSettled s c E [] held queued retired failed z) (hn : (held ++ (queued ++ l.map fun q => q.slot)).Nodup)
      (hq : ∀ q ∈ l, c.slots[q.slot].frame = some q.frame) :
      RecordingsSettled s c E [] held (queued ++ l.map fun q => q.slot) (retired ++ l.map fun q => (q.frame, .lost)) failed
        (l.foldl (fun t q => Machine.retireFrame q.slot .lost t) z) := by
    induction l generalizing queued retired z with
    | nil => simpa using start
    | cons q rest ih =>
      have frame : c.slots[q.slot].frame.getD 0 = q.frame := congrArg (Option.getD · 0) (hq q (List.mem_cons_self ..))
      obtain ⟨-, hnq, disjoint⟩ := List.nodup_append.mp hn
      have away : q.slot ∉ held := fun hm => disjoint q.slot hm q.slot (by simp) rfl
      have fresh : q.slot ∉ queued := fun hm => (List.nodup_append.mp hnq).2.2 q.slot hm q.slot (by simp) rfl
      have lost := start.retireFrame (.inr rfl) away fresh frame (start.slots.lose away)
      have next := ih (queued ++ [q.slot]) (retired ++ [(q.frame, .lost)]) _ lost (by simpa using hn)
        fun x hx => hq x (List.mem_cons_of_mem _ hx)
      simpa using next
  exact all Q [] retired z start hn hq

end RecordingsSettled

theorem flatMap_retiredBy {α : Type} (kind : α → WriteKind) (frame : α → Option Nat) (l : List α) :
    l.flatMap (fun x => retiredBy (kind x) (frame x)) =
      (((l.filter fun x => kind x != .index).map frame).map fun n => (n.getD 0, .unverified)) := by
  induction l with
  | nil => rfl
  | cons x rest ih =>
    rw [List.flatMap_cons, ih]
    by_cases h : kind x = .index <;> simp [retiredBy, h]

theorem flatMap_failedBy {α : Type} (kind : α → WriteKind) (index : α → Option IndexMark) (l : List α) :
    l.flatMap (fun x => failedBy (kind x) (index x)) = (l.filter fun x => kind x == .index).filterMap index := by
  induction l with
  | nil => rfl
  | cons x rest ih =>
    rw [List.flatMap_cons, ih]
    by_cases h : kind x = .index
    · cases hx : index x <;> simp [failedBy, h, hx]
    · simp [failedBy, h]

/-! ### The write cancelled (R137, R140) -/

/-- Every slot once the write in flight is cancelled: the one it was drawn from streams no longer. -/
theorem cancelWrite_slots (s : State) (i : Fin 32) :
    (cancelWrite s).slots[i] =
      if i ∈ s.feed.flight.toList.filterMap (fun w => w.slot) then { s.slots[i] with streaming := false } else s.slots[i] := by
  rw [cancelWrite_spec]
  show (cancelledSlots s)[i] = _
  unfold cancelledSlots
  cases hf : s.feed.flight with
  | none => rfl
  | some w =>
    cases hs : w.slot with
    | none => simp [hs]
    | some j =>
      simp only [Option.bind_some, hs]
      refine (setSlot_slots s j i _).trans ?_
      by_cases h : j = i
      · subst h
        simp [hs]
      · rw [if_neg h, if_neg (by simpa [hs] using Ne.symm h)]

theorem cancelAndSettle_eq (s : State) :
    cancelAndSettle s = s.feed.flight.toList.foldl (fun t w => settleCancelled w t) (cancelWrite s) := by
  unfold cancelAndSettle
  cases h : s.feed.flight with
  | none =>
    have e : cancelWrite s = s := by
      unfold cancelWrite
      rw [h]
    exact e.symm
  | some w => rfl

/-- Before anything is settled. -/
theorem touchesOpen_start (s : State) (may : Fin 32 → Prop) :
    TouchesOpen (cancelWrite s) may s.verify.entries s.verify.queue (cancelWrite s) := by
  rw [cancelWrite_spec]
  exact ⟨fun _ _ => rfl, rfl, rfl, rfl, rfl, rfl⟩

theorem recordingsSettled_start (s : State) :
    RecordingsSettled s (cancelWrite s) s.verify.entries s.verify.queue [] [] [] [] (cancelWrite s) := by
  refine ⟨⟨fun i h => (by cases h), fun i h => (by cases h), fun _ _ _ => rfl⟩, ?_, ⟨s.spare.inFlight, ?_⟩, ⟨[], rfl, ?_⟩, rfl⟩
  · rw [cancelWrite_spec]
    rfl
  · rw [cancelWrite_spec]
    rfl
  · rw [cancelWrite_spec]
    unfold flagged
    simp only [List.any_nil, Bool.or_false]
    rfl

/-- What the reset touches, whatever the recordings are. -/
theorem resetRecorder_touches {s : State} {may : Fin 32 → Prop} (hw : ∀ w i, s.feed.flight = some w → w.slot = some i → may i)
    (hm : ∀ i : Fin 32, (cancelWrite s).slots[i].state = .sent → may i) (hq : ∀ q ∈ s.verify.queue, may q.slot) :
    TouchesOpen (cancelWrite s) may [] [] (loseQueue (resolveAllUnverified (cancelAndSettle s))) := by
  have cut : TouchesOpen (cancelWrite s) may s.verify.entries s.verify.queue (cancelAndSettle s) := by
    rw [cancelAndSettle_eq]
    cases h : s.feed.flight with
    | none => exact touchesOpen_start s may
    | some w => exact (touchesOpen_start s may).cancelled fun i hi => hw w i h hi
  exact (cut.resolveAll hm).loseQueue hq

/-- A frame cut off while it was written, as every run makes it. -/
def FlightOpen (s : State) (w : Flight) : Prop :=
  (w.kind = .gapFill ∧ w.slot = none) ∨ (w.kind = .index ∧ w.slot = none ∧ w.index.isSome = true) ∨
    ((w.kind = .original ∨ w.kind = .relocated) ∧ ∃ i, w.slot = some i ∧ s.slots[i].frame = w.frame)

/-- What the recordings come to, all settled. -/
theorem resetRecorder_settles {s : State}
    (hn : ((s.feed.flight.toList.filterMap (fun w => w.slot) ++ s.verify.entries.filterMap (fun e => e.slot)) ++
      s.verify.queue.map fun q => q.slot).Nodup)
    (hw : ∀ w ∈ s.feed.flight.toList, FlightOpen (cancelWrite s) w) (he : ∀ e ∈ s.verify.entries, EntryOpen (cancelWrite s) e)
    (hq : ∀ q ∈ s.verify.queue, (cancelWrite s).slots[q.slot].frame = some q.frame) :
    RecordingsSettled s (cancelWrite s) [] []
      (s.feed.flight.toList.filterMap (fun w => w.slot) ++ s.verify.entries.filterMap (fun e => e.slot))
      (s.verify.queue.map fun q => q.slot)
      (s.feed.flight.toList.flatMap (fun w => retiredBy w.kind w.frame) ++
        s.verify.entries.flatMap (fun e => retiredBy e.kind e.frame) ++ s.verify.queue.map fun q => (q.frame, .lost))
      (s.feed.flight.toList.flatMap (fun w => failedBy w.kind w.index) ++
        s.verify.entries.flatMap (fun e => failedBy e.kind e.index))
      (loseQueue (resolveAllUnverified (cancelAndSettle s))) := by
  have cut : RecordingsSettled s (cancelWrite s) s.verify.entries s.verify.queue
      (s.feed.flight.toList.filterMap (fun w => w.slot)) [] (s.feed.flight.toList.flatMap (fun w => retiredBy w.kind w.frame))
      (s.feed.flight.toList.flatMap (fun w => failedBy w.kind w.index)) (cancelAndSettle s) := by
    rw [cancelAndSettle_eq]
    cases h : s.feed.flight with
    | none => exact recordingsSettled_start s
    | some w =>
      have settled := (recordingsSettled_start s).cancelled (w := w) (fun _ _ => List.not_mem_nil) (hw w (by rw [h]; exact .head _))
      cases hs : w.slot <;> simpa [hs] using settled
  have entries : (cancelAndSettle s).verify.entries = s.verify.entries := by rw [cut.verify]
  have pending := cut.entries (by rw [entries]; exact (List.nodup_append.mp hn).1) (by rw [entries]; exact he)
  rw [entries] at pending
  exact pending.queue hn hq

theorem settle_recorder (u : State) : (settle u).reports.truths.recorderPaused = (u.feed.state == .paused) := by
  have drain : (checkDrain u).feed.state = u.feed.state := by
    unfold checkDrain
    split <;> rfl
  have close (t : State) : (checkClose t).feed.state = t.feed.state := by
    unfold checkClose
    split
    · rw [closeTitle_spec]
    · rfl
  show ((checkClose (checkDrain u)).feed.state == .paused) = _
  rw [close, drain]

/-- Every slot is as it was once the write is cancelled, but that it may stream no longer. -/
theorem cancelWrite_record (s : State) (i : Fin 32) :
    { (cancelWrite s).slots[i] with streaming := false } = { s.slots[i] with streaming := false } := by
  rw [cancelWrite_slots]
  split <;> rfl

theorem cancelWrite_state (s : State) (i : Fin 32) : (cancelWrite s).slots[i].state = s.slots[i].state := by
  have e := congrArg SlotRecord.state (cancelWrite_record s i)
  exact e

theorem cancelWrite_frame (s : State) (i : Fin 32) : (cancelWrite s).slots[i].frame = s.slots[i].frame := by
  have e := congrArg SlotRecord.frame (cancelWrite_record s i)
  exact e

/-- A slot the cancelled write was not drawn from is as it was. -/
theorem cancelWrite_other {s : State} {i : Fin 32} (h : i ∉ s.feed.flight.toList.filterMap (fun w => w.slot)) :
    (cancelWrite s).slots[i] = s.slots[i] := by
  rw [cancelWrite_slots, if_neg h]

theorem EntryOpen.cancelled {s : State} {e : PendingEntry} (h : EntryOpen s e) : EntryOpen (cancelWrite s) e := by
  refine h.imp_right (.imp_right (.imp_right (.imp_right fun ⟨hc, i, hs, hsent, hf, hstream⟩ => ⟨hc, i, hs, ?_, ?_, ?_⟩)))
  · rw [cancelWrite_state, hsent]
  · rw [cancelWrite_frame, hf]
  · rw [cancelWrite_slots]
    split
    · rfl
    · exact hstream

theorem FlightOpen.cancelled {s : State} {w : Flight} (h : FlightOpen s w) : FlightOpen (cancelWrite s) w :=
  h.imp_right (.imp_right (.imp_right fun ⟨i, hs, hf⟩ => ⟨i, hs, by rw [cancelWrite_frame, hf]⟩))

/-- The slots of the recordings cut off or pending stream no longer once the write is cancelled. -/
theorem held_still {s : State} (he : ∀ e ∈ s.verify.entries, EntryOpen (cancelWrite s) e) {i : Fin 32}
    (hi : i ∈ s.feed.flight.toList.filterMap (fun w => w.slot) ++ s.verify.entries.filterMap (fun e => e.slot)) :
    (cancelWrite s).slots[i].streaming = false := by
  rcases List.mem_append.mp hi with hi | hi
  · rw [cancelWrite_slots, if_pos hi]
  · obtain ⟨e, hm, hs⟩ := List.mem_filterMap.mp hi
    rcases he e hm with ⟨-, hn⟩ | ⟨-, hn, -⟩ | ⟨-, ⟨hn, -⟩ | ⟨-, j, hj, -, -, hstream⟩⟩
    · rw [hn] at hs; cases hs
    · rw [hn] at hs; cases hs
    · rw [hn] at hs; cases hs
    · rw [hj] at hs
      cases hs
      exact hstream

/-- A retirement reads the record but for its streaming, the references and the anchor. -/
theorem retiredRecord_cancelled (s : State) (i : Fin 32) (o : FrameOutcome) :
    { retiredRecord (cancelWrite s) i o with streaming := false } = { retiredRecord s i o with streaming := false } ∧
      ((cancelWrite s).slots[i].streaming = false → (retiredRecord (cancelWrite s) i o).streaming = false) := by
  have record := cancelWrite_record s i
  have refs : (cancelWrite s).slots[i].refs = s.slots[i].refs := by
    have e := congrArg SlotRecord.refs record
    exact e
  have anchor : (cancelWrite s).anchor = s.anchor := by rw [cancelWrite_spec]
  unfold retiredRecord
  rw [refs, anchor]
  split
  · exact ⟨congrArg (fun r : SlotRecord => { r with outcome := some o, state := .retained }) record, id⟩
  · exact ⟨rfl, fun _ => rfl⟩

theorem retiredRecord_same {s : State} {i : Fin 32} (o : FrameOutcome) (h : (cancelWrite s).slots[i] = s.slots[i]) :
    retiredRecord (cancelWrite s) i o = retiredRecord s i o := by
  have anchor : (cancelWrite s).anchor = s.anchor := by rw [cancelWrite_spec]
  unfold retiredRecord
  rw [h, anchor]

/-- A state in terms of that before, where a reset of the Recorder touches it. -/
theorem resetRecorder_rest {s t : State} {may : Fin 32 → Prop} {E : List PendingEntry} {Q : List QueueEntry}
    (h : TouchesOpen (cancelWrite s) may E Q t) :
    ∃ V W S R, t =
      { s with slots := V, verify := W, spare := S, reports := R, feed := cancelledFeed s.feed, recorderOut := cancelledOut s } := by
  have rest := h.rest
  rw [cancelWrite_spec] at rest
  refine ⟨t.slots, t.verify, t.spare, t.reports, ?_⟩
  exact congrArg (fun u : State => { u with slots := t.slots, verify := t.verify, spare := t.spare, reports := t.reports }) rest

/-- Frames retired UNVERIFIED, then those of a relocation queue LOST. -/
def retirements (frames : List (Option Nat)) (Q : List QueueEntry) : List (Nat × FrameOutcome) :=
  frames.map (fun n => (n.getD 0, .unverified)) ++ Q.map fun q => (q.frame, .lost)

theorem retirements_tallied (frames : List (Option Nat)) (Q : List QueueEntry) (v : Verify) :
    tallyAll (retirements frames Q) v =
      { v with unverified := bump^[frames.length] v.unverified, lost := bump^[Q.length] v.lost } := by
  have unverified := tallyAll_unverified (frames.map fun n => n.getD 0) v
  have lost := tallyAll_lost (Q.map fun q => q.frame) { v with unverified := bump^[frames.length] v.unverified }
  rw [List.map_map, List.length_map] at unverified lost
  unfold retirements
  rw [tallyAll_append]
  exact (congrArg (tallyAll _) unverified).trans lost

theorem retirements_lost (frames : List (Option Nat)) (Q : List QueueEntry) :
    (retirements frames Q).any (fun p => decide (p.2 = .lost)) = !Q.isEmpty := by
  unfold retirements
  cases Q <;> simp

/-- The Tracker, the Spare Manager and the Report Unit once frames have retired UNVERIFIED and those of a relocation queue LOST. -/
theorem RecordingsSettled.told {s c t : State} {held queued : List (Fin 32)} {frames : List (Option Nat)} {Q : List QueueEntry}
    {failed : List IndexMark} (h : RecordingsSettled s c [] [] held queued (retirements frames Q) failed t) :
    t.verify =
      { s.verify with
        entries := [], queue := []
        unverified := bump^[frames.length] s.verify.unverified
        lost := bump^[Q.length] s.verify.lost } ∧
    { t.spare with inFlight := 0 } = { (failAll failed s).spare with inFlight := 0 } ∧
    ∃ built : List Report,
      built.map (fun p => (p.frame, p.outcome)) = retirements frames Q ∧
      t.reports =
        reportsAdded built
          { s.reports with
            alerts := { (failAll failed s).reports.alerts with frameLost := s.reports.alerts.frameLost || !Q.isEmpty } } ∧
      (s.reports.done.length + (retirements frames Q).length ≤ 32 →
        t.reports.done = s.reports.done ++ built ∧
          t.reports.added = bumpByte^[(retirements frames Q).length] s.reports.added ∧ t.reports.missed = s.reports.missed) := by
  obtain ⟨n, hn⟩ := h.spare
  obtain ⟨built, hb, hr⟩ := h.reports
  obtain ⟨b, hf⟩ := failAll_reports failed s
  refine ⟨?_, by rw [hn], built, hb, ?_, fun room => ?_⟩
  · rw [h.verify, retirements_tallied]
  · rw [hr, retirements_lost, ← reportsAdded_flagged, hf]
    rfl
  · have length := congrArg List.length hb
    rw [List.length_map] at length
    rw [← length] at room ⊢
    rw [hr]
    exact reportsAdded_room room

/-- The slots once every recording is settled, in terms of those before the write was cancelled. -/
theorem SlotsSettled.told {s : State} {held queued : List (Fin 32)} {V : Vector SlotRecord 32}
    (h : SlotsSettled (cancelWrite s) held queued V) (still : ∀ i ∈ held, (cancelWrite s).slots[i].streaming = false)
    (same : ∀ i : Fin 32, i ∉ held → (cancelWrite s).slots[i] = s.slots[i]) (hn : (held ++ queued).Nodup) :
    (∀ i ∈ held, { V[i] with streaming := false } = { retiredRecord s i .unverified with streaming := false } ∧ V[i].streaming = false) ∧
      (∀ i ∈ queued, V[i] = retiredRecord s i .lost) ∧ ∀ i : Fin 32, i ∉ held ++ queued → V[i] = s.slots[i] := by
  have away {i : Fin 32} (hi : i ∈ queued) : i ∉ held := fun hm => (List.nodup_append.mp hn).2.2 i hm i hi rfl
  refine ⟨fun i hi => ?_, fun i hi => ?_, fun i hi => ?_⟩
  · rw [h.unverified i hi]
    obtain ⟨e, hs⟩ := retiredRecord_cancelled s i .unverified
    exact ⟨e, hs (still i hi)⟩
  · rw [h.lost i hi]
    exact retiredRecord_same .lost (same i (away hi))
  · obtain ⟨hh, hq⟩ := not_or.mp fun c => hi (List.mem_append.mpr c)
    exact (h.same i hh hq).trans (same i hh)

/-- Settles O58: the steps of the reset, each recording settled as it stands. -/
theorem sectionResetRecorderSettles : Obligations.SectionResetRecorderSettles := by
  intro s tag hrest hsent hrelocating
  let may (i : Fin 32) : Prop := s.slots[i].state = .sent ∨ s.slots[i].state = .relocating
  have touches := resetRecorder_touches (s := s) (may := may) (fun w i hw hi => .inl (hsent w i hw hi))
    (fun i hi => .inl ((cancelWrite_state s i).symm.trans hi)) fun q hq => .inr (hrelocating q hq)
  obtain ⟨V, W, S, R, ht⟩ := resetRecorder_rest touches
  have settles := resetRecorder_settles (s := s)
  have paused := settle_recorder (resetRecorder s)
  have reset : resetRecorder s =
      { loseQueue (resolveAllUnverified (cancelAndSettle s)) with
        spare := { (loseQueue (resolveAllUnverified (cancelAndSettle s))).spare with inFlight := 0 }
        feed := { (loseQueue (resolveAllUnverified (cancelAndSettle s))).feed with state := .waiting, pausePending := false } } := rfl
  refine ⟨resetRecorder s, congrArg Host.Outcome.next (sectionReset_answers (x := .recorder) hrest rfl), ?_⟩
  generalize resetRecorder s = u at *
  generalize loseQueue (resolveAllUnverified (cancelAndSettle s)) = t at *
  have slots : u.slots = t.slots := by rw [reset]
  have verify : u.verify = t.verify := by rw [reset]
  have spare : u.spare = { t.spare with inFlight := 0 } := by rw [reset]
  have reports : u.reports = t.reports := by rw [reset]
  have feed : u.feed = { cancelledFeed s.feed with state := .waiting, pausePending := false } := by rw [reset, ht]
  have line : u.recorderOut = cancelledOut s := by rw [reset, ht]
  have cSpare : (cancelWrite s).spare = s.spare := by rw [cancelWrite_spec]
  refine ⟨by rw [verify]; exact touches.entries, by rw [verify]; exact touches.queue, by rw [spare], feed, fun w hw => ?_, fun hn => ?_,
    fun i hi => ?_, ?_, ?_, ?_, ?_, ?_⟩
  · rw [line]
    unfold cancelledOut
    rw [hw]
  · rw [line]
    unfold cancelledOut
    rw [hn]
  · have unsent : s.slots[i].state ≠ .sent := by rcases hi with h | h | h | h <;> rw [h] <;> decide
    have unqueued : s.slots[i].state ≠ .relocating := by rcases hi with h | h | h | h <;> rw [h] <;> decide
    rw [slots]
    refine (touches.kept i fun h => h.elim unsent unqueued).trans (cancelWrite_other fun hm => ?_)
    obtain ⟨w, hw, hs⟩ := List.mem_filterMap.mp hm
    exact unsent (hsent w i (Option.mem_toList.mp hw) hs)
  · rw [paused, feed]
    rfl
  · rw [spare]
    exact touches.table.trans (congrArg Spare.table cSpare)
  · rw [spare]
    exact touches.region.trans (congrArg Spare.region cSpare)
  · rw [reset, ht]
  · intro cut held queued hnodup hw he hq
    have still := fun (i : Fin 32) => held_still (s := s) (i := i) fun e h => EntryOpen.cancelled (he e h)
    have settled := settles hnodup (fun w h => FlightOpen.cancelled (hw w h)) (fun e h => EntryOpen.cancelled (he e h))
      fun q h => (cancelWrite_frame s q.slot).trans (hq q h)
    rw [flatMap_retiredBy, flatMap_retiredBy, flatMap_failedBy, flatMap_failedBy, ← List.map_append] at settled
    obtain ⟨hverify, hspare, built, hb, hreports, hroom⟩ := RecordingsSettled.told (frames := _ ++ _) settled
    obtain ⟨hheld, hqueued, hrest⟩ := settled.slots.told still
      (fun i hi => cancelWrite_other fun hm => hi (List.mem_append_left _ hm)) hnodup
    rw [slots, verify, spare, reports]
    exact ⟨hheld, hqueued, hrest, hverify, hspare, built, hb, hreports, hroom⟩

end Sys2Proof.Machine
end

