-- ==== Sys2Proof/Proofs/Decision.lean ====
section
/-! The decision: the queues and the stack as they are ordered, and the job it grants or resumes (R80, R86, R88). -/

namespace Sys2Proof.Machine

/-! ### Lists by a key -/

theorem mem_placeBy {key : Job → Nat} {j k : Job} {l : List Job} : k ∈ placeBy key j l ↔ k = j ∨ k ∈ l := by
  induction l with
  | nil => simp [placeBy]
  | cons x rest ih =>
    unfold placeBy
    split
    · simp
    · simp only [List.mem_cons, ih]
      tauto

/-- Placing keeps a list in order of its key, greatest first. -/
theorem placeBy_sorted {key : Job → Nat} {j : Job} {l : List Job} (h : l.Pairwise fun a b => key b ≤ key a) :
    (placeBy key j l).Pairwise fun a b => key b ≤ key a := by
  induction l with
  | nil => simp [placeBy]
  | cons x rest ih =>
    obtain ⟨hx, hrest⟩ := List.pairwise_cons.mp h
    unfold placeBy
    split
    · next hlt =>
      refine List.pairwise_cons.mpr ⟨fun y hy => ?_, h⟩
      rcases List.mem_cons.mp hy with rfl | hy
      · exact hlt.le
      · exact (hx y hy).trans hlt.le
    · next hge =>
      refine List.pairwise_cons.mpr ⟨fun y hy => ?_, ih hrest⟩
      rcases mem_placeBy.mp hy with rfl | hy
      · exact Nat.not_lt.mp hge
      · exact hx y hy

/-- A list ordered by a key has the same jobs, greatest key first. -/
theorem orderBy_spec (key : Job → Nat) (jobs : List Job) :
    (∀ k, k ∈ orderBy key jobs ↔ k ∈ jobs) ∧ (orderBy key jobs).Pairwise fun a b => key b ≤ key a := by
  induction jobs using List.reverseRecOn with
  | nil => exact ⟨fun _ => Iff.rfl, List.Pairwise.nil⟩
  | append_singleton rest j ih =>
    obtain ⟨hmem, hsorted⟩ := ih
    have e : orderBy key (rest ++ [j]) = placeBy key j (orderBy key rest) := by
      unfold orderBy
      rw [List.foldl_append]
      rfl
    rw [e]
    refine ⟨fun k => ?_, placeBy_sorted hsorted⟩
    rw [mem_placeBy, hmem]
    simp only [List.mem_append, List.mem_singleton]
    tauto

/-- The first of an ordered list to meet a test has the greatest key of those that meet it. -/
theorem find?_orderBy_some {key : Job → Nat} {jobs : List Job} {test : Job → Bool} {j : Job}
    (h : (orderBy key jobs).find? test = some j) :
    j ∈ jobs ∧ test j = true ∧ ∀ k ∈ jobs, test k = true → key k ≤ key j := by
  obtain ⟨hmem, hsorted⟩ := orderBy_spec key jobs
  obtain ⟨ht, before, after, he, hn⟩ := List.find?_eq_some_iff_append.mp h
  refine ⟨(hmem j).mp (List.mem_of_find?_eq_some h), ht, fun k hk htk => ?_⟩
  have hk' := (hmem k).mpr hk
  rw [he] at hk' hsorted
  rcases List.mem_append.mp hk' with hb | hb
  · exact absurd htk (by simpa using hn k hb)
  · rcases List.mem_cons.mp hb with rfl | hb
    · exact le_rfl
    · exact (List.pairwise_cons.mp (List.pairwise_append.mp hsorted).2.1).1 k hb

theorem find?_orderBy_none {key : Job → Nat} {jobs : List Job} {test : Job → Bool}
    (h : (orderBy key jobs).find? test = none) : ∀ k ∈ jobs, test k = false := fun k hk => by
  simpa using List.find?_eq_none.mp h k ((orderBy_spec key jobs).1 k |>.mpr hk)

/-! ### The tiers (R81) -/

theorem rank_lt (bottom t : Fin 8) : rank bottom t < 8 := Nat.mod_lt _ (by decide)

theorem rank_tierOrder (bottom k : Fin 8) : rank bottom (bottom + 1 + k) = k.val := by
  revert bottom k
  decide

theorem tierOrder_rank (bottom t : Fin 8) : bottom + 1 + ⟨rank bottom t, rank_lt bottom t⟩ = t := by
  revert bottom t
  decide

/-- The first tier to meet a test is the highest that meets it. -/
theorem find?_tierOrder_some {bottom : Fin 8} {test : Fin 8 → Bool} {t : Fin 8} (h : (tierOrder bottom).find? test = some t) :
    test t = true ∧ ∀ u, test u = true → rank bottom t ≤ rank bottom u := by
  have e : tierOrder bottom = (List.finRange 8).map (fun k => bottom + 1 + k) := rfl
  rw [e, List.find?_map] at h
  obtain ⟨k, hk, rfl⟩ := Option.map_eq_some_iff.mp h
  refine ⟨(List.find?_eq_some_iff_append.mp hk).1, fun u hu => ?_⟩
  rw [rank_tierOrder]
  obtain ⟨-, before, after, hl, hn⟩ := List.find?_eq_some_iff_append.mp hk
  by_contra hlt
  have hmem : (⟨rank bottom u, rank_lt bottom u⟩ : Fin 8) ∈ before := by
    have all := List.mem_finRange (⟨rank bottom u, rank_lt bottom u⟩ : Fin 8)
    have sorted := List.pairwise_lt_finRange 8
    rw [hl] at all sorted
    rcases List.mem_append.mp all with hb | hb
    · exact hb
    · rcases List.mem_cons.mp hb with hb | hb
      · exact absurd (congrArg Fin.val hb).ge hlt
      · have := (List.pairwise_cons.mp (List.pairwise_append.mp sorted).2.1).1 _ hb
        exact absurd (Fin.lt_def.mp this).le hlt
  have := hn _ hmem
  rw [Function.comp_apply, tierOrder_rank, hu] at this
  cases this

theorem find?_tierOrder_none {bottom : Fin 8} {test : Fin 8 → Bool} (h : (tierOrder bottom).find? test = none) (t : Fin 8) :
    test t = false := by
  have hm : t ∈ tierOrder bottom :=
    List.mem_map.mpr ⟨⟨rank bottom t, rank_lt bottom t⟩, List.mem_finRange _, tierOrder_rank bottom t⟩
  simpa using List.find?_eq_none.mp h t hm

/-! ### The job granted (R80, R83, R88) -/

/-- The job the decision grants, among those it could grant. -/
theorem grantCandidate_spec {s : State} {j : Job} (h : grantCandidate s = some j) :
    (j ∈ s.sched.jobs ∧ isQueued j = true ∧ isEligible s j = true ∧ isMasked s j.tier = false ∧ aboveService s j.tier = true) ∧
    ∀ k ∈ s.sched.jobs, isQueued k = true → isEligible s k = true → isMasked s k.tier = false →
      aboveService s k.tier = true →
        rank s.sched.bottom j.tier ≤ rank s.sched.bottom k.tier ∧ (k.tier = j.tier → jobAge s k ≤ jobAge s j) := by
  obtain ⟨t, ht, hj⟩ := Option.bind_eq_some_iff.mp h
  obtain ⟨hq, hhighest⟩ := find?_tierOrder_some ht
  obtain ⟨hmem, heligible, holdest⟩ := find?_orderBy_some hj
  obtain ⟨hm, hqj⟩ := List.mem_filter.mp hmem
  obtain ⟨hqueued, htier⟩ := (Bool.and_eq_true _ _).mp hqj
  obtain rfl : j.tier = t := beq_iff_eq.mp htier
  unfold tierQualifies at hq
  simp only [Bool.and_eq_true, Bool.not_eq_true'] at hq
  obtain ⟨⟨hmask, -⟩, habove⟩ := hq
  refine ⟨⟨hm, hqueued, heligible, hmask, habove⟩, fun k hk hkq hke hkm hka => ⟨hhighest k.tier ?_, fun hkt => ?_⟩⟩
  · unfold tierQualifies
    rw [hkm, hka]
    have : (oldestEligible s k.tier).isSome = true := by
      by_contra hn
      have := find?_orderBy_none (Option.not_isSome_iff_eq_none.mp hn) k (List.mem_filter.mpr ⟨hk, by simp [hkq]⟩)
      rw [hke] at this
      cases this
    rw [this]
    rfl
  · exact holdest k (List.mem_filter.mpr ⟨hk, by simp [hkq, hkt]⟩) hke

/-! ### The decision taken (R86, R88) -/

theorem activated_eq (c : Nat) (j : Job) :
    activated c j =
      if j.creation = c then { j with state := .active, held := j.held && j.state == .active }
      else if j.state = .active then { j with state := .suspended, held := false }
      else j := by
  unfold activated
  by_cases hc : j.creation = c
  · rw [if_pos hc, if_pos hc]
    by_cases ha : j.state = .active
    · rw [if_pos ha]
      obtain ⟨slot, field, tier, chain, damaged, creation, state, cursor, held, settled⟩ := j
      obtain rfl := ha
      simp
    · rw [if_neg ha]
      simp [ha]
  · rw [if_neg hc, if_neg hc]

/-- The job of a creation number made ACTIVE by a decision. -/
def granted (c : Nat) (s : State) : State :=
  { s with sched := { s.sched with owed := false, jobs := s.sched.jobs.map (activated c) } }

theorem arbitrate_grants {s : State} {g : Job} (h : grantCandidate s = some g) : arbitrate s = granted g.creation s := by
  unfold arbitrate
  rw [h]
  rfl

theorem arbitrate_resumes {s : State} {g : Job} (h : grantCandidate s = none) (hs : (serviceStack s).head? = some g) :
    arbitrate s = granted g.creation s := by
  unfold arbitrate
  rw [h, hs]
  rfl

theorem arbitrate_rests {s : State} (h : grantCandidate s = none) (hs : (serviceStack s).head? = none) : arbitrate s = decided s := by
  unfold arbitrate
  rw [h, hs]
  rfl

/-- The top of the in-service stack is in service, and no job in service is of a higher tier. -/
theorem serviceStack_head {s : State} {g : Job} (h : (serviceStack s).head? = some g) :
    g ∈ s.sched.jobs ∧ inService g = true ∧
      ∀ k ∈ s.sched.jobs, inService k = true → rank s.sched.bottom g.tier ≤ rank s.sched.bottom k.tier := by
  obtain ⟨hmem, hsorted⟩ := orderBy_spec (fun j => 8 - rank s.sched.bottom j.tier) (s.sched.jobs.filter inService)
  have hg := List.mem_filter.mp ((hmem g).mp (List.mem_of_mem_head? h))
  refine ⟨hg.1, hg.2, fun k hk hki => ?_⟩
  have hk' := (hmem k).mpr (List.mem_filter.mpr ⟨hk, hki⟩)
  unfold serviceStack at h
  cases hl : orderBy (fun j => 8 - rank s.sched.bottom j.tier) (s.sched.jobs.filter inService) with
  | nil => rw [hl] at h; cases h
  | cons x rest =>
    rw [hl] at h hk' hsorted
    obtain rfl : x = g := Option.some.inj h
    rcases List.mem_cons.mp hk' with rfl | hr
    · exact le_rfl
    · have key := (List.pairwise_cons.mp hsorted).1 k hr
      have := rank_lt s.sched.bottom x.tier
      have := rank_lt s.sched.bottom k.tier
      omega

theorem serviceStack_head_none {s : State} : (serviceStack s).head? = none ↔ ∀ k ∈ s.sched.jobs, inService k = false := by
  obtain ⟨hmem, -⟩ := orderBy_spec (fun j => 8 - rank s.sched.bottom j.tier) (s.sched.jobs.filter inService)
  rw [List.head?_eq_none_iff, List.eq_nil_iff_forall_not_mem]
  refine ⟨fun h k hk => ?_, fun h k hk => ?_⟩
  · by_contra hn
    exact h k ((hmem k).mpr (List.mem_filter.mpr ⟨hk, by simpa using hn⟩))
  · obtain ⟨hk, hi⟩ := List.mem_filter.mp ((hmem k).mp hk)
    rw [h k hk] at hi
    cases hi

/-- A job in service above all others in service is the top of the stack. -/
theorem serviceStack_highest {s : State} {g : Job} (hg : g ∈ s.sched.jobs) (hi : inService g = true)
    (hh : ∀ k ∈ s.sched.jobs, inService k = true → k ≠ g → rank s.sched.bottom g.tier < rank s.sched.bottom k.tier) :
    (serviceStack s).head? = some g := by
  cases h : (serviceStack s).head? with
  | none =>
    rw [serviceStack_head_none.mp h g hg] at hi
    cases hi
  | some x =>
    obtain ⟨hx, hxi, hle⟩ := serviceStack_head h
    by_cases e : x = g
    · rw [e]
    · exact absurd (hh x hx hxi e) (Nat.not_lt.mpr (hle g hg hi))

/-- What a decision does: it grants or resumes one job in the list, or finds none. -/
theorem arbitrate_cases (s : State) :
    (∃ g ∈ s.sched.jobs, arbitrate s = granted g.creation s ∧ (isEligible s g = true ∧ isQueued g = true ∨ inService g = true)) ∨
      arbitrate s = decided s := by
  cases hg : grantCandidate s with
  | some g =>
    obtain ⟨⟨hm, hq, he, -⟩, -⟩ := grantCandidate_spec hg
    exact .inl ⟨g, hm, arbitrate_grants hg, .inl ⟨he, hq⟩⟩
  | none =>
    cases hs : (serviceStack s).head? with
    | some g =>
      obtain ⟨hm, hi, -⟩ := serviceStack_head hs
      exact .inl ⟨g, hm, arbitrate_resumes hg hs, .inr hi⟩
    | none => exact .inr (arbitrate_rests hg hs)

theorem arbitrate_counter (s : State) : (arbitrate s).sched.counter = s.sched.counter := by
  rcases arbitrate_cases s with ⟨g, -, h, -⟩ | h <;> rw [h] <;> rfl

end Sys2Proof.Machine
end

