-- ==== Sys2Proof/Proofs/BandTurn.lean ====
section
/-! The band turn and the end of a job (R14, R82, R89 to R95). -/

namespace Sys2Proof.Machine

/-! ### The end of a job (R14, R82, R92) -/

theorem slotJobEnded_rest (i : Fin 32) (s : State) : ∃ V, slotJobEnded i s = { s with slots := V } := by
  unfold slotJobEnded
  split
  · dsimp only
    split
    · obtain ⟨-, V, hV⟩ := releaseRefs_aside i
        ((s.setSlot i { s.slots[i] with jobsOutstanding := s.slots[i].jobsOutstanding - 1 }).setSlot i
          { (s.setSlot i { s.slots[i] with jobsOutstanding := s.slots[i].jobsOutstanding - 1 }).slots[i] with state := .ready })
      exact ⟨V, hV⟩
    · exact ⟨_, rfl⟩
  · exact ⟨s.slots, rfl⟩

/-- One of several jobs of a slot ended. -/
theorem slotJobEnded_more {i : Fin 32} {s : State} (hr : s.slots[i].state = .repairing) (hj : 1 < s.slots[i].jobsOutstanding) :
    slotJobEnded i s = s.setSlot i { s.slots[i] with jobsOutstanding := s.slots[i].jobsOutstanding - 1 } := by
  unfold slotJobEnded
  rw [if_pos hr]
  exact if_neg (by omega)

theorem slotJobEnded_releases {i : Fin 32} {s : State} (hr : s.slots[i].state = .repairing) (hj : s.slots[i].jobsOutstanding - 1 = 0) :
    slotJobEnded i s = releaseRefs i (s.setSlot i { s.slots[i] with jobsOutstanding := 0, state := .ready }) := by
  have twice : (s.setSlot i { s.slots[i] with jobsOutstanding := 0 }).setSlot i
      { (s.setSlot i { s.slots[i] with jobsOutstanding := 0 }).slots[i] with state := .ready } =
        s.setSlot i { s.slots[i] with jobsOutstanding := 0, state := .ready } := by
    rw [setSlot_slots_self]
    unfold State.setSlot
    dsimp only
    rw [Vector.set_set]
  unfold slotJobEnded
  rw [if_pos hr]
  dsimp only
  rw [hj, if_pos rfl, twice]

/-- The last job of a slot ended: the slot is READY and has released its references. -/
theorem slotJobEnded_last {i : Fin 32} {s : State} (hr : s.slots[i].state = .repairing) (hj : s.slots[i].jobsOutstanding ≤ 1)
    (hp : s.slots[i].heldP ≠ some i) (hn : s.slots[i].heldN ≠ some i) :
    (slotJobEnded i s).slots[i] =
        { s.slots[i] with jobsOutstanding := 0, state := .ready, heldP := none, heldN := none } ∧
      ∀ k : Fin 32, k ≠ i → (slotJobEnded i s).slots[k] = releasedRecord s i k := by
  rw [slotJobEnded_releases hr (by omega)]
  generalize hw : s.setSlot i { s.slots[i] with jobsOutstanding := 0, state := .ready } = w
  have self : w.slots[i] = { s.slots[i] with jobsOutstanding := 0, state := .ready } := by
    rw [← hw]
    exact setSlot_slots_self ..
  have other (k : Fin 32) (h : k ≠ i) : w.slots[k] = s.slots[k] := by
    rw [← hw]
    exact setSlot_slots_other _ _ _ _ (Ne.symm h)
  have anchor : w.anchor = s.anchor := by rw [← hw]; rfl
  obtain ⟨V, hV, hVi, hVk⟩ := releaseRefs_spec w i (by rw [self]; exact hp) (by rw [self]; exact hn)
  rw [hV]
  refine ⟨?_, fun k hk => (hVk k hk).trans (releasedRecord_congr ?_ ?_ (other k hk) anchor)⟩
  · show V[i] = _
    rw [hVi, self]
  · rw [self]
  · rw [self]

theorem dropRef_sched (v : Scheduler) (j : Fin 32) (s : State) :
    dropRef j { s with sched := v } = { dropRef j s with sched := v } := by
  unfold dropRef freeIfDone
  dsimp only
  split
  · next h => rw [if_pos (by exact h)]; rfl
  · next h => rw [if_neg (by exact h)]; rfl

theorem dropHeld_sched (v : Scheduler) (held : Option (Fin 32)) (s : State) :
    dropHeld held { s with sched := v } = { dropHeld held s with sched := v } := by
  cases held with
  | none => rfl
  | some j => exact dropRef_sched v j s

theorem releaseRefs_sched (v : Scheduler) (i : Fin 32) (s : State) :
    releaseRefs i { s with sched := v } = { releaseRefs i s with sched := v } := by
  rw [releaseRefs_eq, releaseRefs_eq]
  exact (congrArg (dropHeld _) (dropHeld_sched v _ (s.setSlot i { s.slots[i] with heldP := none, heldN := none }))).trans
    (dropHeld_sched v _ _)

/-- The end of a job in the window has nothing to do with the Scheduler's records. -/
theorem slotJobEnded_sched (v : Scheduler) (i : Fin 32) (s : State) :
    slotJobEnded i { s with sched := v } = { slotJobEnded i s with sched := v } := by
  by_cases hr : s.slots[i].state = .repairing
  · by_cases hn : s.slots[i].jobsOutstanding - 1 = 0
    · rw [slotJobEnded_releases hr hn, slotJobEnded_releases (s := { s with sched := v }) hr hn]
      exact releaseRefs_sched v i (s.setSlot i { s.slots[i] with jobsOutstanding := 0, state := .ready })
    · rw [slotJobEnded_more hr (by omega), slotJobEnded_more (s := { s with sched := v }) hr (by show 1 < s.slots[i].jobsOutstanding; omega)]
      rfl
  · unfold slotJobEnded
    rw [if_neg (by exact hr), if_neg hr]

/-- The end of a job in a slot whose record alone has changed. -/
theorem slotJobEnded_after {s v : State} {i : Fin 32} {r : SlotRecord} (hv : v.slots = s.slots.set i r) (ha : v.anchor = s.anchor)
    (hr : r.state = .repairing) (hp : r.heldP = s.slots[i].heldP) (hn : r.heldN = s.slots[i].heldN) :
    (1 < r.jobsOutstanding →
      (slotJobEnded i v).slots = s.slots.set i { r with jobsOutstanding := r.jobsOutstanding - 1 }) ∧
    (r.jobsOutstanding ≤ 1 → s.slots[i].heldP ≠ some i → s.slots[i].heldN ≠ some i →
      (slotJobEnded i v).slots[i] = { r with jobsOutstanding := 0, state := .ready, heldP := none, heldN := none } ∧
        ∀ k : Fin 32, k ≠ i → (slotJobEnded i v).slots[k] = releasedRecord s i k) := by
  have self : v.slots[i] = r := by
    rw [hv]
    exact setSlot_slots_self s i r
  have other (k : Fin 32) (hk : k ≠ i) : v.slots[k] = s.slots[k] := by
    rw [hv]
    exact setSlot_slots_other s i k r (Ne.symm hk)
  refine ⟨fun hj => ?_, fun hj hp' hn' => ?_⟩
  · rw [slotJobEnded_more (by rw [self]; exact hr) (by rw [self]; exact hj), self]
    show v.slots.set i _ = _
    rw [hv, Vector.set_set]
  · obtain ⟨hself, hother⟩ := slotJobEnded_last (s := v) (by rw [self]; exact hr) (by rw [self]; exact hj) (by rw [self, hp]; exact hp')
      (by rw [self, hn]; exact hn')
    rw [self] at hself
    exact ⟨hself, fun k hk => (hother k hk).trans (releasedRecord_congr (by rw [self]; exact hp) (by rw [self]; exact hn) (other k hk) ha)⟩

theorem rotated_eq (t : Fin 8) (c : Scheduler) : rotated t c = { c with bottom := if c.tierMode = .rotating then t else c.bottom } := by
  unfold rotated
  split
  · next h => rw [if_neg (by rw [h]; decide)]
  · next h => rw [if_pos h]

theorem completeJob_eq (j : Job) (s : State) :
    completeJob j s = { s with slots := (slotJobEnded j.slot s).slots, sched := completedSched j s.sched } := by
  obtain ⟨V, hV⟩ := slotJobEnded_rest j.slot s
  unfold completeJob completedSched
  rw [hV]
  dsimp only
  rw [rotated_eq]

theorem filter_jobsWith {c : Nat} {change : Job → Job} (hc : ∀ k, (change k).creation = k.creation) (jobs : List Job) :
    (jobsWith c change jobs).filter (fun k => k.creation != c) = jobs.filter fun k => k.creation != c := by
  unfold jobsWith
  induction jobs with
  | nil => rfl
  | cons k rest ih =>
    rw [List.map_cons]
    by_cases h : k.creation = c
    · rw [if_pos h, List.filter_cons_of_neg (by simp [hc, h]), List.filter_cons_of_neg (by simp [h]), ih]
    · rw [if_neg h, List.filter_cons_of_pos (by simp [h]), List.filter_cons_of_pos (by simp [h]), ih]

/-- A job changed before it completes leaves no trace of the change. -/
theorem completedSched_jobsWith {j : Job} {change : Job → Job} (hc : ∀ k, (change k).creation = k.creation) (c : Scheduler) :
    completedSched j { c with jobs := jobsWith j.creation change c.jobs } = completedSched j c := by
  unfold completedSched
  dsimp only
  rw [filter_jobsWith hc]

theorem completeJob_changed {j : Job} {change : Job → Job} (hc : ∀ k, (change k).creation = k.creation) (s : State) :
    completeJob j (changeJob j.creation change s) =
      { s with slots := (slotJobEnded j.slot s).slots, sched := completedSched j s.sched } := by
  have slots := slotJobEnded_sched { s.sched with jobs := jobsWith j.creation change s.sched.jobs } j.slot s
  refine (completeJob_eq j _).trans ?_
  show { s with
    slots := (slotJobEnded j.slot { s with sched := { s.sched with jobs := jobsWith j.creation change s.sched.jobs } }).slots
    sched := completedSched j { s.sched with jobs := jobsWith j.creation change s.sched.jobs } } = _
  rw [slots, completedSched_jobsWith hc]

/-! ### The next DAMAGED band (R89, R91) -/

/-- A change of one band leaves the DAMAGED bands above it. -/
theorem nextDamaged_above {s t : State} {i : Fin 32} {f : Field} {b : Fin 18} (hs : t.settings = s.settings)
    (hb : ∀ c : Fin 18, c ≠ b → (t.slots[i]).band f c = (s.slots[i]).band f c) :
    nextDamaged t i f (b.val + 1) = nextDamaged s i f (b.val + 1) := by
  have same (c : Fin 18) :
      (decide (b.val + 1 ≤ c.val) && bandDamaged t i f c) = (decide (b.val + 1 ≤ c.val) && bandDamaged s i f c) := by
    by_cases h : b.val + 1 ≤ c.val
    · have away : c ≠ b := fun e => by rw [e] at h; omega
      unfold bandDamaged
      rw [hb c away]
    · rw [decide_eq_false h]
      rfl
  unfold nextDamaged bandsOf
  rw [hs]
  simp only [same]

theorem nextDamaged_spec {s : State} {i : Fin 32} {f : Field} {low : Nat} {c : Fin 18} (h : nextDamaged s i f low = some c) :
    low ≤ c.val := by
  have := List.find?_some h
  simp only [Bool.and_eq_true, decide_eq_true_eq] at this
  exact this.1

/-! ### PASS (R89) -/

/-- A DAMAGED band PASSED. -/
theorem moveBand_damaged {s : State} {i : Fin 32} {f : Field} {b : Fin 18} {x : BandRecord} (hx : (s.slots[i]).band f b = some x)
    (hd : x.state = .damaged) (t : BandState) : moveBand i f b t s = s.setBand i f b { x with state := t } := by
  unfold moveBand
  rw [hx]
  exact if_pos hd

theorem setBand_above (s : State) (i : Fin 32) (f : Field) (b : Fin 18) (x : BandRecord) :
    nextDamaged (s.setBand i f b x) i f (b.val + 1) = nextDamaged s i f (b.val + 1) := by
  refine nextDamaged_above rfl fun c hc => ?_
  have self : (s.setBand i f b x).slots[i] = (s.slots[i]).setBand f b x := setSlot_slots_self ..
  rw [self]
  exact setBand_band_other _ _ _ _ _ _ fun e => hc e.2

/-- The job whose band has been settled moves on to a further DAMAGED band. -/
theorem passTurn_next {s : State} {j : Job} {b c : Fin 18} {x : BandRecord} (hx : (s.slots[j.slot]).band j.field b = some x)
    (hd : x.state = .damaged) (hc : nextDamaged s j.slot j.field (b.val + 1) = some c) :
    passTurn j b s =
      ({ s with
         slots := s.slots.set j.slot ((s.slots[j.slot]).setBand j.field b { x with state := .passed })
         sched :=
           { s.sched with
             jobs := jobsWith j.creation (fun k => { k with held := false, settled := k.settled + 1, cursor := some c }) s.sched.jobs } },
        .turn) := by
  have next := (setBand_above s j.slot j.field b { x with state := .passed }).trans hc
  unfold passTurn advanceJob
  rw [moveBand_damaged hx hd]
  dsimp only
  rw [next]
  rfl

/-- The job whose last DAMAGED band has been settled completes. -/
theorem passTurn_completes {s : State} {j : Job} {b : Fin 18} {x : BandRecord} (hx : (s.slots[j.slot]).band j.field b = some x)
    (hd : x.state = .damaged) (hc : nextDamaged s j.slot j.field (b.val + 1) = none) :
    passTurn j b s =
      ({ s with
         slots := (slotJobEnded j.slot (s.setBand j.slot j.field b { x with state := .passed })).slots
         sched := completedSched j s.sched }, .decision) := by
  have next := (setBand_above s j.slot j.field b { x with state := .passed }).trans hc
  unfold passTurn advanceJob
  rw [moveBand_damaged hx hd]
  dsimp only
  rw [next]
  dsimp only
  exact congrArg (·, TurnNext.decision)
    (completeJob_changed (change := fun k => { k with held := false, settled := k.settled + 1, cursor := none }) (fun _ => rfl)
      (s.setBand j.slot j.field b { x with state := .passed }))

/-! ### The band turn (R89, R90, R94, R95) -/

/-- The state a band turn acts in: its walk tallied (R76). -/
def walkedAs (w : WalkResult) (s : State) : State := { s with strategy := countWalk w s.strategy }

theorem bandTurn_takes {s : State} {j : Job} {b : Fin 18} {e : Fin 32} {kind : RepairKind} (hb : j.cursor = some b)
    (hw : walk s j b = .taken e) (hk : repairKind s.strategy.entries[e].kind = some kind) :
    bandTurn j s = takeTurn j b kind (candidatesOf s j.slot j.field b) (walkedAs (.taken e) s) := by
  unfold bandTurn
  rw [hb]
  dsimp only
  rw [hw]
  dsimp only
  rw [hk]
  rfl

theorem bandTurn_defers {s : State} {j : Job} {b : Fin 18} {e : Fin 32} (hb : j.cursor = some b) (hw : walk s j b = .defer e) :
    bandTurn j s = (deferJob j (walkedAs (.defer e) s), .decision) := by
  unfold bandTurn
  rw [hb]
  dsimp only
  rw [hw]
  rfl

/-- A walk yields PASS (R75). -/
def yieldsPass (s : State) (w : WalkResult) : Prop :=
  w = .passedAtEnd ∨ w = .passedAtLimit ∨ ∃ e, w = .taken e ∧ s.strategy.entries[e].kind = .pass

theorem bandTurn_passes {s : State} {j : Job} {b : Fin 18} (hb : j.cursor = some b) (hw : yieldsPass s (walk s j b)) :
    bandTurn j s = passTurn j b (walkedAs (walk s j b) s) := by
  unfold bandTurn
  rw [hb]
  dsimp only
  rcases hw with h | h | ⟨e, h, hk⟩
  · rw [h]
    rfl
  · rw [h]
    rfl
  · rw [h]
    dsimp only
    rw [hk]
    rfl

theorem bandTurn_pastEnd {s : State} {j : Job} (hb : j.cursor = none) : bandTurn j s = (completeJob j s, .decision) := by
  unfold bandTurn
  rw [hb]

/-- What a walk comes to. -/
theorem walk_cases (s : State) (w : WalkResult) :
    (∃ e kind, w = .taken e ∧ repairKind s.strategy.entries[e].kind = some kind) ∨ (∃ e, w = .defer e) ∨ yieldsPass s w := by
  cases w with
  | taken e =>
    cases hk : s.strategy.entries[e].kind with
    | pass => exact .inr (.inr (.inr (.inr ⟨e, rfl, hk⟩)))
    | temporal => exact .inl ⟨e, .temporal, rfl, by rw [hk]; rfl⟩
    | spatial => exact .inl ⟨e, .spatial, rfl, by rw [hk]; rfl⟩
    | adaptive => exact .inl ⟨e, .adaptive, rfl, by rw [hk]; rfl⟩
    | hold => exact .inl ⟨e, .hold, rfl, by rw [hk]; rfl⟩
  | defer e => exact .inr (.inl ⟨e, rfl⟩)
  | passedAtEnd => exact .inr (.inr (.inl rfl))
  | passedAtLimit => exact .inr (.inr (.inr (.inl rfl)))

/-- The operation of a BAND START (R105). -/
theorem startOperation_eq (i : Fin 32) (f : Field) (b : Fin 18) (kind : RepairKind) (usable : Candidates) :
    startOperation i f b kind usable =
      { slot := i, field := f, band := b, kind := kind, usable := usable
        phase := if kind = .adaptive ∧ usable.p = true ∧ usable.n = true then .measure else .blend
        m := none
        motion := none
        weights :=
          match kind with
          | .temporal => some ⟨32, 32, 0⟩
          | .spatial => some ⟨0, 0, 64⟩
          | .hold => some ⟨64, 0, 0⟩
          | .adaptive => if usable.p = true ∧ usable.n = true then none else some ⟨0, 0, 64⟩
        conditioned := false
        result := [] } := by
  cases kind with
  | temporal => rfl
  | spatial => rfl
  | hold => rfl
  | adaptive =>
    unfold startOperation
    by_cases h : usable.p = true ∧ usable.n = true
    · rw [if_pos h, if_pos ⟨rfl, h⟩]
      simp only [h, Bool.and_self, if_true]
    · rw [if_neg h, if_neg fun c => h c.2]
      have h' : (usable.p && usable.n) = false := by simpa using h
      simp only [h', Bool.false_eq_true, if_false]
      rfl

/-- The band turns of an entry taken, a deferral and a PASS, as R89 to R95 state them. -/
theorem bandTurn_equations (s : State) (j : Job) (b : Fin 18) (hb : j.cursor = some b) :
    let walked := walk s j b
    let turned (change : Job → Job) : Scheduler := { s.sched with jobs := jobsWith j.creation change s.sched.jobs }
    (∀ (x : BandRecord), yieldsPass s walked → (s.slots[j.slot]).band j.field b = some x → x.state = .damaged →
        let passed : SlotRecord := (s.slots[j.slot]).setBand j.field b { x with state := .passed }
        let counted := countWalk walked s.strategy
        (∀ c : Fin 18, nextDamaged s j.slot j.field (b.val + 1) = some c →
          bandTurn j s =
            ({ s with
               slots := s.slots.set j.slot passed
               strategy := counted
               sched := turned (fun k => { k with held := false, settled := k.settled + 1, cursor := some c }) }, .turn)) ∧
        (nextDamaged s j.slot j.field (b.val + 1) = none → s.slots[j.slot].state = .repairing →
          let ended : Scheduler := completedSched j s.sched
          (1 < s.slots[j.slot].jobsOutstanding →
            bandTurn j s =
              ({ s with
                 slots := s.slots.set j.slot { passed with jobsOutstanding := s.slots[j.slot].jobsOutstanding - 1 }
                 strategy := counted
                 sched := ended }, .decision)) ∧
          (s.slots[j.slot].jobsOutstanding ≤ 1 → s.slots[j.slot].heldP ≠ some j.slot → s.slots[j.slot].heldN ≠ some j.slot →
            ∃ t, bandTurn j s = (t, .decision) ∧
              t.slots[j.slot] = { passed with jobsOutstanding := 0, state := .ready, heldP := none, heldN := none } ∧
              (∀ i : Fin 32, i ≠ j.slot → t.slots[i] = releasedRecord s j.slot i) ∧
              { t with slots := s.slots } = { s with strategy := counted, sched := ended }))) := by
  intro walked turned x hw hx hd passed counted
  have turn : bandTurn j s = passTurn j b (walkedAs walked s) := bandTurn_passes hb hw
  refine ⟨fun c hc => turn.trans (passTurn_next (s := walkedAs walked s) hx hd hc), fun hc hr => ?_⟩
  intro ended
  have completes := turn.trans (passTurn_completes (s := walkedAs walked s) hx hd hc)
  obtain ⟨more, last⟩ := slotJobEnded_after (s := s) (i := j.slot) (r := passed)
    (v := (walkedAs walked s).setBand j.slot j.field b { x with state := .passed }) rfl rfl hr rfl rfl
  refine ⟨fun hj => ?_, fun hj hp hn => ?_⟩
  · rw [completes, more hj]
    rfl
  · obtain ⟨hself, hother⟩ := last hj hp hn
    exact ⟨_, completes, hself, hother, rfl⟩

end Sys2Proof.Machine
end

