-- ==== Sys2Proof/Proofs/Serving.lean ====
section
/-! Serving comes to an end within the length its act allows: every band turn that does not rest takes from what its job has left to do,
and a job that has deferred does not defer again (R80, R88, R89, R92, R95). -/

namespace Sys2Proof.Machine

/-! ### Frames while jobs are served (R14, R23) -/

/-- While jobs are served a slot keeps its frame and its state, a REPAIRING one becoming READY, or leaves RETAINED for FREE. -/
def StandsServed (r t : SlotRecord) : Prop :=
  (t.frame = r.frame ∧ (t.state = r.state ∨ (r.state = .repairing ∧ t.state = .ready))) ∨
    (r.state = .retained ∧ t.frame = none ∧ t.state = .free)

theorem StandsServed.refl (r : SlotRecord) : StandsServed r r := .inl ⟨rfl, .inl rfl⟩

theorem StandsServed.trans {r t u : SlotRecord} (h : StandsServed r t) (k : StandsServed t u) : StandsServed r u := by
  rcases h with ⟨hf, hs⟩ | ⟨hr, hf, hs⟩
  · rcases k with ⟨kf, ks⟩ | ⟨kr, kf, ks⟩
    · refine .inl ⟨kf.trans hf, ?_⟩
      rcases hs with hs | ⟨hr, hy⟩
      · rwa [hs] at ks
      · rcases ks with ks | ⟨kr, -⟩
        · exact .inr ⟨hr, ks.trans hy⟩
        · rw [hy] at kr
          cases kr
    · rcases hs with hs | ⟨-, hy⟩
      · exact .inr ⟨hs ▸ kr, kf, ks⟩
      · rw [hy] at kr
        cases kr
  · rcases k with ⟨kf, ks⟩ | ⟨kr, -⟩
    · refine .inr ⟨hr, kf.trans hf, ?_⟩
      rcases ks with ks | ⟨kr, -⟩
      · exact ks.trans hs
      · rw [hs] at kr
        cases kr
    · rw [hs] at kr
      cases kr

theorem StandsServed.of_aside {r t : SlotRecord} (h : ReferencesAside r t) : StandsServed r t := by
  rcases h with ⟨h, -⟩ | ⟨hr, rfl⟩
  · have frame := congrArg SlotRecord.frame h
    have state := congrArg SlotRecord.state h
    exact .inl ⟨frame, .inl state⟩
  · exact .inr ⟨hr, rfl, rfl⟩

/-- Every slot stands as serving may leave it. -/
def Stands (s t : State) : Prop := ∀ i : Fin 32, StandsServed s.slots[i] t.slots[i]

theorem Stands.refl (s : State) : Stands s s := fun _ => .refl _

theorem Stands.of_slots {s t : State} (h : t.slots = s.slots) : Stands s t := fun i => by
  rw [h]
  exact .refl _

theorem Stands.trans {s t u : State} (h : Stands s t) (k : Stands t u) : Stands s u := fun i => (h i).trans (k i)

theorem Stands.setSlot {s : State} {i : Fin 32} {r : SlotRecord} (h : StandsServed s.slots[i] r) : Stands s (s.setSlot i r) := fun k => by
  rw [setSlot_slots]
  split
  · next e => exact e ▸ h
  · exact .refl _

theorem releaseRefs_stands (i : Fin 32) (s : State) : Stands s (releaseRefs i s) :=
  (Stands.setSlot (r := { s.slots[i] with heldP := none, heldN := none }) (.inl ⟨rfl, .inl rfl⟩)).trans fun k =>
    .of_aside ((releaseRefs_aside i s).1 k)

theorem slotJobEnded_stands (i : Fin 32) (s : State) : Stands s (slotJobEnded i s) := by
  by_cases hr : s.slots[i].state = .repairing
  · by_cases hn : s.slots[i].jobsOutstanding - 1 = 0
    · rw [slotJobEnded_releases hr hn]
      have ready : Stands s (s.setSlot i { s.slots[i] with jobsOutstanding := 0, state := .ready }) :=
        Stands.setSlot (.inl ⟨rfl, .inr ⟨hr, rfl⟩⟩)
      exact ready.trans (releaseRefs_stands i _)
    · rw [slotJobEnded_more hr (by omega)]
      exact Stands.setSlot (.inl ⟨rfl, .inl rfl⟩)
  · unfold slotJobEnded
    rw [if_neg hr]
    exact .refl s

theorem moveBand_stands (i : Fin 32) (f : Field) (b : Fin 18) (s : State) : Stands s (moveBand i f b .passed s) := by
  obtain ⟨r, hr, hsame, -⟩ := moveBand_passes i f b s
  have frame := congrArg SlotRecord.frame hsame
  have state := congrArg SlotRecord.state hsame
  rw [hr]
  exact Stands.setSlot (.inl ⟨frame, .inl state⟩)

/-! ### N stays pending (R65) -/

theorem find?_stays {α : Type} {p q : α → Bool} {l : List α} {a : α} (h : l.find? p = some a) (hq : q a = true)
    (hpq : ∀ x, q x = true → p x = true) : l.find? q = some a := by
  induction l with
  | nil => cases h
  | cons x rest ih =>
    by_cases hx : p x = true
    · rw [List.find?_cons_of_pos hx] at h
      cases h
      exact List.find?_cons_of_pos hq
    · rw [List.find?_cons_of_neg hx] at h
      rw [List.find?_cons_of_neg fun c => hx (hpq x c)]
      exact ih h

/-- A slot that holds a frame held it before. -/
theorem Stands.held {s t : State} (h : Stands s t) {i : Fin 32} {n : Nat}
    (ht : (t.slots[i].state != .free && t.slots[i].frame == some n) = true) :
    (s.slots[i].state != .free && s.slots[i].frame == some n) = true := by
  simp only [Bool.and_eq_true, bne_iff_ne, beq_iff_eq] at ht ⊢
  obtain ⟨hfree, hn⟩ := ht
  rcases h i with ⟨hf, hs | ⟨hr, -⟩⟩ | ⟨-, hf, -⟩
  · exact ⟨hs ▸ hfree, hf ▸ hn⟩
  · exact ⟨by rw [hr]; decide, hf ▸ hn⟩
  · rw [hf] at hn
    cases hn

/-- The slot that holds a frame FILLING goes on holding it; a frame no slot holds is taken by none. -/
theorem Stands.slotOf {s t : State} (h : Stands s t) {n : Nat} :
    (slotOf s n = none → slotOf t n = none) ∧
      ∀ j, slotOf s n = some j → s.slots[j].state = .filling → slotOf t n = some j ∧ t.slots[j].state = .filling := by
  refine ⟨fun hs => ?_, fun j hs hf => ?_⟩
  · refine List.find?_eq_none.mpr fun i _ ht => ?_
    exact List.find?_eq_none.mp hs i (List.mem_finRange i) (h.held ht)
  · have holds := List.find?_some hs
    simp only [Bool.and_eq_true, bne_iff_ne, beq_iff_eq] at holds
    rcases h j with ⟨hfr, hst | ⟨hr, -⟩⟩ | ⟨hr, -⟩
    · have filling : t.slots[j].state = .filling := hst.trans hf
      refine ⟨find?_stays hs ?_ fun i => h.held, filling⟩
      rw [filling, hfr, holds.2]
      simp
    · rw [hf] at hr
      cases hr
    · rw [hf] at hr
      cases hr

theorem pendingN_stands {s t : State} (h : Stands s t) (hg : t.gaps = s.gaps) (hi : t.ingest = s.ingest) {n : Nat}
    (hp : pendingN s n = true) : pendingN t n = true := by
  unfold pendingN at hp ⊢
  simp only [Bool.and_eq_true, Bool.not_eq_true', decide_eq_true_eq] at hp ⊢
  obtain ⟨⟨hfollow, hlocked⟩, hanswer⟩ := hp
  rw [hi]
  unfold followingCompleted windowAnswer at *
  cases hs : slotOf s (n + 1) with
  | none =>
    rw [hs] at hanswer
    rw [h.slotOf.1 hs, hg]
    exact ⟨⟨rfl, hlocked⟩, hanswer⟩
  | some j =>
    rw [hs] at hfollow
    obtain ⟨hj, hf⟩ := h.slotOf.2 j hs (by simpa using hfollow)
    rw [hj]
    dsimp only
    rw [hf]
    exact ⟨⟨rfl, hlocked⟩, by simp⟩

/-! ### What a job has left to do -/

/-- The band turns of its own a job has left: its cursor only rises, and the last of them completes it. -/
def remaining (j : Job) : Nat :=
  match j.cursor with
  | none => 1
  | some b => 19 - b.val

/-- A job may yet defer: not one whose slot holds no frame, nor one that waits for a pending N. -/
def mayDefer (s : State) (j : Job) : Nat :=
  if s.slots[j.slot].frame = none ∨ (j.state = .waitingNext ∧ slotPendingN s j.slot = true) then 0 else 1

/-- The steps a job may yet bring, a decision counted with each deferral and with its completion. -/
def work (s : State) (j : Job) : Nat := remaining j + 1 + 2 * mayDefer s j

/-- The steps all jobs may yet bring. -/
def load (s : State) : Nat := (s.sched.jobs.map (work s)).sum

/-- Every job's creation number is its own. -/
def CreationsDistinct (s : State) : Prop := (s.sched.jobs.map fun k => k.creation).Nodup

theorem remaining_pos (j : Job) : 1 ≤ remaining j := by
  unfold remaining
  split <;> omega

theorem mayDefer_le (s : State) (j : Job) : mayDefer s j ≤ 1 := by
  unfold mayDefer
  split <;> omega

theorem work_le (s : State) (j : Job) : work s j ≤ 22 := by
  have : remaining j ≤ 19 := by
    unfold remaining
    split <;> omega
  have := mayDefer_le s j
  unfold work
  omega

theorem load_le (s : State) : load s ≤ s.sched.jobs.length * 22 := by
  unfold load
  have bounded := List.sum_le_card_nsmul (s.sched.jobs.map (work s)) 22 fun n hn => by
    obtain ⟨j, -, rfl⟩ := List.mem_map.mp hn
    exact work_le s j
  rwa [List.length_map] at bounded

/-- Serving brings no job more to do. -/
theorem work_stands {s t : State} (h : Stands s t) (hg : t.gaps = s.gaps) (hi : t.ingest = s.ingest) (j : Job) : work t j ≤ work s j := by
  have defers : mayDefer t j ≤ mayDefer s j := by
    unfold mayDefer
    by_cases hs : s.slots[j.slot].frame = none ∨ (j.state = .waitingNext ∧ slotPendingN s j.slot = true)
    · rw [if_pos hs, if_pos]
      rcases h j.slot with ⟨hf, -⟩ | ⟨-, hf, -⟩
      · rcases hs with hn | ⟨hw, hp⟩
        · exact .inl (hf.trans hn)
        · refine .inr ⟨hw, ?_⟩
          unfold slotPendingN at hp ⊢
          rw [hf]
          cases hn : s.slots[j.slot].frame with
          | none =>
            rw [hn] at hp
            cases hp
          | some n =>
            rw [hn] at hp
            exact pendingN_stands h hg hi hp
      · exact .inl hf
    · rw [if_neg hs]
      split <;> omega
  unfold work
  omega

/-! ### Sums over the jobs -/

theorem sum_map_le {f g : Job → Nat} {l : List Job} (h : ∀ k ∈ l, f k ≤ g k) : (l.map f).sum ≤ (l.map g).sum := List.sum_le_sum h

/-- A job taken from the list takes its share. -/
theorem sum_filter_add_le {f : Job → Nat} {p : Job → Bool} {j : Job} {l : List Job} (hj : j ∈ l) (hp : p j = false) :
    ((l.filter p).map f).sum + f j ≤ (l.map f).sum := by
  induction l with
  | nil => cases hj
  | cons k rest ih =>
    have all : ((rest.filter p).map f).sum ≤ (rest.map f).sum := (List.filter_sublist.map f).sum_le_sum fun _ _ => Nat.zero_le _
    by_cases e : k = j
    · subst e
      rw [List.filter_cons_of_neg (by simp [hp]), List.map_cons, List.sum_cons]
      omega
    · have tail := ih ((List.mem_cons.mp hj).resolve_left (Ne.symm e))
      by_cases hk : p k = true
      · rw [List.filter_cons_of_pos hk, List.map_cons, List.map_cons, List.sum_cons, List.sum_cons]
        omega
      · rw [List.filter_cons_of_neg hk, List.map_cons, List.sum_cons]
        omega

/-- A job changed for less, no other for more. -/
theorem sum_map_add_le {f g : Job → Nat} {j : Job} {d : Nat} {l : List Job} (hl : ∀ k ∈ l, f k ≤ g k) (hj : j ∈ l)
    (hd : f j + d ≤ g j) : (l.map f).sum + d ≤ (l.map g).sum := by
  induction l with
  | nil => cases hj
  | cons k rest ih =>
    rw [List.map_cons, List.map_cons, List.sum_cons, List.sum_cons]
    have head := hl k (List.mem_cons_self ..)
    have others : ∀ x ∈ rest, f x ≤ g x := fun x hx => hl x (List.mem_cons_of_mem _ hx)
    rcases List.mem_cons.mp hj with rfl | hj
    · have := sum_map_le others
      omega
    · have := ih others hj
      omega

theorem eq_of_creation {s : State} (h : CreationsDistinct s) {j k : Job} (hj : j ∈ s.sched.jobs) (hk : k ∈ s.sched.jobs)
    (e : k.creation = j.creation) : k = j := List.inj_on_of_nodup_map h hk hj e

/-! ### A decision brings no more to do (R88) -/

theorem activated_creation (c : Nat) (k : Job) : (activated c k).creation = k.creation := by
  rw [activated_eq]
  split
  · rfl
  · split <;> rfl

theorem activated_remaining (c : Nat) (k : Job) : remaining (activated c k) = remaining k ∧ (activated c k).slot = k.slot := by
  rw [activated_eq]
  split
  · exact ⟨rfl, rfl⟩
  · split <;> exact ⟨rfl, rfl⟩

theorem waitingNext_not_inService {k : Job} (h : k.state = .waitingNext) : inService k = false := by
  unfold inService
  rw [h]
  rfl

theorem arbitrate_load {s : State} (hd : CreationsDistinct s) : load (arbitrate s) ≤ load s ∧ CreationsDistinct (arbitrate s) := by
  rcases arbitrate_cases s with ⟨g, hg, h, hwhy⟩ | h
  · rw [h]
    refine ⟨?_, ?_⟩
    · show ((s.sched.jobs.map (activated g.creation)).map (work s)).sum ≤ _
      rw [List.map_map]
      refine sum_map_le fun k hk => ?_
      show work s (activated g.creation k) ≤ work s k
      obtain ⟨hr, hslot⟩ := activated_remaining g.creation k
      have defers : mayDefer s (activated g.creation k) ≤ mayDefer s k := by
        by_cases hw : k.state = .waitingNext ∧ slotPendingN s k.slot = true
        · have other : k.creation ≠ g.creation := fun e => by
            obtain rfl := eq_of_creation hd hg hk e
            rcases hwhy with ⟨he, -⟩ | hi
            · unfold isEligible at he
              rw [hw.1, hw.2] at he
              cases he
            · rw [waitingNext_not_inService hw.1] at hi
              cases hi
          have same : activated g.creation k = k := by
            rw [activated_eq, if_neg other, if_neg (by rw [hw.1]; decide)]
          rw [same]
        · unfold mayDefer
          simp only [hslot]
          by_cases hf : s.slots[k.slot].frame = none
          · rw [if_pos (.inl hf), if_pos (.inl hf)]
          · rw [if_neg (c := s.slots[k.slot].frame = none ∨ k.state = .waitingNext ∧ slotPendingN s k.slot = true)
              (not_or.mpr ⟨hf, hw⟩)]
            split <;> omega
      unfold work
      omega
    · show ((s.sched.jobs.map (activated g.creation)).map fun k => k.creation).Nodup
      rw [List.map_map]
      have e : ((fun k : Job => k.creation) ∘ activated g.creation) = fun k => k.creation := funext (activated_creation g.creation)
      rw [e]
      exact hd
  · rw [h]
    exact ⟨le_rfl, hd⟩

/-! ### A band turn takes from what its job has left to do (R89, R92, R95) -/

theorem walkFrom_defer {entries : Vector StrategyEntry 32} {count : Nat} {c : Candidates} {nPending : Bool} {visits : Nat}
    {at' e : Fin 32} (h : walkFrom entries count c nPending visits at' = .defer e) : nPending = true := by
  induction visits generalizing at' with
  | zero => cases h
  | succ n ih =>
    unfold walkFrom at h
    split at h
    · cases h
    · split at h
      · next hd =>
        unfold entryDefers at hd
        simp only [Bool.and_eq_true] at hd
        exact hd.1.1.2
      · split at h
        · cases h
        · exact ih h

theorem activeJob_spec {s : State} {j : Job} (h : activeJob s = some j) : j ∈ s.sched.jobs ∧ j.state = .active :=
  ⟨List.mem_of_find?_eq_some h, beq_iff_eq.mp (List.find?_some (p := fun j : Job => j.state == .active) h)⟩

/-- The steps still needed once a band turn is taken, by what it leaves to be done. -/
def stillNeeded (next : TurnNext) (s : State) : Nat :=
  match next with
  | .rest => 0
  | .decision => load s + 2
  | .turn => load s + 1

theorem load_completed {s t : State} {j : Job} (hj : j ∈ s.sched.jobs) (hs : Stands s t) (hg : t.gaps = s.gaps)
    (hi : t.ingest = s.ingest) (hd : CreationsDistinct s) (ht : t.sched.jobs = s.sched.jobs.filter fun k => k.creation != j.creation) :
    load t + 2 ≤ load s ∧ CreationsDistinct t := by
  have kept := sum_filter_add_le (f := work s) (p := fun k => k.creation != j.creation) hj (by simp)
  have fewer : load t ≤ ((s.sched.jobs.filter fun k => k.creation != j.creation).map (work s)).sum := by
    unfold load
    rw [ht]
    exact sum_map_le fun k _ => work_stands hs hg hi k
  have own : 2 ≤ work s j := by
    have := remaining_pos j
    unfold work
    omega
  refine ⟨?_, ?_⟩
  · unfold load at *
    omega
  · unfold CreationsDistinct
    rw [ht]
    exact hd.sublist (List.filter_sublist.map _)

/-- A job changed takes `d` from what there is to do when its own work falls by as much. -/
theorem load_changed {s t : State} {j : Job} {change : Job → Job} {d : Nat} (hj : j ∈ s.sched.jobs) (hs : Stands s t)
    (hg : t.gaps = s.gaps) (hi : t.ingest = s.ingest) (hd : CreationsDistinct s) (hc : ∀ k, (change k).creation = k.creation)
    (ht : t.sched.jobs = jobsWith j.creation change s.sched.jobs) (hw : work s (change j) + d ≤ work s j) :
    load t + d ≤ load s ∧ CreationsDistinct t := by
  have fewer : load t ≤ ((jobsWith j.creation change s.sched.jobs).map (work s)).sum := by
    unfold load
    rw [ht]
    exact sum_map_le fun k _ => work_stands hs hg hi k
  have changed : ((jobsWith j.creation change s.sched.jobs).map (work s)).sum + d ≤ load s := by
    unfold jobsWith load
    rw [List.map_map]
    refine sum_map_add_le (fun k hk => ?_) hj ?_
    · show work s (if k.creation = j.creation then change k else k) ≤ work s k
      split
      · next e =>
        rw [eq_of_creation hd hj hk e]
        omega
      · exact le_rfl
    · show work s (if j.creation = j.creation then change j else j) + d ≤ work s j
      rw [if_pos rfl]
      exact hw
  refine ⟨by omega, ?_⟩
  unfold CreationsDistinct
  rw [ht]
  have e : (jobsWith j.creation change s.sched.jobs).map (fun k => k.creation) = s.sched.jobs.map fun k => k.creation := by
    unfold jobsWith
    rw [List.map_map]
    refine List.map_congr_left fun k _ => ?_
    show (if k.creation = j.creation then change k else k).creation = _
    split
    · exact hc k
    · rfl
  rw [e]
  exact hd

theorem passTurn_load {s : State} {j : Job} {b : Fin 18} (hj : j ∈ s.sched.jobs) (hb : j.cursor = some b) (hd : CreationsDistinct s) :
    stillNeeded (passTurn j b s).2 (passTurn j b s).1 ≤ load s ∧ CreationsDistinct (passTurn j b s).1 := by
  obtain ⟨r, hr, -, -⟩ := moveBand_passes j.slot j.field b s
  have moved := moveBand_stands j.slot j.field b s
  unfold passTurn advanceJob
  rw [hr] at moved ⊢
  dsimp only
  cases hn : nextDamaged (s.setSlot j.slot r) j.slot j.field (b.val + 1) with
  | some c =>
    have above := nextDamaged_spec hn
    refine load_changed (d := 1) (change := fun k => { k with held := false, settled := k.settled + 1, cursor := some c }) hj moved rfl
      rfl hd (fun _ => rfl) rfl ?_
    have fewer : remaining { j with held := false, settled := j.settled + 1, cursor := some c } + 1 ≤ remaining j := by
      unfold remaining
      rw [hb]
      dsimp only
      omega
    have defers : mayDefer s { j with held := false, settled := j.settled + 1, cursor := some c } = mayDefer s j := rfl
    unfold work
    rw [defers]
    omega
  | none =>
    have e := completeJob_changed (j := j) (change := fun k => { k with held := false, settled := k.settled + 1, cursor := none })
      (fun _ => rfl) (s.setSlot j.slot r)
    dsimp only
    rw [e]
    exact load_completed hj (moved.trans (slotJobEnded_stands j.slot _)) rfl rfl hd rfl

/-- A band turn that does not rest takes a step from what there is to do, and keeps the creation numbers distinct. -/
theorem bandTurn_load {s : State} {j : Job} (ha : activeJob s = some j) (hd : CreationsDistinct s) :
    stillNeeded (bandTurn j s).2 (bandTurn j s).1 ≤ load s ∧ ((bandTurn j s).2 ≠ .rest → CreationsDistinct (bandTurn j s).1) := by
  obtain ⟨hj, hactive⟩ := activeJob_spec ha
  cases hb : j.cursor with
  | none =>
    rw [bandTurn_pastEnd hb, completeJob_eq]
    have completed := load_completed (t := { s with slots := (slotJobEnded j.slot s).slots, sched := completedSched j s.sched }) hj
      (slotJobEnded_stands j.slot s) rfl rfl hd rfl
    exact ⟨completed.1, fun _ => completed.2⟩
  | some b =>
    rcases walk_cases s (walk s j b) with ⟨e, kind, hw, hk⟩ | ⟨e, hw⟩ | hw
    · rw [bandTurn_takes hb hw hk]
      unfold takeTurn
      split
      · exact ⟨Nat.zero_le _, fun h => absurd rfl h⟩
      · exact ⟨Nat.zero_le _, fun h => absurd rfl h⟩
    · rw [bandTurn_defers hb hw]
      have pending : slotPendingN s j.slot = true := walkFrom_defer hw
      have framed : s.slots[j.slot].frame ≠ none := fun hn => by
        unfold slotPendingN at pending
        rw [hn] at pending
        cases pending
      have deferred : mayDefer s { j with state := .waitingNext, held := false } = 0 := if_pos (.inr ⟨rfl, pending⟩)
      have free : mayDefer s j = 1 := if_neg (not_or.mpr ⟨framed, fun c => by rw [hactive] at c; cases c.1⟩)
      have less : work s { j with state := .waitingNext, held := false } + 2 ≤ work s j := by
        unfold work
        rw [deferred, free]
        exact le_rfl
      have changed := load_changed (t := deferJob j (walkedAs (.defer e) s)) (change := fun k => { k with state := .waitingNext, held := false })
        hj (.of_slots rfl) rfl rfl hd (fun _ => rfl) rfl less
      exact ⟨changed.1, fun _ => changed.2⟩
    · rw [bandTurn_passes hb hw]
      have passed := passTurn_load (s := walkedAs (walk s j b) s) hj hb hd
      exact ⟨passed.1, fun _ => passed.2⟩

/-! ### Serving comes to its end (R88, R89) -/

theorem serveJobs_servedTo (fuel : Nat) (next : TurnNext) (s : State) (hd : next ≠ .rest → CreationsDistinct s)
    (hf : stillNeeded next s ≤ fuel) : ServedTo next s (serveJobs fuel next s) := by
  induction fuel generalizing next s with
  | zero =>
    cases next with
    | rest => exact .rest s
    | decision => exact absurd hf (Nat.not_succ_le_zero _)
    | turn => exact absurd hf (Nat.not_succ_le_zero _)
  | succ fuel ih =>
    cases next with
    | rest => exact .rest s
    | decision =>
      obtain ⟨hload, hkept⟩ := arbitrate_load (hd (by decide))
      refine .decision s _ (ih .turn (arbitrate s) (fun _ => hkept) ?_)
      unfold stillNeeded at *
      dsimp only at *
      omega
    | turn =>
      unfold serveJobs
      cases ha : activeJob s with
      | none => exact .idle s ha
      | some j =>
        obtain ⟨hload, hkept⟩ := bandTurn_load ha (hd (by decide))
        dsimp only
        split
        · next hheld =>
          simp only [Bool.and_eq_true, beq_iff_eq] at hheld
          exact .held s j ha hheld.1 hheld.2
        · next hheld =>
          refine .turn s _ j ha ?_ (ih _ _ hkept ?_)
          · cases hh : j.held with
            | false => exact .inl rfl
            | true =>
              rw [hh] at hheld
              exact .inr (Nat.pos_of_ne_zero fun c => hheld (by simp [c]))
          · have : load s + 1 ≤ fuel + 1 := hf
            omega

/-- A decision serves to its end whatever the jobs, their creation numbers being distinct. -/
theorem decideNow_servedTo {s : State} (hd : CreationsDistinct s) : ServedTo .decision s (decideNow s) := by
  refine serveJobs_servedTo _ .decision s (fun _ => hd) ?_
  have := load_le s
  unfold stillNeeded actLength
  dsimp only
  omega

end Sys2Proof.Machine
end

