-- ==== Sys2Proof/Proofs/DecisionPoint.lean ====
section
/-! What a decision does with the band turns it brings (R79 to R95). -/

namespace Sys2Proof.Machine

/-! ### The turn a decision brings (R88, R89) -/

theorem decisionPoint_free {s : State} (h : s.repair.op = none) : decisionPoint s = decideNow s := by
  unfold decisionPoint
  rw [h]

theorem decideNow_turn (s : State) : decideNow s = serveJobs (s.sched.jobs.length * 24 + 2 + 1) .turn (arbitrate s) := rfl

theorem serveJobs_idle {fuel : Nat} {s : State} (h : activeJob s = none) : serveJobs (fuel + 1) .turn s = s := by
  unfold serveJobs
  rw [h]

theorem serveJobs_held {fuel : Nat} {s : State} {j : Job} (h : activeJob s = some j) (hj : j.held = true)
    (hc : s.sched.counter = 0) : serveJobs (fuel + 1) .turn s = s := by
  unfold serveJobs
  rw [h]
  exact if_pos (by rw [hj, hc]; rfl)

theorem serveJobs_rests {fuel : Nat} {s : State} {j : Job} (h : activeJob s = some j) (hj : j.held = false ∨ 0 < s.sched.counter)
    (hr : (bandTurn j s).2 = .rest) : serveJobs (fuel + 2) .turn s = (bandTurn j s).1 := by
  unfold serveJobs
  rw [h]
  dsimp only
  rw [if_neg, hr]
  · rfl
  · intro c
    simp only [Bool.and_eq_true, beq_iff_eq] at c
    rcases hj with hj | hj
    · rw [hj] at c
      cases c.1
    · omega

/-! ### The statements of a decision (R80 to R95) -/

theorem granted_eq (g : Job) (s : State) :
    granted g.creation s =
      { s with
        sched :=
          { s.sched with
            owed := false
            jobs :=
              s.sched.jobs.map
                (fun k =>
                  if k.creation = g.creation then { k with state := .active, held := k.held && k.state == .active }
                  else if k.state = .active then { k with state := .suspended, held := false }
                  else k) } } := by
  unfold granted
  rw [List.map_congr_left fun k _ => activated_eq g.creation k]

theorem takeTurn_starts {s : State} {j : Job} {b : Fin 18} {kind : RepairKind} {usable : Candidates} {o : Operation}
    (hc : 0 < s.sched.counter) (ho : startOperation j.slot j.field b kind usable = o) :
    takeTurn j b kind usable s =
      ({ s with
         sched :=
           { s.sched with
             jobs := jobsWith j.creation (fun k => { k with held := false }) s.sched.jobs
             counter := s.sched.counter - 1, started := s.sched.started + 1, bandsStarted := bump s.sched.bandsStarted }
         repair := { s.repair with op := some o } }, .rest) := by
  subst ho
  unfold takeTurn
  rw [if_neg (Nat.ne_of_gt hc)]
  rfl

theorem takeTurn_holds {s : State} {j : Job} {b : Fin 18} {kind : RepairKind} {usable : Candidates} (hc : s.sched.counter = 0) :
    takeTurn j b kind usable s =
      ({ s with sched := { s.sched with jobs := jobsWith j.creation (fun k => { k with held := true }) s.sched.jobs } }, .rest) := by
  unfold takeTurn
  rw [if_pos hc]
  rfl

/-- Settles O24: the decision, the point it is taken at, and the band turns it brings. -/
theorem decisionGrantsHighest : Obligations.DecisionGrantsHighest := by
  refine ⟨fun s j h => grantCandidate_spec h, fun s g h => ?_, fun s hg hs => arbitrate_rests hg (serviceStack_head_none.mpr hs),
    fun s => ⟨decisionPoint_busy, fun ho => ⟨fun ha => ?_, fun j ha => ⟨fun hj hc => ?_, fun hj hr => ?_⟩⟩, fun ho hd => ?_⟩,
    fun s j b hb => ?_⟩
  · rw [← granted_eq]
    rcases h with hg | ⟨hn, hm, hi, hh⟩
    · exact arbitrate_grants hg
    · exact arbitrate_resumes hn (serviceStack_highest hm hi hh)
  · rw [decisionPoint_free ho, decideNow_turn]
    exact serveJobs_idle ha
  · rw [decisionPoint_free ho, decideNow_turn]
    exact serveJobs_held ha hj ((arbitrate_counter s).trans hc)
  · rw [decisionPoint_free ho, decideNow_turn]
    exact serveJobs_rests ha (hj.imp_right fun h => by rw [arbitrate_counter]; exact h) hr
  · rw [decisionPoint_free ho]
    exact decideNow_servedTo hd
  · intro walked turned
    refine ⟨fun e kind hw hk => ?_, fun e hw => bandTurn_defers hb hw, fun x hw => bandTurn_equations s j b hb x hw⟩
    intro usable counted
    have turn := bandTurn_takes hb hw hk
    refine ⟨fun hc => ?_, fun hc => turn.trans (takeTurn_holds (s := walkedAs (.taken e) s) hc)⟩
    exact turn.trans (takeTurn_starts (s := walkedAs (.taken e) s) hc (startOperation_eq j.slot j.field b kind usable))

end Sys2Proof.Machine
end

