-- ==== Sys2Proof/Proofs/BandDone.lean ====
section
/-! BAND DONE: the band repaired, its job moved on or completed, and the decision taken (R14, R82, R91, R92, R107, R118 to R120). -/

namespace Sys2Proof.Machine

/-! ### The band handed over (R107, R118) -/

/-- The record of a band repaired. -/
def repairedBy (op : Operation) (x : BandRecord) : BandRecord := { count := x.count, state := .repaired (treatmentOf op) }

/-- The state once the unit has handed over a result and become IDLE, its counts as given. -/
def bandHanded (op : Operation) (x : BandRecord) (result : BandImage) (counts : UnitCounts) (s : State) : State :=
  { s with
    slots := s.slots.set op.slot ((s.slots[op.slot]).setBand op.field op.band (repairedBy op x))
    buffers := (s.setImage op.slot op.field op.band result).buffers
    repair := { op := none, counts := counts } }

theorem handBand_eq {s : State} {op : Operation} {x : BandRecord} (hx : (s.slots[op.slot]).band op.field op.band = some x)
    (hd : x.state = .damaged) : handBand op s = bandHanded op x op.result (countRepair op s.repair.counts) s := by
  have damaged : bandDamaged s op.slot op.field op.band = true := bandDamaged_iff.mpr ⟨x, hx, hd⟩
  unfold handBand moveBandWith
  rw [damaged, if_pos rfl, moveBand_damaged hx hd]
  rfl

section
variable (op : Operation) (x : BandRecord) (result : BandImage) (counts : UnitCounts) (s : State)

/-- The samples of the band handed over are the result's; every other band keeps its own. -/
theorem bandHanded_image (j : Fin 32) (g : Field) (b : Fin 18) :
    (bandHanded op x result counts s).image j g b =
      if op.slot = j ∧ op.field = g ∧ op.band = b then result else s.image j g b :=
  setImage_image s op.slot j op.field g op.band b result

theorem bandHanded_self :
    (bandHanded op x result counts s).slots[op.slot] = (s.slots[op.slot]).setBand op.field op.band (repairedBy op x) :=
  setSlot_slots_self s op.slot _

theorem bandHanded_other {j : Fin 32} (h : j ≠ op.slot) : (bandHanded op x result counts s).slots[j] = s.slots[j] :=
  setSlot_slots_other s op.slot j _ (Ne.symm h)

/-- Of the bands, that of the operation alone has a new record. -/
theorem bandHanded_band {j : Fin 32} {g : Field} {b : Fin 18} (h : ¬(j = op.slot ∧ g = op.field ∧ b = op.band)) :
    ((bandHanded op x result counts s).slots[j]).band g b = (s.slots[j]).band g b := by
  by_cases hj : j = op.slot
  · subst hj
    rw [bandHanded_self]
    exact setBand_band_other _ _ _ _ _ _ fun e => h ⟨rfl, e.1, e.2⟩
  · rw [bandHanded_other _ _ _ _ _ hj]

theorem bandHanded_state (j : Fin 32) : (bandHanded op x result counts s).slots[j].state = s.slots[j].state := by
  by_cases hj : j = op.slot
  · subst hj
    rw [bandHanded_self]
    rfl
  · rw [bandHanded_other _ _ _ _ _ hj]

end

/-! ### The Scheduler's part (R91, R92) -/

/-- What the Scheduler does with a band handed over: its job, if one is ACTIVE, moves on or completes. -/
theorem settleJob_next {op : Operation} {s : State} {j : Job} {c : Fin 18} (ha : activeJob s = some j)
    (hc : nextDamaged s j.slot j.field (op.band.val + 1) = some c) :
    settleJob op s =
      { s with
        sched :=
          { s.sched with
            jobs := jobsWith j.creation (fun k => { k with held := false, settled := k.settled + 1, cursor := some c }) s.sched.jobs } } := by
  unfold settleJob advanceJob
  rw [ha]
  dsimp only
  rw [hc]
  rfl

theorem settleJob_completes {op : Operation} {s : State} {j : Job} (ha : activeJob s = some j)
    (hc : nextDamaged s j.slot j.field (op.band.val + 1) = none) :
    settleJob op s = { s with slots := (slotJobEnded j.slot s).slots, sched := completedSched j s.sched } := by
  unfold settleJob advanceJob
  rw [ha]
  dsimp only
  rw [hc]
  exact completeJob_changed (change := fun k => { k with held := false, settled := k.settled + 1, cursor := none }) (fun _ => rfl) s

theorem settleJob_none {op : Operation} {s : State} (ha : activeJob s = none) : settleJob op s = s := by
  unfold settleJob
  rw [ha]

/-- It changes the slot records as serving may, and the Scheduler's records, alone. -/
theorem settleJob_served (op : Operation) (s : State) :
    ServeKept s (settleJob op s) ∧ ∃ V c, settleJob op s = { s with slots := V, sched := c } := by
  cases ha : activeJob s with
  | none =>
    rw [settleJob_none ha]
    exact ⟨.refl s, s.slots, s.sched, rfl⟩
  | some j =>
    cases hc : nextDamaged s j.slot j.field (op.band.val + 1) with
    | some c =>
      rw [settleJob_next ha hc]
      exact ⟨.of_rest rfl rfl rfl, s.slots, _, rfl⟩
    | none =>
      have kept := completeJob_served j s
      rw [completeJob_eq] at kept
      rw [settleJob_completes ha hc]
      exact ⟨kept, _, _, rfl⟩

/-- What becomes of the ACTIVE job, `r` the new record of the operation's slot. -/
theorem settleJob_equations {s v : State} {op : Operation} {j : Job} {r : SlotRecord} (ha : activeJob s = some j)
    (hslot : j.slot = op.slot) (hfield : j.field = op.field) (hr : r.state = .repairing)
    (hbands : ∀ c, c ≠ op.band → r.band op.field c = (s.slots[op.slot]).band op.field c)
    (hp : r.heldP = s.slots[op.slot].heldP) (hn : r.heldN = s.slots[op.slot].heldN)
    (hv : v.slots = s.slots.set op.slot r) (hrest : { v with slots := s.slots, buffers := s.buffers, repair := s.repair } = s) :
    (∀ c : Fin 18, nextDamaged s op.slot op.field (op.band.val + 1) = some c →
      (settleJob op v).slots = s.slots.set op.slot r ∧
      (settleJob op v).sched =
        { s.sched with
          jobs :=
            jobsWith j.creation (fun k => { k with held := false, settled := k.settled + 1, cursor := some c }) s.sched.jobs }) ∧
    (nextDamaged s op.slot op.field (op.band.val + 1) = none →
      (settleJob op v).sched = completedSched j s.sched ∧
      (1 < r.jobsOutstanding →
        (settleJob op v).slots = s.slots.set op.slot { r with jobsOutstanding := r.jobsOutstanding - 1 }) ∧
      (r.jobsOutstanding ≤ 1 → s.slots[op.slot].heldP ≠ some op.slot → s.slots[op.slot].heldN ≠ some op.slot →
        (settleJob op v).slots[op.slot] = { r with jobsOutstanding := 0, state := .ready, heldP := none, heldN := none } ∧
          ∀ i : Fin 32, i ≠ op.slot → (settleJob op v).slots[i] = releasedRecord s op.slot i)) := by
  have hsched : v.sched = s.sched := by have e := congrArg State.sched hrest; exact e
  have hanchor : v.anchor = s.anchor := by have e := congrArg State.anchor hrest; exact e
  have hsettings : v.settings = s.settings := by have e := congrArg State.settings hrest; exact e
  have active : activeJob v = some j := by
    unfold activeJob
    rw [hsched]
    exact ha
  have self : v.slots[op.slot] = r := by
    rw [hv]
    exact setSlot_slots_self s op.slot r
  have above : nextDamaged v j.slot j.field (op.band.val + 1) = nextDamaged s op.slot op.field (op.band.val + 1) := by
    rw [hslot, hfield]
    exact nextDamaged_above hsettings fun c hc => by rw [self]; exact hbands c hc
  refine ⟨fun c hc => ?_, fun hc => ?_⟩
  · rw [settleJob_next active (above.trans hc)]
    exact ⟨hv, by rw [hsched]⟩
  · rw [settleJob_completes active (above.trans hc), hslot]
    obtain ⟨more, last⟩ := slotJobEnded_after hv hanchor hr hp hn
    exact ⟨by rw [hsched], more, last⟩

/-! ### The band after the decision (R88) -/

/-- Serving leaves a band that is not DAMAGED, of a slot that is not RETAINED. -/
theorem ServeKept.band_settled {h t : State} (served : ServeKept h t) {i : Fin 32} {f : Field} {b : Fin 18} {x : BandRecord}
    (hx : (h.slots[i]).band f b = some x) (hd : x.state ≠ .damaged) (hs : h.slots[i].state ≠ .retained) :
    (t.slots[i]).band f b = some x := by
  rcases served.slots i with ⟨bands, -, -⟩ | ⟨hret, -⟩
  · rcases bands f b with e | ⟨y, hy, hyd, -⟩
    · exact e.trans hx
    · rw [hx] at hy
      cases hy
      exact absurd hyd hd
  · exact absurd hret hs

/-- Serving leaves a band, passes it, or frees its slot. -/
theorem ServeKept.band_cases {h t : State} (served : ServeKept h t) (i : Fin 32) (f : Field) (b : Fin 18) :
    (t.slots[i]).band f b = (h.slots[i]).band f b ∨
      (∃ y, (h.slots[i]).band f b = some y ∧ y.state = .damaged ∧ (t.slots[i]).band f b = some { y with state := .passed }) ∨
      (h.slots[i].state = .retained ∧ t.slots[i] = SlotRecord.freed) := by
  rcases served.slots i with ⟨bands, -, -⟩ | ⟨hret, hfreed⟩
  · exact (bands f b).imp_right .inl
  · exact .inr (.inr ⟨hret, hfreed⟩)

/-- A state but for all that BAND DONE and its decision may change, which is taken from `s`. -/
def besideDecision (s t : State) : State :=
  { t with
    slots := s.slots, buffers := s.buffers, sched := s.sched, repair := s.repair, strategy := s.strategy, reports := s.reports }

/-- An operation in its BLEND phase gains its result and its conditioned mark (R118). -/
theorem blended_eq (s : State) (op : Operation) :
    ∃ r c, blended s op = { op with result := r, conditioned := c } ∧
      ∀ p < 23040, sampleAt r p = BitVec.ofNat 10 (blendAt s op (weightsOf op) p) :=
  ⟨_, _, rfl, fun p hp => sampleAt_imageFrom _ p hp⟩

/-- BAND DONE hands over a result whose samples are the blend's, and serves the Scheduler. -/
theorem bandDone_runs {s : State} {op : Operation} {x : BandRecord} (hop : s.repair.op = some op) (hphase : op.phase = .blend)
    (hx : (s.slots[op.slot]).band op.field op.band = some x) (hd : x.state = .damaged) :
    ∃ result,
      exec .bandDone s =
          .next (tellConditions (decideNow (settleJob op
            (bandHanded op x result (countRepair (blended s op) s.repair.counts) s)))) ∧
        ∀ p < 23040, sampleAt result p = BitVec.ofNat 10 (blendAt s op (weightsOf op) p) := by
  obtain ⟨result, conditioned, hb, samples⟩ := blended_eq s op
  have done : bandDone s = decideNow (settleJob (blended s op) (handBand (blended s op) s)) := by
    unfold bandDone
    rw [hop]
    dsimp only
    rw [hphase]
    rfl
  have counted := congrArg (fun o => countRepair o s.repair.counts) hb
  have handed := handBand_eq (op := { op with result := result, conditioned := conditioned }) hx hd
  refine ⟨result, ?_, samples⟩
  rw [hb, handed] at done
  rw [counted]
  exact congrArg (fun t => Host.Outcome.next (tellConditions t)) done

/-- Settles O26: the band is handed over, its job settled, and the decision that follows changes other bands by PASS alone. -/
theorem bandDoneRepairsBand : Obligations.BandDoneRepairsBand := by
  intro s op x hop hphase hrep hx hd repaired record blends counts
  obtain ⟨result, runs, samples⟩ := bandDone_runs hop hphase hx hd
  have hcounts : countRepair (blended s op) s.repair.counts = counts := rfl
  rw [hcounts] at runs
  clear_value counts
  have himage := bandHanded_image op x result counts s
  have hself : (bandHanded op x result counts s).slots[op.slot] = record := bandHanded_self op x result counts s
  have hband {j g b} := @bandHanded_band op x result counts s j g b
  have hstate := bandHanded_state op x result counts s
  have hslots : (bandHanded op x result counts s).slots = s.slots.set op.slot record := rfl
  have hrepair : (bandHanded op x result counts s).repair = { s.repair with op := none, counts := counts } := rfl
  have hrest : { bandHanded op x result counts s with slots := s.slots, buffers := s.buffers, repair := s.repair } = s := rfl
  generalize bandHanded op x result counts s = h at *
  obtain ⟨settled, V, c, hu⟩ := settleJob_served op h
  have hblends (t : State) (ht : ∀ j g b, t.image j g b = h.image j g b) : blends t := by
    refine ⟨fun p hp => ?_, fun j g b hb => ?_⟩
    · rw [ht, himage, if_pos ⟨rfl, rfl, rfl⟩]
      exact samples p hp
    · rw [ht, himage, if_neg fun e => hb ⟨e.1.symm, e.2.1.symm, e.2.2.symm⟩]
  have idle : (settleJob op h).repair.op = none := by rw [hu]; exact congrArg RepairUnit.op hrepair
  rw [← decisionPoint_free idle] at runs
  have served : ServeKept h (decisionPoint (settleJob op h)) := settled.trans (decisionPoint_served _)
  refine ⟨settleJob op h, _, runs, rfl, by rw [hu]; exact hrepair, hblends _ fun j g b => by rw [hu]; rfl, ?_,
    fun j ha hslot hfield =>
      settleJob_equations ha hslot hfield hrep (fun c hc => setBand_band_other _ _ _ _ _ _ fun e => hc e.2) rfl rfl hslots hrest,
    ?_, hblends _ fun j g b => ?_, fun j g b hb => ?_, ?_, ?_⟩
  · rw [hu]
    exact congrArg (fun v : State => { v with sched := s.sched }) hrest
  · exact served.band_settled (hself ▸ setBand_band ..) (by rintro ⟨⟩) (by rw [hstate, hrep]; decide)
  · exact decisionPoint_image _ j g b |>.trans (by rw [hu]; rfl)
  · rw [← hband hb, ← hstate]
    exact served.band_cases j g b
  · exact served.counts.trans (congrArg RepairUnit.counts hrepair)
  · have handed := congrArg (besideDecision s) hrest
    have decided := congrArg (besideDecision s) served.rest
    exact decided.trans handed

end Sys2Proof.Machine
end

