-- ==== Sys2Proof/Proofs/EventsConsumed.lean ====
section
/-! Picture line events that begin no frame: those consumed in STOPPED and ACQUIRE, the bands ignored, and the FIELD START B that joins
(R31, R35, R40, R41, R43). -/

namespace Sys2Proof.Machine

/-! ### The picture line's commands -/

theorem exec_fieldStart_of {s u : State} {p : Field} {signals : SideSignals} (h : takeFieldStart p signals s = u) :
    exec (.fieldStart p signals) s = .next (settle u) := congrArg (fun t => Host.Outcome.next (settle t)) h

theorem exec_fieldEnd_of {s u : State} (h : takeFieldEnd s = u) : exec .fieldEnd s = .next (settle u) :=
  congrArg (fun t => Host.Outcome.next (settle t)) h

theorem exec_band_of {s u : State} {index count : Byte} {samples : BandImage} (h : takeBand index count samples s = u) :
    exec (.band index count samples) s = .next u := congrArg Host.Outcome.next h

/-! ### STOPPED and ACQUIRE (R31, R35) -/

theorem takeFieldStart_stopped {s : State} (p : Field) (signals : SideSignals) (h : s.ingest.state = .stopped) :
    takeFieldStart p signals s = s := by
  unfold takeFieldStart
  rw [h]

theorem takeFieldStart_acquire {s : State} (p : Field) (signals : SideSignals) (h : s.ingest.state = .acquire) :
    takeFieldStart p signals s = acquireFieldStart p signals s := by
  unfold takeFieldStart
  rw [h]

theorem acquireFieldStart_pending {s : State} (p : Field) (signals : SideSignals) (h : s.ingest.discardPending = true) :
    acquireFieldStart p signals s = discardField { s with ingest := { s.ingest with discardPending := false } } := by
  unfold acquireFieldStart
  rw [if_pos h]

theorem acquireFieldStart_fieldB {s : State} (signals : SideSignals) (h : s.ingest.discardPending = false) :
    acquireFieldStart .b signals s = discardField s := by
  unfold acquireFieldStart
  rw [h, if_neg (by decide)]

theorem takeFieldEnd_unlocked {s : State} (h : s.ingest.state ≠ .locked) : takeFieldEnd s = s := by
  unfold takeFieldEnd
  cases hs : s.ingest.state with
  | stopped => rfl
  | acquire => rfl
  | locked => exact absurd hs h

theorem takeBand_stopped {s : State} (index count : Byte) (samples : BandImage) (h : s.ingest.state = .stopped) :
    takeBand index count samples s = s := by
  unfold takeBand
  rw [h]

theorem takeBand_acquire {s : State} (index count : Byte) (samples : BandImage) (h : s.ingest.state = .acquire) :
    takeBand index count samples s = ignoreBand s := by
  unfold takeBand
  rw [h]

/-- Settles O9: in STOPPED every event is consumed as it is, in ACQUIRE the given-up field is counted. -/
theorem unlockedIngestConsumes : Obligations.UnlockedIngestConsumes := by
  intro s parity signals
  refine ⟨settle_of_told s, fun hs => ⟨fun index count samples => ?_, ?_, ?_⟩, fun hs => ⟨?_, fun hd => ?_, fun hd => ?_⟩⟩
  · exact exec_band_of (takeBand_stopped index count samples hs)
  · exact exec_fieldStart_of (takeFieldStart_stopped parity signals hs)
  · exact exec_fieldEnd_of (takeFieldEnd_unlocked (by rw [hs]; decide))
  · exact exec_fieldEnd_of (takeFieldEnd_unlocked (by rw [hs]; decide))
  · exact exec_fieldStart_of ((takeFieldStart_acquire parity signals hs).trans (acquireFieldStart_pending parity signals hd))
  · exact exec_fieldStart_of ((takeFieldStart_acquire .b signals hs).trans (acquireFieldStart_fieldB signals hd))

/-! ### Bands ignored (R41) -/

theorem takeBand_locked {s : State} (index count : Byte) (samples : BandImage) (h : s.ingest.state = .locked) :
    takeBand index count samples s = lockedBand index count samples s := by
  unfold takeBand
  rw [h]

/-- A BAND in the open field of a frame with a slot is stored there, or ignored. -/
theorem lockedBand_open {s : State} {a : Assembly} {f : Field} {i : Fin 32} (index count : Byte) (samples : BandImage)
    (hf : s.ingest.frame = some a) (ho : a.openField = some f) (ha : a.slot = some i) :
    lockedBand index count samples s = storeBand i f index count samples s := by
  unfold lockedBand
  simp only [hf, ho, ha]

theorem storeBand_outOfRange {s : State} {index : Byte} (i : Fin 32) (f : Field) (count : Byte) (samples : BandImage)
    (h : bandsPer s.settings.format ≤ index.toNat) : storeBand i f index count samples s = ignoreBand s := by
  unfold storeBand
  split
  · rw [if_neg (by omega)]
  · rfl

theorem storeBand_recorded {s : State} {index : Byte} {i : Fin 32} {f : Field} {b : Fin 18} (count : Byte) (samples : BandImage)
    (hb : b.val = index.toNat) (h : ((s.slots[i]).band f b).isSome = true) :
    storeBand i f index count samples s = ignoreBand s := by
  have hlt : index.toNat < 18 := hb ▸ b.isLt
  obtain rfl : b = ⟨index.toNat, hlt⟩ := Fin.ext hb
  obtain ⟨x, hx⟩ := Option.isSome_iff_exists.mp h
  unfold storeBand
  rw [dif_pos hlt, hx]
  exact ite_self (ignoreBand s)

/-- Settles O15: each way a BAND can fail to fit, and the BAND of a DROPPED frame. -/
theorem bandIsIgnored : Obligations.BandIsIgnored := by
  intro s index count samples ignored
  refine ⟨fun hs => exec_band_of (takeBand_acquire index count samples hs), fun hs hf => ?_, fun a hs hf => ?_⟩
  all_goals
    have locked := takeBand_locked index count samples hs
  · refine exec_band_of (locked.trans ?_)
    unfold lockedBand
    rw [hf]
    rfl
  · refine ⟨fun ho => exec_band_of (locked.trans ?_), fun f ho => ⟨fun ha => exec_band_of (locked.trans ?_), fun i ha => ?_⟩⟩
    · unfold lockedBand
      simp only [hf, ho]
      rfl
    · unfold lockedBand
      simp only [hf, ho, ha]
    · have stores := locked.trans (lockedBand_open index count samples hf ho ha)
      exact ⟨fun hr => exec_band_of (stores.trans (storeBand_outOfRange i f count samples hr)),
        fun b hb hx => exec_band_of (stores.trans (storeBand_recorded count samples hb hx))⟩

/-! ### The FIELD START that joins (R40, R43) -/

/-- The state once slot `i` has recorded field B's side signals, with ingest's record as given. -/
def signalled (i : Fin 32) (signals : SideSignals) (g : Ingest) (s : State) : State :=
  { s with slots := s.slots.set i { s.slots[i] with signals := ⟨s.slots[i].signals.a, some signals⟩ }, ingest := g }

theorem signalled_slots (i j : Fin 32) (signals : SideSignals) (g : Ingest) (s : State) :
    (signalled i signals g s).slots[j] =
      if i = j then { s.slots[i] with signals := ⟨s.slots[i].signals.a, some signals⟩ } else s.slots[j] :=
  setSlot_slots s i j _

theorem signalled_band (i j : Fin 32) (signals : SideSignals) (g : Ingest) (s : State) (f : Field) (b : Fin 18) :
    ((signalled i signals g s).slots[j]).band f b = (s.slots[j]).band f b := by
  rw [signalled_slots]
  split
  · next e => subst e; rfl
  · rfl

/-- Bands that have become MISSING have done so beside the side signals and ingest's record. -/
theorem markedMissing_signalled {i : Fin 32} {fields : List Field} {s u : State} (signals : SideSignals) (g : Ingest)
    (h : markedMissing i fields s u) : markedMissing i fields (signalled i signals g s) (signalled i signals g u) := by
  obtain ⟨marked, others, records, rest⟩ := h
  refine ⟨fun f b hm => ?_, fun j f b hn => ?_, fun j => ?_, ?_⟩
  · obtain ⟨hi, hf, hb, absent⟩ := hm
    rw [signalled_band] at absent ⊢
    exact marked f b ⟨hi, hf, hb, absent⟩
  · rw [signalled_band, signalled_band]
    refine others j f b fun ⟨hi, hf, hb, absent⟩ => hn ⟨hi, hf, hb, ?_⟩
    rw [signalled_band]
    exact absent
  · have record := records j
    rw [signalled_slots, signalled_slots]
    split
    · next e =>
      subst e
      rw [← record]
    · exact record
  · exact congrArg (fun t : State => { t with slots := (signalled i signals g s).slots, ingest := g }) rest

theorem lockedFieldStart_joins {s : State} {a : Assembly} (signals : SideSignals) (hf : s.ingest.frame = some a)
    (hj : joinable a = true) : lockedFieldStart .b signals s = joinFrame a signals (rewatched s) := by
  unfold lockedFieldStart
  dsimp only
  split
  · next b hb =>
    obtain rfl : a = b := Option.some.inj (hf.symm.trans hb)
    rw [if_pos hj]
    rfl
  · next hn => exact absurd (hf.symm.trans hn) (by simp)

/-- A frame with a slot joined: field A is closed if it is open, and the side signals are recorded. -/
theorem joinFrame_slot {s : State} {a : Assembly} {i : Fin 32} (signals : SideSignals) (g : Ingest) (ha : a.slot = some i) :
    joinFrame a signals { s with ingest := g } =
      signalled i signals { g with frame := some { a with begunB := true, openField := some .b } }
        (if a.openField = some .a then markFieldMissing i .a s else s) := by
  unfold joinFrame
  rw [ha]
  dsimp only
  split
  · rw [markFieldMissing_ingest]
    rfl
  · rfl

theorem joinFrame_dropped {s : State} {a : Assembly} (signals : SideSignals) (ha : a.slot = none) :
    joinFrame a signals s = setFrame (some { a with begunB := true, openField := some .b }) s := by
  unfold joinFrame
  rw [ha]

/-- Settles O12: the FIELD START B joins, and closing field A first commutes with recording the side signals. -/
theorem fieldStartJoinsFrame : Obligations.FieldStartJoinsFrame := by
  intro s signals a hs hf hA hB joined
  have joins : takeFieldStart .b signals s = joinFrame a signals (rewatched s) :=
    (takeFieldStart_locked .b signals hs).trans (lockedFieldStart_joins signals hf (by simp [joinable, hA, hB]))
  refine ⟨fun ha => exec_fieldStart_of (joins.trans (joinFrame_dropped signals ha)), fun i ha => ?_⟩
  have slot := joins.trans (joinFrame_slot (s := s) signals { s.ingest with watch := 0 } ha)
  refine ⟨fun ho => ?_, fun ho => ⟨_, exec_fieldStart_of slot, ?_⟩⟩
  · rw [if_neg ho] at slot
    exact exec_fieldStart_of slot
  · rw [if_pos ho]
    exact markedMissing_signalled signals joined (markFieldMissing_spec i .a s)

end Sys2Proof.Machine
end

