-- ==== Sys2Proof/Proofs/LeavingLocked.lean ====
section
/-! Leaving LOCKED: the lock lost, the title full, and STOP (R33, R37, R45, R46, R170). -/

namespace Sys2Proof.Machine

/-! ### Ingest stops (R33, R46) -/

theorem enterStopped_locked {s : State} (h : s.ingest.state = .locked) :
    enterStopped s = decisionPoint { s with ingest := { s.ingest with state := .stopped } } := by
  unfold enterStopped
  exact if_pos h

/-- From ACQUIRE ingest stops with no decision point. -/
theorem stopAccepting_acquire {s : State} (h : s.ingest.state = .acquire) :
    stopAccepting s = { s with ingest := { s.ingest with state := .stopped, accepting := false } } := by
  unfold stopAccepting
  rw [h]
  unfold enterStopped
  dsimp only
  rw [if_neg (by rw [h]; decide)]

/-- A frame with a slot runs on. -/
theorem stopAccepting_slot {s : State} {a : Assembly} {i : Fin 32} (h : s.ingest.state = .locked)
    (hf : s.ingest.frame = some a) (ha : a.slot = some i) :
    stopAccepting s = { s with ingest := { s.ingest with accepting := false } } := by
  unfold stopAccepting
  rw [h, hf]
  dsimp only
  rw [ha]

/-- With no frame that has a slot, ingest leaves LOCKED at once, and a DROPPED frame is set aside. -/
theorem stopAccepting_slotless {s : State} (h : s.ingest.state = .locked) (hf : ∀ a, s.ingest.frame = some a → a.slot = none) :
    stopAccepting s =
      decisionPoint { s with ingest := { s.ingest with state := .stopped, accepting := false, frame := none } } := by
  unfold stopAccepting
  rw [h]
  dsimp only
  cases hframe : s.ingest.frame with
  | none => exact enterStopped_locked h
  | some a =>
    dsimp only
    rw [hf a hframe]
    exact enterStopped_locked h

/-! ### The title full (R37, R170) -/

theorem titleIsFull_eq_true {s : State} {n last : Nat} (hn : s.ingest.next = some n) (hl : s.ingest.last = some last)
    (h : last < n) : titleIsFull s = true := by
  unfold titleIsFull
  rw [hn, hl]
  simpa using h

theorem ensureStopped_stopped {s : State} (h : s.ingest.state = .stopped) : ensureStopped s = s := by
  unfold ensureStopped
  exact if_pos h

theorem reportTitleFull_running {s : State} (h : s.title.state = .running) :
    reportTitleFull s = enterDraining (postTitleFull s) := by
  unfold reportTitleFull
  exact if_pos h

/-- A frame start refused while RUNNING in LOCKED, no frame being under assembly: the title drains and ingest is STOPPED. -/
theorem refuseFull_running {s : State} (hs : s.ingest.state = .locked) (hf : s.ingest.frame = none) (ht : s.title.state = .running) :
    refuseFull s =
      decisionPoint
        { s with
          title := { s.title with state := .draining }
          reports := { s.reports with alerts := { s.reports.alerts with titleFull := true } }
          ingest :=
            { s.ingest with
              state := .stopped, accepting := false, frame := none
              fieldsDiscarded := bump s.ingest.fieldsDiscarded } } := by
  have drained := stopAccepting_slotless
    (s := { postTitleFull (discardField s) with title := { s.title with state := .draining } }) hs
    fun _ e => nomatch hf.symm.trans e
  unfold refuseFull
  rw [reportTitleFull_running (s := discardField s) ht]
  refine (congrArg ensureStopped drained).trans (ensureStopped_stopped ?_)
  rw [decisionPoint_ingest]

theorem frameStart_full {s : State} (p : Field) (signals : SideSignals) (h : titleIsFull s = true) :
    frameStart p signals s = refuseFull s := by
  unfold frameStart
  exact if_pos h

/-- Settles O13: the frame start is refused, and the title drains with it. -/
theorem titleFullDrains : Obligations.TitleFullDrains := by
  intro s p signals n last hs hf ht hn hl hlt full
  refine ⟨exec_fieldStart_of ?_, decisionPoint_idle full⟩
  calc takeFieldStart p signals s
      = frameStart p signals (rewatched s) := by rw [takeFieldStart_locked p signals hs, lockedFieldStart_free p signals hf]
    _ = refuseFull (rewatched s) := frameStart_full p signals (titleIsFull_eq_true (s := rewatched s) hn hl hlt)
    _ = decisionPoint full := by
      rw [refuseFull_running (s := rewatched s) hs hf ht]
      simp only [full, rewatched, hf]

/-! ### The lock lost (R33, R45) -/

theorem exec_lockLoss_lost {s : State} (hs : s.ingest.state = .locked) (hw : 3 ≤ s.ingest.watch) :
    exec .lockLoss s = .next (settle (loseLock s)) := by
  have lost : checkLock s = loseLock s := by
    unfold checkLock
    exact if_pos ⟨hs, hw⟩
  exact congrArg (fun t => Host.Outcome.next (settle t)) lost

/-- The lock lost with no frame under assembly. -/
theorem loseLock_free {s : State} (h : s.ingest.frame = none) :
    loseLock s =
      decisionPoint
        { s with
          ingest :=
            { s.ingest with
              state := if s.ingest.accepting then .acquire else .stopped
              watch := 0
              discardPending := if s.ingest.accepting then true else s.ingest.discardPending } } := by
  unfold loseLock
  rw [closeFrame_none h]
  dsimp only
  cases s.ingest.accepting <;> rfl

/-- The frame under assembly closed, the lock is lost as from the state so reached. -/
theorem exec_lockLoss_closed {s u : State} (hs : s.ingest.state = .locked) (hw : 3 ≤ s.ingest.watch) (hu : closeFrame s = u)
    (hg : u.ingest = { s.ingest with frame := none }) : exec .lockLoss s = exec .lockLoss u := by
  have closed : closeFrame u = u := closeFrame_none (by rw [hg])
  have same : loseLock s = loseLock u := by
    unfold loseLock
    rw [hu, closed]
  rw [exec_lockLoss_lost hs hw, exec_lockLoss_lost (s := u) (by rw [hg]; exact hs) (by rw [hg]; exact hw), same]

/-- Settles O18: the frame under assembly is closed, and from there the lock is lost. -/
theorem lockIsLost : Obligations.LockIsLost := by
  intro s hs hw
  refine ⟨fun hf => ?_, fun a hf => ⟨fun ha => ?_, fun i n ha hn => ⟨fun ho => ?_, fun hi hc hr => ?_⟩⟩⟩
  · intro lost
    rw [exec_lockLoss_lost hs hw, loseLock_free hf]
    exact ⟨rfl, decisionPoint_idle lost⟩
  · exact exec_lockLoss_closed hs hw (closeFrame_dropped hf ha) rfl
  · exact frameClosed_of_completed hn ho fun u hu hg _ _ => exec_lockLoss_closed hs hw ((closeFrame_slot hf ha).trans hu.symm) hg
  · exact exec_lockLoss_closed hs hw ((closeFrame_slot hf ha).trans (completeFrame_clean s.ingest hn hi hc hr)) rfl

/-! ### STOP (R46, R170) -/

/-- STOP in RUNNING on a line at rest is answered OK, ingest no longer accepting frames. -/
theorem exec_stop_running {s : State} (tag : Byte) (h : lineAtRest s) (ht : s.title.state = .running) :
    exec (.stop tag []) s =
      .next (replying 0x88 tag [0] (settle (stopAccepting { s with title := { s.title with state := .draining } }))) := by
  have accepted : acceptedIn .stop s.title.state = true := by rw [ht]; rfl
  show Host.Outcome.next (takeRequest { kind := 8, tag := tag, payload := [] } s) = _
  rw [takeRequest_carried (q := .stop) h rfl rfl accepted (by decide)]
  rfl

/-- Settles O53: what ingest does as it stops accepting, by its state and the frame under assembly. -/
theorem stopDrainsTitle : Obligations.StopDrainsTitle := by
  intro s tag hrest ht drained
  rw [exec_stop_running tag hrest ht]
  refine ⟨fun hs => ?_, fun a i hs hf ha => ?_, fun hs hf hi => ?_⟩
  · rw [stopAccepting_acquire (by exact hs)]
  · rw [stopAccepting_slot (i := i) (by exact hs) (by exact hf) ha]
  · rw [stopAccepting_slotless (by exact hs) (by exact hf)]
    exact congrArg (fun t => Host.Outcome.next (replying 0x88 tag [0] (settle t))) (decisionPoint_idle _ hi)

end Sys2Proof.Machine
end

