-- ==== Sys2Proof/Proofs/TitleStart.lean ====
section
/-! START: the rule slot whose mask does not fit refuses it, otherwise the title runs (R34, R57, R169). -/

namespace Sys2Proof.Machine

/-- A rule slot fits the picture format: the rule it holds, if any, has a mask of the format's bands alone (R57). -/
theorem maskFits_iff (f : Format) (r : Option Rule) :
    maskFits f r = true ↔ ∀ x, r = some x → x.mask.toNat < 2 ^ bandsPer f := by
  cases r <;> simp [maskFits]

theorem failingSlot_eq_some {s : State} {k : Fin 16} (hk : maskFits s.settings.format s.classifier.rules[k] = false)
    (hl : ∀ j : Fin 16, j < k → maskFits s.settings.format s.classifier.rules[j] = true) : failingSlot s = some k := by
  unfold failingSlot
  rw [List.find?_eq_some_iff_getElem]
  refine ⟨by rw [hk]; rfl, k.val, by simp, by simp, fun j hj => ?_⟩
  have fits := hl ⟨j, hj.trans k.isLt⟩ hj
  simpa using fits

theorem failingSlot_eq_none {s : State} (h : ∀ k : Fin 16, maskFits s.settings.format s.classifier.rules[k] = true) :
    failingSlot s = none := by
  unfold failingSlot
  rw [List.find?_eq_none]
  intro k _
  simpa using h k

theorem carryStart_refused {s : State} {k : Fin 16} (h : failingSlot s = some k) : carryStart s = (s, [17, byteOf k.val]) := by
  unfold carryStart
  rw [h]
  rfl

theorem carryStart_runs {s : State} {d : TitleDeclaration} (h : failingSlot s = none) (hd : s.title.declaration = some d) :
    carryStart s = (startTitle d s, [0]) := by
  unfold carryStart
  rw [h, hd]
  rfl

/-- START in ARMED on a line at rest is carried out and answered. -/
theorem exec_start_armed {s : State} (tag : Byte) (h : lineAtRest s) (ht : s.title.state = .armed) :
    exec (.start tag []) s = .next (replying 0x87 tag (carryStart s).2 (carryStart s).1) := by
  have accepted : acceptedIn .start s.title.state = true := by rw [ht]; rfl
  show Host.Outcome.next (takeRequest { kind := 7, tag := tag, payload := [] } s) = _
  rw [takeRequest_carried (q := .start) h rfl rfl accepted (by decide)]
  rfl

/-- Settles O52: the lowest rule slot that does not fit is named, and with none the title starts. -/
theorem startRunsTitle : Obligations.StartRunsTitle := by
  intro s tag d hrest ht hd fits
  have fits_iff (k : Fin 16) : fits k ↔ maskFits s.settings.format s.classifier.rules[k] = true := (maskFits_iff _ _).symm
  rw [exec_start_armed tag hrest ht]
  refine ⟨fun k hk hl => ?_, fun h => ⟨startTitle d s, ?_, ?_⟩⟩
  · have failing := failingSlot_eq_some (by simpa using mt (fits_iff k).mpr hk) fun j hj => (fits_iff j).mp (hl j hj)
    rw [carryStart_refused failing]
  · rw [carryStart_runs (failingSlot_eq_none fun k => (fits_iff k).mp (h k)) hd]
  · exact ⟨rfl, rfl, rfl, rfl, rfl, rfl, rfl, rfl, rfl, rfl, rfl, rfl⟩

end Sys2Proof.Machine
end

