-- ==== Sys2Proof/Proofs/Loads.lean ====
section
/-! LOAD RULE and LOAD ENTRY: each record is read back as the rule or the entry it was written for, and taken (R52, R57, R58, R60,
R61, R76, Tables 11-4, 11-6). -/

namespace Sys2Proof.Machine

/-! ### Records -/

/-- A field selector's code (Table 11-1). -/
def selectorByte : Selector → Byte
  | .fieldA => 1
  | .fieldB => 2
  | .either => 3

/-- A test's code (Table 11-1). -/
def testByte : RuleTest → Byte
  | .any => 1
  | .all => 2
  | .none => 3

/-- A strategy kind's code (Table 11-1). -/
def strategyKindByte : StrategyKind → Byte
  | .temporal => 1
  | .spatial => 2
  | .adaptive => 3
  | .hold => 4
  | .pass => 5

/-- A next link's code, END being 0xFF (Table 11-4). -/
def nextByte : Option (Fin 32) → Byte
  | some n => byteOf n.val
  | none => 0xFF

/-- The LOAD RULE payload that carries a rule for a slot (Tables 11-4, 11-6). -/
def rulePayload (k : Fin 16) (r : Rule) : List Byte :=
  [byteOf k.val, selectorByte r.selector] ++ beBytes 3 r.mask.toNat ++
    [testByte r.test, byteOf (signalsNumber r.requirement), byteOf r.tier.val, byteOf r.chain.val]

/-- The LOAD ENTRY payload that carries an entry for an index (Table 11-4). -/
def entryPayload (k : Fin 32) (e : StrategyEntry) : List Byte :=
  [byteOf k.val, strategyKindByte e.kind, nextByte e.next, if e.wait then 1 else 0, byteOf e.limit]

/-! ### Reading a byte of a record -/

theorem byteAt_of_getElem? {bs : List Byte} {i : Nat} {b : Byte} (h : bs[i]? = some b) : byteAt bs i = b.toNat := by
  unfold byteAt numberAt bytesAt
  rw [List.take_one, List.head?_drop, h]
  simp [fromBytes]

theorem byteOf_toNat {v : Nat} (h : v < 256) : (byteOf v).toNat = v := by
  rw [BitVec.toNat_ofNat, Nat.mod_eq_of_lt h]

theorem byteAt_byteOf {bs : List Byte} {i v : Nat} (h : bs[i]? = some (byteOf v)) (hv : v < 256) : byteAt bs i = v := by
  rw [byteAt_of_getElem? h, byteOf_toNat hv]

/-! ### Each item read back from its code -/

theorem selectorOf_selectorByte (x : Selector) : selectorOf (selectorByte x).toNat = some x := by cases x <;> rfl

theorem testOf_testByte (x : RuleTest) : testOf (testByte x).toNat = some x := by cases x <;> rfl

theorem strategyKindOf_strategyKindByte (x : StrategyKind) : strategyKindOf (strategyKindByte x).toNat = some x := by
  cases x <;> rfl

theorem ruleSlotOf_val (k : Fin 16) : ruleSlotOf k.val = some k := dif_pos k.isLt

theorem tierOf_val (t : Fin 8) : tierOf t.val = some t := dif_pos t.isLt

theorem entryOf32_val (k : Fin 32) : entryOf32 k.val = some k := dif_pos k.isLt

theorem nextOf_nextByte (x : Option (Fin 32)) : nextOf (nextByte x).toNat = some x := by
  cases x with
  | none => rfl
  | some n =>
    have value : (nextByte (some n)).toNat = n.val := byteOf_toNat (by omega)
    unfold nextOf
    rw [value, if_neg (by omega), entryOf32_val]
    rfl

theorem waitOf_ite (w : Bool) : waitOf (if w then 1 else 0 : Byte).toNat = some w := by cases w <;> rfl

theorem limitOf_of_mem {n : Nat} (h : 1 ≤ n ∧ n ≤ 18) : limitOf n = some n := if_pos h

theorem signalsNumber_lt (x : SideSignals) : signalsNumber x < 8 := by
  obtain ⟨head, tracking, signal⟩ := x
  simp only [signalsNumber, bitsNumber]
  split_ifs <;> decide

theorem signalsOf_signalsNumber (x : SideSignals) : signalsOf (byteOf (signalsNumber x)) = x := by
  obtain ⟨head, tracking, signal⟩ := x
  cases head <;> cases tracking <;> cases signal <;> rfl

theorem requirementOf_signalsNumber {bs : List Byte} {i : Nat} {x : SideSignals}
    (h : bs[i]? = some (byteOf (signalsNumber x))) : requirementOf bs i = some x := by
  have small := signalsNumber_lt x
  unfold requirementOf
  rw [byteAt_byteOf h (by omega)]
  dsimp only
  rw [if_pos small, signalsOf_signalsNumber]

theorem maskOf_beBytes {bs : List Byte} {i : Nat} {m : BitVec 18} (h : bytesAt bs i 3 = beBytes 3 m.toNat) :
    maskOf bs i = some m := by
  have value : numberAt bs i 3 = m.toNat := by
    unfold numberAt
    rw [h, fromBytes_beBytes 3 _ (by omega)]
  unfold maskOf
  rw [value]
  dsimp only
  rw [if_pos m.isLt, BitVec.ofNat_toNat, BitVec.setWidth_eq]

/-! ### The records read back (R57, R61) -/

theorem ruleOf_rulePayload (k : Fin 16) (r : Rule) : ruleOf (rulePayload k r) 1 = some r := by
  have selector : byteAt (rulePayload k r) 1 = (selectorByte r.selector).toNat := byteAt_of_getElem? rfl
  have mask : maskOf (rulePayload k r) (1 + 1) = some r.mask := maskOf_beBytes rfl
  have test : byteAt (rulePayload k r) (1 + 4) = (testByte r.test).toNat := byteAt_of_getElem? rfl
  have requirement : requirementOf (rulePayload k r) (1 + 5) = some r.requirement := requirementOf_signalsNumber rfl
  have tier : byteAt (rulePayload k r) (1 + 6) = r.tier.val := byteAt_byteOf rfl (by omega)
  have chain : byteAt (rulePayload k r) (1 + 7) = r.chain.val := byteAt_byteOf rfl (by omega)
  unfold ruleOf
  rw [selector, selectorOf_selectorByte, mask, test, testOf_testByte, requirement, tier, tierOf_val, chain, entryOf32_val]
  rfl

theorem loadRuleOf_rulePayload (k : Fin 16) (r : Rule) : loadRuleOf (rulePayload k r) = some (k, some r) := by
  have slot : byteAt (rulePayload k r) 0 = k.val := byteAt_byteOf rfl (by omega)
  have long : (rulePayload k r).length ≠ 1 := by
    show 9 ≠ 1
    decide
  unfold loadRuleOf
  rw [slot, ruleSlotOf_val, Option.bind_eq_bind, Option.bind_some, if_neg long, ruleOf_rulePayload]
  rfl

/-- A payload of the slot alone carries EMPTY. -/
theorem loadRuleOf_empty (k : Fin 16) : loadRuleOf [byteOf k.val] = some (k, none) := by
  have slot : byteAt [byteOf k.val] 0 = k.val := byteAt_byteOf rfl (by omega)
  unfold loadRuleOf
  rw [slot, ruleSlotOf_val, Option.bind_eq_bind, Option.bind_some, if_pos List.length_singleton]
  rfl

theorem loadEntryOf_entryPayload (k : Fin 32) {e : StrategyEntry} (h : 1 ≤ e.limit ∧ e.limit ≤ 18) :
    loadEntryOf (entryPayload k e) = some (k, e) := by
  have index : byteAt (entryPayload k e) 0 = k.val := byteAt_byteOf rfl (by omega)
  have kind : byteAt (entryPayload k e) 1 = (strategyKindByte e.kind).toNat := byteAt_of_getElem? rfl
  have next : byteAt (entryPayload k e) 2 = (nextByte e.next).toNat := byteAt_of_getElem? rfl
  have wait : byteAt (entryPayload k e) 3 = (if e.wait then 1 else 0 : Byte).toNat := byteAt_of_getElem? rfl
  have limit : byteAt (entryPayload k e) 4 = e.limit := byteAt_byteOf rfl (by omega)
  unfold loadEntryOf
  rw [index, entryOf32_val, kind, strategyKindOf_strategyKindByte, next, nextOf_nextByte, wait, waitOf_ite, limit, limitOf_of_mem h]
  rfl

/-! ### The requests served (R57, R58, R61, R76) -/

theorem loadRule_accepted {t : TitleState} (h : t = .idle ∨ t = .armed) : acceptedIn .loadRule t = true := by
  rcases h with rfl | rfl <;> rfl

theorem loadEntry_accepted {t : TitleState} (h : t = .idle ∨ t = .armed) : acceptedIn .loadEntry t = true := by
  rcases h with rfl | rfl <;> rfl

/-- A LOAD RULE whose payload reads as a slot and its rule is answered OK, the slot taking the rule. -/
theorem exec_loadRule_taken {s : State} {payload : List Byte} {k : Fin 16} {rule : Option Rule} (tag : Byte) (h : lineAtRest s)
    (ht : s.title.state = .idle ∨ s.title.state = .armed) (hl : lengthFits .loadRule payload = true)
    (hp : loadRuleOf payload = some (k, rule)) :
    exec (.loadRule tag payload) s = .next (replying 0x82 tag [0] (takeRule k rule s)) := by
  have carried : carryOut .loadRule payload s = (takeRule k rule s, [0]) := by
    unfold carryOut carryLoadRule
    rw [hp]
    rfl
  show Host.Outcome.next (takeRequest { kind := 2, tag := tag, payload := payload } s) = _
  rw [takeRequest_carried (q := .loadRule) h rfl hl (loadRule_accepted ht) (by decide), carried]
  rfl

/-- A LOAD ENTRY whose payload reads as an index and its entry is answered OK, the index taking the entry. -/
theorem exec_loadEntry_taken {s : State} {payload : List Byte} {k : Fin 32} {e : StrategyEntry} (tag : Byte) (h : lineAtRest s)
    (ht : s.title.state = .idle ∨ s.title.state = .armed) (hl : lengthFits .loadEntry payload = true)
    (hp : loadEntryOf payload = some (k, e)) :
    exec (.loadEntry tag payload) s = .next (replying 0x83 tag [0] (takeEntry k e s)) := by
  have carried : carryOut .loadEntry payload s = (takeEntry k e s, [0]) := by
    unfold carryOut carryLoadEntry
    rw [hp]
    rfl
  show Host.Outcome.next (takeRequest { kind := 3, tag := tag, payload := payload } s) = _
  rw [takeRequest_carried (q := .loadEntry) h rfl hl (loadEntry_accepted ht) (by decide), carried]
  rfl

/-- Settles O49: each payload reads back as the record it carries, which is then taken. -/
theorem loadsTakeEffect : Obligations.LoadsTakeEffect := by
  intro s tag hrest ht
  refine ⟨fun k => ?_, fun k r => ?_, fun k e hlo hhi => ?_⟩
  · exact exec_loadRule_taken tag hrest ht rfl (loadRuleOf_empty k)
  · exact exec_loadRule_taken tag hrest ht rfl (loadRuleOf_rulePayload k r)
  · exact exec_loadEntry_taken tag hrest ht rfl (loadEntryOf_entryPayload k ⟨hlo, hhi⟩)

end Sys2Proof.Machine
end

