-- ==== Sys2Proof/Proofs/Walk.lean ====
section
/-! The chain walk (R72 to R75): it comes to the entries of its chain in order, as long as those before are passed over, and ends at the
first whose visit ends it, or at the visit limit. -/

namespace Sys2Proof.Machine

section
variable (entries : Vector StrategyEntry 32) (count : Nat) (c : Candidates) (nPending : Bool)

/-- The walk comes to entry `x` after passing over `k` entries of the chain from `e`. -/
def walkComesTo (k : Nat) (e x : Fin 32) : Prop := chainEntry entries k e = some x ∧ chainPassed entries count c nPending k e

/-- The visit of entry `x` ends the walk with this result; the visit limit is not of an entry's making (R73, R74). -/
def visitEnds (x : Fin 32) : WalkResult → Prop
  | .taken y => x = y ∧ entryAvailable entries[x] count c = true
  | .defer y => x = y ∧ entryDefers entries[x] count c nPending = true
  | .passedAtEnd => passedOver entries[x] count c nPending ∧ entries[x].next = none
  | .passedAtLimit => False

variable {entries count c nPending}

/-- An entry that is available is not waited at. -/
theorem entryDefers_of_available {e : StrategyEntry} (h : entryAvailable e count c = true) : entryDefers e count c nPending = false := by
  unfold entryDefers
  rw [h, Bool.not_true, Bool.and_false, Bool.false_and]

theorem walkFrom_of_available (n : Nat) {e : Fin 32} (h : entryAvailable entries[e] count c = true) :
    walkFrom entries count c nPending (n + 1) e = .taken e := if_pos h

theorem walkFrom_of_defers (n : Nat) {e : Fin 32} (h : entryDefers entries[e] count c nPending = true) :
    walkFrom entries count c nPending (n + 1) e = .defer e := by
  have ha : ¬entryAvailable entries[e] count c = true := fun ha => by rw [entryDefers_of_available ha] at h; cases h
  rw [walkFrom, if_neg ha, if_pos h]

theorem walkFrom_of_passedOver (n : Nat) {e : Fin 32} (h : passedOver entries[e] count c nPending) :
    walkFrom entries count c nPending (n + 1) e =
      (entries[e].next).elim .passedAtEnd (walkFrom entries count c nPending n) := by
  rw [walkFrom, if_neg (by rw [h.1]; decide), if_neg (by rw [h.2]; decide)]
  cases entries[e].next <;> rfl

/-- One visit of the walk: it ends it, or the entry is passed over and the walk goes on from the next. -/
theorem walkFrom_succ {n : Nat} {e : Fin 32} {r : WalkResult} :
    walkFrom entries count c nPending (n + 1) e = r ↔
      visitEnds entries count c nPending e r ∨
        passedOver entries[e] count c nPending ∧ ∃ nx, entries[e].next = some nx ∧ walkFrom entries count c nPending n nx = r := by
  cases ha : entryAvailable entries[e] count c with
  | true =>
    rw [walkFrom_of_available n ha]
    cases r <;> simp [visitEnds, ha, entryDefers_of_available ha, -Fin.getElem_fin]
  | false =>
    cases hd : entryDefers entries[e] count c nPending with
    | true =>
      rw [walkFrom_of_defers n hd]
      cases r <;> simp [visitEnds, ha, hd, -Fin.getElem_fin]
    | false =>
      rw [walkFrom_of_passedOver n ⟨ha, hd⟩]
      have hp : passedOver entries[e] count c nPending = True := eq_true ⟨ha, hd⟩
      cases hn : entries[e].next with
      | none => cases r <;> simp [visitEnds, ha, hd, hp, hn, -Fin.getElem_fin]
      | some nx => cases r <;> simp [visitEnds, ha, hd, hp, hn, -Fin.getElem_fin]

theorem walkComesTo_zero {e x : Fin 32} : walkComesTo entries count c nPending 0 e x ↔ e = x := by
  simp [walkComesTo, chainEntry, chainPassed]

theorem walkComesTo_succ {k : Nat} {e x : Fin 32} :
    walkComesTo entries count c nPending (k + 1) e x ↔
      passedOver entries[e] count c nPending ∧ ∃ nx, entries[e].next = some nx ∧ walkComesTo entries count c nPending k nx x := by
  constructor
  · rintro ⟨entry, passed⟩
    obtain ⟨nx, next, rest⟩ := Option.bind_eq_some_iff.mp entry
    obtain ⟨d, hd, head⟩ := passed 0 (Nat.succ_pos k)
    cases hd
    refine ⟨head, nx, next, rest, fun j hj => ?_⟩
    have later := passed (j + 1) (Nat.succ_lt_succ hj)
    rw [chainEntry, next] at later
    exact later
  · rintro ⟨head, nx, next, rest, passed⟩
    refine ⟨Option.bind_eq_some_iff.mpr ⟨nx, next, rest⟩, fun j hj => ?_⟩
    cases j with
    | zero => exact ⟨e, rfl, head⟩
    | succ j =>
      rw [chainEntry, next]
      exact passed j (Nat.lt_of_succ_lt_succ hj)

/-- The walk ends at the first entry whose visit ends it, or has come past as many entries as it may visit. -/
theorem walkFrom_eq_iff {n : Nat} {e : Fin 32} {r : WalkResult} :
    walkFrom entries count c nPending n e = r ↔
      (∃ k < n, ∃ x, walkComesTo entries count c nPending k e x ∧ visitEnds entries count c nPending x r) ∨
        (r = .passedAtLimit ∧ ∃ x, walkComesTo entries count c nPending n e x) := by
  induction n generalizing e with
  | zero => simp [walkFrom, walkComesTo_zero, eq_comm]
  | succ n ih =>
    rw [walkFrom_succ]
    constructor
    · rintro (ends | ⟨head, nx, next, walked⟩)
      · exact .inl ⟨0, n.succ_pos, e, walkComesTo_zero.mpr rfl, ends⟩
      · rcases ih.mp walked with ⟨k, hk, x, comes, ends⟩ | ⟨limit, x, comes⟩
        · exact .inl ⟨k + 1, Nat.succ_lt_succ hk, x, walkComesTo_succ.mpr ⟨head, nx, next, comes⟩, ends⟩
        · exact .inr ⟨limit, x, walkComesTo_succ.mpr ⟨head, nx, next, comes⟩⟩
    · rintro (⟨k, hk, x, comes, ends⟩ | ⟨limit, x, comes⟩)
      · cases k with
        | zero =>
          rw [walkComesTo_zero] at comes
          exact .inl (comes ▸ ends)
        | succ k =>
          obtain ⟨head, nx, next, comes⟩ := walkComesTo_succ.mp comes
          exact .inr ⟨head, nx, next, ih.mpr (.inl ⟨k, Nat.lt_of_succ_lt_succ hk, x, comes, ends⟩)⟩
      · obtain ⟨head, nx, next, comes⟩ := walkComesTo_succ.mp comes
        exact .inr ⟨head, nx, next, ih.mpr (.inr ⟨limit, x, comes⟩)⟩

/-- A chain's link after `k` more entries is the link of the entry reached by `k`. -/
theorem chainEntry_succ (k : Nat) (e : Fin 32) :
    chainEntry entries (k + 1) e = (chainEntry entries k e).bind (fun x => entries[x].next) := by
  induction k generalizing e with
  | zero => cases h : entries[e].next <;> simp [chainEntry, h, -Fin.getElem_fin]
  | succ k ih =>
    rw [chainEntry]
    cases h : entries[e].next with
    | none => simp [chainEntry, h, -Fin.getElem_fin]
    | some nx => rw [Option.bind_some, ih, chainEntry, h, Option.bind_some]

/-- Having passed over `k + 1` entries, the walk came to the last of them and passed over it. -/
theorem chainPassed_succ {k : Nat} {e : Fin 32} :
    chainPassed entries count c nPending (k + 1) e ↔
      ∃ x, walkComesTo entries count c nPending k e x ∧ passedOver entries[x] count c nPending := by
  constructor
  · intro passed
    obtain ⟨x, entry, last⟩ := passed k (Nat.lt_succ_self k)
    exact ⟨x, ⟨entry, fun j hj => passed j (Nat.lt_succ_of_lt hj)⟩, last⟩
  · rintro ⟨x, ⟨entry, passed⟩, last⟩ j hj
    rcases Nat.lt_succ_iff_lt_or_eq.mp hj with hj | rfl
    · exact passed j hj
    · exact ⟨x, entry, last⟩

/-- The chain ends after `k + 1` entries passed over exactly when the visit of the last of them ends the walk at END. -/
theorem chainPassed_end_iff {k : Nat} {e : Fin 32} :
    chainPassed entries count c nPending (k + 1) e ∧ chainEntry entries (k + 1) e = none ↔
      ∃ x, walkComesTo entries count c nPending k e x ∧ visitEnds entries count c nPending x .passedAtEnd := by
  rw [chainPassed_succ, chainEntry_succ]
  constructor
  · rintro ⟨⟨x, comes, last⟩, ended⟩
    rw [comes.1, Option.bind_some] at ended
    exact ⟨x, comes, last, ended⟩
  · rintro ⟨x, comes, last, ended⟩
    exact ⟨⟨x, comes, last⟩, by rw [comes.1]; exact ended⟩

/-- A walk that does not reach its limit ends with the visit of an entry it comes to. -/
theorem walkFrom_eq_iff_of_ne {n : Nat} {e : Fin 32} {r : WalkResult} (hr : r ≠ .passedAtLimit) :
    walkFrom entries count c nPending n e = r ↔
      ∃ k < n, ∃ x, walkComesTo entries count c nPending k e x ∧ visitEnds entries count c nPending x r := by
  rw [walkFrom_eq_iff, or_iff_left fun h => hr h.1]

/-- A result that only the visit of entry `d` gives is the walk's exactly when the walk comes to `d` and stops there. -/
theorem walkFrom_eq_iff_stops {n : Nat} {e d : Fin 32} {r : WalkResult} (stops : Fin 32 → Prop) (hr : r ≠ .passedAtLimit)
    (hv : ∀ x, visitEnds entries count c nPending x r ↔ x = d ∧ stops x) :
    walkFrom entries count c nPending n e = r ↔
      ∃ k < n, chainEntry entries k e = some d ∧ chainPassed entries count c nPending k e ∧ stops d := by
  rw [walkFrom_eq_iff_of_ne hr]
  refine exists_congr fun k => and_congr_right fun _ => ⟨?_, ?_⟩
  · rintro ⟨x, ⟨entry, passed⟩, ends⟩
    obtain ⟨rfl, stop⟩ := (hv x).mp ends
    exact ⟨entry, passed, stop⟩
  · rintro ⟨entry, passed, stop⟩
    exact ⟨d, ⟨entry, passed⟩, (hv d).mpr ⟨rfl, stop⟩⟩

/-- The walk ends at the visit limit exactly when it has come past as many entries as it may visit. -/
theorem walkFrom_eq_limit_iff {n : Nat} {e : Fin 32} :
    walkFrom entries count c nPending n e = .passedAtLimit ↔
      chainPassed entries count c nPending n e ∧ (chainEntry entries n e).isSome = true := by
  rw [walkFrom_eq_iff, Option.isSome_iff_exists]
  constructor
  · rintro (⟨k, -, x, -, ⟨⟩⟩ | ⟨-, x, entry, passed⟩)
    exact ⟨passed, x, entry⟩
  · rintro ⟨passed, x, entry⟩
    exact .inr ⟨rfl, x, entry, passed⟩

/-- Settles O23: each result is read off the one visit that ends the walk, or is the limit. -/
theorem walkFollowsChain : Obligations.WalkFollowsChain := by
  intro entries count c nPending head e walked
  refine ⟨?_, ?_, walkFrom_eq_limit_iff, ?_⟩
  · exact walkFrom_eq_iff_stops (fun x => entryAvailable entries[x] count c = true) nofun fun _ => Iff.rfl
  · exact walkFrom_eq_iff_stops (fun x => entryDefers entries[x] count c nPending = true) nofun fun _ => Iff.rfl
  · exact (walkFrom_eq_iff_of_ne (r := .passedAtEnd) nofun).trans
      (exists_congr fun k => and_congr_right fun _ => chainPassed_end_iff.symm)

end

end Sys2Proof.Machine
end

