-- ==== Sys2Proof/Proofs/Configuration.lean ====
section
/-! Every command keeps the configuration legal: only CONFIGURE, LOAD ENTRY and ADJUST take a setting, a band limit or a band budget, each
by a reading that checks or clamps it, and a reset gives the reset values (R60, R84, R115, R117, R174, R176). -/

namespace Sys2Proof.Machine

/-- The configuration stays within its ranges. -/
def LegalKept (s t : State) : Prop := configurationLegal s → configurationLegal t

theorem LegalKept.refl (s : State) : LegalKept s s := id

theorem LegalKept.trans {s t u : State} (h : LegalKept s t) (k : LegalKept t u) : LegalKept s u := k ∘ h

/-- The configuration is the settings, the band budget and the strategy entries. -/
theorem LegalKept.of_same {s t : State} (hs : t.settings = s.settings) (hb : t.sched.bandBudget = s.sched.bandBudget)
    (he : t.strategy.entries = s.strategy.entries) : LegalKept s t := by
  intro h
  unfold configurationLegal at *
  rw [hs, hb, he]
  exact h

theorem Kept.legal {s t : State} (h : Kept s t) : LegalKept s t := .of_same h.settings h.budget h.entries

theorem LineOnly.legal {s t : State} (h : LineOnly s t) : LegalKept s t :=
  .of_same (congrArg State.settings h.rest :) (congrArg (fun u => u.sched.bandBudget) h.rest :)
    (congrArg (fun u => u.strategy.entries) h.rest :)

/-! ### The readings that check and clamp -/

/-- A weight row that is read sums to 64. -/
theorem weightRowOf_legal {bs : List Byte} {offset : Nat} {w : Weights} (h : weightRowOf bs offset = some w) : rowLegal w := by
  unfold weightRowOf at h
  dsimp only at h
  split at h
  · next sum =>
    cases h
    exact sum
  · cases h

/-- A settings record that is read has every item within its range, checked or clamped. -/
theorem configRecordOf_legal {bs : List Byte} {c : ConfigRecord} (h : configRecordOf bs = some c) :
    settingsLegal c.settings ∧ 1 ≤ c.bandBudget ∧ c.bandBudget ≤ 64 := by
  unfold configRecordOf at h
  simp only [Option.bind_eq_bind, Option.bind_eq_some_iff] at h
  obtain ⟨_, -, _, -, _, -, w0, h0, w1, h1, w2, h2, w3, h3, _, -, _, -, h⟩ := h
  split at h
  · next fit =>
    cases h
    simp only [thresholdsFit, Bool.and_eq_true, decide_eq_true_eq] at fit
    obtain ⟨⟨⟨lo, lt12⟩, lt23⟩, hi⟩ := fit
    refine ⟨⟨clamp_bounds (by decide) _, clamp_bounds (by decide) _, clamp_bounds (by decide) _, clamp_bounds (by decide) _,
      ⟨lo, lt12, lt23, hi⟩, ?_⟩, clamp_bounds (by decide) _⟩
    exact ⟨weightRowOf_legal h0, weightRowOf_legal h1, weightRowOf_legal h2, weightRowOf_legal h3⟩
  · cases h

/-- A strategy entry that is read has its band limit within 1..18. -/
theorem loadEntryOf_legal {bs : List Byte} {k : Fin 32} {e : StrategyEntry} (h : loadEntryOf bs = some (k, e)) :
    1 ≤ e.limit ∧ e.limit ≤ 18 := by
  unfold loadEntryOf at h
  simp only [Option.bind_eq_bind, Option.bind_eq_some_iff] at h
  obtain ⟨_, -, _, -, _, -, _, -, limit, hl, h⟩ := h
  cases h
  unfold limitOf at hl
  split at hl
  · next range =>
    cases hl
    exact range
  · cases hl

/-! ### Requests -/

theorem takeConfig_legal {bs : List Byte} {c : ConfigRecord} (h : configRecordOf bs = some c) (s : State) :
    LegalKept s (takeConfig c s) := fun ⟨_, _, limits⟩ =>
  have ⟨settings, budget⟩ := configRecordOf_legal h
  ⟨settings, budget, limits⟩

theorem takeEntry_legal {bs : List Byte} {k : Fin 32} {e : StrategyEntry} (h : loadEntryOf bs = some (k, e)) (s : State) :
    LegalKept s (takeEntry k e s) := by
  rintro ⟨settings, budget, limits⟩
  refine ⟨settings, budget, fun j => ?_⟩
  show 1 ≤ (s.strategy.entries.set k e)[j].limit ∧ (s.strategy.entries.set k e)[j].limit ≤ 18
  by_cases hj : k = j
  · subst hj
    simpa using loadEntryOf_legal h
  · rw [Fin.getElem_fin, Vector.getElem_set_ne _ _ (fun he => hj (Fin.ext he))]
    exact limits j

theorem takeAdjustment_legal (a : Adjustment) (s : State) : LegalKept s (takeAdjustment a s) := by
  rintro ⟨settings, budget, limits⟩
  refine ⟨settings, ?_, limits⟩
  unfold takeAdjustment
  cases a.bandBudget with
  | none => exact budget
  | some b => exact clamp_bounds (by decide) b

/-- A request carried out keeps the configuration legal. -/
theorem carryOut_legal (q : RequestName) (payload : List Byte) (s : State) : LegalKept s (carryOut q payload s).1 := by
  have same : LegalKept s s := .refl s
  cases q with
  | configure =>
    unfold carryOut carryConfigure
    dsimp only
    split
    · exact same
    · next c hc => exact takeConfig_legal hc s
  | loadRule =>
    unfold carryOut carryLoadRule
    dsimp only
    split
    · exact same
    · exact .of_same rfl rfl rfl
  | loadEntry =>
    unfold carryOut carryLoadEntry
    dsimp only
    split
    · exact same
    · next k e he => exact takeEntry_legal he s
  | adjust =>
    unfold carryOut carryAdjust
    dsimp only
    split
    · exact same
    · next a _ => exact (takeAdjustment_legal a s).trans ((decisionPoint_kept _).trans (tellConditions_kept _)).legal
  | declareSpare =>
    unfold carryOut carryDeclareSpare
    dsimp only
    split
    · unfold pairSpare
      dsimp only [answer]
      split <;> exact .of_same rfl rfl rfl
    · exact same
  | openTitle =>
    unfold carryOut carryOpenTitle
    dsimp only
    split
    · unfold pairTitle
      dsimp only [answer]
      split <;> exact .of_same rfl rfl rfl
    · exact same
  | start =>
    unfold carryOut carryStart
    dsimp only
    split
    · exact same
    · split
      · exact .of_same rfl rfl rfl
      · exact same
  | stop => exact ((enterDraining_kept s).trans (settle_kept _)).legal
  | abort => exact (abortTitle_kept s).legal
  | cue =>
    unfold carryOut carryCue
    dsimp only
    split
    · exact same
    · exact .of_same rfl rfl rfl
  | readReport =>
    unfold carryOut carryReadReport
    dsimp only
    split
    · exact same
    · exact .of_same rfl rfl rfl
  | ackAlerts =>
    unfold carryOut carryAckAlerts
    dsimp only
    split
    · exact .of_same rfl rfl rfl
    · exact same
  | sectionReset =>
    unfold carryOut carrySectionReset
    dsimp only
    split
    · exact same
    · exact (resetSection_kept _ s).legal
  | query =>
    unfold carryOut carryQuery
    dsimp only
    split
    · exact same
    · split <;> exact same
  | reset => exact same

theorem serveRequest_legal (r : Request) (s : State) : LegalKept s (serveRequest r s).1 := by
  unfold serveRequest
  split
  · exact .refl s
  · split
    · exact .refl s
    · split
      · exact .refl s
      · exact carryOut_legal _ _ s

/-! ### The line's commands -/

theorem serveNext_legal (s : State) : LegalKept s (serveNext s) := by
  unfold serveNext
  split
  · exact .refl s
  · split
    · exact ((setLink_lineOnly _ s).legal.trans (serveRequest_legal _ _)).trans (placeMessage_lineOnly _ _).legal
    · exact .refl s

theorem takeRequest_legal (r : Request) (s : State) : LegalKept s (takeRequest r s) := by
  unfold takeRequest
  split
  · exact (setLink_lineOnly _ s).legal.trans (serveNext_legal _)
  · unfold refuseFullQueue
    dsimp only
    split
    · exact ((setLink_lineOnly _ s).trans (placeMessage_lineOnly _ _)).legal
    · exact (setLink_lineOnly _ s).legal

theorem takeMessage_legal (kind tag : Byte) (payload : List Byte) (s : State) : LegalKept s (takeMessage kind tag payload s) := by
  unfold takeMessage
  split
  · exact takeRequest_legal _ s
  · exact (setLink_lineOnly _ s).legal

theorem receiveByte_legal (b : Byte) (s : State) : LegalKept s (receiveByte b s) :=
  receiveByte_cases b s (fun change _ => (setLink_lineOnly change s).legal)
    (fun kind tag payload => (setLink_lineOnly hunting s).legal.trans (takeMessage_legal kind tag payload _))

theorem receiveBytes_legal (bytes : List Byte) (s : State) : LegalKept s (receiveBytes bytes s) := by
  unfold receiveBytes
  induction bytes generalizing s with
  | nil => exact .refl s
  | cons b rest ih => exact (receiveByte_legal b s).trans (ih _)

theorem gapExpires_legal (s : State) : LegalKept s (gapExpires s) := by
  unfold gapExpires
  split
  · exact .refl s
  · exact (setLink_lineOnly _ s).legal

/-- Power-on and a device reset give the configuration its reset values. -/
theorem takePower_legal (s : State) : LegalKept s (takePower s) := fun _ => reset_configuration

theorem takeReset_legal (s : State) : LegalKept s (takeReset s) := fun _ => reset_configuration

theorem nextMessage_legal (s : State) : LegalKept s (nextMessage s) :=
  ((setLink_lineOnly _ s).trans (sendNext_lineOnly _)).legal.trans (serveNext_legal _)

theorem endTransmission_legal (s : State) : LegalKept s (endTransmission s) := by
  unfold endTransmission
  split
  · exact .refl s
  · split
    · exact takeReset_legal s
    · exact nextMessage_legal s
    · exact nextMessage_legal s
    · exact nextMessage_legal s

theorem resetArrives_legal (s : State) : LegalKept s (resetArrives s) := by
  unfold resetArrives
  split
  · exact .refl s
  · split
    · exact takeReset_legal s
    · exact .refl s

/-! ### Field boundaries -/

theorem takeBoundary_legal (block : BoundaryBlock) (s : State) : LegalKept s (takeBoundary block s) := by
  cases block with
  | window => exact (ageSlots_kept s).legal
  | scheduler => exact (reloadBudget_kept s).legal
  | ingest => exact ((watchBoundary_kept s).trans (settle_kept _)).legal
  | report => exact (tellConditions_kept s).legal.trans (composeNotice_lineOnly _).legal

theorem fieldBoundary_legal (order : BoundaryOrder) (s : State) : LegalKept s (fieldBoundary order s) := by
  refine LegalKept.trans ?_ (settle_kept _).legal
  induction blockOrder order generalizing s with
  | nil => exact .refl s
  | cons block rest ih => exact (takeBoundary_legal block s).trans (ih _)

/-- A boundary marked and taken: the mark changes the timebase and the truth it tells alone. -/
theorem boundary_legal (mode : TimebaseMode) (time : Nat) (order : BoundaryOrder) (s : State) :
    LegalKept s (fieldBoundary order (markBoundary mode time s)) :=
  LegalKept.trans (.of_same rfl rfl rfl) (fieldBoundary_legal order (markBoundary mode time s))

theorem takePulse_legal (time : Nat) (order : BoundaryOrder) (s : State) : LegalKept s (takePulse time order s) := by
  unfold takePulse
  split
  · exact boundary_legal _ _ order s
  · exact .of_same rfl rfl rfl

theorem freeRunEntry_legal (order : BoundaryOrder) (s : State) : LegalKept s (freeRunEntry order s) := by
  unfold freeRunEntry
  split
  · exact boundary_legal _ _ order s
  · exact .refl s

theorem generatorTick_legal (order : BoundaryOrder) (s : State) : LegalKept s (generatorTick order s) := by
  unfold generatorTick
  split
  · exact .refl s
  · exact boundary_legal _ _ order s

/-! ### Every command -/

theorem execWriteEnd_legal {s t : State} (h : execWriteEnd s = .next t) : LegalKept s t := by
  unfold execWriteEnd at h
  split at h <;> injection h with h <;> subst h
  · next w _ => exact ((endWrite_kept w s).trans (settle_kept _)).legal
  · exact .refl s

/-- Every command keeps the configuration legal. -/
theorem exec_legal (c : Instr) (s t : State) (h : exec c s = .next t) : LegalKept s t := by
  cases c
  case writeEnd => exact execWriteEnd_legal h
  all_goals
    injection h with h
    subst h
  case powerOn => exact takePower_legal s
  case fieldStart parity signals => exact ((takeFieldStart_kept parity signals s).trans (settle_kept _)).legal
  case band index count samples => exact (takeBand_kept index count samples s).legal
  case fieldEnd => exact ((takeFieldEnd_kept s).trans (settle_kept _)).legal
  case referencePulse time order => exact takePulse_legal time order s
  case enterFreeRun order => exact freeRunEntry_legal order s
  case generatedBoundary order => exact generatorTick_legal order s
  case lockLoss => exact ((checkLock_kept s).trans (settle_kept _)).legal
  case writeSlot =>
    exact ((((tallyFeed_kept _ s).trans (ageAndTimeOut_kept _)).trans (answerSlot_kept _)).trans (settle_kept _)).legal
  case verifyTimeout => exact ((timeOutOldest_kept s).trans (settle_kept _)).legal
  case pause => exact ((pauseFeed_kept s).trans (tellRecorder_kept _)).legal
  case resume => exact ((resumeFeed_kept s).trans (tellRecorder_kept _)).legal
  case outcome tag result => exact ((takeOutcome_kept _ result s).trans (settle_kept _)).legal
  case measureDone => exact (measureDone_kept s).legal
  case bandDone => exact ((bandDone_kept s).trans (tellConditions_kept _)).legal
  case drainComplete => exact ((checkDrain_kept s).trans (tellConditions_kept _)).legal
  case closeComplete => exact ((checkClose_kept s).trans (tellConditions_kept _)).legal
  case receivedMessage bytes => exact receiveBytes_legal bytes s
  case gapDiscard => exact gapExpires_legal s
  case transmissionEnd => exact endTransmission_legal s
  case resetTakesEffect => exact resetArrives_legal s
  case unassignedRequest kind tag payload => exact takeMessage_legal kind tag payload s
  all_goals exact takeRequest_legal _ s

/-- Settles O7: a step is a command's effect, which keeps the configuration legal, on a state whose queue it does not read. -/
theorem configurationStaysLegal : Obligations.ConfigurationStaysLegal := by
  intro s t legal h
  unfold step at h
  split at h
  · injection h with h
    subst h
    exact legal
  · next c rest _ => exact exec_legal c { s with pending := rest } t h legal

end Sys2Proof.Machine
end

