-- ==== Sys2Proof/Proofs/Adjust.lean ====
section
/-! ADJUST: the presence byte says which items follow it, each present item is read back as the value it was written for, and the items
are taken before the decision point (R84, R85, R87, R200). -/

namespace Sys2Proof.Machine

/-! ### The payload (R200) -/

/-- The presence byte that marks four items in its bits 0 to 3 (R200). -/
def presenceByte (budget mask mode bottom : Bool) : Byte := byteOf (bitsNumber [budget, mask, mode, bottom])

/-- The ADJUST payload that carries the items present (Table 11-4, R200). -/
def adjustPayload (budget mask : Option Byte) (mode : Option TierMode) (bottom : Option (Fin 8)) : List Byte :=
  presenceByte budget.isSome mask.isSome mode.isSome bottom.isSome ::
    (budget.toList ++ mask.toList ++ (mode.map tierModeCode).toList ++ (bottom.map (fun t => byteOf t.val)).toList)

/-- The items an ADJUST takes, the band budget as the number it was sent as. -/
def itemsSent (budget mask : Option Byte) (mode : Option TierMode) (bottom : Option (Fin 8)) : Adjustment :=
  { bandBudget := budget.map BitVec.toNat, maskSet := mask, tierMode := mode, bottom := bottom }

theorem presenceByte_lt : ∀ w x y z : Bool, (presenceByte w x y z).toNat < 16 := by decide

theorem presenceByte_bits :
    ∀ w x y z : Bool,
      (presenceByte w x y z).getLsbD 0 = w ∧ (presenceByte w x y z).getLsbD 1 = x ∧ (presenceByte w x y z).getLsbD 2 = y ∧
        (presenceByte w x y z).getLsbD 3 = z := by
  decide

theorem adjustItems_presenceByte :
    ∀ w x y z : Bool,
      adjustItems (presenceByte w x y z) =
        (if w then 1 else 0) + (if x then 1 else 0) + (if y then 1 else 0) + (if z then 1 else 0) := by
  decide

/-- The length of the payload fits its presence byte. -/
theorem adjustPayload_fits (budget mask : Option Byte) (mode : Option TierMode) (bottom : Option (Fin 8)) :
    lengthFits .adjust (adjustPayload budget mask mode bottom) = true := by
  show adjustFits (adjustPayload budget mask mode bottom) = true
  unfold adjustFits adjustPayload
  simp only [List.length_append, Option.length_toList, Option.isSome_map, adjustItems_presenceByte, beq_self_eq_true]

/-! ### The items read back (R84) -/

/-- An item written by a code that its reading undoes is read back, and the items behind it are left. -/
theorem itemOf_written {α β : Type} {reading : Nat → Option β} {code : α → Byte} {value : α → β}
    (h : ∀ v, reading (code v).toNat = some (value v)) (x : Option α) (rest : List Byte) :
    itemOf x.isSome reading ((x.map code).toList ++ rest) = some (x.map value, rest) := by
  cases x with
  | none => rfl
  | some v =>
    show (reading (code v).toNat).map (fun w => (some w, rest)) = _
    rw [h v]
    rfl

theorem tierModeOf_tierModeCode (x : TierMode) : tierModeOf (tierModeCode x).toNat = some x := by cases x <;> rfl

theorem tierOf_byteOf (t : Fin 8) : tierOf (byteOf t.val).toNat = some t := by rw [byteOf_toNat (by omega), tierOf_val]

theorem adjustmentOf_adjustPayload (budget mask : Option Byte) (mode : Option TierMode) (bottom : Option (Fin 8)) :
    adjustmentOf (adjustPayload budget mask mode bottom) = some (itemsSent budget mask mode bottom) := by
  obtain ⟨bit0, bit1, bit2, bit3⟩ := presenceByte_bits budget.isSome mask.isSome mode.isSome bottom.isSome
  have budgetRead := itemOf_written (reading := fun b => some b) (code := id) (value := BitVec.toNat) (fun _ => rfl) budget
  have maskRead :=
    itemOf_written (reading := fun b => some (byteOf b)) (code := id) (value := id) (fun b => by simp [byteOf]) mask
  have modeRead := itemOf_written (value := id) tierModeOf_tierModeCode mode
  have bottomRead := itemOf_written (value := id) tierOf_byteOf bottom []
  simp only [Option.map_id, id_eq, List.append_nil] at budgetRead maskRead modeRead bottomRead
  unfold adjustmentOf adjustPayload
  dsimp only
  rw [if_neg (Nat.not_le_of_lt (presenceByte_lt _ _ _ _)), bit0, bit1, bit2, bit3, List.append_assoc, List.append_assoc]
  simp only [budgetRead, maskRead, modeRead, bottomRead, Option.bind_eq_bind, Option.bind_some]
  rfl

/-! ### The request served (R84, R85, R87) -/

theorem adjustClamped_itemsSent (budget mask : Option Byte) (mode : Option TierMode) (bottom : Option (Fin 8)) :
    adjustClamped (itemsSent budget mask mode bottom) = true ↔ ∃ b, budget = some b ∧ (b.toNat < 1 ∨ 64 < b.toNat) := by
  cases budget with
  | none => exact ⟨nofun, nofun⟩
  | some b =>
    show outside 1 64 b.toNat = true ↔ _
    simp [outside]

/-- An ADJUST with no item present changes no item (log entry 12). -/
theorem takeAdjustment_none (s : State) : takeAdjustment (itemsSent none none none none) s = s := rfl

/-- An ADJUST whose payload reads as an adjustment is accepted in any title state: its items are taken, then comes the decision point. -/
theorem exec_adjust_taken {s : State} {payload : List Byte} {a : Adjustment} (tag : Byte) (h : lineAtRest s)
    (hl : lengthFits .adjust payload = true) (hp : adjustmentOf payload = some a) :
    exec (.adjust tag payload) s =
      .next
        (replying 0x84 tag [statusCode (if adjustClamped a then .okAdjusted else .ok)]
          (tellConditions (decisionPoint (takeAdjustment a s)))) := by
  have carried :
      carryOut .adjust payload s =
        (tellConditions (decisionPoint (takeAdjustment a s)), [statusCode (if adjustClamped a then .okAdjusted else .ok)]) := by
    unfold carryOut carryAdjust
    rw [hp]
    rfl
  show Host.Outcome.next (takeRequest { kind := 4, tag := tag, payload := payload } s) = _
  rw [takeRequest_carried (q := .adjust) h rfl hl rfl (by decide), carried]
  rfl

/-- Settles O50: the payload reads back as the items sent, and taking them leaves the jobs and the operation in flight to the decision
point. -/
theorem adjustTakesItems : Obligations.AdjustTakesItems := by
  intro s tag budget mask mode bottom hrest payload adjusted
  have taken : takeAdjustment (itemsSent budget mask mode bottom) s = adjusted := by
    unfold takeAdjustment itemsSent
    rw [Option.map_map]
    rfl
  refine ⟨?_, ?_, fun hi => decisionPoint_idle adjusted hi, fun ho => decisionPoint_busy (s := adjusted) ho⟩
  · rintro rfl rfl rfl rfl
    exact takeAdjustment_none s
  · have served :=
      exec_adjust_taken tag hrest (adjustPayload_fits budget mask mode bottom) (adjustmentOf_adjustPayload budget mask mode bottom)
    rw [taken, apply_ite statusCode, if_congr (adjustClamped_itemsSent budget mask mode bottom) rfl rfl] at served
    exact served

end Sys2Proof.Machine
end

