-- ==== Sys2Proof/Proofs/Reconstruction.lean ====
section
/-! Band reconstruction: conditioning and the spatial candidate stay in the legal range, the probes measure luma, measure done chooses
the weights, and a blend is a mean of the candidates it reads (R105, R106, R109 to R118). -/

namespace Sys2Proof.Machine

/-! ### Conditioning (R110) -/

theorem condition_bounds (v : Nat) : 4 ≤ condition v ∧ condition v ≤ 1019 := by
  unfold condition
  split_ifs <;> omega

theorem condition_of_mem {v : Nat} (h : 4 ≤ v ∧ v ≤ 1019) : condition v = v := by
  unfold condition
  rw [if_neg (by omega), if_neg (by omega)]

/-! ### The spatial candidate (R111, R112) -/

theorem neighbourLines_top (bands : Nat) : neighbourLines bands .a 0 = [0] := rfl

theorem neighbourLines_below_top (bands : Nat) {l : Nat} (h : l ≠ 0) : neighbourLines bands .a l = [l - 1, l] := if_neg h

theorem neighbourLines_bottom {bands l : Nat} (h : l + 1 = 16 * bands) : neighbourLines bands .b l = [l] := if_pos h

theorem neighbourLines_above_bottom {bands l : Nat} (h : l + 1 ≠ 16 * bands) : neighbourLines bands .b l = [l, l + 1] := if_neg h

/-- A line has one neighbour line or two. -/
theorem neighbourLines_cases (bands : Nat) (f : Field) (l : Nat) :
    (∃ u, neighbourLines bands f l = [u]) ∨ ∃ u v, neighbourLines bands f l = [u, v] := by
  cases f with
  | a =>
    by_cases h : l = 0
    · exact .inl ⟨0, h ▸ neighbourLines_top bands⟩
    · exact .inr ⟨l - 1, l, neighbourLines_below_top bands h⟩
  | b =>
    by_cases h : l + 1 = 16 * bands
    · exact .inl ⟨l, neighbourLines_bottom h⟩
    · exact .inr ⟨l, l + 1, neighbourLines_above_bottom h⟩

/-- The conditioned sample of the other field from which S is formed at a position (R110, R111). -/
def neighbourAt (s : State) (op : Operation) (p line : Nat) : Nat :=
  condition (lineSample s op.slot (otherField op.field) line (p % 1440))

section
variable {s : State} {op : Operation} {p : Nat}

theorem spatialAt_one {u : Nat}
    (h : neighbourLines (bandsPer s.settings.format) op.field (16 * op.band.val + p / 1440) = [u]) :
    spatialAt s op p = neighbourAt s op p u := by
  unfold spatialAt neighbours
  rw [h]
  rfl

theorem spatialAt_two {u v : Nat}
    (h : neighbourLines (bandsPer s.settings.format) op.field (16 * op.band.val + p / 1440) = [u, v]) :
    spatialAt s op p = (neighbourAt s op p u + neighbourAt s op p v + 1) / 2 := by
  unfold spatialAt neighbours
  rw [h]
  rfl

end

theorem spatialAt_bounds (s : State) (op : Operation) (p : Nat) : 4 ≤ spatialAt s op p ∧ spatialAt s op p ≤ 1019 := by
  rcases neighbourLines_cases (bandsPer s.settings.format) op.field (16 * op.band.val + p / 1440) with ⟨u, one⟩ | ⟨u, v, two⟩
  · rw [spatialAt_one one]
    exact condition_bounds _
  · have first : 4 ≤ neighbourAt s op p u ∧ neighbourAt s op p u ≤ 1019 := condition_bounds _
    have second : 4 ≤ neighbourAt s op p v ∧ neighbourAt s op p v ≤ 1019 := condition_bounds _
    rw [spatialAt_two two]
    omega

theorem supplyingBands_bottom {bands : Nat} {b : Fin 18} (h : b.val + 1 = bands) : supplyingBands bands .b b = [b] :=
  dif_neg (by omega)

/-- Settles O28: the neighbour lines of a band line, one at an edge of the picture and two between, decide the form of S. -/
theorem spatialAtEdges : Obligations.SpatialAtEdges := by
  intro s op p _ _ bands l other
  have lines {f : Field} {ls : List Nat} (hf : op.field = f) (h : neighbourLines bands f l = ls) :
      neighbourLines bands op.field l = ls := hf ▸ h
  refine ⟨fun hf hl => ?_, fun hf hl => ?_, fun hf hl => ?_, fun hf hl => ?_, by decide, rfl,
    fun b hb => supplyingBands_bottom hb⟩
  · exact spatialAt_one (lines hf (hl ▸ neighbourLines_top bands))
  · exact spatialAt_two (lines hf (neighbourLines_below_top bands hl))
  · exact spatialAt_one (lines hf (neighbourLines_bottom hl))
  · exact spatialAt_two (lines hf (neighbourLines_above_bottom hl))

/-! ### The motion measure (R113, R114) -/

theorem probes_length : probes.length = 64 := rfl

theorem mem_probes {p : Nat} :
    p ∈ probes ↔
      ∃ line < 16, p = 1440 * line + 181 ∨ p = 1440 * line + 541 ∨ p = 1440 * line + 901 ∨ p = 1440 * line + 1261 := by
  simp [probes]

/-- A probe's difference is the distance of the conditioned samples, one of the two truncated differences being 0. -/
theorem probeDifference_eq (u v : Nat) :
    probeDifference u v = (condition u - condition v) + (condition v - condition u) := by
  unfold probeDifference
  dsimp only
  split_ifs <;> omega

theorem probeDifference_le (u v : Nat) : probeDifference u v ≤ 1015 := by
  have := condition_bounds u
  have := condition_bounds v
  rw [probeDifference_eq]
  omega

theorem probeSum_le (s : State) (op : Operation) : probeSum s op ≤ 64960 := by
  have each : ∀ d ∈ probes.map (fun p => probeDifference (storedP s op p) (storedN s op p)), d ≤ 1015 :=
    List.forall_mem_map.mpr (fun _ _ => probeDifference_le _ _)
  calc probeSum s op ≤ (probes.map _).length • 1015 := List.sum_le_card_nsmul _ _ each
    _ = 64960 := by rw [List.length_map, probes_length]; rfl

theorem probeSum_congr {s s' : State} {op op' : Operation}
    (h : ∀ p ∈ probes, storedP s op p = storedP s' op' p ∧ storedN s op p = storedN s' op' p) :
    probeSum s op = probeSum s' op' := by
  refine congrArg List.sum (List.map_congr_left fun p hp => ?_)
  obtain ⟨sameP, sameN⟩ := h p hp
  rw [sameP, sameN]

/-- Settles O29: the probes listed line by line, and the sum over them. -/
theorem probeSumMeasuresLuma : Obligations.ProbeSumMeasuresLuma := by
  refine ⟨probes_length, fun p => mem_probes, fun p hp => ?_, fun s s' op op' => ⟨?_, probeSum_le s op, probeSum_congr⟩⟩
  · obtain ⟨line, _, at_⟩ := mem_probes.mp hp
    omega
  · exact congrArg List.sum (List.map_congr_left fun p _ => probeDifference_eq _ _)

/-! ### Measure done (R106) -/

theorem measureDone_measured {s : State} {op : Operation} (hop : s.repair.op = some op) (hphase : op.phase = .measure) :
    measureDone s = { s with repair := { s.repair with op := some (measured s op) } } := by
  unfold measureDone
  rw [hop]
  dsimp only
  rw [hphase]

theorem measured_conditioned (s : State) (op : Operation) :
    (measured s op).conditioned = true ↔
      op.conditioned = true ∨ ∃ p ∈ probes, isReserved (storedP s op p) = true ∨ isReserved (storedN s op p) = true := by
  simp only [measured, Bool.or_eq_true, List.any_eq_true]

/-- Settles O25: the operation measured is the one the statement writes out, with its own conditioned mark. -/
theorem measureDoneChoosesWeights : Obligations.MeasureDoneChoosesWeights := by
  intro s op hop hphase m c
  refine ⟨(measured s op).conditioned, ?_, measured_conditioned s op⟩
  show Host.Outcome.next (measureDone s) = _
  rw [measureDone_measured hop hphase]
  rfl

/-! ### The blend (R109, R118) -/

/-- A weight times a candidate lies between the weight times its bounds; one of weight 0 needs no bounds. -/
theorem weighted_bounds {w lo hi x : Nat} (h : 0 < w → lo ≤ x ∧ x ≤ hi) : w * lo ≤ w * x ∧ w * x ≤ w * hi := by
  rcases Nat.eq_zero_or_pos w with rfl | pos
  · simp
  · obtain ⟨above, below⟩ := h pos
    exact ⟨Nat.mul_le_mul_left w above, Nat.mul_le_mul_left w below⟩

/-- The weighted sum lies between 64 times the bounds, so adding 32 and dividing by 64 keeps the bounds, and the clamp has nothing
to do. -/
theorem blendSample_bounds {w : Weights} {lo hi p n sp : Nat} (sum : w.p + w.n + w.s = 64) (hlo : 4 ≤ lo) (hhi : hi ≤ 1019)
    (hp : 0 < w.p → lo ≤ p ∧ p ≤ hi) (hn : 0 < w.n → lo ≤ n ∧ n ≤ hi) (hs : 0 < w.s → lo ≤ sp ∧ sp ≤ hi) :
    lo ≤ blendSample w p n sp ∧ blendSample w p n sp ≤ hi := by
  obtain ⟨aboveP, belowP⟩ := weighted_bounds hp
  obtain ⟨aboveN, belowN⟩ := weighted_bounds hn
  obtain ⟨aboveS, belowS⟩ := weighted_bounds hs
  have share (x : Nat) : w.p * x + w.n * x + w.s * x = 64 * x := by rw [← Nat.add_mul, ← Nat.add_mul, sum]
  have low := share lo
  have high := share hi
  have above : lo ≤ (w.p * p + w.n * n + w.s * sp + 32) / 64 := by omega
  have below : (w.p * p + w.n * n + w.s * sp + 32) / 64 ≤ hi := by omega
  unfold blendSample
  rw [condition_of_mem ⟨hlo.trans above, below.trans hhi⟩]
  exact ⟨above, below⟩

theorem readWeighted_of_pos {w : Nat} (v : Nat) (h : 0 < w) : readWeighted w v = condition v := if_neg (by omega)

section
variable {s : State} {op : Operation} {at_ : Nat}

/-- A sample an operation blends is within bounds of the candidates it reads. -/
theorem blendAt_bounds {w : Weights} {lo hi : Nat} (sum : w.p + w.n + w.s = 64) (hlo : 4 ≤ lo) (hhi : hi ≤ 1019)
    (hp : 0 < w.p → lo ≤ condition (storedP s op at_) ∧ condition (storedP s op at_) ≤ hi)
    (hn : 0 < w.n → lo ≤ condition (storedN s op at_) ∧ condition (storedN s op at_) ≤ hi)
    (hs : 0 < w.s → lo ≤ spatialAt s op at_ ∧ spatialAt s op at_ ≤ hi) :
    lo ≤ blendAt s op w at_ ∧ blendAt s op w at_ ≤ hi := by
  refine blendSample_bounds sum hlo hhi (fun pos => ?_) (fun pos => ?_) (fun pos => ?_)
  · rw [readWeighted_of_pos _ pos]
    exact hp pos
  · rw [readWeighted_of_pos _ pos]
    exact hn pos
  · rw [if_neg (by omega)]
    exact hs pos

/-- Where every candidate read has one value, the blend has it too. -/
theorem blendAt_of_eq {w : Weights} {v : Nat} (sum : w.p + w.n + w.s = 64) (legal : 4 ≤ v ∧ v ≤ 1019)
    (hp : 0 < w.p → condition (storedP s op at_) = v) (hn : 0 < w.n → condition (storedN s op at_) = v)
    (hs : 0 < w.s → spatialAt s op at_ = v) : blendAt s op w at_ = v := by
  obtain ⟨atLeast, atMost⟩ := legal
  obtain ⟨above, below⟩ :=
    blendAt_bounds (lo := v) (hi := v) sum atLeast atMost (fun pos => ⟨(hp pos).ge, (hp pos).le⟩)
      (fun pos => ⟨(hn pos).ge, (hn pos).le⟩) (fun pos => ⟨(hs pos).ge, (hs pos).le⟩)
  exact Nat.le_antisymm below above

end

/-- Settles O27: the blend lies within bounds of the candidates it reads, and a single candidate bounds it by itself. -/
theorem blendStaysWithin : Obligations.BlendStaysWithin := by
  refine ⟨fun w lo hi p n sp => blendSample_bounds, fun s op at_ => ?_⟩
  refine ⟨fun w lo hi => blendAt_bounds, spatialAt_bounds s op at_, ?_, ?_, ?_⟩
  · exact blendAt_of_eq rfl (condition_bounds _) (fun _ => rfl) nofun nofun
  · exact blendAt_of_eq rfl (condition_bounds _) nofun (fun _ => rfl) nofun
  · exact blendAt_of_eq rfl (spatialAt_bounds s op at_) nofun nofun (fun _ => rfl)

end Sys2Proof.Machine
end

