-- ==== Sys2Proof/Proofs/Configure.lean ====
section
/-! CONFIGURE: the settings record is read back as the values it was written for, the five clampable ones brought into range, and is
taken (R115, R117, R174, Table 11-5). -/

namespace Sys2Proof.Machine

/-! ### The record (Table 11-5) -/

/-- The settings record that carries the given settings, the five clampable items as the bytes sent for them. -/
def configPayload (threshold lag budget timeout attempts mask : Byte) (c : Settings) (mode : TierMode) (bottom : Fin 8) :
    List Byte :=
  [formatCode c.format, threshold, lag, budget, timeout, attempts, marginalCode c.marginal, pressureCode c.pressure] ++
    beBytes 2 c.t1 ++ beBytes 2 c.t2 ++ beBytes 2 c.t3 ++ weightBytes c.weights[0] ++ weightBytes c.weights[1] ++
    weightBytes c.weights[2] ++ weightBytes c.weights[3] ++ [tierModeCode mode, byteOf bottom.val, mask]

/-- The clampable items sent all lie within their ranges (R174). -/
abbrev itemsInRange (threshold lag budget timeout attempts : Byte) : Prop :=
  1 ≤ threshold.toNat ∧ (2 ≤ lag.toNat ∧ lag.toNat ≤ 24) ∧ (1 ≤ budget.toNat ∧ budget.toNat ≤ 64) ∧
    (4 ≤ timeout.toNat ∧ timeout.toNat ≤ 60) ∧ (1 ≤ attempts.toNat ∧ attempts.toNat ≤ 3)

/-- The values a CONFIGURE takes from that record. -/
def configTaken (threshold lag budget timeout attempts mask : Byte) (c : Settings) (mode : TierMode) (bottom : Fin 8) :
    ConfigRecord :=
  { settings :=
      { c with
        threshold := clamp 1 255 threshold.toNat
        commitLag := clamp 2 24 lag.toNat
        verifyTimeout := clamp 4 60 timeout.toNat
        attempts := clamp 1 3 attempts.toNat }
    bandBudget := clamp 1 64 budget.toNat
    tierMode := mode
    bottom := bottom
    maskSet := mask
    adjusted := decide (¬itemsInRange threshold lag budget timeout attempts) }

/-! ### Each item read back -/

theorem formatOf_formatCode (x : Format) : formatOf (formatCode x).toNat = some x := by cases x <;> rfl

theorem marginalOf_marginalCode (x : MarginalPolicy) : marginalOf (marginalCode x).toNat = some x := by cases x <;> rfl

theorem pressureOf_pressureCode (x : PressurePolicy) : pressureOf (pressureCode x).toNat = some x := by cases x <;> rfl

theorem numberAt_beBytes {bs : List Byte} {i k n : Nat} (h : bytesAt bs i k = beBytes k n) (hn : n < 256 ^ k) :
    numberAt bs i k = n := by
  unfold numberAt
  rw [h, fromBytes_beBytes k n hn]

/-- A legal weight row is read back, each of its weights being at most 64. -/
theorem weightRowOf_written {bs : List Byte} {i : Nat} {w : Weights} (legal : rowLegal w) (hp : bs[i]? = some (byteOf w.p))
    (hn : bs[i + 1]? = some (byteOf w.n)) (hs : bs[i + 2]? = some (byteOf w.s)) : weightRowOf bs i = some w := by
  have sum : w.p + w.n + w.s = 64 := legal
  unfold weightRowOf
  rw [byteAt_byteOf hp (by omega), byteAt_byteOf hn (by omega), byteAt_byteOf hs (by omega)]
  exact if_pos sum

theorem weights_listed (w : Vector Weights 4) : #v[w[0], w[1], w[2], w[3]] = w := by
  ext i hi
  interval_cases i <;> rfl

theorem thresholdsFit_eq_true {t1 t2 t3 : Nat} (h : 1 ≤ t1 ∧ t1 < t2 ∧ t2 < t3 ∧ t3 ≤ 1015) : thresholdsFit t1 t2 t3 = true := by
  simp [thresholdsFit, h]

/-- The clamped mark says whether some clampable item lies out of its range; a byte is never above 255. -/
theorem someClamped_eq {bs : List Byte} {threshold lag budget timeout attempts : Byte} (h1 : byteAt bs 1 = threshold.toNat)
    (h2 : byteAt bs 2 = lag.toNat) (h3 : byteAt bs 3 = budget.toNat) (h4 : byteAt bs 4 = timeout.toNat)
    (h5 : byteAt bs 5 = attempts.toNat) :
    someClamped bs = decide (¬itemsInRange threshold lag budget timeout attempts) := by
  have small : threshold.toNat < 256 := threshold.isLt
  unfold someClamped
  rw [h1, h2, h3, h4, h5, Bool.eq_iff_iff]
  simp only [outside, Bool.or_eq_true, decide_eq_true_eq]
  omega

/-! ### The record read back (R174) -/

section
variable (threshold lag budget timeout attempts mask : Byte) (c : Settings) (mode : TierMode) (bottom : Fin 8)

theorem configRecordOf_configPayload (thresholds : 1 ≤ c.t1 ∧ c.t1 < c.t2 ∧ c.t2 < c.t3 ∧ c.t3 ≤ 1015)
    (rows : rowLegal c.weights[0] ∧ rowLegal c.weights[1] ∧ rowLegal c.weights[2] ∧ rowLegal c.weights[3]) :
    configRecordOf (configPayload threshold lag budget timeout attempts mask c mode bottom) =
      some (configTaken threshold lag budget timeout attempts mask c mode bottom) := by
  obtain ⟨row0, row1, row2, row3⟩ := rows
  generalize sent : configPayload threshold lag budget timeout attempts mask c mode bottom = bs
  have format : byteAt bs 0 = (formatCode c.format).toNat := byteAt_of_getElem? (sent ▸ rfl)
  have item1 : byteAt bs 1 = threshold.toNat := byteAt_of_getElem? (sent ▸ rfl)
  have item2 : byteAt bs 2 = lag.toNat := byteAt_of_getElem? (sent ▸ rfl)
  have item3 : byteAt bs 3 = budget.toNat := byteAt_of_getElem? (sent ▸ rfl)
  have item4 : byteAt bs 4 = timeout.toNat := byteAt_of_getElem? (sent ▸ rfl)
  have item5 : byteAt bs 5 = attempts.toNat := byteAt_of_getElem? (sent ▸ rfl)
  have clamped := someClamped_eq item1 item2 item3 item4 item5
  have marginal : byteAt bs 6 = (marginalCode c.marginal).toNat := byteAt_of_getElem? (sent ▸ rfl)
  have pressure : byteAt bs 7 = (pressureCode c.pressure).toNat := byteAt_of_getElem? (sent ▸ rfl)
  have t1 : numberAt bs 8 2 = c.t1 := numberAt_beBytes (sent ▸ rfl) (by omega)
  have t2 : numberAt bs 10 2 = c.t2 := numberAt_beBytes (sent ▸ rfl) (by omega)
  have t3 : numberAt bs 12 2 = c.t3 := numberAt_beBytes (sent ▸ rfl) (by omega)
  have w0 : weightRowOf bs 14 = some c.weights[0] := weightRowOf_written row0 (sent ▸ rfl) (sent ▸ rfl) (sent ▸ rfl)
  have w1 : weightRowOf bs 17 = some c.weights[1] := weightRowOf_written row1 (sent ▸ rfl) (sent ▸ rfl) (sent ▸ rfl)
  have w2 : weightRowOf bs 20 = some c.weights[2] := weightRowOf_written row2 (sent ▸ rfl) (sent ▸ rfl) (sent ▸ rfl)
  have w3 : weightRowOf bs 23 = some c.weights[3] := weightRowOf_written row3 (sent ▸ rfl) (sent ▸ rfl) (sent ▸ rfl)
  have tierMode : byteAt bs 26 = (tierModeCode mode).toNat := byteAt_of_getElem? (sent ▸ rfl)
  have tier : byteAt bs 27 = bottom.val := byteAt_byteOf (sent ▸ rfl) (by omega)
  have maskSet : byteAt bs 28 = mask.toNat := byteAt_of_getElem? (sent ▸ rfl)
  unfold configRecordOf
  rw [format, formatOf_formatCode, marginal, marginalOf_marginalCode, pressure, pressureOf_pressureCode, w0, w1, w2, w3, tierMode,
    tierModeOf_tierModeCode, tier, tierOf_val, t1, t2, t3, item1, item2, item3, item4, item5, maskSet, clamped]
  simp only [Option.bind_eq_bind, Option.bind_some]
  rw [if_pos (thresholdsFit_eq_true thresholds), weights_listed]
  simp [configTaken, byteOf]

end

/-! ### The request served (R174, R187) -/

/-- A CONFIGURE whose payload reads as a settings record is accepted in IDLE, and the record is taken. -/
theorem exec_configure_taken {s : State} {payload : List Byte} {c : ConfigRecord} (tag : Byte) (h : lineAtRest s)
    (ht : s.title.state = .idle) (hl : lengthFits .configure payload = true) (hp : configRecordOf payload = some c) :
    exec (.configure tag payload) s =
      .next (replying 0x81 tag [statusCode (if c.adjusted then .okAdjusted else .ok)] (takeConfig c s)) := by
  have accepted : acceptedIn .configure s.title.state = true := by
    rw [ht]
    rfl
  have carried :
      carryOut .configure payload s = (takeConfig c s, [statusCode (if c.adjusted then .okAdjusted else .ok)]) := by
    unfold carryOut carryConfigure
    rw [hp]
    rfl
  show Host.Outcome.next (takeRequest { kind := 1, tag := tag, payload := payload } s) = _
  rw [takeRequest_carried (q := .configure) h rfl hl accepted (by decide), carried]
  rfl

/-- Settles O48: the payload reads back as the record sent, clamped, which is then taken; the status follows the clamped mark. -/
theorem configureTakesRecord : Obligations.ConfigureTakesRecord := by
  intro s tag threshold lag budget timeout attempts mask c mode bottom hrest ht thresholds rows inRange
  have served :=
    exec_configure_taken tag hrest ht rfl
      (configRecordOf_configPayload threshold lag budget timeout attempts mask c mode bottom thresholds rows)
  have status :
      statusCode (if (configTaken threshold lag budget timeout attempts mask c mode bottom).adjusted then .okAdjusted else .ok) =
        if inRange then 0 else 1 := by
    rw [apply_ite statusCode, configTaken, if_congr decide_eq_true_iff rfl rfl, ite_not]
    rfl
  rw [status] at served
  exact served

end Sys2Proof.Machine
end

