-- ==== Sys2Proof/Proofs/RecorderAnswers.lean ====
section
/-! PAUSE and RESUME, and the WRITE SLOTs that are answered IDLE SLOT or write an index block (R123, R124, R127, R135, R142, R146, R159,
R160). -/

namespace Sys2Proof.Machine

/-! ### PAUSE and RESUME (R123) -/

/-- The recorder state and the pending pause replaced, and RECORDER PAUSED told. -/
def recorderMoved (state : RecorderState) (pausePending : Bool) (s : State) : State :=
  { s with
    feed := { s.feed with state := state, pausePending := pausePending }
    reports := { s.reports with truths := { s.reports.truths with recorderPaused := state == .paused } } }

/-- R123's table, its PAUSE column. -/
theorem exec_pause (s : State) :
    exec .pause s =
      .next (match s.feed.state with
        | .waiting | .paused => recorderMoved .paused s.feed.pausePending s
        | .writing => recorderMoved .writing true s) := by
  show Host.Outcome.next (tellRecorder (pauseFeed s)) = _
  unfold pauseFeed
  cases h : s.feed.state with
  | waiting => rfl
  | writing | paused => dsimp only; rw [← h]; rfl

/-- R123's table, its RESUME column. -/
theorem exec_resume (s : State) :
    exec .resume s =
      .next (match s.feed.state with
        | .waiting | .paused => recorderMoved .waiting s.feed.pausePending s
        | .writing => recorderMoved .writing false s) := by
  show Host.Outcome.next (tellRecorder (resumeFeed s)) = _
  unfold resumeFeed
  cases h : s.feed.state with
  | paused => rfl
  | waiting | writing => dsimp only; rw [← h]; rfl

/-- Settles O30: one case per recorder state of R123's table. -/
theorem pauseAndResume : Obligations.PauseAndResume := by
  intro s
  rw [exec_pause, exec_resume]
  refine ⟨fun h => ?_, fun h => ?_, fun h => ?_⟩ <;> (rw [h]; exact ⟨rfl, rfl⟩)

/-! ### The Feed's answer by title state (R123, R124) -/

theorem answerSlot_untitled {s : State} (hf : s.feed.state ≠ .writing) (ht : s.title.state = .idle ∨ s.title.state = .armed) :
    answerSlot s = sendIdle (awaiting s) := by
  unfold answerSlot
  cases h : s.feed.state with
  | writing => exact absurd h hf
  | waiting | paused => rcases ht with ht | ht <;> (dsimp only; rw [ht]; rfl)

theorem answerSlot_titled {s : State} (hf : s.feed.state ≠ .writing) (ht : s.title.state = .running ∨ s.title.state = .draining) :
    answerSlot s = titleChoice (awaiting s) := by
  unfold answerSlot
  cases h : s.feed.state with
  | writing => exact absurd h hf
  | waiting | paused => rcases ht with ht | ht <;> (dsimp only; rw [ht]; rfl)

theorem answerSlot_closing {s : State} (hf : s.feed.state ≠ .writing) (ht : s.title.state = .closing) :
    answerSlot s = indexChoice (awaiting s) := by
  unfold answerSlot
  cases h : s.feed.state with
  | writing => exact absurd h hf
  | waiting | paused => dsimp only; rw [ht]; rfl

/-! ### IDLE SLOT (R124, R127, R135) -/

theorem relocateOr_idle {s : State} (hq : s.verify.queue = []) : relocateOr none s = sendIdle s := by
  have none' : relocate s.verify.queue.length s = (s, false) := by
    rw [hq]
    rfl
  unfold relocateOr
  rw [none']
  rfl

/-- With no title candidate and nothing to relocate the title choice is IDLE SLOT. -/
theorem titleChoice_idle {s : State} (hc : titleCandidate s = .none) (hq : s.verify.queue = []) : titleChoice s = sendIdle s := by
  obtain ⟨writable, chosen, hnone, -⟩ := titleChoice_relocates (s := s) (by rw [hc]; nofun) (by rw [hc]; nofun)
  rw [chosen, hnone hc, relocateOr_idle hq]

theorem indexChoice_idle {s : State} (h : nextIndexBlock s = none) : indexChoice s = sendIdle s := by
  unfold indexChoice
  rw [h]

/-- Ageing the entries and changing the Feed, but for its write in flight, completes no drain and no close. -/
theorem titleSettled_aged {s : State} (F : Feed) (out : Option RecorderMessage) (hF : F.flight = s.feed.flight) (h : titleSettled s) :
    titleSettled { s with verify := agedEntries s.verify, feed := F, recorderOut := out } := by
  obtain ⟨drains, closes⟩ := h
  refine ⟨fun ht => ?_, fun ht => ?_⟩
  · rw [← drains ht]
    unfold drainDone verifyDone agedEntries
    simp only [hF, List.isEmpty_map]
    rfl
  · rw [← closes ht]
    unfold closeDone indexInFlight
    rw [hF]

/-- The state a WRITE SLOT leaves that is answered IDLE SLOT, before what it settles: the recorder state and the overlapping tally given. -/
def idleAnswered (state : RecorderState) (overlap : Nat) (s : State) : State :=
  { s with
    verify := agedEntries s.verify
    feed :=
      { s.feed with
        state := state
        tallies :=
          { s.feed.tallies with
            slotsTaken := bump s.feed.tallies.slotsTaken
            idleSlots := bump s.feed.tallies.idleSlots
            overlapping := overlap } }
    recorderOut := some .idleSlot }

theorem answerSlot_overlapping {s : State} (h : s.feed.state = .writing) :
    answerSlot (slotTaken s) = idleAnswered .writing (bump s.feed.tallies.overlapping) s := by
  rw [answerSlot_writing (by exact h)]
  simp only [sendIdle, tallyFeed, slotTaken, idleAnswered, h]

theorem sendIdle_awaiting (s : State) :
    sendIdle (awaiting (slotTaken s)) = idleAnswered .waiting s.feed.tallies.overlapping s := by
  simp only [sendIdle, tallyFeed, awaiting, slotTaken, idleAnswered]

theorem settle_idleAnswered {s : State} (state : RecorderState) (overlap : Nat) (h : titleSettled s) :
    settle (idleAnswered state overlap s) = tellConditions (idleAnswered state overlap s) :=
  settle_of_settled _ (titleSettled_aged _ _ rfl h)

/-- Settles O31: each way to IDLE SLOT sends it from the slot taken, and nothing is left to settle. -/
theorem writeSlotAnsweredIdle : Obligations.WriteSlotAnsweredIdle := by
  intro s ho hs
  refine ⟨fun hw => ?_, fun hf how => ?_⟩
  · rw [writeSlot_answers s ho, answerSlot_overlapping hw, settle_idleAnswered _ _ hs]
    rfl
  · have idle : answerSlot (slotTaken s) = sendIdle (awaiting (slotTaken s)) := by
      rcases how with ht | ⟨ht, hc, hq⟩ | ⟨ht, hn⟩
      · exact answerSlot_untitled hf ht
      · exact (answerSlot_titled (s := slotTaken s) hf ht).trans (titleChoice_idle hc hq)
      · exact (answerSlot_closing (s := slotTaken s) hf ht).trans (indexChoice_idle hn)
    rw [writeSlot_answers s ho, idle, sendIdle_awaiting, settle_idleAnswered _ _ hs]
    rfl

/-! ### The next index block (R135, R159, R160) -/

/-- The first block of the write list TO WRITE is the next, while down is at least up. -/
theorem nextIndexBlock_first {s : State} {r : Region} {b : PlanBlock} {before after : List PlanBlock}
    (hr : s.spare.region = some r) (hp : s.spare.plan = some (before ++ b :: after)) (hb : ∀ x ∈ before, x.state ≠ .toWrite)
    (hw : b.state = .toWrite) (hroom : (r.up : Int) ≤ r.down) : nextIndexBlock s = some b := by
  have skipped : before.find? (fun x => x.state == .toWrite) = none :=
    List.find?_eq_none.mpr fun x hx => by simpa using hb x hx
  unfold nextIndexBlock
  rw [hr, hp]
  dsimp only
  rw [if_pos hroom, List.find?_append, skipped, List.find?_cons_of_pos (by simp [hw])]
  rfl

/-- Of a list whose marks name one block, a change by that mark changes that block. -/
theorem map_mark {b : PlanBlock} {before after : List PlanBlock} (hu : ∀ x ∈ before ++ after, x.mark ≠ b.mark)
    (change : PlanBlock → PlanBlock) :
    (before ++ b :: after).map (fun x => if x.mark = b.mark then change x else x) = before ++ change b :: after := by
  have kept (l : List PlanBlock) (h : ∀ x ∈ l, x.mark ≠ b.mark) :
      l.map (fun x => if x.mark = b.mark then change x else x) = l :=
    (List.map_congr_left fun x hx => if_neg (h x hx)).trans (List.map_id l)
  rw [List.map_append, List.map_cons, if_pos rfl, kept before fun x hx => hu x (List.mem_append_left _ hx),
    kept after fun x hx => hu x (List.mem_append_right _ hx)]

/-- The allocator's part of an index block's start: the block becomes WRITTEN, down falls by one (R160). -/
theorem indexWritten_eq {s : State} {r : Region} {b : PlanBlock} {before after : List PlanBlock} (hr : s.spare.region = some r)
    (hp : s.spare.plan = some (before ++ b :: after)) (hu : ∀ x ∈ before ++ after, x.mark ≠ b.mark) (tag address : Nat) :
    indexWritten b.mark tag address s =
      { s with
        spare :=
          { s.spare with
            region := some { r with down := r.down - 1 }
            plan := some (before ++ { b with state := .written, tag := some tag, address := some address } :: after)
            indexWrites := bump s.spare.indexWrites } } := by
  unfold indexWritten
  rw [changePlan_eq hp, map_mark hu]
  dsimp only
  rw [hr]
  rfl

/-- An index block started: the block becomes WRITTEN, down falls by one, the tag is taken and the WRITE sent; nothing else changes. -/
theorem startIndex_spec {s : State} {r : Region} {b : PlanBlock} {before after : List PlanBlock} (hr : s.spare.region = some r)
    (hp : s.spare.plan = some (before ++ b :: after)) (hu : ∀ x ∈ before ++ after, x.mark ≠ b.mark) (address : Nat) :
    startIndex b address s =
      { s with
        spare :=
          { s.spare with
            region := some { r with down := r.down - 1 }
            plan :=
              some
                (before ++ { b with state := .written, tag := some s.feed.tagCounter, address := some address } :: after)
            indexWrites := bump s.spare.indexWrites }
        feed :=
          { s.feed with
            state := .writing
            tagCounter := (s.feed.tagCounter + 1) % 65536
            flight :=
              some
                { kind := .index, tag := s.feed.tagCounter, address := address, frame := none, slot := none, cue := none,
                  fill := none, index := some b.mark }
            tallies := { s.feed.tallies with indexWrites := bump s.feed.tallies.indexWrites } }
        recorderOut := some (.write s.feed.tagCounter address (.indexBlock (indexContent s b.mark))) } := by
  unfold startIndex
  dsimp only
  rw [indexWritten_eq (by exact hr) (by exact hp) hu]
  simp only [beginStream, tallyFeed, takeTag, indexContent, titleNumber]

/-- An INDEX write in flight keeps the close open, so that settling tells the conditions alone. -/
theorem settle_of_indexFlight {t : State} {w : Flight} (ht : t.title.state = .closing) (hf : t.feed.flight = some w)
    (hk : w.kind = .index) : settle t = tellConditions t := by
  refine settle_of_settled t ⟨fun h => (by rw [ht] at h; cases h), fun _ => ?_⟩
  unfold closeDone indexInFlight
  rw [hf]
  cases t.spare.plan <;> simp [hk]

/-- Settles O35: the next block's write starts at address down, and keeps the close open. -/
theorem writeSlotWritesIndex : Obligations.WriteSlotWritesIndex := by
  intro s r b before after ht hf ho hr hp hb hw hu hroom tag address
  have chosen : answerSlot (slotTaken s) = startIndex b address (awaiting (slotTaken s)) := by
    have next : nextIndexBlock (awaiting (slotTaken s)) = some b := nextIndexBlock_first hr hp hb hw hroom
    rw [answerSlot_closing (by exact hf) (by exact ht)]
    unfold indexChoice
    rw [next, show (awaiting (slotTaken s)).spare.region = some r from hr]
  have spec := startIndex_spec (s := awaiting (slotTaken s)) hr hp hu address
  have runs := (writeSlot_answers s ho).trans (congrArg (fun u => Host.Outcome.next (settle u)) (chosen.trans spec))
  refine ⟨_, indexContent s b.mark, runs.trans (congrArg Host.Outcome.next (settle_of_indexFlight ht rfl rfl)), rfl, rfl, rfl,
    rfl, ⟨rfl, rfl, rfl, fun d hd => ?_, rfl⟩, rfl⟩
  show titleNumber s = d.number
  unfold titleNumber
  rw [hd]

end Sys2Proof.Machine
end

