-- ==== Sys2Proof/Proofs/Drain.lean ====
section
/-! The drain complete, and the gap fill whose entry times out, also where that timeout completes the drain (R124, R138, R146, R148,
R151, R159, R171, R192). -/

namespace Sys2Proof.Machine

/-! ### The drain (R138, R159, R171) -/

/-- The window holds no unwritten frame once no slot does and the gap list is empty (R30). -/
theorem windowDone_iff (s : State) :
    windowDone s = true ↔
      s.gaps = [] ∧ ∀ i : Fin 32, s.slots[i].state ≠ .filling ∧ s.slots[i].state ≠ .repairing ∧ s.slots[i].state ≠ .ready := by
  unfold windowDone
  simp [allSlots, and_assoc]

/-- The five answers of the drain, spelled out. -/
theorem drainDone_iff (s : State) :
    drainDone s = true ↔
      s.ingest.state = .stopped ∧
        (s.gaps = [] ∧
          ∀ i : Fin 32, s.slots[i].state ≠ .filling ∧ s.slots[i].state ≠ .repairing ∧ s.slots[i].state ≠ .ready) ∧
        s.feed.flight = none ∧ (s.verify.entries = [] ∧ s.verify.queue = []) ∧ s.spare.inFlight = 0 := by
  unfold drainDone verifyDone
  simp only [Bool.and_eq_true, windowDone_iff, beq_iff_eq, Option.isNone_iff_eq_none, List.isEmpty_iff, and_assoc]

theorem checkDrain_of_done {s : State} (ht : s.title.state = .draining) (hd : drainDone s = true) : checkDrain s = enterClosing s :=
  if_pos ⟨ht, hd⟩

theorem checkDrain_of_open {s : State} (h : s.title.state ≠ .draining ∨ drainDone s = false) : checkDrain s = s :=
  if_neg fun c => h.elim (fun ht => ht c.1) fun hd => absurd c.2 (by rw [hd]; decide)

/-- The plan drawn up at the entry to CLOSING still has all its blocks to write, so that settling goes no further. -/
theorem settle_of_drainDone {s : State} (ht : s.title.state = .draining) (hd : drainDone s = true) :
    settle s = tellConditions (enterClosing s) := by
  unfold settle checkClose
  rw [checkDrain_of_done ht hd, if_neg (by rw [closeDone_enterClosing]; simp)]

/-- Block k of the plan is the first writing of index block k (R159). -/
theorem drawPlan_getElem? {e k : Nat} {b : PlanBlock} (h : (drawPlan e)[k]? = some b) :
    b = { mark := { number := k, rewrite := false }, state := .toWrite, tag := none, address := none } := by
  unfold drawPlan at h
  rw [List.getElem?_map, Option.map_eq_some_iff] at h
  obtain ⟨n, hn, rfl⟩ := h
  obtain ⟨hk, rfl⟩ := List.getElem?_eq_some_iff.mp hn
  rw [List.getElem_range]

/-- Settles O41: the drain is taken exactly in DRAINING with its five answers done, at the command and by whatever settles. -/
theorem drainEntersClosing : Obligations.DrainEntersClosing := by
  intro s
  refine ⟨settle_of_settled s, tellConditions_of_told s, fun ht hi hw hg hf he hq hn => ?_, fun hopen => ?_⟩
  · have done : drainDone s = true := (drainDone_iff s).mpr ⟨hi, ⟨hg, hw⟩, hf, ⟨he, hq⟩, hn⟩
    refine ⟨drawPlan s.spare.table.length, congrArg (fun u => Host.Outcome.next (tellConditions u)) (checkDrain_of_done ht done),
      settle_of_drainDone ht done, ?_, fun k b => drawPlan_getElem?⟩
    exact (List.length_map _).trans List.length_range
  · have kept : checkDrain s = s := by
      refine checkDrain_of_open (or_iff_not_imp_left.mpr fun ht => Bool.eq_false_iff.mpr fun done => ?_)
      obtain ⟨hi, ⟨hg, hw⟩, hf, ⟨he, hq⟩, hn⟩ := (drainDone_iff s).mp done
      rcases hopen with h | h | h | h | h | h | h | ⟨i, h⟩
      · exact ht h
      · exact h hi
      · exact h hg
      · rw [hf] at h; cases h
      · exact h he
      · exact h hq
      · exact h hn
      · obtain ⟨hfilling, hrepairing, hready⟩ := hw i
        exact h.elim hfilling fun h => h.elim hrepairing hready
    refine ⟨congrArg (fun u => Host.Outcome.next (tellConditions u)) kept, fun hc => ?_⟩
    unfold settle checkClose
    rw [kept, if_neg fun h => hc h.1]

/-! ### A gap fill lost to its timeout (R146, R148, R151, R192) -/

/-- A gap fill's timeout, the entries left to the Tracker given: it retires LOST, FRAME LOST is set and its report is built. -/
def gapFillLost (e : PendingEntry) (entries : List PendingEntry) (s : State) : State :=
  { s with
    verify := { s.verify with entries := entries, timeouts := bump s.verify.timeouts, lost := bump s.verify.lost }
    reports :=
      reportAdded (gapFillReport s (e.frame.getD 0) e.address e.fill e.cue .lost)
        { s.reports with alerts := { s.reports.alerts with frameLost := true } } }

theorem lossPosted_lost (r : ReportUnit) : lossPosted .lost r = { r with alerts := { r.alerts with frameLost := true } } := by
  unfold lossPosted
  rw [decide_eq_true rfl, Bool.or_true]

/-- The oldest overdue entry, a gap fill's, is lost. -/
theorem timeOutOldest_gapFill {s : State} {e : PendingEntry} {before after : List PendingEntry} (hk : e.kind = .gapFill)
    (hs : s.verify.entries = before ++ e :: after) (hu : ∀ y ∈ before ++ after, y.tag ≠ e.tag)
    (hb : ∀ y ∈ before, y.age ≤ s.settings.verifyTimeout) (ha : s.settings.verifyTimeout < e.age) :
    timeOutOldest s = gapFillLost e (before ++ after) s := by
  have entry (t : State) :
      resolveEntry e .timeout t = retireGapFill (e.frame.getD 0) e.address e.fill e.cue .lost t := by
    unfold resolveEntry
    rw [hk]
    rfl
  rw [timeOutOldest_resolves hs hu hb ha, entry, retireGapFill_eq, lossPosted_lost]
  rfl

/-- An entry one WRITE SLOT older (R146). -/
def olderEntry (e : PendingEntry) : PendingEntry := { e with age := e.age + 1 }

/-- A WRITE SLOT's ageing makes the gap fill alone overdue, and it is lost, whatever the Feed is. -/
theorem ageAndTimeOut_gapFill {s : State} {e : PendingEntry} {before after : List PendingEntry} (F : Feed) (hk : e.kind = .gapFill)
    (hs : s.verify.entries = before ++ e :: after) (hu : ∀ y ∈ before ++ after, y.tag ≠ e.tag)
    (hb : ∀ y ∈ before ++ after, y.age + 1 ≤ s.settings.verifyTimeout) (ha : s.settings.verifyTimeout < e.age + 1) :
    ageAndTimeOut { s with feed := F } = { gapFillLost e ((before ++ after).map olderEntry) s with feed := F } := by
  obtain ⟨V, W, n, T, R, oldest, aged⟩ := ageAndTimeOut_one F hs hu (by rw [hk]; decide) hb ha
  have entries : (agedEntries s.verify).entries = before.map olderEntry ++ olderEntry e :: after.map olderEntry := by
    show s.verify.entries.map olderEntry = _
    rw [hs, List.map_append, List.map_cons]
  have tags : ∀ y ∈ before.map olderEntry ++ after.map olderEntry, y.tag ≠ (olderEntry e).tag := by
    rw [← List.map_append]
    exact List.forall_mem_map.mpr hu
  have ages : ∀ y ∈ before.map olderEntry, y.age ≤ s.settings.verifyTimeout :=
    List.forall_mem_map.mpr fun x hx => hb x (List.mem_append_left _ hx)
  have lost := timeOutOldest_gapFill (s := { s with verify := agedEntries s.verify }) (e := olderEntry e) hk entries tags ages ha
  rw [aged, List.map_append]
  exact congrArg (fun u : State => { u with feed := F }) (oldest.symm.trans lost)

/-- The state a WRITE SLOT is answered in, where its ageing has lost the gap fill of entry `e`: the slot is tallied and the entries left
have aged. -/
def slotTakenLosing (e : PendingEntry) (others : List PendingEntry) (s : State) : State :=
  { gapFillLost e (others.map olderEntry) s with
    feed := { s.feed with tallies := { s.feed.tallies with slotsTaken := bump s.feed.tallies.slotsTaken } } }

/-- A WRITE SLOT whose ageing makes a gap fill alone overdue is the Feed's answer once that gap fill is lost, and what it completes. -/
theorem writeSlot_answersLosing {s : State} {e : PendingEntry} {before after : List PendingEntry} (hk : e.kind = .gapFill)
    (hs : s.verify.entries = before ++ e :: after) (hu : ∀ y ∈ before ++ after, y.tag ≠ e.tag)
    (hb : ∀ y ∈ before ++ after, y.age + 1 ≤ s.settings.verifyTimeout) (ha : s.settings.verifyTimeout < e.age + 1) :
    exec .writeSlot s = .next (settle (answerSlot (slotTakenLosing e (before ++ after) s))) :=
  congrArg (fun u => Host.Outcome.next (settle (answerSlot u))) (ageAndTimeOut_gapFill _ hk hs hu hb ha)

/-- The state such a WRITE SLOT leaves that is answered IDLE SLOT, before what it settles: the overlapping tally given. -/
def idleLosing (e : PendingEntry) (others : List PendingEntry) (overlap : Nat) (s : State) : State :=
  { s with
    verify := (gapFillLost e (others.map olderEntry) s).verify
    reports := (gapFillLost e (others.map olderEntry) s).reports
    feed :=
      { s.feed with
        tallies :=
          { s.feed.tallies with
            slotsTaken := bump s.feed.tallies.slotsTaken
            idleSlots := bump s.feed.tallies.idleSlots
            overlapping := overlap } }
    recorderOut := some .idleSlot }

theorem sendIdle_losing (e : PendingEntry) (others : List PendingEntry) (s : State) :
    sendIdle (slotTakenLosing e others s) = idleLosing e others s.feed.tallies.overlapping s := by
  simp only [sendIdle, tallyFeed, slotTakenLosing, gapFillLost, idleLosing]

/-- Taken while WRITING, the WRITE SLOT is overlapping, and the write in flight leaves nothing to settle. -/
theorem writeSlot_overlapsLosing {s : State} {e : PendingEntry} {before after : List PendingEntry} (hk : e.kind = .gapFill)
    (hs : s.verify.entries = before ++ e :: after) (hu : ∀ y ∈ before ++ after, y.tag ≠ e.tag)
    (hb : ∀ y ∈ before ++ after, y.age + 1 ≤ s.settings.verifyTimeout) (ha : s.settings.verifyTimeout < e.age + 1)
    (hw : s.feed.state = .writing) (hf : s.feed.flight.isSome = true) (ht : titleSettled s) :
    exec .writeSlot s =
      .next (tellConditions (idleLosing e (before ++ after) (bump s.feed.tallies.overlapping) s)) := by
  have answered : answerSlot (slotTakenLosing e (before ++ after) s) =
      idleLosing e (before ++ after) (bump s.feed.tallies.overlapping) s := by
    rw [answerSlot_writing (by exact hw)]
    simp only [sendIdle, tallyFeed, slotTakenLosing, gapFillLost, idleLosing]
  have settled : titleSettled (idleLosing e (before ++ after) (bump s.feed.tallies.overlapping) s) :=
    titleSettled_of_flight (s := s) rfl rfl rfl hf ht
  rw [writeSlot_answersLosing hk hs hu hb ha, answered, settle_of_settled _ settled]

/-- With no gap and no slot holding an unwritten frame there is no title candidate (R125). -/
theorem titleCandidate_none {s : State} (h : windowDone s = true) : titleCandidate s = .none := by
  obtain ⟨hg, hw⟩ := (windowDone_iff s).mp h
  unfold titleCandidate
  cases s.feed.h with
  | none => rfl
  | some h =>
    have nogap : windowAnswer s h ≠ .gap := by
      unfold windowAnswer
      rw [hg]
      split <;> simp
    dsimp only
    split
    · next hgap => exact absurd hgap nogap
    · next i _ =>
      obtain ⟨hfilling, hrepairing, hready⟩ := hw i
      unfold slotCandidate
      cases hi : s.slots[i].state with
      | filling => exact absurd hi hfilling
      | repairing => exact absurd hi hrepairing
      | ready => exact absurd hi hready
      | free | sent | relocating | retained => rfl
    · rfl

/-- Where the entry lost was the last of a drain otherwise done, the WRITE SLOT is answered IDLE SLOT and the title enters CLOSING. -/
theorem writeSlot_drainsLosing {s : State} {e : PendingEntry} (hk : e.kind = .gapFill) (hs : s.verify.entries = [e])
    (ha : s.settings.verifyTimeout < e.age + 1) (hw : s.feed.state = .waiting) (ht : s.title.state = .draining)
    (hd : drainDone (idleLosing e [] s.feed.tallies.overlapping s) = true) :
    exec .writeSlot s = .next (settle (idleLosing e [] s.feed.tallies.overlapping s)) ∧
      settle (idleLosing e [] s.feed.tallies.overlapping s) =
        tellConditions (enterClosing (idleLosing e [] s.feed.tallies.overlapping s)) := by
  refine ⟨?_, settle_of_drainDone ht hd⟩
  obtain ⟨-, hunwritten, -, ⟨-, hq⟩, -⟩ := (drainDone_iff _).mp hd
  have unwritten : windowDone (awaiting (slotTakenLosing e [] s)) = true := (windowDone_iff _).mpr hunwritten
  have waits : (slotTakenLosing e [] s).feed.state = .waiting := hw
  have awaits : awaiting (slotTakenLosing e [] s) = slotTakenLosing e [] s := by
    unfold awaiting
    rw [← waits]
  have answered : answerSlot (slotTakenLosing e [] s) = sendIdle (awaiting (slotTakenLosing e [] s)) :=
    (answerSlot_titled (s := slotTakenLosing e [] s) (by rw [waits]; decide) (.inr ht)).trans
      (titleChoice_idle (titleCandidate_none unwritten) hq)
  rw [writeSlot_answersLosing (before := []) (after := []) hk hs (by simp) (by simp) ha, List.append_nil, answered, awaits,
    sendIdle_losing]

/-- Settles O39: the gap fill's entry leaves the list first, and the slot is answered by what is left. -/
theorem timeoutLosesGapFill : Obligations.TimeoutLosesGapFill := by
  intro s e before after hs hu hk lost tells
  have told : tells (gapFillReport s (e.frame.getD 0) e.address e.fill e.cue .lost) := ⟨rfl, rfl, rfl, rfl, rfl, rfl⟩
  refine ⟨fun hb ha => ⟨_, told, ?_⟩, fun hb ha hw hf ht => ⟨_, told, ?_⟩,
    fun halone ha hw ht hi hslots hg hf hq hn => ⟨_, told, ?_⟩⟩
  · exact congrArg (fun u => Host.Outcome.next (settle u)) (timeOutOldest_gapFill hk hs hu hb ha)
  · exact writeSlot_overlapsLosing hk hs hu hb ha hw hf ht
  · obtain ⟨rfl, rfl⟩ := List.append_eq_nil_iff.mp halone
    obtain ⟨runs, closes⟩ :=
      writeSlot_drainsLosing hk hs ha hw ht ((drainDone_iff _).mpr ⟨hi, ⟨hg, hslots⟩, hf, ⟨rfl, hq⟩, hn⟩)
    intro t
    have left : t = tellConditions (enterClosing (idleLosing e [] s.feed.tallies.overlapping s)) := closes
    clear_value t
    rw [left]
    exact ⟨runs.trans (congrArg Host.Outcome.next closes), rfl, rfl, hf⟩

end Sys2Proof.Machine
end

