-- ==== Sys2Proof/Proofs/CuesAndReports.lean ====
section
/-! CUE, READ REPORT and ACK ALERTS (R131, R193, R195). -/

namespace Sys2Proof.Machine

theorem byteOf_of_toNat (b : Byte) : byteOf b.toNat = b := (BitVec.ofNat_toNat ..).trans (BitVec.setWidth_eq b)

/-- A request of one byte is read back as that byte. -/
theorem byteAt_single (b : Byte) : byteAt [b] 0 = b.toNat := byteAt_of_getElem? rfl

/-! ### CUE (R131) -/

theorem carryCue_eq (mark : Byte) (s : State) :
    carryCue [mark] s =
      if mark = 0 then (s, [17])
      else ({ s with feed := { s.feed with pendingCue := some mark } }, [if s.feed.pendingCue = none then 0 else 2]) := by
  unfold carryCue
  rw [byteAt_single, byteOf_of_toNat]
  cases s.feed.pendingCue <;> rfl

/-- CUE in RUNNING on a line at rest is carried out and answered. -/
theorem exec_cue_running {s : State} (tag mark : Byte) (h : lineAtRest s) (ht : s.title.state = .running) :
    exec (.cue tag [mark]) s = .next (replying 0x8A tag (carryCue [mark] s).2 (carryCue [mark] s).1) := by
  have accepted : acceptedIn .cue s.title.state = true := by rw [ht]; rfl
  show Host.Outcome.next (takeRequest { kind := 10, tag := tag, payload := [mark] } s) = _
  rw [takeRequest_carried (q := .cue) h rfl rfl accepted (by decide)]
  rfl

/-! ### READ REPORT (R193) -/

theorem carryReadReport_empty {s : State} (h : s.reports.done = []) : carryReadReport s = (s, [0, 0]) := by
  unfold carryReadReport
  rw [h]
  rfl

theorem carryReadReport_oldest {s : State} {r : Report} {rest : List Report} (h : s.reports.done = r :: rest) :
    carryReadReport s =
      ({ s with reports := { s.reports with done := rest } }, [0, byteOf rest.length] ++ reportBytes r) := by
  unfold carryReadReport
  rw [h]
  rfl

/-- READ REPORT on a line at rest is carried out and answered, whatever the title state. -/
theorem exec_readReport {s : State} (tag : Byte) (h : lineAtRest s) :
    exec (.readReport tag []) s = .next (replying 0x8B tag (carryReadReport s).2 (carryReadReport s).1) := by
  show Host.Outcome.next (takeRequest { kind := 11, tag := tag, payload := [] } s) = _
  rw [takeRequest_carried (q := .readReport) h rfl rfl rfl (by decide)]
  rfl

/-! ### ACK ALERTS (R195) -/

theorem carryAckAlerts_refused {b : Byte} (s : State) (h : 64 ≤ b.toNat) : carryAckAlerts [b] s = (s, [17]) := by
  unfold carryAckAlerts
  rw [byteAt_single]
  exact if_neg (Nat.not_lt.mpr h)

theorem carryAckAlerts_taken {b : Byte} (s : State) (h : b.toNat < 64) :
    carryAckAlerts [b] s = (takeAck (alertsOf b) s, [0, byteOf s.reports.missed]) := by
  unfold carryAckAlerts
  rw [byteAt_single]
  dsimp only
  rw [if_pos h, byteOf_of_toNat]
  rfl

/-- ACK ALERTS on a line at rest is carried out and answered, whatever the title state. -/
theorem exec_ackAlerts {s : State} (tag b : Byte) (h : lineAtRest s) :
    exec (.ackAlerts tag [b]) s = .next (replying 0x8C tag (carryAckAlerts [b] s).2 (carryAckAlerts [b] s).1) := by
  show Host.Outcome.next (takeRequest { kind := 12, tag := tag, payload := [b] } s) = _
  rw [takeRequest_carried (q := .ackAlerts) h rfl rfl rfl (by decide)]
  rfl

/-- Settles O55: each request is served at once on the line at rest, and its owner's act is read off. -/
theorem cueReadAndAcknowledge : Obligations.CueReadAndAcknowledge := by
  intro s tag hrest
  refine ⟨fun ht => ⟨?_, fun mark hm => ?_⟩, ⟨fun hnone => ?_, fun r rest hdone => ?_⟩, fun b => ⟨fun hb => ?_, fun hb => ?_⟩⟩
  · rw [exec_cue_running tag 0 hrest ht, carryCue_eq, if_pos rfl]
  · rw [exec_cue_running tag mark hrest ht, carryCue_eq, if_neg hm]
  · rw [exec_readReport tag hrest, carryReadReport_empty hnone]
  · rw [exec_readReport tag hrest, carryReadReport_oldest hdone]
  · rw [exec_ackAlerts tag b hrest, carryAckAlerts_refused s hb]
  · rw [exec_ackAlerts tag b hrest, carryAckAlerts_taken s hb]
    rfl

end Sys2Proof.Machine
end

