-- ==== Sys2Proof/Proofs/SpareSpace.lean ====
section
/-! The OUTCOME that matches nothing, the spare region's reserve law, and the declarations that pair (R147, R155, R156, R158, R167,
R168). -/

namespace Sys2Proof.Machine

/-! ### The OUTCOME discarded (R147) -/

theorem verdictOf_eq_none {result : Byte} (h : result ≠ 1 ∧ result ≠ 2 ∧ result ≠ 3) : verdictOf result = none := by
  obtain ⟨good, marginal, bad⟩ := h
  unfold verdictOf
  rw [if_neg good, if_neg marginal, if_neg bad]

theorem takeOutcome_unreadable {tag : Nat} {result : Byte} {s : State} (h : verdictOf result = none) :
    takeOutcome tag result s = discardOutcome s := by
  unfold takeOutcome
  rw [h]

/-- An OUTCOME whose tag no entry has is discarded, whatever its result byte. -/
theorem takeOutcome_unmatched {tag : Nat} {result : Byte} {s : State} (h : ∀ e ∈ s.verify.entries, e.tag ≠ tag) :
    takeOutcome tag result s = discardOutcome s := by
  have unmatched : s.verify.entries.find? (fun e => e.tag = tag) = none :=
    List.find?_eq_none.mpr fun e he => by simpa using h e he
  cases hv : verdictOf result with
  | none => exact takeOutcome_unreadable hv
  | some v =>
    unfold takeOutcome
    rw [hv, unmatched]

/-- Settles O37: the result byte has no verdict, or the tag finds no entry. -/
theorem outcomeDiscarded : Obligations.OutcomeDiscarded := by
  intro s tag result h
  have discarded : takeOutcome tag.toNat result s = discardOutcome s := by
    rcases h with unreadable | unmatched
    · exact takeOutcome_unreadable (verdictOf_eq_none unreadable)
    · exact takeOutcome_unmatched unmatched
  exact congrArg (fun t => Host.Outcome.next (settle t)) discarded

/-! ### The headroom (R158) -/

theorem headroomFits_iff (r : Region) (n j : Nat) :
    headroomFits r n j = true ↔
      (r.up - r.lo) + j + ((max (n + j) 1 + 31) / 32 + 1) ≤ r.hi - r.lo + 1 ∧ n + j ≤ 256 := by
  unfold headroomFits
  rw [Bool.and_eq_true, decide_eq_true_eq, decide_eq_true_eq]
  rfl

/-- Fewer blocks fit wherever more do: the reserve grows with them. -/
theorem headroomFits_of_le {r : Region} {n i j : Nat} (hij : i ≤ j) (h : headroomFits r n j = true) :
    headroomFits r n i = true := by
  rw [headroomFits_iff] at h ⊢
  omega

theorem le_headroomFrom (r : Region) (n fuel k : Nat) : k ≤ headroomFrom r n fuel k := by
  induction fuel generalizing k with
  | zero => exact Nat.le_refl k
  | succ fuel ih =>
    unfold headroomFrom
    split
    · exact Nat.le_of_succ_le (ih (k + 1))
    · exact Nat.le_refl k

/-- The count reached from `k` bounds exactly the counts above `k` that fit, where the fuel reaches every one of them. -/
theorem headroomFits_iff_le_headroomFrom {r : Region} {n j : Nat} (fuel k : Nat) (above : k < j)
    (enough : headroomFits r n j = true → j ≤ k + fuel) : headroomFits r n j = true ↔ j ≤ headroomFrom r n fuel k := by
  induction fuel generalizing k with
  | zero => exact ⟨enough, fun h => absurd h (Nat.not_le.mpr above)⟩
  | succ fuel ih =>
    unfold headroomFrom
    split
    case isTrue fits =>
      rcases Nat.eq_or_lt_of_le (Nat.succ_le_of_lt above) with rfl | beyond
      · exact iff_of_true fits (le_headroomFrom r n fuel (k + 1))
      · exact ih (k + 1) beyond fun h => (enough h).trans_eq (by omega)
    case isFalse blocked =>
      exact iff_of_false (fun h => blocked (headroomFits_of_le above h)) (Nat.not_le.mpr above)

/-! ### The grant (R156) -/

theorem takeGrant_region {s : State} {r : Region} (hr : s.spare.region = some r) :
    (takeGrant s).spare.region = some { r with up := r.up + 1 } := by
  unfold takeGrant
  rw [hr]
  rfl

/-- A grant is of the block at up, and only where one more block fits. -/
theorem grantAddress_eq_some {s : State} {r : Region} {address : Nat} (hr : s.spare.region = some r)
    (h : grantAddress s = some address) :
    address = r.up ∧ headroomFits r (s.spare.table.length + s.spare.inFlight) 1 = true := by
  rw [grantAddress_eq hr] at h
  split at h
  case isTrue fits => exact ⟨(Option.some.inj h).symm, fits⟩
  case isFalse => cases h

/-- Settles O40: the counts that fit are those the headroom bounds, and a grant is made only where one more block fits. -/
theorem headroomAndGrants : Obligations.HeadroomAndGrants := by
  refine ⟨fun r n j hj => ?_, fun s r address hr hup granted => ?_⟩
  · have enough : headroomFits r n j = true → j ≤ 0 + 256 := fun h => by
      have total := ((headroomFits_iff r n j).mp h).2
      omega
    rw [← headroomFits_iff]
    exact headroomFits_iff_le_headroomFrom 256 0 hj enough
  · obtain ⟨at_up, fits⟩ := grantAddress_eq_some hr granted
    obtain ⟨law, total⟩ := (headroomFits_iff _ _ _).mp fits
    refine ⟨at_up, takeGrant_region hr, rfl, rfl, ?_⟩
    rw [Nat.sub_add_comm hup]
    exact ⟨law, total⟩

/-! ### DECLARE SPARE (R155, R167, R168) -/

theorem overlaps_eq_false_iff (d : TitleDeclaration) (lo hi : Nat) :
    overlaps d lo hi = false ↔ hi < d.start ∨ lastAddress d < lo := by
  simp only [overlaps, Bool.and_eq_false_iff, decide_eq_false_iff_not, Nat.not_le]

theorem regionFits_iff (lo hi : Nat) : regionFits lo hi = true ↔ lo ≤ hi ∧ 16 ≤ hi - lo + 1 ∧ hi - lo + 1 ≤ 65536 := by
  simp [regionFits, and_assoc]

theorem regionOverlaps_eq_false_iff (lo hi : Nat) (s : State) :
    regionOverlaps lo hi s = false ↔
      ∀ d, s.title.state = .idle → s.title.declaration = some d → hi < d.start ∨ d.start + d.capacity - 1 < lo := by
  unfold regionOverlaps
  cases hd : s.title.declaration with
  | none => simp
  | some d =>
    rw [Bool.and_eq_false_imp, beq_iff_eq, overlaps_eq_false_iff]
    exact ⟨fun clear _ idle same => Option.some.inj same ▸ clear idle, fun clear idle => clear d idle rfl⟩

/-- A DECLARE SPARE in IDLE or ARMED is taken where its region fits and is clear of the title area, and refused elsewhere. -/
theorem exec_declareSpare {s : State} {lo hi : Nat} (tag : Byte) (h : lineAtRest s)
    (ht : s.title.state = .idle ∨ s.title.state = .armed) (hlo : lo < 2 ^ 32) (hhi : hi < 2 ^ 32) :
    exec (.declareSpare tag (beBytes 4 lo ++ beBytes 4 hi)) s =
      .next
        (if regionFits lo hi = true ∧ regionOverlaps lo hi s = false then replying 0x85 tag [0] (pairSpare (takeRegion lo hi s))
         else replying 0x85 tag [17] s) := by
  have accepted : acceptedIn .declareSpare s.title.state = true := by
    rcases ht with ht | ht <;> rw [ht] <;> rfl
  have low : numberAt (beBytes 4 lo ++ beBytes 4 hi) 0 4 = lo := numberAt_beBytes rfl hlo
  have high : numberAt (beBytes 4 lo ++ beBytes 4 hi) 4 4 = hi := numberAt_beBytes rfl hhi
  have carried :
      carryOut .declareSpare (beBytes 4 lo ++ beBytes 4 hi) s =
        if regionFits lo hi = true ∧ regionOverlaps lo hi s = false then (pairSpare (takeRegion lo hi s), [0]) else (s, [17]) := by
    unfold carryOut carryDeclareSpare
    rw [low, high]
    simp only [Bool.and_eq_true, Bool.not_eq_true']
    rfl
  show Host.Outcome.next (takeRequest { kind := 5, tag := tag, payload := beBytes 4 lo ++ beBytes 4 hi } s) = _
  rw [takeRequest_carried (q := .declareSpare) h rfl rfl accepted (by decide), carried]
  split <;> rfl

theorem pairSpare_takeRegion {s : State} (lo hi : Nat) (ht : s.title.state = .idle ∨ s.title.state = .armed) :
    pairSpare (takeRegion lo hi s) =
      { s with
        spare :=
          { s.spare with
            region := some { lo := lo, hi := hi, up := lo, down := hi }, inFlight := 0, plan := none }
        title :=
          if s.title.state = .armed then { state := .idle, declaration := none }
          else
            { state := if s.title.declaration.isSome then .armed else .idle
              declaration := s.title.declaration } } := by
  unfold pairSpare takeRegion
  rcases ht with idle | armed
  · simp [idle, armedIf]
  · simp [armed]

/-! ### OPEN TITLE (R167, R168) -/

theorem areaFits_iff (d : TitleDeclaration) : areaFits d = true ↔ 1 ≤ d.capacity ∧ d.start + d.capacity - 1 ≤ 4294967295 := by
  simp [areaFits, lastAddress]

theorem titleOverlaps_eq_false_iff (d : TitleDeclaration) (s : State) :
    titleOverlaps d s = false ↔
      ∀ r, s.title.state = .idle → s.spare.region = some r → r.hi < d.start ∨ d.start + d.capacity - 1 < r.lo := by
  unfold titleOverlaps
  cases hr : s.spare.region with
  | none => simp
  | some r =>
    rw [Bool.and_eq_false_imp, beq_iff_eq, overlaps_eq_false_iff]
    exact ⟨fun clear _ idle same => Option.some.inj same ▸ clear idle, fun clear idle => clear r idle rfl⟩

/-- The OPEN TITLE payload that carries a declaration (Table 11-4). -/
def titlePayload (d : TitleDeclaration) : List Byte :=
  beBytes 2 d.number ++ beBytes 4 d.start ++ beBytes 4 d.capacity ++ beBytes 4 d.first

theorem declarationOf_titlePayload {d : TitleDeclaration} (hn : d.number < 2 ^ 16) (hs : d.start < 2 ^ 32)
    (hc : d.capacity < 2 ^ 32) (hf : d.first < 2 ^ 32) : declarationOf (titlePayload d) = d := by
  have number : numberAt (titlePayload d) 0 2 = d.number := numberAt_beBytes rfl hn
  have start : numberAt (titlePayload d) 2 4 = d.start := numberAt_beBytes rfl hs
  have capacity : numberAt (titlePayload d) 6 4 = d.capacity := numberAt_beBytes rfl hc
  have first : numberAt (titlePayload d) 10 4 = d.first := numberAt_beBytes rfl hf
  unfold declarationOf
  rw [number, start, capacity, first]

/-- An OPEN TITLE in IDLE or ARMED is taken where its area fits and is clear of the spare region, and refused elsewhere. -/
theorem exec_openTitle {s : State} {payload : List Byte} {d : TitleDeclaration} (tag : Byte) (h : lineAtRest s)
    (ht : s.title.state = .idle ∨ s.title.state = .armed) (hl : lengthFits .openTitle payload = true)
    (hp : declarationOf payload = d) :
    exec (.openTitle tag payload) s =
      .next
        (if areaFits d = true ∧ titleOverlaps d s = false then replying 0x86 tag [0] (pairTitle (takeDeclaration d s))
         else replying 0x86 tag [17] s) := by
  have accepted : acceptedIn .openTitle s.title.state = true := by
    rcases ht with ht | ht <;> rw [ht] <;> rfl
  have carried :
      carryOut .openTitle payload s =
        if areaFits d = true ∧ titleOverlaps d s = false then (pairTitle (takeDeclaration d s), [0]) else (s, [17]) := by
    unfold carryOut carryOpenTitle
    rw [hp]
    simp only [Bool.and_eq_true, Bool.not_eq_true']
    rfl
  show Host.Outcome.next (takeRequest { kind := 6, tag := tag, payload := payload } s) = _
  rw [takeRequest_carried (q := .openTitle) h rfl hl accepted (by decide), carried]
  split <;> rfl

theorem pairTitle_takeDeclaration {s : State} (d : TitleDeclaration) (ht : s.title.state = .idle ∨ s.title.state = .armed) :
    pairTitle (takeDeclaration d s) =
      { s with
        title :=
          { state := if s.title.state = .idle ∧ s.spare.region.isSome then .armed else .idle
            declaration := some d }
        spare :=
          if s.title.state = .armed then { s.spare with table := [], region := none, plan := none }
          else { s.spare with table := [] } } := by
  unfold pairTitle takeDeclaration
  rcases ht with idle | armed
  · simp [idle, armedIf]
  · simp [armed]

/-- Settles O51: each payload reads back as the declaration sent, whose checks decide between the refusal and the pairing. -/
theorem declarationsPair : Obligations.DeclarationsPair := by
  intro s tag hrest ht
  refine ⟨fun lo hi hlo hhi => ?_, fun d hn hs hc hf => ?_⟩
  · intro sized clear
    have taken : (regionFits lo hi = true ∧ regionOverlaps lo hi s = false) ↔ sized ∧ clear :=
      and_congr (regionFits_iff lo hi) (regionOverlaps_eq_false_iff lo hi s)
    rw [exec_declareSpare tag hrest ht hlo hhi]
    refine ⟨fun h => ?_, fun fits apart => ?_⟩
    · rw [if_neg (mt taken.mp h)]
    · rw [if_pos (taken.mpr ⟨fits, apart⟩), pairSpare_takeRegion lo hi ht]
  · intro payload sized clear
    have taken : (areaFits d = true ∧ titleOverlaps d s = false) ↔ sized ∧ clear :=
      and_congr (areaFits_iff d) (titleOverlaps_eq_false_iff d s)
    rw [exec_openTitle tag hrest ht (payload := payload) rfl (declarationOf_titlePayload hn hs hc hf)]
    refine ⟨fun h => ?_, fun fits apart => ?_⟩
    · rw [if_neg (mt taken.mp h)]
    · rw [if_pos (taken.mpr ⟨fits, apart⟩), pairTitle_takeDeclaration d ht]

end Sys2Proof.Machine
end

