-- ==== Sys2Proof/Proofs/BoundaryNotice.lean ====
section
/-! The notice of a field boundary: what telling makes of the Report Unit and the line, and a boundary that tells what is owed in any order
of its four receivers (R177, R178, R194, R196, R197). -/

namespace Sys2Proof.Machine

/-! ### Where a notice goes (R184, R197) -/

theorem composeNotice_unowed {s : State} (h : noticeOwed s.reports = false) : composeNotice s = s := by
  unfold composeNotice
  exact if_neg (by simp [h])

theorem composeNotice_owed {s : State} (h : noticeOwed s.reports = true) :
    composeNotice s = placeNotice (noticeMessage (composedNotice s.reports)) s := by
  unfold composeNotice
  exact if_pos h

theorem placeNotice_unwaiting {m : Message} {s : State} (h : ∀ w ∈ s.link.waiting, isNotice w = false) :
    placeNotice m s = placeMessage m s := by
  unfold placeNotice
  exact if_neg (by simpa using h)

/-- A message placed during a transmission waits behind the others. -/
theorem placeMessage_waits {m : Message} {s : State} (h : s.link.sending.isSome = true) :
    placeMessage m s = { s with link := { s.link with waiting := s.link.waiting ++ [m] } } := by
  obtain ⟨x, hx⟩ := Option.isSome_iff_exists.mp h
  let placed : State := { s with link := { s.link with waiting := s.link.waiting ++ [m] } }
  have sending : placed.link.sending = some x := hx
  show sendNext placed = placed
  unfold sendNext
  rw [sending]

theorem replaceNotice_others {m : Message} {l : List Message} (h : ∀ x ∈ l, isNotice x = false) : replaceNotice m l = l := by
  unfold replaceNotice
  refine (List.map_congr_left fun x hx => ?_).trans (List.map_id l)
  rw [h x hx]
  rfl

/-- The one notice that still waits is withdrawn for the new one. -/
theorem placeNotice_replaces {m w : Message} {before after : List Message} {s : State}
    (h : s.link.waiting = before ++ w :: after) (hw : isNotice w = true) (ho : ∀ x ∈ before ++ after, isNotice x = false) :
    placeNotice m s =
      { s with
        link :=
          { s.link with waiting := before ++ m :: after, noticesWithdrawn := bump s.link.noticesWithdrawn } } := by
  have replaced : replaceNotice m s.link.waiting = before ++ m :: after := by
    have hb := replaceNotice_others (m := m) fun x hx => ho x (List.mem_append_left after hx)
    have ha := replaceNotice_others (m := m) fun x hx => ho x (List.mem_append_right before hx)
    unfold replaceNotice at hb ha ⊢
    rw [h, List.map_append, List.map_cons, hb, ha, if_pos hw]
  unfold placeNotice
  rw [if_pos (by rw [h]; simp [hw]), ← replaced]
  rfl

/-- A notice that waits leaves the Report Unit as it is. -/
theorem placeNotice_reports {m : Message} {s : State} (h : s.link.sending.isSome = true) : (placeNotice m s).reports = s.reports := by
  unfold placeNotice
  split
  · rfl
  · rw [placeMessage_waits h]

/-- A condition owed is reported with its truth; one not owed was reported so already (R194, R197). -/
theorem reportedAfter_owed (truth reported : Bool) :
    reportedAfter (truth != reported) ((truth != reported) && truth) reported = truth := by
  cases truth <;> cases reported <;> rfl

/-- The notice composed carries every truth that is not reported yet. -/
theorem takeReported_composed (r : ReportUnit) : takeReported (composedNotice r) r.reported = r.truths := by
  unfold takeReported composedNotice owedConditions within
  simp only [reportedAfter_owed]

/-- The notice composed begins on a free line: what it carries is owed no more (R197). -/
theorem composeNotice_begins {s : State} (ho : noticeOwed s.reports = true) (hs : s.link.sending = none) (hw : s.link.waiting = []) :
    let n := composedNotice s.reports
    composeNotice s =
      { s with
        reports := { s.reports with added := 0, reported := s.reports.truths, events := [] }
        link :=
          { s.link with
            sending := some (noticeMessage n), lineOut := some (framed 0xC0 0 (noticeBytes n)),
            noticesSent := bump s.link.noticesSent } } := by
  intro n
  have unwaiting : ∀ w ∈ s.link.waiting, isNotice w = false := by simp [hw]
  rw [composeNotice_owed ho, placeNotice_unwaiting unwaiting, placeMessage_begins _ s hs hw]
  have added : s.reports.added - n.count = 0 := Nat.sub_self _
  have events : s.reports.events.drop n.events.length = [] := List.drop_length
  have reported : takeReported n s.reports.reported = s.reports.truths := takeReported_composed s.reports
  rw [← added, ← events, ← reported]
  rfl

/-! ### What telling leaves alone -/

/-- The records a boundary's other receivers write, given. -/
def aside (v : Vector SlotRecord 32) (c : Scheduler) (g : Ingest) (s : State) : State :=
  { s with slots := v, sched := c, ingest := g }

theorem beginMessage_aside (v : Vector SlotRecord 32) (c : Scheduler) (g : Ingest) (m : Message) (s : State) :
    beginMessage m (aside v c g s) = aside v c g (beginMessage m s) := by
  unfold beginMessage
  dsimp only
  split <;> rfl

theorem sendNext_aside (v : Vector SlotRecord 32) (c : Scheduler) (g : Ingest) (s : State) :
    sendNext (aside v c g s) = aside v c g (sendNext s) := by
  have link : (aside v c g s).link = s.link := rfl
  unfold sendNext
  rw [link]
  cases s.link.sending with
  | some _ => rfl
  | none =>
    cases s.link.waiting with
    | nil => rfl
    | cons m rest => exact beginMessage_aside v c g m (setLink (fun k => { k with waiting := rest }) s)

/-- Neither what is told nor where it goes depends on the slots, the Scheduler or ingest. -/
theorem composeNotice_aside (v : Vector SlotRecord 32) (c : Scheduler) (g : Ingest) (s : State) :
    composeNotice (aside v c g s) = aside v c g (composeNotice s) := by
  have placed (m : Message) : placeNotice m (aside v c g s) = aside v c g (placeNotice m s) := by
    unfold placeNotice
    show (if s.link.waiting.any isNotice = true then _ else _) = _
    split
    · rfl
    · exact sendNext_aside v c g (setLink (fun k => { k with waiting := k.waiting ++ [m] }) s)
  unfold composeNotice
  show (if noticeOwed s.reports = true then _ else _) = _
  split
  · exact placed _
  · rfl

/-! ### A boundary that takes no drain, no close and no lock -/

/-- Nothing is left to take or to tell, and there is nothing to serve. -/
structure Quiet (s : State) : Prop where
  title : titleSettled s
  told : conditionsTold s
  idle : repairIdle s

/-- What each receiver does to a quiet state that keeps its lock. -/
def quietly : BoundaryBlock → State → State
  | .window, s => ageSlots s
  | .scheduler, s => { s with sched := reloaded s.sched }
  | .ingest, s => { s with ingest := watched s.ingest }
  | .report, s => composeNotice s

/-- The boundary loses no lock (R45). -/
abbrev keepsLock (g : Ingest) : Prop := g.state = .locked → g.watch < 2

theorem watched_state {g : Ingest} (h : keepsLock g) : (watched g).state = g.state := by
  unfold watched
  split
  · next hl => rw [if_pos (by have := h hl; omega)]
  · rfl

theorem watchBoundary_locked {s : State} (h : keepsLock s.ingest) : watchBoundary s = { s with ingest := watched s.ingest } := by
  unfold watchBoundary watched
  split
  · next hl =>
    have low := h hl
    rw [if_pos (by omega)]
    unfold checkLock
    exact if_neg fun lost => absurd lost.2 (by dsimp only; omega)
  · rfl

theorem ageSlots_unwritten (s : State) : UnwrittenKept s (ageSlots s) := fun j => by
  unfold holdsUnwritten
  rw [ageSlots_slots, agedRecord_state]

theorem composeNotice_keeps (s : State) : (composeNotice s).sched = s.sched ∧ (composeNotice s).ingest = s.ingest ∧
    (composeNotice s).repair = s.repair := by
  have rest := (composeNotice_lineOnly s).rest
  have sched := congrArg State.sched rest
  have ingest := congrArg State.ingest rest
  have repair := congrArg State.repair rest
  exact ⟨sched, ingest, repair⟩

theorem quietly_quiet {s : State} (block : BoundaryBlock) (h : Quiet s) (hk : block = .ingest → keepsLock s.ingest) :
    Quiet (quietly block s) := by
  obtain ⟨title, told, idle⟩ := h
  cases block with
  | window =>
    have free (j : Fin 32) : ((ageSlots s).slots[j].state == .free) = (s.slots[j].state == .free) := by
      rw [ageSlots_slots, agedRecord_state]
    exact ⟨titleSettled_of_same (s := s) rfl rfl rfl (ageSlots_unwritten s) rfl rfl rfl title,
      conditionsTold_of_same (s := s) free rfl rfl rfl rfl rfl rfl told, idle⟩
  | scheduler => exact ⟨title, told, idle⟩
  | ingest =>
    have state := watched_state (hk rfl)
    exact ⟨titleSettled_of_same (s := s) rfl state rfl (.of_slots rfl) rfl rfl rfl title,
      conditionsTold_of_same (s := s) (fun _ => rfl) rfl rfl rfl state rfl rfl told, idle⟩
  | report =>
    have kept := (composeNotice_lineOnly s).offLine
    obtain ⟨sched, -, repair⟩ := composeNotice_keeps s
    refine ⟨kept.title title, kept.told told, ?_⟩
    show (composeNotice s).sched.jobs = [] ∧ (composeNotice s).repair.op = none
    rw [sched, repair]
    exact idle

theorem takeBoundary_quietly {s : State} (block : BoundaryBlock) (h : Quiet s) (hk : block = .ingest → keepsLock s.ingest) :
    takeBoundary block s = quietly block s := by
  cases block with
  | window => rfl
  | scheduler => exact decisionPoint_idle { s with sched := { s.sched with counter := s.sched.bandBudget, started := 0 } } h.idle
  | ingest =>
    have after : Quiet { s with ingest := watched s.ingest } := quietly_quiet .ingest h hk
    show settle (watchBoundary s) = _
    rw [watchBoundary_locked (hk rfl)]
    exact settle_of_told _ after.title after.told
  | report =>
    show composeNotice (tellConditions s) = composeNotice s
    rw [tellConditions_of_told s h.told]

theorem quietly_ingest {s : State} {block : BoundaryBlock} (h : block ≠ .ingest) : (quietly block s).ingest = s.ingest := by
  cases block with
  | window | scheduler => rfl
  | ingest => exact absurd rfl h
  | report =>
    obtain ⟨-, ingest, -⟩ := composeNotice_keeps s
    exact ingest

/-- The receivers' acts one after the other, each at most once. -/
theorem foldl_quietly {l : List BoundaryBlock} (hl : l.Nodup) {s : State} (h : Quiet s) (hk : .ingest ∈ l → keepsLock s.ingest) :
    l.foldl (fun t block => takeBoundary block t) s = l.foldl (fun t block => quietly block t) s ∧
      Quiet (l.foldl (fun t block => quietly block t) s) := by
  induction l generalizing s with
  | nil => exact ⟨rfl, h⟩
  | cons block rest ih =>
    obtain ⟨hb, hrest⟩ := List.nodup_cons.mp hl
    have first : block = .ingest → keepsLock s.ingest := fun e => hk (by simp [e])
    rw [List.foldl_cons, List.foldl_cons, takeBoundary_quietly block h first]
    refine ih hrest (quietly_quiet block h first) fun hm => ?_
    rw [quietly_ingest fun e => hb (by rw [e]; exact hm)]
    exact hk (List.mem_cons_of_mem block hm)

/-- The Report Unit's act reads nothing another receiver writes. -/
theorem quietly_report_comm (x : BoundaryBlock) (s : State) : quietly x (composeNotice s) = composeNotice (quietly x s) := by
  have own : composeNotice s = aside s.slots s.sched s.ingest (composeNotice s) := composeNotice_aside s.slots s.sched s.ingest s
  cases x with
  | window => exact (congrArg (quietly .window) own).trans (composeNotice_aside (s.slots.map agedRecord) s.sched s.ingest s).symm
  | scheduler => exact (congrArg (quietly .scheduler) own).trans (composeNotice_aside s.slots (reloaded s.sched) s.ingest s).symm
  | ingest => exact (congrArg (quietly .ingest) own).trans (composeNotice_aside s.slots s.sched (watched s.ingest) s).symm
  | report => rfl

theorem quietly_comm (x y : BoundaryBlock) (s : State) : quietly y (quietly x s) = quietly x (quietly y s) := by
  match x, y with
  | .report, y => exact quietly_report_comm y s
  | x, .report => exact (quietly_report_comm x s).symm
  | .window, .window | .scheduler, .scheduler | .ingest, .ingest | .window, .scheduler | .scheduler, .window | .window, .ingest
  | .ingest, .window | .scheduler, .ingest | .ingest, .scheduler => rfl

/-- In any order of its receivers a boundary of a quiet state is told from what they make of the state. -/
theorem fieldBoundary_quiet (order : BoundaryOrder) {s : State} (h : Quiet s) (hk : keepsLock s.ingest) :
    fieldBoundary order s = composeNotice (boundaryTaken s) := by
  have perm := blockOrder_perm order
  obtain ⟨taken, quiet⟩ := foldl_quietly (perm.nodup_iff.mpr (by decide)) h fun _ => hk
  have ordered : (blockOrder order).foldl (fun t block => quietly block t) s = composeNotice (boundaryTaken s) := by
    rw [perm.foldl_eq' (fun x _ y _ z => quietly_comm x y z)]
    rfl
  unfold fieldBoundary
  rw [taken, settle_of_told _ quiet.title quiet.told, ordered]

/-! ### The boundaries of the timebase (R177, R178) -/

/-- Making a boundary tells the timebase's new mode and nothing else. -/
theorem markBoundary_quiet (mode : TimebaseMode) (time : Nat) {s : State} (h : Quiet s) : Quiet (markBoundary mode time s) := by
  obtain ⟨title, told, idle⟩ := h
  refine ⟨titleSettled_of_same rfl rfl rfl (.of_slots rfl) rfl rfl rfl title, ?_, idle⟩
  show { s.reports.truths with referenceFreeRun := mode == TimebaseMode.freeRun } =
    { conditionsNow s with referenceFreeRun := mode == TimebaseMode.freeRun }
  rw [told]

/-- Whichever command makes it, a boundary of a quiet state is told from one with that Report Unit, but for REFERENCE FREE RUN, and that
link. -/
theorem exec_boundary {s : State} {order : BoundaryOrder} {c : Instr} {free : Bool} (h : Quiet s) (hk : keepsLock s.ingest)
    (hc : (free = false ∧ ∃ time, c = .referencePulse time order ∧
        (s.timebase.boundaryMade = false ∨ s.timebase.period ≤ 2 * (time - s.timebase.last))) ∨
      (free = true ∧ c = .enterFreeRun order ∧ s.timebase.mode = .synced) ∨
      (free = true ∧ c = .generatedBoundary order ∧ s.timebase.mode = .freeRun)) :
    ∃ u, exec c s = .next (composeNotice u) ∧ u.link = s.link ∧
      u.reports = { s.reports with truths := { s.reports.truths with referenceFreeRun := free } } := by
  have made (mode : TimebaseMode) (time : Nat) :
      fieldBoundary order (markBoundary mode time s) = composeNotice (boundaryTaken (markBoundary mode time s)) :=
    fieldBoundary_quiet order (markBoundary_quiet mode time h) hk
  rcases hc with ⟨rfl, time, rfl, ha⟩ | ⟨rfl, rfl, hm⟩ | ⟨rfl, rfl, hm⟩
  · have accepted : pulseAccepted s.timebase time = true := by
      unfold pulseAccepted
      rcases ha with ha | ha <;> simp [ha]
    refine ⟨boundaryTaken (markBoundary .synced time s), ?_, rfl, rfl⟩
    show Host.Outcome.next (takePulse time order s) = _
    unfold takePulse
    rw [if_pos accepted, made]
  · refine ⟨boundaryTaken (markBoundary .freeRun (s.timebase.last + 3 * s.timebase.period) s), ?_, rfl, rfl⟩
    show Host.Outcome.next (freeRunEntry order s) = _
    unfold freeRunEntry
    rw [hm]
    dsimp only
    rw [made]
  · refine ⟨boundaryTaken (markBoundary .freeRun (s.timebase.last + s.timebase.period) s), ?_, rfl, rfl⟩
    show Host.Outcome.next (generatorTick order s) = _
    unfold generatorTick
    rw [hm]
    dsimp only
    rw [made]

/-- Settles O22: the boundary comes to one telling, which the line's state sends on, holds back or puts in an older one's place. -/
theorem boundaryBeginsNotice : Obligations.BoundaryBeginsNotice := by
  intro s order c free title told idle hk hc reports
  obtain ⟨u, run, link, hr⟩ := exec_boundary ⟨title, told, idle⟩ hk hc
  have same : u.reports = reports := hr
  rw [run, ← same, ← link]
  refine ⟨fun unowed => ⟨u, by rw [composeNotice_unowed unowed], rfl, rfl⟩,
    fun owed => ⟨composeNotice u, composedNotice u.reports, rfl, ⟨rfl, rfl, rfl, rfl, rfl⟩, ?_⟩⟩
  intro m
  refine ⟨fun unsent empty => ?_, fun busy => ?_⟩
  · rw [composeNotice_begins owed unsent empty]
    exact ⟨rfl, rfl⟩
  · rw [composeNotice_owed owed]
    refine ⟨placeNotice_reports busy, fun unwaiting => ?_, fun before after w split notice others => ?_⟩
    · rw [placeNotice_unwaiting unwaiting, placeMessage_waits busy]
      rfl
    · rw [placeNotice_replaces split notice others]
      rfl

end Sys2Proof.Machine
end

