-- ==== Sys2Proof/Proofs/Receiver.lean ====
section
/-! The receiver of the control line: bytes gathered to a whole message, which is received as framed or discarded with its tally (R180 to
R183). -/

namespace Sys2Proof.Machine

/-! ### A byte received (R182) -/

/-- The receiver inside a message, with the bytes gathered after the start marker. -/
def inside (gathered : List Byte) (s : State) : State := setLink (fun k => { k with receiver := some gathered }) s

/-- A message that ends leaves nothing of the receiver's way through it. -/
theorem hunting_inside {s : State} (h : s.link.receiver = none) (gathered : List Byte) : setLink hunting (inside gathered s) = s := by
  show { s with link := { s.link with receiver := none } } = s
  rw [← h]

theorem receiveByte_inside (gathered : List Byte) (b : Byte) (s : State) :
    receiveByte b (inside gathered s) = gatherByte gathered b (inside gathered s) := rfl

theorem receiveByte_startMarker {s : State} (h : s.link.receiver = none) : receiveByte 0xA5 s = inside [] s := by
  unfold receiveByte
  rw [h]
  rfl

theorem receiveByte_noMarker {s : State} {b : Byte} (h : s.link.receiver = none) (hb : b ≠ 0xA5) : receiveByte b s = s := by
  unfold receiveByte
  rw [h]
  exact if_neg hb

theorem lengthBad_iff (b : Byte) : lengthBad b = true ↔ b.toNat ≤ 1 ∨ 253 ≤ b.toNat := by
  unfold lengthBad
  rw [Bool.or_eq_true, decide_eq_true_eq, decide_eq_true_eq]
  omega

theorem receiveByte_badLength {s : State} {b : Byte} (h : s.link.receiver = none) (hb : b.toNat ≤ 1 ∨ 253 ≤ b.toNat) :
    receiveByte b (inside [] s) = { s with link := { s.link with lengthDiscards := bump s.link.lengthDiscards } } := by
  have discarded :
      receiveByte b (inside [] s) =
        setLink (fun k => { k with lengthDiscards := bump k.lengthDiscards }) (setLink hunting (inside [] s)) :=
    if_pos ((lengthBad_iff b).mpr hb)
  rw [discarded, hunting_inside h]
  rfl

theorem receiveByte_length {b : Byte} (s : State) (hb : 2 ≤ b.toNat ∧ b.toNat ≤ 252) :
    receiveByte b (inside [] s) = inside [b] s :=
  if_neg (mt (lengthBad_iff b).mp (by omega))

/-- A byte that leaves the message short of its length is gathered. -/
theorem receiveByte_gathers {size : Byte} {gathered : List Byte} (b : Byte) (s : State) (short : gathered.length + 2 < size.toNat + 3) :
    receiveByte b (inside (size :: gathered) s) = inside (size :: gathered ++ [b]) s := by
  rw [receiveByte_inside]
  exact if_neg (by simp only [List.length_append, List.length_cons, List.length_nil]; omega)

/-- The byte that fills the message's length ends it. -/
theorem receiveByte_ends {size : Byte} {gathered : List Byte} (b : Byte) {s : State} (h : s.link.receiver = none)
    (full : gathered.length + 2 = size.toNat + 3) :
    receiveByte b (inside (size :: gathered) s) = takeWhole (size :: gathered ++ [b]) (size.toNat + 1) s := by
  have ended :
      receiveByte b (inside (size :: gathered) s) =
        takeWhole (size :: gathered ++ [b]) (size.toNat + 1) (setLink hunting (inside (size :: gathered) s)) :=
    if_pos (by simp only [List.length_append, List.length_cons, List.length_nil]; omega)
  rw [ended, hunting_inside h]

/-! ### A whole message received (R180 to R183) -/

theorem receiveBytes_cons (b : Byte) (bs : List Byte) (s : State) : receiveBytes (b :: bs) s = receiveBytes bs (receiveByte b s) :=
  rfl

/-- The bytes of a message after its length byte are gathered up to the last, which ends it. -/
theorem receiveBytes_body {size : Byte} {s : State} (h : s.link.receiver = none) {gathered body : List Byte} (nonempty : body ≠ [])
    (full : gathered.length + body.length = size.toNat + 2) :
    receiveBytes body (inside (size :: gathered) s) = takeWhole (size :: gathered ++ body) (size.toNat + 1) s := by
  induction body generalizing gathered with
  | nil => exact absurd rfl nonempty
  | cons b rest ih =>
    rw [List.length_cons] at full
    rw [receiveBytes_cons]
    cases rest with
    | nil =>
      rw [List.length_nil] at full
      exact receiveByte_ends b h (by omega)
    | cons c more =>
      rw [List.length_cons] at full
      rw [receiveByte_gathers b s (by omega), List.cons_append]
      rw [ih (List.cons_ne_nil c more) (by simp only [List.length_append, List.length_cons, List.length_nil]; omega)]
      simp

/-- A hunting receiver that is given a whole message takes it as gathered. -/
theorem receiveBytes_whole {size : Byte} {body : List Byte} {s : State} (h : s.link.receiver = none)
    (hsize : 2 ≤ size.toNat ∧ size.toNat ≤ 252) (full : body.length = size.toNat + 2) :
    receiveBytes (0xA5 :: size :: body) s = takeWhole (size :: body) (size.toNat + 1) s := by
  have bytes : body ≠ [] := List.ne_nil_of_length_pos (by omega)
  rw [receiveBytes_cons, receiveBytes_cons, receiveByte_startMarker h, receiveByte_length s hsize]
  exact receiveBytes_body h bytes (by simpa using full)

theorem coveredBytes_length (kind tag : Byte) (payload : List Byte) : (coveredBytes kind tag payload).length = payload.length + 3 :=
  rfl

/-- A whole message is taken if its check is the computed one, and discarded if not. -/
theorem takeWhole_checked (kind tag : Byte) (payload check : List Byte) (s : State) :
    takeWhole (coveredBytes kind tag payload ++ check) (payload.length + 3) s =
      if check = beBytes 2 (checkOf (coveredBytes kind tag payload)).toNat then takeMessage kind tag payload s
      else { s with link := { s.link with checkDiscards := bump s.link.checkDiscards } } := by
  have size : (coveredBytes kind tag payload).length = payload.length + 3 := coveredBytes_length kind tag payload
  unfold takeWhole
  rw [List.take_left' size, List.drop_left' size]
  rfl

/-- The bytes of a message, received by a hunting receiver, are that message if the check is the computed one. -/
theorem receiveBytes_message {s : State} (h : s.link.receiver = none) (kind tag : Byte) {payload check : List Byte}
    (hp : payload.length ≤ 250) (hc : check.length = 2) :
    receiveBytes (0xA5 :: (coveredBytes kind tag payload ++ check)) s =
      if check = beBytes 2 (checkOf (coveredBytes kind tag payload)).toNat then takeMessage kind tag payload s
      else { s with link := { s.link with checkDiscards := bump s.link.checkDiscards } } := by
  have size : (byteOf (payload.length + 2)).toNat = payload.length + 2 := byteOf_toNat (by omega)
  have whole :
      receiveBytes (0xA5 :: (coveredBytes kind tag payload ++ check)) s =
        takeWhole (coveredBytes kind tag payload ++ check) ((byteOf (payload.length + 2)).toNat + 1) s :=
    receiveBytes_whole (body := kind :: tag :: payload ++ check) h (by omega)
      (by simp only [List.length_append, List.length_cons]; omega)
  rw [whole, size]
  exact takeWhole_checked kind tag payload check s

/-- A framed message is received as that message. -/
theorem exec_receivedMessage_framed {s : State} (h : s.link.receiver = none) (kind tag : Byte) {payload : List Byte}
    (hp : payload.length ≤ 250) :
    exec (.receivedMessage (framed kind tag payload)) s = .next (takeMessage kind tag payload s) :=
  congrArg Host.Outcome.next ((receiveBytes_message h kind tag hp (beBytes_length 2 _)).trans (if_pos rfl))

theorem takeMessage_request {kind : Byte} (tag : Byte) (payload : List Byte) (s : State) (hk : kind.toNat < 128) :
    takeMessage kind tag payload s = takeRequest { kind := kind, tag := tag, payload := payload } s :=
  if_pos hk

theorem takeMessage_foreign {kind : Byte} (tag : Byte) (payload : List Byte) (s : State) (hk : 128 ≤ kind.toNat) :
    takeMessage kind tag payload s = { s with link := { s.link with kindDiscards := bump s.link.kindDiscards } } :=
  if_neg (Nat.not_lt.mpr hk)

/-- Settles O43: the message is received as framed, and its kind decides whether it is a request. -/
theorem framedMessageIsReceived : Obligations.FramedMessageIsReceived := by
  intro s kind tag payload h hp
  rw [exec_receivedMessage_framed h kind tag hp]
  refine ⟨fun request => ?_, fun foreign => ?_⟩
  · rw [takeMessage_request tag payload s request]
  · rw [takeMessage_foreign tag payload s foreign]

/-! ### The gap timer (R182) -/

theorem gapExpires_hunting {s : State} (h : s.link.receiver = none) : gapExpires s = s := by
  unfold gapExpires
  rw [h]

theorem gapExpires_inside {s : State} {gathered : List Byte} (h : s.link.receiver = some gathered) :
    gapExpires s = { s with link := { s.link with receiver := none, gapDiscards := bump s.link.gapDiscards } } := by
  unfold gapExpires
  rw [h]
  rfl

/-- Settles O44: what each byte or gap that discards does to the receiver, hunting or inside a message. -/
theorem receiverDiscards : Obligations.ReceiverDiscards := by
  refine fun s => ⟨fun h => ⟨fun b hb => ?_, fun b hb => ?_, fun kind tag c1 c2 payload hp hc => ?_, ?_⟩, fun gathered h => ?_⟩
  · exact congrArg Host.Outcome.next (receiveByte_noMarker h hb)
  · show Host.Outcome.next (receiveByte b (receiveByte 0xA5 s)) = _
    rw [receiveByte_startMarker h, receiveByte_badLength h hb]
  · exact congrArg Host.Outcome.next ((receiveBytes_message h kind tag hp rfl).trans (if_neg hc))
  · exact congrArg Host.Outcome.next (gapExpires_hunting h)
  · exact congrArg Host.Outcome.next (gapExpires_inside h)

end Sys2Proof.Machine
end

