-- ==== Sys2Proof/Proofs/Transmitter.lean ====
section
/-! Requests that wait for a reply, and what follows a message that has been sent (R183, R184, R197). -/

namespace Sys2Proof.Machine

/-! ### A request behind an outstanding reply (R183, R184) -/

theorem serverFree_replying {s : State} {m : Message} (hs : s.link.sending = some m) (hm : isReply m = true) :
    serverFree s = false := by
  unfold serverFree
  rw [hs]
  simp [hm]

theorem serveNext_busy {s : State} (h : serverFree s = false) : serveNext s = s := by
  unfold serveNext
  split
  · rfl
  · rw [h]
    rfl

/-- A request that finds room in the queue while serving is not free stays at the tail. -/
theorem takeRequest_queues {s : State} (r : Request) (hb : serverFree s = false) (hq : s.link.queue.length < 4) :
    takeRequest r s = { s with link := { s.link with queue := s.link.queue ++ [r] } } := by
  unfold takeRequest
  rw [if_pos hq]
  exact serveNext_busy hb

theorem takeRequest_refused {s : State} (r : Request) (hq : 4 ≤ s.link.queue.length) : takeRequest r s = refuseFullQueue r s :=
  if_neg (Nat.not_lt.mpr hq)

/-- A REFUSED FULL reply placed during a transmission waits behind the others. -/
theorem refuseFullQueue_waits {s : State} (r : Request) (hs : s.link.sending.isSome = true) (hw : refusalsWaiting s < 4) :
    refuseFullQueue r s =
      { s with
        link :=
          { s.link with refusedFull := bump s.link.refusedFull, waiting := s.link.waiting ++ [refusalMessage r] } } := by
  unfold refuseFullQueue
  rw [if_pos hw]
  exact placeMessage_waits hs

/-- With 4 REFUSED FULL replies waiting the request is only tallied. -/
theorem refuseFullQueue_tallies {s : State} (r : Request) (hw : 4 ≤ refusalsWaiting s) :
    refuseFullQueue r s = { s with link := { s.link with refusedFull := bump s.link.refusedFull } } :=
  if_neg (Nat.not_lt.mpr hw)

/-- An UNASSIGNED_REQUEST of a kind below 128 arrives at the receive queue. -/
theorem exec_unassignedRequest {kind : Byte} (tag : Byte) (payload : List Byte) (s : State) (hk : kind.toNat < 128) :
    exec (.unassignedRequest kind tag payload) s = .next (takeRequest { kind := kind, tag := tag, payload := payload } s) :=
  congrArg Host.Outcome.next (takeMessage_request tag payload s hk)

/-- Settles O45: the request queues or is refused by the queue's length, and the refusal is sent by the refusals waiting. -/
theorem requestQueuesOrIsRefused : Obligations.RequestQueuesOrIsRefused := by
  intro s kind tag payload m hk hs hm
  have sent : s.link.sending.isSome = true := by rw [hs]; rfl
  rw [exec_unassignedRequest tag payload s hk]
  refine ⟨fun room => ?_, fun full => ?_⟩
  · rw [takeRequest_queues _ (serverFree_replying hs hm) room]
  · rw [takeRequest_refused _ full]
    refine ⟨fun few => ?_, fun four => ?_⟩
    · rw [refuseFullQueue_waits _ sent few]
      rfl
    · rw [refuseFullQueue_tallies _ four]

/-! ### A message sent (R184) -/

theorem endTransmission_unsent {s : State} (hs : s.link.sending = none) : endTransmission s = s := by
  unfold endTransmission
  rw [hs]

/-- The end of any message but the reply to RESET makes way for the next. -/
theorem endTransmission_next {s : State} {m : Message} (hs : s.link.sending = some m) (hm : m.cls ≠ .resetReply) :
    endTransmission s = nextMessage s := by
  unfold endTransmission
  rw [hs]
  dsimp only
  cases hc : m.cls with
  | resetReply => exact absurd hc hm
  | served | refusedFull | notice _ => rfl

theorem sendNext_empty {s : State} (hw : s.link.waiting = []) : sendNext s = s := by
  unfold sendNext
  rw [hw]
  cases s.link.sending <;> rfl

theorem sendNext_oldest {s : State} {m : Message} {rest : List Message} (hs : s.link.sending = none)
    (hw : s.link.waiting = m :: rest) : sendNext s = beginMessage m (setLink (fun k => { k with waiting := rest }) s) := by
  unfold sendNext
  rw [hs, hw]

/-- A message that is no notice begins as the message in transmission, its bytes on the line. -/
theorem beginMessage_plain {m : Message} (h : isNotice m = false) (s : State) :
    beginMessage m s = sending m.cls m.kind m.tag m.payload s := by
  obtain ⟨cls, kind, tag, payload⟩ := m
  cases cls with
  | notice n => cases h
  | served | resetReply | refusedFull => rfl

/-- A notice that begins takes its part of the Report Unit with it (R197). -/
theorem beginMessage_notice {m : Message} {n : Notice} (h : m.cls = .notice n) (s : State) :
    beginMessage m s =
      beginNotice n { s with link := { s.link with sending := some m, lineOut := some (framed m.kind m.tag m.payload) } } := by
  unfold beginMessage
  rw [h]
  rfl

/-! ### Serving once a message has been sent (R183) -/

theorem serveNext_empty {s : State} (hq : s.link.queue = []) : serveNext s = s := by
  unfold serveNext
  rw [hq]

theorem isNotice_replyMessage (r : Request) (reply : List Byte) : isNotice (replyMessage r reply) = false :=
  (replyMessage_class r reply).2

/-- On a line with no message the request at the head of the queue is served and its reply begins. -/
theorem serveNext_serves {s : State} {r : Request} {rest : List Request} (hs : s.link.sending = none) (hw : s.link.waiting = [])
    (hq : s.link.queue = r :: rest) :
    let served := serveRequest r { s with link := { s.link with queue := rest } }
    serveNext s = sending (replyClass r served.2) (byteOf (r.kind.toNat + 128)) r.tag served.2 served.1 := by
  intro served
  have free : serverFree s = true := by simp [serverFree, hs, hw]
  have kept : LinkKept { s with link := { s.link with queue := rest } } served.1 := serveRequest_link r _
  have head : serveNext s = placeMessage (replyMessage r served.2) served.1 := by
    unfold serveNext
    rw [hq]
    exact if_pos free
  rw [head, placeMessage_begins _ _ (kept.sending.trans hs) (kept.waiting.trans hw),
    beginMessage_plain (isNotice_replyMessage r served.2)]
  rfl

/-- Settles O46: the message sent leaves the line, then the oldest waiting begins or the next request is served. -/
theorem transmissionGoesOn : Obligations.TransmissionGoesOn := by
  refine fun s => ⟨fun unsent => congrArg Host.Outcome.next (endTransmission_unsent unsent), fun m hs hm => ?_⟩
  let left : State := { s with link := { s.link with sending := none } }
  have ended : exec .transmissionEnd s = .next (serveNext (sendNext left)) :=
    congrArg Host.Outcome.next (endTransmission_next hs hm)
  rw [ended]
  refine ⟨fun unqueued empty => ?_, fun w rest unqueued waits => ?_, fun r rest empty queued => ?_⟩
  · rw [sendNext_empty (s := left) empty, serveNext_empty (s := left) unqueued]
  · rw [sendNext_oldest (s := left) rfl waits]
    have begun : (beginMessage w (setLink (fun k => { k with waiting := rest }) left)).link.queue = [] :=
      (beginMessage_link w _).1.trans unqueued
    rw [serveNext_empty begun]
    refine ⟨fun plain => ?_, fun n notice => ?_⟩
    · rw [beginMessage_plain plain]
      rfl
    · rw [beginMessage_notice notice]
      rfl
  · rw [sendNext_empty (s := left) empty, serveNext_serves (s := left) rfl empty queued]

end Sys2Proof.Machine
end

