-- ==== Sys2Proof/Proofs/Refusals.lean ====
section
/-! The replies of refused requests, which change nothing, and the requests answered whatever the state (R185 to R187, R189). -/

namespace Sys2Proof.Machine

/-! ### What a reply says (R186) -/

/-- How a request carried out is answered: accepted, refused with the status alone and nothing changed, or, for START, refused with the
failing slot and nothing changed. -/
inductive Answered (q : RequestName) (s : State) : Served → Prop
  | accepted (t : State) (status : Byte) (rest : List Byte) : status.toNat < 16 → Answered q s (t, status :: rest)
  | refused (status : Byte) : Answered q s (s, [status])
  | failingSlot (slot : Byte) : q = .start → Answered q s (s, [17, slot])

/-- A reply of a refusal leaves the state, and carries more than its status for a failing slot alone. -/
theorem Answered.refusal {q : RequestName} {s : State} {served : Served} (h : Answered q s served) {b : Byte} {rest : List Byte}
    (hr : served.2 = b :: rest) (hb : 16 ≤ b.toNat) : served.1 = s ∧ (rest ≠ [] → q = .start ∧ b = 17) := by
  cases h with
  | accepted t status more low =>
    obtain ⟨rfl, rfl⟩ := List.cons.inj hr
    exact absurd hb (Nat.not_le.mpr low)
  | refused status =>
    obtain ⟨rfl, rfl⟩ := List.cons.inj hr
    exact ⟨rfl, fun more => absurd rfl more⟩
  | failingSlot slot start =>
    obtain ⟨rfl, rfl⟩ := List.cons.inj hr
    exact ⟨rfl, fun _ => ⟨start, rfl⟩⟩

/-- A status of acceptance: OK, OK ADJUSTED or OK REPLACED (R186). -/
def ReplyStatus.accepts : ReplyStatus → Prop
  | .ok | .okAdjusted | .okReplaced => True
  | .refusedState | .refusedValue | .refusedUnknown | .refusedLength | .refusedFull => False

theorem statusCode_accepts {status : ReplyStatus} (h : status.accepts) : (statusCode status).toNat < 16 := by
  cases status with
  | ok | okAdjusted | okReplaced => decide
  | refusedState | refusedValue | refusedUnknown | refusedLength | refusedFull => exact h.elim

theorem answer_accepted {q : RequestName} {status : ReplyStatus} (s t : State) (h : status.accepts) : Answered q s (answer status t) :=
  .accepted t _ [] (statusCode_accepts h)

theorem answer_refused {q : RequestName} (status : ReplyStatus) (s : State) : Answered q s (answer status s) := .refused _

/-- One of two statuses of acceptance is one. -/
theorem accepts_ite {c : Prop} [Decidable c] {x y : ReplyStatus} (hx : x.accepts) (hy : y.accepts) :
    (if c then x else y).accepts := by
  split
  · exact hx
  · exact hy

/-- A request that passes its first checks is answered. -/
theorem carryOut_answered (q : RequestName) (payload : List Byte) (s : State) : Answered q s (carryOut q payload s) := by
  cases q with
  | configure =>
    unfold carryOut carryConfigure
    dsimp only
    split
    · exact answer_refused _ s
    · exact answer_accepted s _ (accepts_ite trivial trivial)
  | loadRule =>
    unfold carryOut carryLoadRule
    dsimp only
    split
    · exact answer_refused _ s
    · exact answer_accepted s _ trivial
  | loadEntry =>
    unfold carryOut carryLoadEntry
    dsimp only
    split
    · exact answer_refused _ s
    · exact answer_accepted s _ trivial
  | adjust =>
    unfold carryOut carryAdjust
    dsimp only
    split
    · exact answer_refused _ s
    · exact answer_accepted s _ (accepts_ite trivial trivial)
  | declareSpare =>
    unfold carryOut carryDeclareSpare
    dsimp only
    split
    · exact answer_accepted s _ trivial
    · exact answer_refused _ s
  | openTitle =>
    unfold carryOut carryOpenTitle
    dsimp only
    split
    · exact answer_accepted s _ trivial
    · exact answer_refused _ s
  | start =>
    unfold carryOut carryStart
    dsimp only
    split
    · exact .failingSlot _ rfl
    · split
      · exact answer_accepted s _ trivial
      · exact answer_accepted s _ trivial
  | stop => exact answer_accepted s _ trivial
  | abort => exact .accepted _ _ _ (statusCode_accepts (status := .ok) trivial)
  | cue =>
    unfold carryOut carryCue
    dsimp only
    split
    · exact answer_refused _ s
    · exact answer_accepted s _ (accepts_ite trivial trivial)
  | readReport =>
    unfold carryOut carryReadReport
    dsimp only
    split
    · exact .accepted _ _ _ (statusCode_accepts (status := .ok) trivial)
    · exact .accepted _ _ _ (statusCode_accepts (status := .ok) trivial)
  | ackAlerts =>
    unfold carryOut carryAckAlerts
    dsimp only
    split
    · exact .accepted _ _ _ (statusCode_accepts (status := .ok) trivial)
    · exact answer_refused _ s
  | sectionReset =>
    unfold carryOut carrySectionReset
    dsimp only
    split
    · exact answer_refused _ s
    · exact answer_accepted s _ trivial
  | query =>
    unfold carryOut carryQuery
    dsimp only
    split
    · exact answer_refused _ s
    · split
      · exact .accepted _ _ _ (statusCode_accepts (status := .ok) trivial)
      · exact answer_refused _ s
  | reset => exact answer_accepted s _ trivial

/-! ### The checks of R185 -/

theorem serveRequest_unassigned {r : Request} (s : State) (hk : requestOf r.kind = none) : serveRequest r s = (s, [18]) := by
  unfold serveRequest
  rw [hk]
  rfl

theorem serveRequest_misfit {r : Request} {q : RequestName} (s : State) (hk : requestOf r.kind = some q)
    (hl : lengthFits q r.payload = false) : serveRequest r s = (s, [19]) := by
  unfold serveRequest
  rw [hk]
  simp only [hl]
  rfl

theorem serveRequest_outOfState {r : Request} {q : RequestName} {s : State} (hk : requestOf r.kind = some q)
    (hl : lengthFits q r.payload = true) (ha : acceptedIn q s.title.state = false) : serveRequest r s = (s, [16]) := by
  unfold serveRequest
  rw [hk]
  simp only [hl, ha]
  rfl

/-- A request of an assigned kind is answered as that request is. -/
theorem serveRequest_answered {r : Request} {q : RequestName} (s : State) (hk : requestOf r.kind = some q) :
    Answered q s (serveRequest r s) := by
  unfold serveRequest
  rw [hk]
  dsimp only
  split
  · exact answer_refused _ s
  · split
    · exact answer_refused _ s
    · exact carryOut_answered q r.payload s

/-! ### Kinds and title states (R187) -/

theorem requestOf_start {kind : Byte} (h : requestOf kind = some .start) : kind = 7 := by
  unfold requestOf at h
  split at h
  case h_7 seven => exact BitVec.eq_of_toNat_eq seven
  all_goals cases h

/-- The kinds and title states that R187's table leaves out. -/
def outsideTable (kind : Byte) (t : TitleState) : Prop :=
  (kind = 1 ∧ t ≠ .idle) ∨ ((kind = 2 ∨ kind = 3 ∨ kind = 5 ∨ kind = 6) ∧ t ≠ .idle ∧ t ≠ .armed) ∨ (kind = 7 ∧ t ≠ .armed) ∨
    ((kind = 8 ∨ kind = 10) ∧ t ≠ .running) ∨ (kind = 9 ∧ (t = .idle ∨ t = .armed))

/-- A request is not accepted in a state the table leaves out. -/
theorem acceptedIn_outsideTable {kind : Byte} {q : RequestName} {t : TitleState} (hk : requestOf kind = some q)
    (h : outsideTable kind t) : acceptedIn q t = false := by
  have named {name : RequestName} (e : requestOf kind = some name) : q = name := Option.some.inj (hk.symm.trans e)
  have unopened (idle : t ≠ .idle) (armed : t ≠ .armed) : (t == .idle || t == .armed) = false := by simp [idle, armed]
  rcases h with ⟨rfl, idle⟩ | ⟨rfl | rfl | rfl | rfl, idle, armed⟩ | ⟨rfl, armed⟩ | ⟨rfl | rfl, running⟩ | ⟨rfl, opening⟩
  · rw [named (name := .configure) rfl]
    exact beq_false_of_ne idle
  · rw [named (name := .loadRule) rfl]
    exact unopened idle armed
  · rw [named (name := .loadEntry) rfl]
    exact unopened idle armed
  · rw [named (name := .declareSpare) rfl]
    exact unopened idle armed
  · rw [named (name := .openTitle) rfl]
    exact unopened idle armed
  · rw [named (name := .start) rfl]
    exact beq_false_of_ne armed
  · rw [named (name := .stop) rfl]
    exact beq_false_of_ne running
  · rw [named (name := .cue) rfl]
    exact beq_false_of_ne running
  · rw [named (name := .abort) rfl]
    rcases opening with rfl | rfl <;> rfl

/-- Settles O47: the three checks refuse in their order, and whatever else refuses has changed nothing. -/
theorem refusalsChangeNothing : Obligations.RefusalsChangeNothing := by
  refine fun s r => ⟨fun b rest hr hb => ?_, serveRequest_unassigned s, fun q hk =>
    ⟨serveRequest_misfit s hk, fun hl ht => serveRequest_outOfState hk hl (acceptedIn_outsideTable hk ht)⟩⟩
  cases hk : requestOf r.kind with
  | none =>
    rw [serveRequest_unassigned s hk] at hr ⊢
    obtain ⟨rfl, rfl⟩ := List.cons.inj hr
    exact ⟨rfl, fun more => absurd rfl more⟩
  | some q =>
    obtain ⟨unchanged, alone⟩ := (serveRequest_answered s hk).refusal hr hb
    refine ⟨unchanged, fun more => ?_⟩
    obtain ⟨rfl, value⟩ := alone more
    exact ⟨requestOf_start hk, value⟩

/-! ### RESET and the kinds unassigned (R185, R189) -/

theorem requestOf_unassigned {kind : Byte} (h : kind.toNat = 0 ∨ 16 ≤ kind.toNat) : requestOf kind = none := by
  unfold requestOf
  split
  case h_16 => rfl
  all_goals omega

theorem kindUnassigned_iff (kind : Byte) :
    kindUnassigned kind = true ↔ kind.toNat = 0 ∨ (16 ≤ kind.toNat ∧ kind.toNat < 128) := by
  simp only [kindUnassigned, Bool.or_eq_true, Bool.and_eq_true, decide_eq_true_eq]
  exact or_congr_left (BitVec.toNat_inj (y := 0)).symm

/-- A RESET that is served changes nothing (R189). -/
theorem serveRequest_reset (tag : Byte) (s : State) : serveRequest { kind := 15, tag := tag, payload := [] } s = (s, [0]) :=
  serveRequest_carried (q := .reset) rfl rfl rfl

/-- Settles O60: each is served at once on the line at rest. -/
theorem resetAndUnassignedAnswered : Obligations.ResetAndUnassignedAnswered := by
  refine fun s tag hrest => ⟨?_, fun kind payload hk => ?_⟩
  · show Host.Outcome.next (takeRequest { kind := 15, tag := tag, payload := [] } s) = _
    rw [takeRequest_at_rest _ s hrest, serveRequest_reset]
    rfl
  · have unassigned := (kindUnassigned_iff kind).mp hk
    have unknown : requestOf kind = none := requestOf_unassigned (by omega)
    rw [exec_unassignedRequest tag payload s (by omega), takeRequest_at_rest _ s hrest,
      serveRequest_unassigned (r := { kind := kind, tag := tag, payload := payload }) s unknown]
    unfold replyClass
    rw [if_neg (by rw [unknown]; exact fun h => by cases h.1)]

end Sys2Proof.Machine
end

