-- ==== Sys2Proof/Proofs/Queries.lean ====
section
/-! QUERY: the part asked for is gathered and answered with nothing changed, and no part of STATUS, TIERS or WINDOW outgrows a reply
(R188, R201, Table 11-8). -/

namespace Sys2Proof.Machine

/-! ### A QUERY served (R188) -/

/-- A QUERY on a line at rest is answered with the part it asks for, or REFUSED VALUE where there is no such part. -/
theorem takeRequest_query {s : State} {code : Byte} {n : SnapshotName} (tag parameter : Byte) (h : lineAtRest s)
    (hn : snapshotOf code.toNat = some n) :
    takeRequest { kind := 14, tag := tag, payload := [code, parameter] } s =
      replying 0x8E tag (if parameterFits n parameter.toNat then queryReply n parameter.toNat s else [17]) s := by
  have name : byteAt [code, parameter] 0 = code.toNat := byteAt_of_getElem? rfl
  have part : byteAt [code, parameter] 1 = parameter.toNat := byteAt_of_getElem? rfl
  have carried :
      carryOut .query [code, parameter] s =
        (s, if parameterFits n parameter.toNat then queryReply n parameter.toNat s else [17]) := by
    unfold carryOut carryQuery
    rw [name, part, hn]
    dsimp only
    split <;> rfl
  rw [takeRequest_carried (q := .query) h rfl rfl rfl (by decide), carried]
  rfl

/-- The reply payload of a QUERY for a part of a snapshot that has parts. -/
theorem queryReply_part {n : SnapshotName} {parameter : Byte} (s : State) (hn : partNumber n parameter.toNat = parameter.toNat) :
    queryReply n parameter.toNat s = 0 :: parameter :: byteOf (partCount n) :: snapshotPart n parameter.toNat s := by
  unfold queryReply
  rw [hn, byteOf_of_toNat]
  rfl

/-- The reply to a QUERY for a part by its number: the part, or REFUSED VALUE at or above the part count. -/
theorem takeRequest_queryPart {s : State} {code : Byte} {n : SnapshotName} (tag parameter : Byte) (h : lineAtRest s)
    (hn : snapshotOf code.toNat = some n) (numbered : ∀ k, partNumber n k = k)
    (counted : parameterFits n parameter.toNat = decide (parameter.toNat < partCount n)) :
    takeRequest { kind := 14, tag := tag, payload := [code, parameter] } s =
      replying 0x8E tag
        (if parameter.toNat < partCount n then 0 :: parameter :: byteOf (partCount n) :: snapshotPart n parameter.toNat s else [17])
        s := by
  rw [takeRequest_query tag parameter h hn, counted, queryReply_part s (numbered _)]
  simp only [decide_eq_true_eq]

/-! ### The lengths of the parts (R201, Table 11-8) -/

/-- A collection whose entries take `k` bytes each. -/
theorem length_flatMap_of {α : Type} {f : α → List Byte} {k : Nat} (h : ∀ x, (f x).length = k) (l : List α) :
    (l.flatMap f).length = l.length * k := by
  rw [List.length_flatMap, funext h, List.map_const', List.sum_replicate, smul_eq_mul]

/-- Numbers in `k` bytes each. -/
theorem length_numbers (k : Nat) (l : List Nat) : (l.flatMap (beBytes k)).length = l.length * k :=
  length_flatMap_of (beBytes_length k) l

theorem declarationBytes_length (d : Option TitleDeclaration) : (declarationBytes d).length = 14 := by
  cases d <;> rfl

theorem regionBytes_length (r : Option Region) : (regionBytes r).length = 8 := by
  cases r <;> rfl

theorem settingsBytes_length (c : Settings) (q : Scheduler) : (settingsBytes c q).length = 29 := rfl

theorem statusTitle_length (s : State) : (statusTitle s).length = 58 := by
  unfold statusTitle
  simp only [List.length_append, declarationBytes_length, regionBytes_length, settingsBytes_length, beBytes_length, List.length_cons,
    List.length_nil]

theorem assemblyBytes_length (a : Option Assembly) : (assemblyBytes a).length = 8 := by
  cases a <;> rfl

theorem ingestBytes_length (g : Ingest) : (ingestBytes g).length = 33 := by
  unfold ingestBytes presentNumber
  simp only [List.length_append, assemblyBytes_length, beBytes_length, List.length_cons, List.length_nil]

theorem flightBytes_length (w : Option Flight) : (flightBytes w).length = 11 := by
  cases w <;> rfl

theorem feedBytes_length (f : Feed) (lag : Nat) : (feedBytes f lag).length = 66 := by
  unfold feedBytes feedTallyBytes presentNumber
  simp only [List.length_append, flightBytes_length, length_numbers, beBytes_length, List.length_cons, List.length_nil]

theorem statusTransfer_length (s : State) : (statusTransfer s).length = 99 := by
  unfold statusTransfer
  rw [List.length_append, ingestBytes_length, feedBytes_length]

theorem statusLink_length (s : State) : (statusLink s).length = 41 := by
  unfold statusLink
  rw [List.length_append, length_numbers]
  rfl

theorem slotBytes_length (r : SlotRecord) : (slotBytes r).length = 15 := rfl

/-- Eight slots at most, with their count. -/
theorem windowSlots_length (s : State) (part : Nat) : (windowSlots s part).length ≤ 121 := by
  unfold windowSlots
  dsimp only
  rw [List.length_cons, length_flatMap_of slotBytes_length]
  have eight := List.length_take_le 8 (s.slots.toList.drop (8 * part))
  omega

theorem runBytes_length (r : GapRun) : (runBytes r).length = 6 := rfl

theorem windowGaps_length (s : State) : (windowGaps s).length = 3 + s.gaps.length * 6 := by
  unfold windowGaps
  rw [List.length_append, length_flatMap_of runBytes_length]
  rfl

theorem operationBytes_length (op : Option Operation) : (operationBytes op).length = 9 := by
  cases op <;> rfl

theorem tiersState_length (s : State) : (tiersState s).length = 80 := by
  unfold tiersState schedTallyBytes unitCountBytes
  simp only [List.length_append, operationBytes_length, length_numbers, List.length_cons, List.length_nil]

theorem tiersCounts_length (s : State) : (tiersCounts s).length = 104 := by
  unfold tiersCounts
  simp only [List.length_append, length_numbers, Vector.length_toList, List.length_cons, List.length_nil]

theorem jobBytes_length (s : State) (j : Job) : (jobBytes s j).length = 10 := rfl

/-- Twenty-four jobs at most, with their count. -/
theorem tiersJobs_length (s : State) (part : Nat) : (tiersJobs s part).length ≤ 241 := by
  unfold tiersJobs
  dsimp only
  rw [List.length_cons, length_flatMap_of (jobBytes_length s)]
  have jobs := List.length_take_le 24 ((jobList s).drop (24 * (part - 2)))
  omega

theorem status_fits (s : State) (k : Nat) : (snapshotPart .status k s).length ≤ 247 := by
  unfold snapshotPart
  dsimp only
  split
  · rw [statusTitle_length]
    decide
  · split
    · rw [statusTransfer_length]
      decide
    · rw [statusLink_length]
      decide

/-- WINDOW fits as long as the gap list keeps its bound (R24). -/
theorem window_fits {s : State} (hg : s.gaps.length ≤ 16) (k : Nat) : (snapshotPart .window k s).length ≤ 247 := by
  unfold snapshotPart
  dsimp only
  split
  · exact (windowSlots_length s k).trans (by decide)
  · rw [windowGaps_length]
    omega

theorem tiers_fits (s : State) (k : Nat) : (snapshotPart .tiers k s).length ≤ 247 := by
  unfold snapshotPart
  dsimp only
  split
  · rw [tiersState_length]
    decide
  · split
    · rw [tiersCounts_length]
      decide
    · exact (tiersJobs_length s k).trans (by decide)

/-! ### The statement -/

/-- Settles O59: each QUERY is served on the line at rest, WINDOW's as the message it comes in, and each part's bytes are counted. -/
theorem queriesAnswer : Obligations.QueriesAnswer := by
  refine fun s tag parameter hrest => ⟨?_, ?_, ?_, fun hunts => ?_, fun hg n hn k _ => ?_⟩
  · exact congrArg Host.Outcome.next (takeRequest_queryPart (code := 1) tag parameter hrest rfl (fun _ => rfl) rfl)
  · exact congrArg Host.Outcome.next (takeRequest_queryPart (code := 3) tag parameter hrest rfl (fun _ => rfl) rfl)
  · exact congrArg Host.Outcome.next (takeRequest_query (code := 4) tag parameter hrest rfl)
  · rw [exec_receivedMessage_framed hunts 0x0E tag (payload := [2, parameter]) (by decide : 2 ≤ 250),
      takeMessage_request (kind := 0x0E) tag _ s (by decide)]
    exact congrArg Host.Outcome.next (takeRequest_queryPart (code := 2) tag parameter hrest rfl (fun _ => rfl) rfl)
  · simp only [List.mem_cons, List.not_mem_nil, or_false] at hn
    rcases hn with rfl | rfl | rfl
    · exact status_fits s k
    · exact window_fits hg k
    · exact tiers_fits s k

end Sys2Proof.Machine
end

