-- ==== Sys2Proof/Proofs/Commands.lean ====
section
/-! The queue of commands: the step takes its front, and no command's effect touches what waits in it (log entries 15, 16). Below the
control line `Kept` says so, of a request's service `LinkKept`, and of the line's own acts `LineOnly`. -/

namespace Sys2Proof.Machine

/-! ### The step (log entry 15) -/

theorem step_idle {s : State} (h : s.pending = []) : step s = .next s := by
  unfold step
  rw [h]

theorem step_front {c : Instr} {rest : List Instr} {s : State} (h : s.pending = c :: rest) :
    step s = exec c { s with pending := rest } := by
  unfold step
  rw [h]

/-- Settles O1: a queue with a front gives its front to `exec`, an empty one leaves the part idle. -/
theorem stepTakesFront : Obligations.StepTakesFront := ⟨fun _ _ _ => step_front, fun _ => step_idle⟩

/-! ### The control line's commands (R182 to R184, R189) -/

theorem LineOnly.pending {s t : State} (h : LineOnly s t) : t.pending = s.pending := (congrArg State.pending h.rest :)

@[simp] theorem placeMessage_pending (m : Message) (s : State) : (placeMessage m s).pending = s.pending :=
  (placeMessage_lineOnly m s).pending

@[simp] theorem serveAndReply_pending (r : Request) (s : State) : (serveAndReply r s).pending = s.pending :=
  (placeMessage_pending _ _).trans (serveRequest_link r s).pending

@[simp] theorem serveNext_pending (s : State) : (serveNext s).pending = s.pending := by
  unfold serveNext
  split
  · rfl
  · split
    · rw [serveAndReply_pending, setLink_pending]
    · rfl

@[simp] theorem takeRequest_pending (r : Request) (s : State) : (takeRequest r s).pending = s.pending := by
  unfold takeRequest
  split
  · rw [serveNext_pending, setLink_pending]
  · unfold refuseFullQueue
    dsimp only
    split
    · rw [placeMessage_pending, setLink_pending]
    · rw [setLink_pending]

@[simp] theorem takeMessage_pending (kind tag : Byte) (payload : List Byte) (s : State) :
    (takeMessage kind tag payload s).pending = s.pending := by
  unfold takeMessage
  split
  · exact takeRequest_pending _ s
  · exact setLink_pending _ s

@[simp] theorem receiveByte_pending (b : Byte) (s : State) : (receiveByte b s).pending = s.pending :=
  receiveByte_cases (P := fun t => t.pending = s.pending) b s (fun change _ => setLink_pending change s)
    (fun kind tag payload => takeMessage_pending kind tag payload (setLink hunting s))

@[simp] theorem receiveBytes_pending (bytes : List Byte) (s : State) : (receiveBytes bytes s).pending = s.pending := by
  unfold receiveBytes
  induction bytes generalizing s with
  | nil => rfl
  | cons b rest ih => exact (ih _).trans (receiveByte_pending b s)

@[simp] theorem gapExpires_pending (s : State) : (gapExpires s).pending = s.pending := by
  unfold gapExpires
  split
  · rfl
  · exact setLink_pending _ s

@[simp] theorem nextMessage_pending (s : State) : (nextMessage s).pending = s.pending := by
  unfold nextMessage
  rw [serveNext_pending, (sendNext_lineOnly _).pending, setLink_pending]

/-- A device reset leaves the queue of commands, which is no part of the device (log entry 16). -/
@[simp] theorem takeReset_pending (s : State) : (takeReset s).pending = s.pending := rfl

@[simp] theorem takePower_pending (s : State) : (takePower s).pending = s.pending := rfl

@[simp] theorem endTransmission_pending (s : State) : (endTransmission s).pending = s.pending := by
  unfold endTransmission
  split
  · rfl
  · split
    · exact takeReset_pending s
    · exact nextMessage_pending s
    · exact nextMessage_pending s
    · exact nextMessage_pending s

@[simp] theorem resetArrives_pending (s : State) : (resetArrives s).pending = s.pending := by
  unfold resetArrives
  split
  · rfl
  · split
    · exact takeReset_pending s
    · rfl

/-! ### Field boundaries (R177, R178) -/

@[simp] theorem takeBoundary_pending (block : BoundaryBlock) (s : State) : (takeBoundary block s).pending = s.pending := by
  cases block with
  | window => exact ageSlots_pending s
  | scheduler => exact (reloadBudget_kept s).pending
  | ingest => exact ((watchBoundary_kept s).trans (settle_kept _)).pending
  | report => exact (composeNotice_lineOnly _).pending.trans (tellConditions_pending s)

@[simp] theorem fieldBoundary_pending (order : BoundaryOrder) (s : State) : (fieldBoundary order s).pending = s.pending := by
  unfold fieldBoundary
  rw [(settle_kept _).pending]
  induction blockOrder order generalizing s with
  | nil => rfl
  | cons block rest ih => exact (ih _).trans (takeBoundary_pending block s)

@[simp] theorem takePulse_pending (time : Nat) (order : BoundaryOrder) (s : State) :
    (takePulse time order s).pending = s.pending := by
  unfold takePulse
  split
  · rw [fieldBoundary_pending, markBoundary_pending]
  · exact ignorePulse_pending s

@[simp] theorem freeRunEntry_pending (order : BoundaryOrder) (s : State) : (freeRunEntry order s).pending = s.pending := by
  unfold freeRunEntry
  split
  · rw [fieldBoundary_pending, markBoundary_pending]
  · rfl

@[simp] theorem generatorTick_pending (order : BoundaryOrder) (s : State) : (generatorTick order s).pending = s.pending := by
  unfold generatorTick
  split
  · rfl
  · rw [fieldBoundary_pending, markBoundary_pending]

/-! ### Every command -/

/-- A command completes when it answers a next state that leaves the queue of commands waiting as it is. -/
def Completes (s : State) (o : Host.Outcome State Fault Refusal) : Prop := ∃ t, o = .next t ∧ t.pending = s.pending

theorem Completes.next {s t : State} (h : t.pending = s.pending) : Completes s (.next t) := ⟨t, rfl, h⟩

theorem Kept.completes {s t : State} (h : Kept s t) : Completes s (.next t) := .next h.pending

/-- What an event completes or stops is settled with it, and no settling fails. -/
theorem Kept.completes_settled {s t : State} (h : Kept s t) : Completes s (.next (settle t)) := (h.trans (settle_kept t)).completes

theorem takeRequest_completes (r : Request) (s : State) : Completes s (.next (takeRequest r s)) := .next (takeRequest_pending r s)

theorem execWriteEnd_completes (s : State) : Completes s (execWriteEnd s) := by
  unfold execWriteEnd
  split
  · next w _ => exact (endWrite_kept w s).completes_settled
  · exact .next rfl

/-- Settles O2: every command is one of the picture, recorder, Scheduler or title acts that keep what `Kept` names, a field boundary, or
an act of the control line. -/
theorem execCompletes : Obligations.ExecCompletes := by
  intro c s
  change Completes s (exec c s)
  cases c
  case powerOn => exact .next (takePower_pending s)
  case fieldStart parity signals => exact (takeFieldStart_kept parity signals s).completes_settled
  case band index count samples => exact (takeBand_kept index count samples s).completes
  case fieldEnd => exact (takeFieldEnd_kept s).completes_settled
  case referencePulse time order => exact .next (takePulse_pending time order s)
  case enterFreeRun order => exact .next (freeRunEntry_pending order s)
  case generatedBoundary order => exact .next (generatorTick_pending order s)
  case lockLoss => exact (checkLock_kept s).completes_settled
  case writeSlot =>
    exact (((tallyFeed_kept _ s).trans (ageAndTimeOut_kept _)).trans (answerSlot_kept _)).completes_settled
  case verifyTimeout => exact (timeOutOldest_kept s).completes_settled
  case pause => exact ((pauseFeed_kept s).trans (tellRecorder_kept _)).completes
  case resume => exact ((resumeFeed_kept s).trans (tellRecorder_kept _)).completes
  case writeEnd => exact execWriteEnd_completes s
  case outcome tag result => exact (takeOutcome_kept tag.toNat result s).completes_settled
  case measureDone => exact (measureDone_kept s).completes
  case bandDone => exact ((bandDone_kept s).trans (tellConditions_kept _)).completes
  case drainComplete => exact ((checkDrain_kept s).trans (tellConditions_kept _)).completes
  case closeComplete => exact ((checkClose_kept s).trans (tellConditions_kept _)).completes
  case receivedMessage bytes => exact .next (receiveBytes_pending bytes s)
  case gapDiscard => exact .next (gapExpires_pending s)
  case transmissionEnd => exact .next (endTransmission_pending s)
  case resetTakesEffect => exact .next (resetArrives_pending s)
  case unassignedRequest kind tag payload => exact .next (takeMessage_pending kind tag payload s)
  all_goals exact takeRequest_completes _ s

end Sys2Proof.Machine
end
